-- ==== Sys2Proof/Word.lean ====
section
/-! DEFINITION. The number types of FLACDEC: the byte. The spec's `INT` (R7, R10), the type of
samples, residuals, coefficients and sums, is Lean's `Int`: mathematical integers. -/

namespace Sys2Proof

/-- One byte of the source, bit 7 first in stream order (R8, R61). -/
abbrev Byte := BitVec 8

end Sys2Proof
end

