-- ==== Sys2Proof/Config.lean ====
section
/-! DEFINITION. The parameters of FLACDEC that a model takes as an argument (R7, U28): block-type
numbers (D7), `FIXED_COEF` (D20), `Utf8Valid` (D13). A state carries its configuration (`State.cfg`), so
`exec` and `step` take it with the state, and no instruction changes it. The spec's defaults are
`Sys2Proof.config`, in Sys2Proof/Decode.lean; the parameters R7 fixes or derives are the constants
below. -/

namespace Sys2Proof

/-- `STREAMINFO_LEN`: body length of a STREAMINFO block in bytes (R7, R155). -/
def streaminfoLen : Nat := 34

/-- `PIC_TYPE_MAX`: the largest legal picture-type code (R7, R158). -/
def picTypeMax : Nat := 20

/-- `FIXED_COEF` (R7, R243): the coefficients of the Fixed predictor of orders 1 to 4; order 0 has
none. -/
structure FixedCoef where
  order1 : Vector Int 1
  order2 : Vector Int 2
  order3 : Vector Int 3
  order4 : Vector Int 4
deriving DecidableEq, Repr

/-- `Utf8Valid` (R7, D13): R152's table, or any other predicate. R152: "A model may take `Utf8Valid` as a
parameter and assume of it only that it is a total Boolean function of the bytes." -/
inductive Utf8Rule where
  /-- The default, R152's table. -/
  | table
  /-- Some other predicate, `Config.otherUtf8 k`. -/
  | other (k : Nat)
deriving DecidableEq, Repr

/-- The predicates `Utf8Rule.other` stands for: uninterpreted, so that a claim holds whichever a
realisation takes (log entry 21). -/
opaque Config.otherUtf8 : Nat → List Byte → Bool

/-- The parameters of R7 that the spec marks open or asks a model not to hard-code. -/
structure Config where
  /-- `BT_STREAMINFO`: block-type number of STREAMINFO (R7, R114). -/
  btStreaminfo : BitVec 7
  /-- `BT_APPLICATION` (R7, R114). -/
  btApplication : BitVec 7
  /-- `BT_VORBIS_COMMENT` (R7, R114). -/
  btVorbisComment : BitVec 7
  /-- `BT_PICTURE` (R7, R114). -/
  btPicture : BitVec 7
  /-- `FIXED_COEF` (R7, R243). -/
  fixedCoef : FixedCoef
  /-- `Utf8Valid` (R7, R152). -/
  utf8 : Utf8Rule
deriving DecidableEq, Repr

end Sys2Proof
end

