-- ==== Sys2Proof/Syntax.lean ====
section
/-! DEFINITION. The syntax of FLACDEC: its elements, primitives and commands (`Instr`, one
constructor per row of spec/opcode_table.json), the grammar positions at which the stream selects
an element (`Ctx`), and the kinds the code maps of spec/30_encoding.md name. -/

namespace Sys2Proof

/-- Every row of spec/opcode_table.json, in the table's order. An operand of a constructor is either
one the spec gives the rule ("Operands: ...") or the bits of the selecting code that the row leaves
open; every other bit of an element is read from the stream by its meaning. -/
inductive Instr where
  /-- MAGIC: the four marker bytes at byte 0 (R91, R288). -/
  | magic
  /-- MBH: one whole metadata block, header read and dispatched (R92, R151). -/
  | mbh
  /-- MB.STREAMINFO: a block whose header word named type 0 (R155). -/
  | mbStreaminfo (last : Bool) (length : BitVec 24)
  /-- MB.APPLICATION: a block whose header word named type 2 (R160). -/
  | mbApplication (last : Bool) (length : BitVec 24)
  /-- MB.VORBIS_COMMENT: a block whose header word named type 4 (R156). -/
  | mbVorbisComment (last : Bool) (length : BitVec 24)
  /-- MB.PICTURE: a block whose header word named type 6 (R158). -/
  | mbPicture (last : Bool) (length : BitVec 24)
  /-- MB.UNKNOWN, odd types; `x` is type bits 6:1 (R161). -/
  | mbUnknownOdd (last : Bool) (x : BitVec 6) (length : BitVec 24)
  /-- MB.UNKNOWN, even types 64 to 126; `x` is type bits 5:1 (R161). -/
  | mbUnknown64 (last : Bool) (x : BitVec 5) (length : BitVec 24)
  /-- MB.UNKNOWN, even types 32 to 62; `x` is type bits 4:1 (R161). -/
  | mbUnknown32 (last : Bool) (x : BitVec 4) (length : BitVec 24)
  /-- MB.UNKNOWN, even types 16 to 30; `x` is type bits 3:1 (R161). -/
  | mbUnknown16 (last : Bool) (x : BitVec 3) (length : BitVec 24)
  /-- MB.UNKNOWN, even types 8 to 14; `x` is type bits 2:1 (R161). -/
  | mbUnknown8 (last : Bool) (x : BitVec 2) (length : BitVec 24)
  /-- FH.SYNC: the fixed 32-bit word of a frame header (R98, R192, R193). -/
  | fhSync
  /-- FH.BLOCKSIZE code 0: invalid (R115, R196). -/
  | fhBlocksize0
  /-- FH.BLOCKSIZE code 1: 192 (R115, R196). -/
  | fhBlocksize1
  /-- FH.BLOCKSIZE code 2: 576 (R115, R196). -/
  | fhBlocksize2
  /-- FH.BLOCKSIZE code 3: 1152 (R115, R196). -/
  | fhBlocksize3
  /-- FH.BLOCKSIZE code 4: 2304 (R115, R196). -/
  | fhBlocksize4
  /-- FH.BLOCKSIZE code 5: 4608 (R115, R196). -/
  | fhBlocksize5
  /-- FH.BLOCKSIZE code 6: 8-bit field plus 1 (R115, R196). -/
  | fhBlocksize6
  /-- FH.BLOCKSIZE code 7: 16-bit field plus 1 (R115, R196). -/
  | fhBlocksize7
  /-- FH.BLOCKSIZE code 8: 256 (R115, R196). -/
  | fhBlocksize8
  /-- FH.BLOCKSIZE code 9: 512 (R115, R196). -/
  | fhBlocksize9
  /-- FH.BLOCKSIZE code 10: 1024 (R115, R196). -/
  | fhBlocksize10
  /-- FH.BLOCKSIZE code 11: 2048 (R115, R196). -/
  | fhBlocksize11
  /-- FH.BLOCKSIZE code 12: 4096 (R115, R196). -/
  | fhBlocksize12
  /-- FH.BLOCKSIZE code 13: 8192 (R115, R196). -/
  | fhBlocksize13
  /-- FH.BLOCKSIZE code 14: 16384 (R115, R196). -/
  | fhBlocksize14
  /-- FH.BLOCKSIZE code 15: 32768 (R115, R196). -/
  | fhBlocksize15
  /-- FH.SAMPLERATE code 0: nothing read (R116, R197). -/
  | fhSamplerate0
  /-- FH.SAMPLERATE code 1: nothing read (R116, R197). -/
  | fhSamplerate1
  /-- FH.SAMPLERATE code 2: nothing read (R116, R197). -/
  | fhSamplerate2
  /-- FH.SAMPLERATE code 3: nothing read (R116, R197). -/
  | fhSamplerate3
  /-- FH.SAMPLERATE code 4: nothing read (R116, R197). -/
  | fhSamplerate4
  /-- FH.SAMPLERATE code 5: nothing read (R116, R197). -/
  | fhSamplerate5
  /-- FH.SAMPLERATE code 6: nothing read (R116, R197). -/
  | fhSamplerate6
  /-- FH.SAMPLERATE code 7: nothing read (R116, R197). -/
  | fhSamplerate7
  /-- FH.SAMPLERATE code 8: nothing read (R116, R197). -/
  | fhSamplerate8
  /-- FH.SAMPLERATE code 9: nothing read (R116, R197). -/
  | fhSamplerate9
  /-- FH.SAMPLERATE code 10: nothing read (R116, R197). -/
  | fhSamplerate10
  /-- FH.SAMPLERATE code 11: nothing read (R116, R197). -/
  | fhSamplerate11
  /-- FH.SAMPLERATE code 12: 8 bits skipped (R116, R197). -/
  | fhSamplerate12
  /-- FH.SAMPLERATE code 13: 16 bits skipped (R116, R197). -/
  | fhSamplerate13
  /-- FH.SAMPLERATE code 14: 16 bits skipped (R116, R197). -/
  | fhSamplerate14
  /-- FH.SAMPLERATE code 15: nothing read (R116, R197). -/
  | fhSamplerate15
  /-- CA.INDEP code 0: 1 independent channel (R117, R220). -/
  | caIndep0
  /-- CA.INDEP code 1: 2 independent channels (R117, R220). -/
  | caIndep1
  /-- CA.INDEP code 2: 3 independent channels (R117, R220). -/
  | caIndep2
  /-- CA.INDEP code 3: 4 independent channels (R117, R220). -/
  | caIndep3
  /-- CA.INDEP code 4: 5 independent channels (R117, R220). -/
  | caIndep4
  /-- CA.INDEP code 5: 6 independent channels (R117, R220). -/
  | caIndep5
  /-- CA.INDEP code 6: 7 independent channels (R117, R220). -/
  | caIndep6
  /-- CA.INDEP code 7: 8 independent channels (R117, R220). -/
  | caIndep7
  /-- CA.LEFT_SIDE, code 8 (R221). -/
  | caLeftSide
  /-- CA.RIGHT_SIDE, code 9 (R223). -/
  | caRightSide
  /-- CA.MID_SIDE, code 10 (R224). -/
  | caMidSide
  /-- CA.INVALID code 11 (R225). -/
  | caInvalid11
  /-- CA.INVALID code 12 (R225). -/
  | caInvalid12
  /-- CA.INVALID code 13 (R225). -/
  | caInvalid13
  /-- CA.INVALID code 14 (R225). -/
  | caInvalid14
  /-- CA.INVALID code 15 (R225). -/
  | caInvalid15
  /-- FH.NUMBER, first byte 00 plus `x`: 0 continuation bytes (R99, R194). -/
  | fhNumber00 (x : BitVec 7)
  /-- FH.NUMBER, first byte 80 plus `x`: 0 continuation bytes (R99, R194). -/
  | fhNumber80 (x : BitVec 6)
  /-- FH.NUMBER, first byte C0 plus `x`: 1 continuation bytes (R99, R194). -/
  | fhNumberC0 (x : BitVec 5)
  /-- FH.NUMBER, first byte E0 plus `x`: 2 continuation bytes (R99, R194). -/
  | fhNumberE0 (x : BitVec 4)
  /-- FH.NUMBER, first byte F0 plus `x`: 3 continuation bytes (R99, R194). -/
  | fhNumberF0 (x : BitVec 3)
  /-- FH.NUMBER, first byte F8 plus `x`: 4 continuation bytes (R99, R194). -/
  | fhNumberF8 (x : BitVec 2)
  /-- FH.NUMBER, first byte FC plus `x`: 5 continuation bytes (R99, R194). -/
  | fhNumberFC (x : BitVec 1)
  /-- FH.NUMBER, first byte FE: 6 continuation bytes (R99, R194). -/
  | fhNumberFE
  /-- FH.NUMBER, first byte FF: 7 continuation bytes (R99, R194). -/
  | fhNumberFF
  /-- FH.CRC8: the 8-bit header checksum (R102, R198). -/
  | fhCrc8
  /-- FH.FOOTER: alignment and the 16-bit frame checksum (R112, R200). -/
  | fhFooter
  /-- SF.CONSTANT, type 0 (R240). -/
  | sfConstant
  /-- SF.VERBATIM, type 1 (R241). -/
  | sfVerbatim
  /-- SF.FIXED of order 0, type 8 (R242). -/
  | sfFixed0
  /-- SF.FIXED of order 1, type 9 (R242). -/
  | sfFixed1
  /-- SF.FIXED of order 2, type 10 (R242). -/
  | sfFixed2
  /-- SF.FIXED of order 3, type 11 (R242). -/
  | sfFixed3
  /-- SF.FIXED of order 4, type 12 (R242). -/
  | sfFixed4
  /-- SF.LPC of order `x + 1`, type `32 + x` (R245). -/
  | sfLpc (x : BitVec 5)
  /-- SF.UNSUPPORTED, types 2 and 3, `2 + x` (R249). -/
  | sfUnsupported2 (x : BitVec 1)
  /-- SF.UNSUPPORTED, types 4 to 7, `4 + x` (R249). -/
  | sfUnsupported4 (x : BitVec 2)
  /-- SF.UNSUPPORTED, type 13 (R249). -/
  | sfUnsupported13
  /-- SF.UNSUPPORTED, types 14 and 15, `14 + x` (R249). -/
  | sfUnsupported14 (x : BitVec 1)
  /-- SF.UNSUPPORTED, types 16 to 31, `16 + x` (R249). -/
  | sfUnsupported16 (x : BitVec 4)
  /-- READ_WASTED: the wasted-bits flag and run (R104, R237). -/
  | readWasted
  /-- PREDICT(N, o, warm, coef, s, res) (R244). -/
  | predict (n o : Nat) (warm coef : List Int) (shift : Nat) (res : List Int)
  /-- RES.RICE4: coding method 0 (R266). -/
  | resRice4
  /-- RES.RICE5: coding method 1 (R266). -/
  | resRice5
  /-- RES.INVALID_METHOD: coding method `2 + x` (R266). -/
  | resInvalidMethod (x : BitVec 1)
  /-- RES.PORDER: the partition order (R267). -/
  | resPorder
  /-- RES.PARAM: Rice parameter `k`, a 5-bit field if `wide`, else 4-bit, not all ones (R269). -/
  | resParam (wide : Bool) (k : BitVec 5)
  /-- RES.ESCAPE after the 4-bit sentinel (R269). -/
  | resEscape4
  /-- RES.ESCAPE after the 5-bit sentinel (R269). -/
  | resEscape5
  /-- RES.VALUES: `cnt` codewords of the current partition (R270). -/
  | resValues (cnt : Nat)
  /-- RICE: one codeword with the parameter of the current partition (R111, R136). -/
  | rice
  /-- READ_UINT(n) (R131). -/
  | readUint (n : Nat)
  /-- READ_SINT(n) (R132). -/
  | readSint (n : Nat)
  /-- READ_BYTES(n) (R133). -/
  | readBytes (n : Nat)
  /-- READ_BYTE_OR_EOS() (R134). -/
  | readByteOrEos
  /-- ALIGN() (R135). -/
  | align
  /-- READ_RICE(k) (R136). -/
  | readRice (k : Nat)
  /-- AT_END (R140). -/
  | atEnd
  /-- READ_LE32() (R137). -/
  | readLe32
  /-- READ_BE32() (R137). -/
  | readBe32
  /-- RESET (R286). -/
  | resetCmd
  /-- OPEN(SRC): the host command with its byte source (R287). -/
  | openCmd (src : List Byte)
  /-- PULL (R289). -/
  | pullCmd
deriving DecidableEq, Repr

/-- The grammar positions at which an element is read (R27: "`PHASE` says which grammar reads it";
R90 and R122 give the order). Each names the format of R91 to R112 that `decode` reads there. -/
inductive Ctx where
  /-- MAGIC, 32 bits. -/
  | magic
  /-- MBH, 32 bits, taken as the generic header row. -/
  | blockHeader
  /-- MBH, 32 bits, taken as the row its type code selects. -/
  | block
  /-- FHW, 32 bits. -/
  | frameHeader
  /-- FNUM, its first byte. -/
  | number
  /-- FHW bits 15:12, latched in `F.bsc`. -/
  | blockSize
  /-- FHW bits 11:8, latched in `F.src`. -/
  | sampleRate
  /-- HCRC, 8 bits. -/
  | headerCrc
  /-- FHW bits 7:4, latched in `F.ca`. -/
  | channels
  /-- FOOT. -/
  | footer
  /-- SFH, 8 bits, the type code in bits 6:1. -/
  | subframe
  /-- SFH bit 0 and WUN. -/
  | wasted
  /-- RH bits 5:4. -/
  | method
  /-- RH bits 3:0. -/
  | porder
  /-- PART of method 0: a 4-bit parameter field and the 5 bits after it. -/
  | param4
  /-- PART of method 1: a 5-bit parameter field and the 5 bits after it. -/
  | param5
  /-- RICE. -/
  | rice
deriving DecidableEq, Repr

/-- The five block variants of R114. -/
inductive BlockKind where
  | streaminfo | application | vorbisComment | picture | unknown
deriving DecidableEq, Repr

/-- The subframe kinds of R119; `fixed` and `lpc` carry the order. -/
inductive SubframeKind where
  | constant | verbatim | fixed (order : Nat) | lpc (order : Nat) | unsupported
deriving DecidableEq, Repr

/-- The channel assignments of R117; `indep` carries the code. -/
inductive ChannelKind where
  | indep (code : Nat) | leftSide | rightSide | midSide | invalid
deriving DecidableEq, Repr

/-- The residual coding methods of R120. -/
inductive MethodKind where
  | rice4 | rice5 | invalid
deriving DecidableEq, Repr

/-- Why `decode` rejects a word. -/
inductive Reject where
  /-- The 32 bits at the MAGIC position are not the marker (R288). -/
  | notTheMarker (word : Nat)
  /-- The 14 bits at the sync position are not `0x3FFE` (R192). -/
  | badSync (value : Nat)
deriving DecidableEq, Repr

end Sys2Proof
end

