-- ==== Sys2Proof/WellFormed.lean ====
section
/-! DEFINITION. Which instructions are well formed: the ranges the spec gives the operands that a
constructor's type does not already bound. -/

namespace Sys2Proof

/-- The largest block size, `MAX_BLOCK` (R7). -/
def maxBlock : Nat := 65536

/-- The largest predictor order, `MAX_LPC_ORDER` (R7). -/
def maxOrder : Nat := 32

/-- RES.PARAM (R269): the field is not all ones, and a 4-bit field is below 16. -/
def paramOk (wide : Bool) (k : BitVec 5) : Bool :=
  if wide then k.toNat < 31 else k.toNat < 15

/-- PREDICT (R244): `o` warm-up samples, `o` coefficients, `N - o` residuals, within R7's bounds. -/
def predictOk (n o : Nat) (warm coef res : List Int) : Bool :=
  n ≤ maxBlock && o ≤ maxOrder && warm.length == o && coef.length == o && o + res.length == n

/-- READ_UINT(n) (R131): `0 <= n <= 64`. -/
def uintWidthOk (n : Nat) : Bool := n ≤ 64

/-- READ_SINT(n) (R132): a signed field has at least its sign bit, and R131's bound holds. -/
def sintWidthOk (n : Nat) : Bool := 1 ≤ n && n ≤ 64

/-- READ_RICE(k) (R136): `0 <= k <= 31` in every use. -/
def riceParamOk (k : Nat) : Bool := k ≤ 31

/-- RES.VALUES (R270): a partition holds at most a block's samples. -/
def valuesOk (cnt : Nat) : Bool := cnt ≤ maxBlock

/-- Well-formedness of an instruction. -/
def WellFormed (i : Instr) : Bool :=
  match i with
  | .predict n o warm coef _ res => predictOk n o warm coef res
  | .resParam wide k => paramOk wide k
  | .resValues cnt => valuesOk cnt
  | .readUint n => uintWidthOk n
  | .readSint n => sintWidthOk n
  | .readRice k => riceParamOk k
  | .magic | .mbh | .mbStreaminfo _ _ | .mbApplication _ _ | .mbVorbisComment _ _ | .mbPicture _ _
  | .mbUnknownOdd _ _ _ | .mbUnknown64 _ _ _ | .mbUnknown32 _ _ _ | .mbUnknown16 _ _ _
  | .mbUnknown8 _ _ _ | .fhSync | .fhBlocksize0 | .fhBlocksize1 | .fhBlocksize2 | .fhBlocksize3
  | .fhBlocksize4 | .fhBlocksize5 | .fhBlocksize6 | .fhBlocksize7 | .fhBlocksize8 | .fhBlocksize9
  | .fhBlocksize10 | .fhBlocksize11 | .fhBlocksize12 | .fhBlocksize13 | .fhBlocksize14
  | .fhBlocksize15 | .fhSamplerate0 | .fhSamplerate1 | .fhSamplerate2 | .fhSamplerate3
  | .fhSamplerate4 | .fhSamplerate5 | .fhSamplerate6 | .fhSamplerate7 | .fhSamplerate8
  | .fhSamplerate9 | .fhSamplerate10 | .fhSamplerate11 | .fhSamplerate12 | .fhSamplerate13
  | .fhSamplerate14 | .fhSamplerate15 | .caIndep0 | .caIndep1 | .caIndep2 | .caIndep3 | .caIndep4
  | .caIndep5 | .caIndep6 | .caIndep7 | .caLeftSide | .caRightSide | .caMidSide | .caInvalid11
  | .caInvalid12 | .caInvalid13 | .caInvalid14 | .caInvalid15 | .fhNumber00 _ | .fhNumber80 _
  | .fhNumberC0 _ | .fhNumberE0 _ | .fhNumberF0 _ | .fhNumberF8 _ | .fhNumberFC _ | .fhNumberFE
  | .fhNumberFF | .fhCrc8 | .fhFooter | .sfConstant | .sfVerbatim | .sfFixed0 | .sfFixed1
  | .sfFixed2 | .sfFixed3 | .sfFixed4 | .sfLpc _ | .sfUnsupported2 _ | .sfUnsupported4 _
  | .sfUnsupported13 | .sfUnsupported14 _ | .sfUnsupported16 _ | .readWasted | .resRice4
  | .resRice5 | .resInvalidMethod _ | .resPorder | .resEscape4 | .resEscape5 | .rice
  | .readBytes _ | .readByteOrEos | .align | .atEnd | .readLe32 | .readBe32 | .resetCmd
  | .openCmd _ | .pullCmd => true

end Sys2Proof
end

