-- ==== Sys2Proof/Decode.lean ====
section
/-! DEFINITION. The default configuration, the code maps of spec/30_encoding.md section 3, the
decoder from a grammar position and a format word to the row it selects, and the encoder.

A format word is numbered as R9 says: its highest bit is read first. The decoder is total: every
word at every position gives an instruction or a `Reject` by name. -/

namespace Sys2Proof

/-- The defaults of R7: `BT_*` as R114 lists them, `FIXED_COEF` as R243 prints it, last entry of order 4
`+1`, `Utf8Valid` the table of R152. PRESUMED by the spec itself (GK1, GK4, GK6): log entries 13 and
14. -/
def config : Config where
  btStreaminfo := 0
  btApplication := 2
  btVorbisComment := 4
  btPicture := 6
  fixedCoef := ⟨#v[1], #v[2, -1], #v[3, -3, 1], #v[4, -6, 4, 1]⟩
  utf8 := .table

/-- `word[hi:lo]` of R9, as a number. -/
def bits (w hi lo : Nat) : Nat := (w / 2 ^ lo) % 2 ^ (hi - lo + 1)

/-! ### Code maps -/

/-- R114: the block variant a type code names, under a configuration (D7), in the order of R151's cases. -/
def blockKind (cfg : Config) (t : BitVec 7) : BlockKind :=
  if t = cfg.btStreaminfo then .streaminfo
  else if t = cfg.btVorbisComment then .vorbisComment
  else if t = cfg.btPicture then .picture
  else if t = cfg.btApplication then .application
  else .unknown

/-- R119: the subframe kind a type code names. -/
def subframeKind (t : BitVec 6) : SubframeKind :=
  if t.toNat = 0 then .constant
  else if t.toNat = 1 then .verbatim
  else if 8 ≤ t.toNat ∧ t.toNat ≤ 12 then .fixed (t.toNat - 8)
  else if 32 ≤ t.toNat then .lpc (t.toNat - 31)
  else .unsupported

/-- R117: the channel assignment a code names. -/
def channelKind (ca : BitVec 4) : ChannelKind :=
  if ca.toNat ≤ 7 then .indep ca.toNat
  else if ca.toNat = 8 then .leftSide
  else if ca.toNat = 9 then .rightSide
  else if ca.toNat = 10 then .midSide
  else .invalid

/-- R120: the coding method a code names. -/
def methodKind (m : BitVec 2) : MethodKind :=
  if m.toNat = 0 then .rice4 else if m.toNat = 1 then .rice5 else .invalid

/-! ### Rows by code -/

/-- FHW bits 15:12 (R115). -/
def blockSizeRow (code : Nat) : Instr :=
  match code with
  | 0 => .fhBlocksize0
  | 1 => .fhBlocksize1
  | 2 => .fhBlocksize2
  | 3 => .fhBlocksize3
  | 4 => .fhBlocksize4
  | 5 => .fhBlocksize5
  | 6 => .fhBlocksize6
  | 7 => .fhBlocksize7
  | 8 => .fhBlocksize8
  | 9 => .fhBlocksize9
  | 10 => .fhBlocksize10
  | 11 => .fhBlocksize11
  | 12 => .fhBlocksize12
  | 13 => .fhBlocksize13
  | 14 => .fhBlocksize14
  | _ => .fhBlocksize15

/-- FHW bits 11:8 (R116). -/
def sampleRateRow (code : Nat) : Instr :=
  match code with
  | 0 => .fhSamplerate0
  | 1 => .fhSamplerate1
  | 2 => .fhSamplerate2
  | 3 => .fhSamplerate3
  | 4 => .fhSamplerate4
  | 5 => .fhSamplerate5
  | 6 => .fhSamplerate6
  | 7 => .fhSamplerate7
  | 8 => .fhSamplerate8
  | 9 => .fhSamplerate9
  | 10 => .fhSamplerate10
  | 11 => .fhSamplerate11
  | 12 => .fhSamplerate12
  | 13 => .fhSamplerate13
  | 14 => .fhSamplerate14
  | _ => .fhSamplerate15

/-- FHW bits 7:4 (R117). -/
def channelRow (code : Nat) : Instr :=
  match code with
  | 0 => .caIndep0
  | 1 => .caIndep1
  | 2 => .caIndep2
  | 3 => .caIndep3
  | 4 => .caIndep4
  | 5 => .caIndep5
  | 6 => .caIndep6
  | 7 => .caIndep7
  | 8 => .caLeftSide
  | 9 => .caRightSide
  | 10 => .caMidSide
  | 11 => .caInvalid11
  | 12 => .caInvalid12
  | 13 => .caInvalid13
  | 14 => .caInvalid14
  | _ => .caInvalid15

/-- The row of FNUM's first byte (R99). -/
def numberRow (b : Nat) : Instr :=
  if b < 0x80 then .fhNumber00 (BitVec.ofNat 7 b)
  else if b < 0xC0 then .fhNumber80 (BitVec.ofNat 6 b)
  else if b < 0xE0 then .fhNumberC0 (BitVec.ofNat 5 b)
  else if b < 0xF0 then .fhNumberE0 (BitVec.ofNat 4 b)
  else if b < 0xF8 then .fhNumberF0 (BitVec.ofNat 3 b)
  else if b < 0xFC then .fhNumberF8 (BitVec.ofNat 2 b)
  else if b < 0xFE then .fhNumberFC (BitVec.ofNat 1 b)
  else if b = 0xFE then .fhNumberFE
  else .fhNumberFF

/-- The MB.UNKNOWN row of a type the configuration does not name (R124: five rows; R161); none for 0, 2,
4 and 6, which the table's rows leave out because its block types are the defaults (R124). -/
def unknownRow (last : Bool) (t : Nat) (length : BitVec 24) : Option Instr :=
  if t % 2 = 1 then some (.mbUnknownOdd last (BitVec.ofNat 6 (t / 2)) length)
  else if 64 ≤ t then some (.mbUnknown64 last (BitVec.ofNat 5 (t / 2)) length)
  else if 32 ≤ t then some (.mbUnknown32 last (BitVec.ofNat 4 (t / 2)) length)
  else if 16 ≤ t then some (.mbUnknown16 last (BitVec.ofNat 3 (t / 2)) length)
  else if 8 ≤ t then some (.mbUnknown8 last (BitVec.ofNat 2 (t / 2)) length)
  else none

/-- The row of an MBH word's block type (R92, R114). -/
def blockRow (cfg : Config) (w : Nat) : Option Instr :=
  let last := bits w 31 31 == 1
  let length := BitVec.ofNat 24 (bits w 23 0)
  match blockKind cfg (BitVec.ofNat 7 (bits w 30 24)) with
  | .streaminfo => some (.mbStreaminfo last length)
  | .application => some (.mbApplication last length)
  | .vorbisComment => some (.mbVorbisComment last length)
  | .picture => some (.mbPicture last length)
  | .unknown => unknownRow last (bits w 30 24) length

/-- The SF row of a type code (R119). -/
def subframeRow (t : Nat) : Instr :=
  if t = 0 then .sfConstant
  else if t = 1 then .sfVerbatim
  else if t < 4 then .sfUnsupported2 (BitVec.ofNat 1 t)
  else if t < 8 then .sfUnsupported4 (BitVec.ofNat 2 t)
  else if t = 8 then .sfFixed0
  else if t = 9 then .sfFixed1
  else if t = 10 then .sfFixed2
  else if t = 11 then .sfFixed3
  else if t = 12 then .sfFixed4
  else if t = 13 then .sfUnsupported13
  else if t < 16 then .sfUnsupported14 (BitVec.ofNat 1 t)
  else if t < 32 then .sfUnsupported16 (BitVec.ofNat 4 t)
  else .sfLpc (BitVec.ofNat 5 t)

/-- RH bits 5:4 (R120). -/
def methodRow (m : Nat) : Instr :=
  if m = 0 then .resRice4
  else if m = 1 then .resRice5
  else .resInvalidMethod (BitVec.ofNat 1 m)

/-- The decoder: the instruction a format word selects at a grammar position under a configuration, or
why none. A block type without a row of its own is MBH's, the row of every MBH word (log entry 21). -/
def decode (cfg : Config) (c : Ctx) (w : Nat) : Except Reject Instr :=
  match c with
  | .magic => if w = 0x664C6143 then .ok .magic else .error (.notTheMarker w)
  | .blockHeader => .ok .mbh
  | .block => .ok ((blockRow cfg w).getD .mbh)
  | .frameHeader => if bits w 31 18 = 0x3FFE then .ok .fhSync else .error (.badSync (bits w 31 18))
  | .number => .ok (numberRow (bits w 7 0))
  | .blockSize => .ok (blockSizeRow (bits w 15 12))
  | .sampleRate => .ok (sampleRateRow (bits w 11 8))
  | .headerCrc => .ok .fhCrc8
  | .channels => .ok (channelRow (bits w 7 4))
  | .footer => .ok .fhFooter
  | .subframe => .ok (subframeRow (bits w 6 1))
  | .wasted => .ok .readWasted
  | .method => .ok (methodRow (bits w 5 4))
  | .porder => .ok .resPorder
  | .param4 =>
    if bits w 8 5 = 15 then .ok .resEscape4
    else .ok (.resParam false (BitVec.ofNat 5 (bits w 8 5)))
  | .param5 =>
    if bits w 9 5 = 31 then .ok .resEscape5
    else .ok (.resParam true (BitVec.ofNat 5 (bits w 9 5)))
  | .rice => .ok .rice

/-- The width in bits of the format word at a position (the table's `width`; for a row without one,
the bits R102, R111 and R112 fix). -/
def wordWidth (c : Ctx) : Nat :=
  match c with
  | .magic | .blockHeader | .block | .frameHeader | .blockSize | .sampleRate | .channels => 32
  | .number | .headerCrc | .subframe | .wasted => 8
  | .footer => 16
  | .method | .porder => 6
  | .param4 => 9
  | .param5 => 10
  | .rice => 1

/-! ### The encoder -/

/-- The MBH word of a last-flag, a type and a length (R92). -/
def blockWord (last : Bool) (type : Nat) (length : BitVec 24) : Nat :=
  last.toNat * 2 ^ 31 + type * 2 ^ 24 + length.toNat

/-- A block row's word, where the configuration gives its type number to that row's variant. -/
def blockWordOf (cfg : Config) (kind : BlockKind) (last : Bool) (type : Nat) (length : BitVec 24) :
    Option (Ctx × Nat) :=
  if blockKind cfg (BitVec.ofNat 7 type) = kind then some (.block, blockWord last type length) else none

/-- The word of an instruction and the position it stands at, bits that neither the row nor an
operand fixes being 0; `none` for a row that no bits of the stream select (R124: primitives,
PREDICT, RES.VALUES, commands), and for a block row whose type number the configuration gives to another
variant. -/
def encode (cfg : Config) (i : Instr) : Option (Ctx × Nat) :=
  match i with
  | .magic => some (.magic, 0x664C6143)
  | .mbh => some (.blockHeader, 0)
  | .mbStreaminfo l n => blockWordOf cfg .streaminfo l cfg.btStreaminfo.toNat n
  | .mbApplication l n => blockWordOf cfg .application l cfg.btApplication.toNat n
  | .mbVorbisComment l n => blockWordOf cfg .vorbisComment l cfg.btVorbisComment.toNat n
  | .mbPicture l n => blockWordOf cfg .picture l cfg.btPicture.toNat n
  | .mbUnknownOdd l x n => blockWordOf cfg .unknown l (2 * x.toNat + 1) n
  | .mbUnknown64 l x n => blockWordOf cfg .unknown l (64 + 2 * x.toNat) n
  | .mbUnknown32 l x n => blockWordOf cfg .unknown l (32 + 2 * x.toNat) n
  | .mbUnknown16 l x n => blockWordOf cfg .unknown l (16 + 2 * x.toNat) n
  | .mbUnknown8 l x n => blockWordOf cfg .unknown l (8 + 2 * x.toNat) n
  | .fhSync => some (.frameHeader, 0xFFF80000)
  | .fhBlocksize0 => some (.blockSize, 0)
  | .fhBlocksize1 => some (.blockSize, 0x1000)
  | .fhBlocksize2 => some (.blockSize, 0x2000)
  | .fhBlocksize3 => some (.blockSize, 0x3000)
  | .fhBlocksize4 => some (.blockSize, 0x4000)
  | .fhBlocksize5 => some (.blockSize, 0x5000)
  | .fhBlocksize6 => some (.blockSize, 0x6000)
  | .fhBlocksize7 => some (.blockSize, 0x7000)
  | .fhBlocksize8 => some (.blockSize, 0x8000)
  | .fhBlocksize9 => some (.blockSize, 0x9000)
  | .fhBlocksize10 => some (.blockSize, 0xA000)
  | .fhBlocksize11 => some (.blockSize, 0xB000)
  | .fhBlocksize12 => some (.blockSize, 0xC000)
  | .fhBlocksize13 => some (.blockSize, 0xD000)
  | .fhBlocksize14 => some (.blockSize, 0xE000)
  | .fhBlocksize15 => some (.blockSize, 0xF000)
  | .fhSamplerate0 => some (.sampleRate, 0)
  | .fhSamplerate1 => some (.sampleRate, 0x100)
  | .fhSamplerate2 => some (.sampleRate, 0x200)
  | .fhSamplerate3 => some (.sampleRate, 0x300)
  | .fhSamplerate4 => some (.sampleRate, 0x400)
  | .fhSamplerate5 => some (.sampleRate, 0x500)
  | .fhSamplerate6 => some (.sampleRate, 0x600)
  | .fhSamplerate7 => some (.sampleRate, 0x700)
  | .fhSamplerate8 => some (.sampleRate, 0x800)
  | .fhSamplerate9 => some (.sampleRate, 0x900)
  | .fhSamplerate10 => some (.sampleRate, 0xA00)
  | .fhSamplerate11 => some (.sampleRate, 0xB00)
  | .fhSamplerate12 => some (.sampleRate, 0xC00)
  | .fhSamplerate13 => some (.sampleRate, 0xD00)
  | .fhSamplerate14 => some (.sampleRate, 0xE00)
  | .fhSamplerate15 => some (.sampleRate, 0xF00)
  | .caIndep0 => some (.channels, 0)
  | .caIndep1 => some (.channels, 0x10)
  | .caIndep2 => some (.channels, 0x20)
  | .caIndep3 => some (.channels, 0x30)
  | .caIndep4 => some (.channels, 0x40)
  | .caIndep5 => some (.channels, 0x50)
  | .caIndep6 => some (.channels, 0x60)
  | .caIndep7 => some (.channels, 0x70)
  | .caLeftSide => some (.channels, 0x80)
  | .caRightSide => some (.channels, 0x90)
  | .caMidSide => some (.channels, 0xA0)
  | .caInvalid11 => some (.channels, 0xB0)
  | .caInvalid12 => some (.channels, 0xC0)
  | .caInvalid13 => some (.channels, 0xD0)
  | .caInvalid14 => some (.channels, 0xE0)
  | .caInvalid15 => some (.channels, 0xF0)
  | .fhNumber00 x => some (.number, 0x00 + x.toNat)
  | .fhNumber80 x => some (.number, 0x80 + x.toNat)
  | .fhNumberC0 x => some (.number, 0xC0 + x.toNat)
  | .fhNumberE0 x => some (.number, 0xE0 + x.toNat)
  | .fhNumberF0 x => some (.number, 0xF0 + x.toNat)
  | .fhNumberF8 x => some (.number, 0xF8 + x.toNat)
  | .fhNumberFC x => some (.number, 0xFC + x.toNat)
  | .fhNumberFE => some (.number, 0xFE)
  | .fhNumberFF => some (.number, 0xFF)
  | .fhCrc8 => some (.headerCrc, 0)
  | .fhFooter => some (.footer, 0)
  | .sfConstant => some (.subframe, 0x00)
  | .sfVerbatim => some (.subframe, 0x02)
  | .sfFixed0 => some (.subframe, 0x10)
  | .sfFixed1 => some (.subframe, 0x12)
  | .sfFixed2 => some (.subframe, 0x14)
  | .sfFixed3 => some (.subframe, 0x16)
  | .sfFixed4 => some (.subframe, 0x18)
  | .sfLpc x => some (.subframe, 0x40 + 2 * x.toNat)
  | .sfUnsupported2 x => some (.subframe, 0x04 + 2 * x.toNat)
  | .sfUnsupported4 x => some (.subframe, 0x08 + 2 * x.toNat)
  | .sfUnsupported13 => some (.subframe, 0x1A)
  | .sfUnsupported14 x => some (.subframe, 0x1C + 2 * x.toNat)
  | .sfUnsupported16 x => some (.subframe, 0x20 + 2 * x.toNat)
  | .readWasted => some (.wasted, 0x01)
  | .predict _ _ _ _ _ _ => none
  | .resRice4 => some (.method, 0x00)
  | .resRice5 => some (.method, 0x10)
  | .resInvalidMethod x => some (.method, 0x20 + 16 * x.toNat)
  | .resPorder => some (.porder, 0)
  | .resParam wide k => some (if wide then (.param5, 32 * k.toNat) else (.param4, 32 * k.toNat))
  | .resEscape4 => some (.param4, 0x1E0)
  | .resEscape5 => some (.param5, 0x3E0)
  | .resValues _ => none
  | .rice => some (.rice, 1)
  | .readUint _ => none
  | .readSint _ => none
  | .readBytes _ => none
  | .readByteOrEos => none
  | .align => none
  | .readRice _ => none
  | .atEnd => none
  | .readLe32 => none
  | .readBe32 => none
  | .resetCmd => none
  | .openCmd _ => none
  | .pullCmd => none

/-! ### The table's words

The rows of the opcode table share words: an FHW word carries FH.SYNC, FH.BLOCKSIZE, FH.SAMPLERATE
and CA.* at once, an MBH word is also MBH's own row, and FNUM, SFH and RH overlap. The machine tells
them apart by its grammar position; a bare word has none, so `tableCtx` chooses one (DESIGN CHOICE,
log entry 9): the position whose row the word's 1 bits fit best. -/

/-- The grammar position a word given without one is taken to stand at. -/
def tableCtx (nbits w : Nat) : Option Ctx :=
  if nbits = 32 then
    some (
      if w = 0x664C6143 then .magic
      else if bits w 31 18 = 0x3FFE then .frameHeader
      else if bits w 31 31 = 1 then .blockHeader
      else if bits w 30 16 ≠ 0 then .block
      else if bits w 15 12 ≠ 0 then .blockSize
      else if bits w 11 8 ≠ 0 then .sampleRate
      else if bits w 7 4 ≠ 0 then .channels
      else .block)
  else if nbits = 8 then
    some (if w = 1 then .wasted else if 0x80 ≤ w then .number else .subframe)
  else if nbits = 6 then some .method
  else if nbits = 9 then some .param4
  else if nbits = 10 then some .param5
  else if nbits = 16 then
    some (if bits w 15 5 = 15 then .param4 else if bits w 15 5 = 31 then .param5 else .footer)
  else none

/-- The instruction the decoder reads from a table word of `nbits` bits, with the default parameters. -/
def decodeTableWord (nbits w : Nat) : Option Instr :=
  match tableCtx nbits w with
  | none => none
  | some c =>
    match decode config c w with
    | .ok i => some i
    | .error _ => none

end Sys2Proof
end

