-- ==== Sys2Proof/Machine/State.lean ====
section
/-! DEFINITION. The state of FLACDEC (spec/10_state.md R20 to R46), its reset values (R50), the
faults it latches (R301) and the reasons a step of the model stops. -/

namespace Sys2Proof.Machine

open Sys2Proof

/-- `BR.*`, the bit reader (R21, R22). -/
structure Reader where
  pos : Nat
  acc : Nat
  nbits : Nat
deriving DecidableEq, Repr

/-- `PHASE` (R24). -/
inductive Phase where
  | idle | metadata | frames | endOfStream | faulted
deriving DecidableEq, Repr

/-- The string fields of a block body, as R156 and R158 name them where one is not UTF-8. -/
inductive StringField where
  | vendor
  | entry (index : Nat)
  | mime
  | description
deriving DecidableEq, Repr

/-- The reason of a MalformedBlock: the nine causes of R163, with what each found. -/
inductive BlockReason where
  | firstNotStreaminfo
  | streaminfoRepeated
  | streaminfoLength (length : Nat)
  | innerOverrun (wanted left : Nat)
  | leftOver (length consumed : Nat)
  | notUtf8 (field : StringField)
  | entryWithoutEquals (index : Nat)
  | pictureType (type : Nat)
  | applicationShort (length : Nat)
deriving DecidableEq, Repr

/-- The eleven faults of R300 and R301, each with its `info`. They are the exceptions of the
machine: raising one is a next state (`takeFault`, R320), not a stop of the model. -/
inductive DecodeFault where
  | notAFlacStream (found : List Byte)
  | malformedBlock (index type : Nat) (reason : BlockReason)
  | unexpectedEnd (pos wanted : Nat)
  | invalidSync (value : Nat)
  | invalidBlockSizeCode (code : Nat)
  | invalidChannelAssignment (ca : Nat)
  | unsupportedSubframeType (type : Nat)
  | invalidWastedBits (d w : Nat)
  | invalidLpcShift (shift : Int)
  | invalidCodingMethod (method : Nat)
  | partitionMismatch (n p order : Nat)
deriving DecidableEq, Repr

/-- The fault codes of R301. -/
def DecodeFault.code (f : DecodeFault) : Nat :=
  match f with
  | .notAFlacStream _ => 1
  | .malformedBlock _ _ _ => 2
  | .unexpectedEnd _ _ => 3
  | .invalidSync _ => 4
  | .invalidBlockSizeCode _ => 5
  | .invalidChannelAssignment _ => 6
  | .unsupportedSubframeType _ => 7
  | .invalidWastedBits _ _ => 8
  | .invalidLpcShift _ => 9
  | .invalidCodingMethod _ => 10
  | .partitionMismatch _ _ _ => 11

/-- `SI.*`, the STREAMINFO registers (R31 to R40). While `valid` is false they hold no value a rule
or the host may read (R40); `readBps` and the host's accessors guard that. -/
structure StreamInfo where
  valid : Bool
  minBlock : BitVec 16
  maxBlock : BitVec 16
  minFrame : BitVec 24
  maxFrame : BitVec 24
  sampleRate : BitVec 20
  channels : Nat
  bps : Nat
  totalSamples : BitVec 36
  md5 : List Byte
deriving DecidableEq, Repr

/-- `F.*`, the frame working registers (R41). -/
structure FrameRegs where
  bsc : BitVec 4
  src : BitVec 4
  ca : BitVec 4
  ssc : BitVec 3
  n : Nat
  nch : Nat
deriving DecidableEq, Repr

/-- `S.*`, the subframe working registers (R42). `coef` and `buf` list the entries that hold a value
(log entry 7). -/
structure SubframeRegs where
  d : Nat
  type : BitVec 6
  w : Nat
  e : Int
  order : Nat
  prec : Nat
  shift : Int
  coef : List Int
  buf : List Int
deriving DecidableEq, Repr

/-- `RS.*`, the residual working registers (R43). `res` lists the residuals produced so far. -/
structure ResidualRegs where
  method : BitVec 2
  pbits : Nat
  p : BitVec 4
  k : Nat
  res : List Int
deriving DecidableEq, Repr

/-- `OUT` (R45). -/
inductive Out where
  | none
  | frame (n nch : Nat) (samples : List (List Int))
  | endOfStream
deriving DecidableEq, Repr

/-- The record variants of `META` (R165). A StreamInfo record holds the nine values as they were
loaded into `SI.*`. -/
inductive Record where
  | streamInfo (length : Nat) (isLast : Bool) (si : StreamInfo)
  | vorbisComment (length : Nat) (isLast : Bool) (vendor : List Byte)
      (entries : List (List Byte × List Byte))
  | picture (length : Nat) (isLast : Bool) (ptype : Nat) (mime desc : List Byte)
      (width height depth colors : Nat) (data : List Byte)
  | application (length : Nat) (isLast : Bool) (id payload : List Byte)
  | unknown (length : Nat) (isLast : Bool)
deriving DecidableEq, Repr

/-- What a command or rule returned: the result column of R285 (`ok`, `frame`, `endOfStream`, a
fault, `refused`) and the `return` of R12's pseudocode (log entry 4). `frame` says that `OUT` holds
the frame. -/
inductive Ret where
  | none
  | unit
  | nat (n : Nat)
  | int (z : Int)
  | bytes (b : List Byte)
  | eos
  | bool (b : Bool)
  | ints (l : List Int)
  | ok
  | frame
  | endOfStream
  | fault
  | refused
deriving DecidableEq, Repr

/-- One request at the port (log entry 3): something asked for by name (a command of the host, R285;
or a rule that another rule calls), or the element the stream selects at a grammar position. -/
inductive Request where
  | call (i : Instr)
  | element (c : Ctx)
deriving DecidableEq, Repr

/-- `SRC` as memory (R47, R60): the bytes the source holds, by address. -/
abbrev Memory := List Host.Cell

/-- The whole state (R20), with the source, the parameters the machine was built with (R7), which no
instruction changes, and the model's own two fields. -/
structure State where
  cfg : Config
  br : Reader
  phase : Phase
  fault : Option DecodeFault
  mdIndex : Nat
  si : StreamInfo
  f : FrameRegs
  sub : SubframeRegs
  rs : ResidualRegs
  ch : List (List Int)
  out : Out
  metas : List Record
  src : Memory
  port : List Request
  ret : Ret
deriving DecidableEq, Repr

/-- The state after RESET and at the start of every run (R50, R340). Where R50 says "unspecified"
the value is the lowest of the register's range (DESIGN CHOICE, log entry 1). The parameters have their
defaults. -/
def State.reset : State where
  cfg := config
  br := ⟨0, 0, 0⟩
  phase := .idle
  fault := none
  mdIndex := 0
  si := ⟨false, 0, 0, 0, 0, 0, 1, 1, 0, List.replicate 16 0⟩
  f := ⟨0, 0, 0, 0, 1, 1⟩
  sub := ⟨1, 0, 0, 1, 0, 1, 0, [], []⟩
  rs := ⟨0, 4, 0, 0, []⟩
  ch := []
  out := .none
  metas := []
  src := []
  port := []
  ret := .none

/-- Why a step of the model stops with a fault. -/
inductive Fault where
  /-- Raised by the channel rules (CA.INDEP, CA.LEFT_SIDE, CA.RIGHT_SIDE, CA.MID_SIDE, and PULL
  through them) when they read `SI.bps` while `SI.valid` is 0: R40, "a model must make a read of
  them fault or be refused". Safe: no run of the host's commands reaches it (R40). -/
  | streaminfoUnreadable
deriving DecidableEq, Repr

/-- Why a step of the model refuses. -/
inductive Refusal where
  /-- Raised by `exec` for an instruction that has no meaning yet. Safe. -/
  | notModelled (mnemonic : String)
  /-- Raised by READ_SINT(0) alone: R132, "`n = 0` is not defined by the document"; 93 U25, "a model
  may `refuse`". Safe: every rule that reads a signed field has checked its width first (R238). -/
  | signedReadOfNoBits
deriving DecidableEq, Repr

/-- What ends a rule's pseudocode early: a fault of the machine (R320), a request the machine does not
accept (R323, R348), or a stop of the model. -/
inductive Trap where
  | raise (f : DecodeFault)
  | notAccepted
  | stop (f : Fault)
  | refuse (r : Refusal)
deriving DecidableEq, Repr

/-- A rule's pseudocode: it reads and writes the state and returns a value or ends early. -/
abbrev M (α : Type) := EStateM Trap State α

end Sys2Proof.Machine
end

