-- ==== Sys2Proof/Machine/Ops.lean ====
section
/-! DEFINITION. The named operations over memory and registers: the source memory, the writes of
each register, the accumulator's fill rule (R130), fault entry (R320) and its only way out (R323,
R286), and how a rule's pseudocode becomes a step of the model. -/

namespace Sys2Proof.Machine

open Sys2Proof

/-! ### The source memory (R47, R60, R68)

The canonical form lists every byte the source holds, at addresses 0, 1, 2, and so on. An unlisted
address is one the source does not have (log entry 2). -/

/-- What an unlisted address reads as: no byte. -/
def Memory.unlisted : Option Byte := none

/-- The byte at an address. -/
def Memory.read (m : Memory) (a : Nat) : Option Byte :=
  match m with
  | [] => Memory.unlisted
  | (x, b) :: rest => if Nat.beq x a then some b else Memory.read rest a

/-- The cells of a byte string laid out from an address on. -/
def Memory.layout (a : Nat) (bs : List Byte) : Memory :=
  match bs with
  | [] => []
  | b :: rest => (a, b) :: Memory.layout (a + 1) rest

/-- The memory of a byte string: what OPEN is given (R287). -/
def Memory.ofBytes (bs : List Byte) : Memory := Memory.layout 0 bs

/-- The byte string a memory holds. -/
def Memory.bytes (m : Memory) : List Byte := m.map Prod.snd

/-- The canonical form from an address on. -/
def Memory.wfFrom (a : Nat) (m : Memory) : Bool :=
  match m with
  | [] => true
  | (x, _) :: rest => Nat.beq x a && Memory.wfFrom (a + 1) rest

/-- The canonical form. -/
def Memory.wf (m : Memory) : Bool := Memory.wfFrom 0 m

/-- `SRC_LEN` (R7). -/
def State.srcLen (s : State) : Nat := s.src.length

/-! ### Register writes -/

/-- Write `BR.*`. -/
def State.setBr (s : State) (v : Reader) : State := { s with br := v }

/-- Write `PHASE`. -/
def State.setPhase (s : State) (v : Phase) : State := { s with phase := v }

/-- Write `FAULT`. -/
def State.setFault (s : State) (v : Option DecodeFault) : State := { s with fault := v }

/-- Write `MD.index`. -/
def State.setMdIndex (s : State) (v : Nat) : State := { s with mdIndex := v }

/-- Write `SI.*`. -/
def State.setSi (s : State) (v : StreamInfo) : State := { s with si := v }

/-- Write `F.*`. -/
def State.setF (s : State) (v : FrameRegs) : State := { s with f := v }

/-- Write `S.*`. -/
def State.setSub (s : State) (v : SubframeRegs) : State := { s with sub := v }

/-- Write `RS.*`. -/
def State.setRs (s : State) (v : ResidualRegs) : State := { s with rs := v }

/-- Write `CH`. -/
def State.setCh (s : State) (v : List (List Int)) : State := { s with ch := v }

/-- Write `OUT`. -/
def State.setOut (s : State) (v : Out) : State := { s with out := v }

/-- Write `META`. -/
def State.setMetas (s : State) (v : List Record) : State := { s with metas := v }

/-- Write `SRC`. -/
def State.setSrc (s : State) (v : Memory) : State := { s with src := v }

/-- Write `port`. -/
def State.setPort (s : State) (v : List Request) : State := { s with port := v }

/-- Write `ret`. -/
def State.setRet (s : State) (v : Ret) : State := { s with ret := v }

/-- Take other parameters (R7). No instruction does; a machine built with them starts so. -/
def State.setCfg (s : State) (v : Config) : State := { s with cfg := v }

/-- Read a part of the state. -/
def reads {α : Type} (g : State → α) : M α := fun s => .ok (g s) s

/-- Write a part of the state. -/
def writes (g : State → State) : M Unit := fun s => .ok () (g s)

/-- End the rule early. -/
def trap {α : Type} (t : Trap) : M α := fun s => .error t s

/-- `raise F(info)` (R12): nothing after it in the pseudocode runs. -/
def raise {α : Type} (d : DecodeFault) : M α := trap (.raise d)

/-! ### Faults and reset -/

/-- Nothing but RESET is accepted (R323, R348): the phase is `Faulted`, or a fault is latched, which by
R51 (f) is the same. So `FAULT` is written at most once between two RESETs (R25, R324). -/
def State.halted (s : State) : Bool := s.phase == .faulted || s.fault.isSome

/-- Fault entry (R320): `FAULT <- F(info); PHASE <- Faulted; OUT <- None`, and the running command
returns the fault. Nothing is saved; what the partial decode wrote elsewhere stays (R321). `run` lets
no rule start while a fault is latched, so none is overwritten here (R25). -/
def State.takeFault (s : State) (d : DecodeFault) : State :=
  (((s.setFault (some d)).setPhase .faulted).setOut .none).setRet .fault

/-- RESET (R286), the only way out of `Faulted` (R323): every register takes its reset value, SRC is
not changed (R50), and the parameters and what still stands at the port stay. -/
def State.resetRegs (s : State) : State := ((State.reset.setSrc s.src).setPort s.port).setCfg s.cfg

/-- A trap as an outcome: a fault of the machine is entered, a request that is not accepted returns
`Refused` and changes nothing (R291, R327), a stop of the model stops. -/
def finishTrap (t : Trap) (s : State) : Host.Outcome State Fault Refusal :=
  match t with
  | .raise d => .next (s.takeFault d)
  | .notAccepted => .next (s.setRet .refused)
  | .stop f => .fault f
  | .refuse r => .refused r

/-- Run a rule's pseudocode as one step; `ret` takes the value it returns. After a fault nothing runs:
every command and element but RESET is refused (R323, R324, R348; log entry 20). -/
def run (m : M Ret) (s : State) : Host.Outcome State Fault Refusal :=
  if s.halted then finishTrap .notAccepted s
  else match m s with
    | .ok r t => .next (t.setRet r)
    | .error t u => finishTrap t u

/-- Run a rule that returns nothing. -/
def runUnit (m : M Unit) (s : State) : Host.Outcome State Fault Refusal :=
  run (do m; pure .unit) s

/-! ### The fill rule -/

/-- `pull()` (R130): one byte from SRC into the accumulator. `wanted` is the info of the fault. -/
def pull (wanted : Nat) : M Unit := fun s =>
  match s.src.read s.br.pos with
  | none => .error (.raise (.unexpectedEnd s.br.pos wanted)) s
  | some b => .ok () (s.setBr ⟨s.br.pos + 1, s.br.acc * 256 + b.toNat, s.br.nbits + 8⟩)

/-- `k` pulls. -/
def pulls (wanted k : Nat) : M Unit :=
  match k with
  | 0 => pure ()
  | k + 1 => do
    pull wanted
    pulls wanted k

/-- How many pulls `while BR.nbits < n: pull()` makes (R131; R68: `ceil((n - BR.nbits) / 8)`). -/
def pullsFor (n nbits : Nat) : Nat := (n - nbits + 7) / 8

/-- ALIGN's effect (R135): the buffered bits are discarded. -/
def State.dropBits (s : State) : State := s.setBr ⟨s.br.pos, 0, 0⟩

/-- `MemRead(SRC, a, n)` (R12), for bytes the source holds. -/
def Memory.readMany (m : Memory) (a n : Nat) : List Byte := (m.bytes.drop a).take n

/-- `MemWrite(META, rec)` and the count of blocks (R46, R26, R151). -/
def State.addRecord (s : State) (rec : Record) : State :=
  (s.setMetas (s.metas ++ [rec])).setMdIndex (s.mdIndex + 1)

/-- The samples of one more channel (R44; `MemWrite(CH, c, i, v)` for every `i`). -/
def State.addChannel (s : State) (x : List Int) : State := s.setCh (s.ch ++ [x])

/-- Read `SI.bps`, which holds no value while `SI.valid` is 0 (R40). -/
def readBps : M Nat := fun s =>
  if s.si.valid then .ok s.si.bps s else .error (.stop .streaminfoUnreadable) s

end Sys2Proof.Machine
end

