-- ==== Sys2Proof/Machine/Operands.lean ====
section
/-! DEFINITION. How operands are made from their bits (R11, R12, R113) and the arithmetic the rules
share: signed fields, byte orders, the zigzag map, shifts, prediction, decorrelation, UTF-8. -/

namespace Sys2Proof.Machine

open Sys2Proof

/-! ### Numbers -/

/-- `sext_N(v)` (R12), the subtraction form of R132. -/
def sext (n v : Nat) : Int := if 2 ^ (n - 1) ≤ v then (v : Int) - (2 ^ n : Nat) else (v : Int)

/-- `x << s` (R11). -/
def shl (x : Int) (s : Nat) : Int := x * ((2 ^ s : Nat) : Int)

/-- `x >> s` (R11): floor of the quotient by `2^s`. -/
def asr (x : Int) (s : Nat) : Int := x / ((2 ^ s : Nat) : Int)

/-- The zigzag map of READ_RICE (R136, R111). -/
def zigzag (v : Nat) : Int :=
  if v % 2 = 0 then ((v / 2 : Nat) : Int) else -((v / 2 : Nat) : Int) - 1

/-- `le32(b)` (R12), over a byte string with its first byte least significant. -/
def leBytes (b : List Byte) : Nat :=
  match b with
  | [] => 0
  | x :: rest => x.toNat + 256 * leBytes rest

/-- `be32(b)` (R12), over a byte string with its first byte most significant. -/
def beBytes (b : List Byte) : Nat := leBytes b.reverse

/-! ### Code maps with a value -/

/-- The block size a code fixes without extra bits (R196, R115). -/
def fixedBlockSize (c : Nat) : Nat :=
  if c = 1 then 192 else if c ≤ 5 then 576 * 2 ^ (c - 2) else 256 * 2 ^ (c - 8)

/-- The bits FH.SAMPLERATE skips (R197, R116). -/
def sampleRateBits (c : Nat) : Nat :=
  if c = 12 then 8 else if c = 13 ∨ c = 14 then 16 else 0

/-- Row `o` of a coefficient table (R243): `o` coefficients, for the orders 0 to 4. -/
def coefRow (table : FixedCoef) (o : Nat) : List Int :=
  match o with
  | 1 => table.order1.toList
  | 2 => table.order2.toList
  | 3 => table.order3.toList
  | 4 => table.order4.toList
  | _ => []

/-! ### Prediction (R244) -/

/-- `sum <- sum + coef[j] * buf[i-1-j]` over all `j`; `newest` is the buffer read backwards. -/
def weightedSum (coef newest : List Int) : Int :=
  match coef, newest with
  | c :: cs, x :: xs => c * x + weightedSum cs xs
  | _, _ => 0

/-- The predicted samples, in order: `buf[i] <- (sum >> s) + res[i-o]`. -/
def predictTail (coef : List Int) (shift : Nat) (newest res : List Int) : List Int :=
  match res with
  | [] => []
  | r :: rest =>
    let x := asr (weightedSum coef newest) shift + r
    x :: predictTail coef shift (x :: newest) rest

/-- PREDICT (R244): the warm-up samples, then the predicted ones. -/
def reconstruct (warm coef : List Int) (shift : Nat) (res : List Int) : List Int :=
  warm ++ predictTail coef shift warm.reverse res

/-- Wasted-bits restoration (R250). -/
def restore (w : Nat) (buf : List Int) : List Int := if 0 < w then buf.map (shl · w) else buf

/-! ### Decorrelation -/

/-- Channel 1 of left/side (R221): left minus side. -/
def leftSideRight (left side : Int) : Int := left - side

/-- Channel 0 of right/side (R223): side plus right. -/
def rightSideLeft (side right : Int) : Int := side + right

/-- `combined` of mid/side (R224): `(mid << 1) | (side & 1)`. -/
def midSideCombined (mid side : Int) : Int := 2 * mid + side % 2

/-- Channel 0 of mid/side (R224). -/
def midSideLeft (mid side : Int) : Int := asr (midSideCombined mid side + side) 1

/-- Channel 1 of mid/side (R224). -/
def midSideRight (mid side : Int) : Int := asr (midSideCombined mid side - side) 1

/-! ### Strings -/

/-- A byte within a range of R152's table. -/
def inRange (lo hi : Nat) (b : Byte) : Bool := Nat.ble lo b.toNat && Nat.ble b.toNat hi

/-- R152's table: the default of `Utf8Valid`. -/
def utf8Valid (b : List Byte) : Bool :=
  match b with
  | [] => true
  | b0 :: t0 =>
    if inRange 0x00 0x7F b0 then utf8Valid t0
    else match t0 with
    | [] => false
    | b1 :: t1 =>
      if inRange 0xC2 0xDF b0 then inRange 0x80 0xBF b1 && utf8Valid t1
      else match t1 with
      | [] => false
      | b2 :: t2 =>
        if inRange 0xE0 0xEF b0 then
          inRange (if inRange 0xE0 0xE0 b0 then 0xA0 else 0x80)
            (if inRange 0xED 0xED b0 then 0x9F else 0xBF) b1 && inRange 0x80 0xBF b2 && utf8Valid t2
        else match t2 with
        | [] => false
        | b3 :: t3 =>
          inRange 0xF0 0xF4 b0 &&
            inRange (if inRange 0xF0 0xF0 b0 then 0x90 else 0x80)
              (if inRange 0xF4 0xF4 b0 then 0x8F else 0xBF) b1 &&
            inRange 0x80 0xBF b2 && inRange 0x80 0xBF b3 && utf8Valid t3

/-- `Utf8Valid` (R152), the predicate the configuration gives (D13). -/
def stringOk (rule : Utf8Rule) (b : List Byte) : Bool :=
  match rule with
  | .table => utf8Valid b
  | .other k => Config.otherUtf8 k b

/-- Split a Vorbis entry at its first `3D` (`=`), or nothing when it has none (R156). -/
def splitEntry (e : List Byte) : Option (List Byte × List Byte) :=
  match e with
  | [] => none
  | b :: rest =>
    if b = 0x3D#8 then some ([], rest)
    else match splitEntry rest with
      | none => none
      | some (name, value) => some (b :: name, value)

end Sys2Proof.Machine
end

