-- ==== Sys2Proof/Machine/Flags.lean ====
section
/-! DEFINITION. The one-bit conditions of FLACDEC (R28). There are no arithmetic flags: no carry,
overflow, zero or sign flag exists and no element sets one. -/

namespace Sys2Proof.Machine

open Sys2Proof

/-- Byte-aligned: `BR.nbits = 0` (R22). -/
def State.aligned (s : State) : Bool := s.br.nbits == 0

/-- `AT_END` (R140): aligned with the source exhausted. -/
def State.atEnd (s : State) : Bool := s.aligned && s.br.pos == s.srcLen

/-- `SI.valid` (R40). -/
def State.siValid (s : State) : Bool := s.si.valid

/-- The last-flag stored in a record (R162, R165). -/
def Record.isLast (r : Record) : Bool :=
  match r with
  | .streamInfo _ l _ => l
  | .vorbisComment _ l _ _ => l
  | .picture _ l _ _ _ _ _ _ _ _ => l
  | .application _ l _ _ => l
  | .unknown _ l => l

/-- The length stored in a record (R165). -/
def Record.length (r : Record) : Nat :=
  match r with
  | .streamInfo n _ _ => n
  | .vorbisComment n _ _ _ => n
  | .picture n _ _ _ _ _ _ _ _ _ => n
  | .application n _ _ _ => n
  | .unknown n _ => n

/-- The bit cursor `bp` (R23). -/
def State.bp (s : State) : Nat := 8 * s.br.pos - s.br.nbits

end Sys2Proof.Machine
end

