-- ==== Sys2Proof/Machine/BitReader.lean ====
section
/-! DEFINITION. The bit reader's primitives (spec/40_bitreader.md R130 to R140): each as a rule other
rules call, and as the meaning of its row. -/

namespace Sys2Proof.Machine

open Sys2Proof

/-! ### The primitives -/

/-- READ_UINT(n) (R131). -/
def readUint (n : Nat) : M Nat := do
  pulls n (pullsFor n (← reads (·.br.nbits)))
  let r ← reads (·.br)
  let nb := r.nbits - n
  writes (·.setBr ⟨r.pos, r.acc % 2 ^ nb, nb⟩)
  pure ((r.acc / 2 ^ nb) % 2 ^ n)

/-- READ_SINT(n) (R132). A field of no bits has no sign bit: refused (93 U25). -/
def readSint (n : Nat) : M Int :=
  if n = 0 then trap (.refuse .signedReadOfNoBits)
  else do
    let v ← readUint n
    pure (sext n v)

/-- ALIGN() (R135). -/
def align : M Unit := writes (·.dropBits)

/-- READ_BYTES(n) (R133). -/
def readBytes (n : Nat) : M (List Byte) := do
  align
  let p ← reads (·.br.pos)
  if p + n ≤ (← reads (·.srcLen)) then
    writes (·.setBr ⟨p + n, 0, 0⟩)
    reads (·.src.readMany p n)
  else raise (.unexpectedEnd p n)

/-- READ_BYTE_OR_EOS() (R134). -/
def readByteOrEos : M Ret := do
  align
  let p ← reads (·.br.pos)
  match (← reads (·.src.read p)) with
  | none => pure .eos
  | some b =>
    writes (·.setBr ⟨p + 1, 0, 0⟩)
    pure (.bytes [b])

/-- How many bits are left to read, a bound on every unary run (R351). -/
def State.bitsLeft (s : State) : Nat := s.br.nbits + 8 * (s.srcLen - s.br.pos)

/-- A unary run: how many bits equal to `b` come before the first other bit, which is consumed too.
`fuel` passes are enough when `fuel` exceeds the bits left; the last arm is then never reached, the
source having ended first (R351; log entry 15). -/
def unaryRun (b fuel : Nat) : M Nat :=
  match fuel with
  | 0 => do raise (.unexpectedEnd (← reads (·.br.pos)) 1)
  | fuel + 1 => do
    if (← readUint 1) = b then
      let q ← unaryRun b fuel
      pure (q + 1)
    else pure 0

/-- READ_RICE(k) (R136). -/
def readRice (k : Nat) : M Int := do
  let q ← unaryRun 0 ((← reads (·.bitsLeft)) + 1)
  let r ← readUint k
  pure (zigzag (q * 2 ^ k + r))

/-- READ_LE32() (R137). -/
def readLe32 : M Nat := do
  let b ← readBytes 4
  pure (leBytes b)

/-- READ_BE32() (R137). -/
def readBe32 : M Nat := do
  let b ← readBytes 4
  pure (beBytes b)

/-- A read without its effect on the reader: how `fetch` sees the word it names an element by, which
the element then reads itself (log entry 8). -/
def peek {α : Type} (m : M α) : M α := fun s =>
  match m s with
  | .ok v _ => .ok v s
  | .error t u => .error t u

/-- READ_UINT(n) without its effect on the reader. -/
def peekUint (n : Nat) : M Nat := peek (readUint n)

/-- `n` signed fields of `w` bits, in stream order. -/
def readSints (n w : Nat) : M (List Int) :=
  match n with
  | 0 => pure []
  | n + 1 => do
    let x ← readSint w
    let xs ← readSints n w
    pure (x :: xs)

/-- `n` codewords of parameter `k`, in stream order. -/
def readRices (n k : Nat) : M (List Int) :=
  match n with
  | 0 => pure []
  | n + 1 => do
    let x ← readRice k
    let xs ← readRices n k
    pure (x :: xs)

/-! ### The rows -/

/-- READ_UINT(n). -/
def execReadUint (n : Nat) (s : State) : Host.Outcome State Fault Refusal :=
  run (do pure (.nat (← readUint n))) s

/-- READ_SINT(n). -/
def execReadSint (n : Nat) (s : State) : Host.Outcome State Fault Refusal :=
  run (do pure (.int (← readSint n))) s

/-- READ_BYTES(n). -/
def execReadBytes (n : Nat) (s : State) : Host.Outcome State Fault Refusal :=
  run (do pure (.bytes (← readBytes n))) s

/-- READ_BYTE_OR_EOS(). -/
def execReadByteOrEos (s : State) : Host.Outcome State Fault Refusal := run readByteOrEos s

/-- ALIGN(). -/
def execAlign (s : State) : Host.Outcome State Fault Refusal := runUnit align s

/-- READ_RICE(k). -/
def execReadRice (k : Nat) (s : State) : Host.Outcome State Fault Refusal :=
  run (do pure (.int (← readRice k))) s

/-- AT_END (R140). -/
def execAtEnd (s : State) : Host.Outcome State Fault Refusal :=
  run (do pure (.bool (← reads (·.atEnd)))) s

/-- READ_LE32(). -/
def execReadLe32 (s : State) : Host.Outcome State Fault Refusal :=
  run (do pure (.nat (← readLe32))) s

/-- READ_BE32(). -/
def execReadBe32 (s : State) : Host.Outcome State Fault Refusal :=
  run (do pure (.nat (← readBe32))) s

/-- RICE (R111, R136): one codeword with the parameter of the current partition. -/
def execRice (s : State) : Host.Outcome State Fault Refusal :=
  run (do pure (.int (← readRice (← reads (·.rs.k))))) s

end Sys2Proof.Machine
end

