-- ==== Sys2Proof/Machine/Residual.lean ====
section
/-! DEFINITION. The Rice-partitioned residual decoder (spec/45_residual.md R265 to R272). As rows of
their own its elements take the block size and the predictor order from `F.N` and `S.order`. -/

namespace Sys2Proof.Machine

open Sys2Proof

/-! ### The elements -/

/-- Write `RS.method` and `RS.pbits` (R266). -/
def latchMethod (m : BitVec 2) (pbits : Nat) : M Unit := do
  let r ← reads (·.rs)
  writes (·.setRs ⟨m, pbits, r.p, r.k, r.res⟩)

/-- What a coding method selects once its two bits are read (R266). -/
def methodElement (m : BitVec 2) : M Unit := do
  match methodKind m with
  | .rice4 => latchMethod m 4
  | .rice5 => latchMethod m 5
  | .invalid =>
    latchMethod m (← reads (·.rs.pbits))
    raise (.invalidCodingMethod m.toNat)

/-- RES.METHOD (R266). -/
def residualMethod : M Unit := do
  let m ← readUint 2
  methodElement (BitVec.ofNat 2 m)

/-- RES.PORDER (R267). -/
def partitionOrder (n order : Nat) : M Unit := do
  let p ← readUint 4
  let r ← reads (·.rs)
  writes (·.setRs ⟨r.method, r.pbits, BitVec.ofNat 4 p, r.k, r.res⟩)
  if n % 2 ^ p = 0 then pure () else raise (.partitionMismatch n p order)

/-- Write `RS.k` (R269). -/
def latchParam (k : Nat) : M Unit := do
  let r ← reads (·.rs)
  writes (·.setRs ⟨r.method, r.pbits, r.p, k, r.res⟩)

/-- RES.ESCAPE after its sentinel (R269): an explicit 5-bit value replaces the parameter. -/
def escapeParam : M Unit := do
  let k ← readUint 5
  latchParam k

/-- RES.PARAM and RES.ESCAPE (R269). -/
def partitionParam : M Unit := do
  let pbits ← reads (·.rs.pbits)
  let k ← readUint pbits
  latchParam k
  if k = 2 ^ pbits - 1 then escapeParam else pure ()

/-- Write `RS.res` (R270). -/
def setResiduals (l : List Int) : M Unit := do
  let r ← reads (·.rs)
  writes (·.setRs ⟨r.method, r.pbits, r.p, r.k, l⟩)

/-- RES.VALUES (R270): `cnt` codewords, appended in partition order. -/
def partitionValues (cnt : Nat) : M Unit := do
  let xs ← readRices cnt (← reads (·.rs.k))
  setResiduals ((← reads (·.rs.res)) ++ xs)

/-- One partition (R268 to R270): its count is checked before its parameter is read. -/
def partition (n p order taken : Nat) : M Unit := do
  if taken ≤ n / 2 ^ p then
    partitionParam
    partitionValues (n / 2 ^ p - taken)
  else raise (.partitionMismatch n p order)

/-- The partitions after the first, `k` of them (R265, R268). -/
def partitions (n p order k : Nat) : M Unit :=
  match k with
  | 0 => pure ()
  | k + 1 => do
    partition n p order 0
    partitions n p order k

/-- DECODE_RESIDUAL(N, o) (R265). -/
def decodeResidual (n order : Nat) : M (List Int) := do
  residualMethod
  partitionOrder n order
  let p := (← reads (·.rs.p)).toNat
  setResiduals []
  partition n p order order
  partitions n p order (2 ^ p - 1)
  reads (·.rs.res)

/-! ### The rows -/

/-- RES.RICE4: the method bits have selected it. -/
def execResRice4 (s : State) : Host.Outcome State Fault Refusal := runUnit (methodElement 0) s

/-- RES.RICE5. -/
def execResRice5 (s : State) : Host.Outcome State Fault Refusal := runUnit (methodElement 1) s

/-- RES.INVALID_METHOD. -/
def execResInvalidMethod (x : BitVec 1) (s : State) : Host.Outcome State Fault Refusal :=
  runUnit (methodElement (BitVec.ofNat 2 (2 + x.toNat))) s

/-- RES.PORDER. -/
def execResPorder (s : State) : Host.Outcome State Fault Refusal :=
  runUnit (do partitionOrder (← reads (·.f.n)) (← reads (·.sub.order))) s

/-- RES.PARAM: the field held `k`, not all ones. DESIGN CHOICE (log entry 8): the field's width, R269's
operand `RS.pbits`, counts where the field is read, so a row run by itself reads neither `RS.pbits` nor its
own `_wide`, which is its encoding's; in DECODE_RESIDUAL the field is `RS.pbits` wide (`partitionParam`). -/
def execResParam (_wide : Bool) (k : BitVec 5) (s : State) : Host.Outcome State Fault Refusal :=
  runUnit (latchParam k.toNat) s

/-- RES.ESCAPE after the 4-bit sentinel. -/
def execResEscape4 (s : State) : Host.Outcome State Fault Refusal := runUnit escapeParam s

/-- RES.ESCAPE after the 5-bit sentinel. -/
def execResEscape5 (s : State) : Host.Outcome State Fault Refusal := runUnit escapeParam s

/-- RES.VALUES. DESIGN CHOICE (log entry 8): the index `n` is local to R265, whose `n <- 0` no row performs,
so a row run by itself has none; the values go after those `RS.res` holds, which only the whole of R265
empties. -/
def execResValues (cnt : Nat) (s : State) : Host.Outcome State Fault Refusal :=
  runUnit (partitionValues cnt) s

end Sys2Proof.Machine
end

