-- ==== Sys2Proof/Machine/Subframe.lean ====
section
/-! DEFINITION. The subframe decoder (spec/44_subframe.md R235 to R252). A subframe row's meaning is
everything of R235 that follows the type code: wasted bits, the depth test, the body, restoration. As
rows of their own they take the block size and the declared depth from `F.N` and `S.d`. -/

namespace Sys2Proof.Machine

open Sys2Proof

/-! ### Register writes -/

/-- `S.d <- d` (R235). -/
def setDepth (d : Nat) : M Unit := do
  let r ← reads (·.sub)
  writes (·.setSub ⟨d, r.type, r.w, r.e, r.order, r.prec, r.shift, r.coef, r.buf⟩)

/-- `S.type <- t` and `S.order` (R235: the order is 0 for types 0 and 1). -/
def setType (t : BitVec 6) (order : Nat) : M Unit := do
  let r ← reads (·.sub)
  writes (·.setSub ⟨r.d, t, r.w, r.e, order, r.prec, r.shift, r.coef, r.buf⟩)

/-- `S.w <- w` (R235). -/
def setWasted (w : Nat) : M Unit := do
  let r ← reads (·.sub)
  writes (·.setSub ⟨r.d, r.type, w, r.e, r.order, r.prec, r.shift, r.coef, r.buf⟩)

/-- `S.e <- e` (R235). -/
def setEffective (e : Int) : M Unit := do
  let r ← reads (·.sub)
  writes (·.setSub ⟨r.d, r.type, r.w, e, r.order, r.prec, r.shift, r.coef, r.buf⟩)

/-- `S.prec`, `S.shift` (R245). -/
def setLpcParams (prec : Nat) (shift : Int) : M Unit := do
  let r ← reads (·.sub)
  writes (·.setSub ⟨r.d, r.type, r.w, r.e, r.order, prec, shift, r.coef, r.buf⟩)

/-- `S.coef` (R245). -/
def setCoef (coef : List Int) : M Unit := do
  let r ← reads (·.sub)
  writes (·.setSub ⟨r.d, r.type, r.w, r.e, r.order, r.prec, r.shift, coef, r.buf⟩)

/-- `S.buf` (R235). -/
def setBuf (buf : List Int) : M Unit := do
  let r ← reads (·.sub)
  writes (·.setSub ⟨r.d, r.type, r.w, r.e, r.order, r.prec, r.shift, r.coef, buf⟩)

/-! ### Wasted bits and depth -/

/-- READ_WASTED() (R237): the flag bit counts as the first 1 of the run (R104). -/
def readWasted : M Nat := do
  let flag ← readUint 1
  if flag = 1 then
    let m ← unaryRun 1 ((← reads (·.bitsLeft)) + 1)
    pure (m + 1)
  else pure 0

/-- `S.w`, `S.e` and the depth test (R235, R238). Returns the effective depth. -/
def effectiveDepth : M Nat := do
  let w ← readWasted
  setWasted w
  let d ← reads (·.sub.d)
  setEffective ((d : Int) - w)
  if w < d then pure (d - w) else raise (.invalidWastedBits d w)

/-! ### The four strategies -/

/-- SF_CONSTANT(N, e) (R240). -/
def sfConstant (n e : Nat) : M (List Int) := do
  let v ← readSint e
  pure (List.replicate n v)

/-- SF_VERBATIM(N, e) (R241). -/
def sfVerbatim (n e : Nat) : M (List Int) := readSints n e

/-- SF_FIXED(N, e, o) (R242) over a coefficient table. -/
def sfFixedWith (table : FixedCoef) (n e o : Nat) : M (List Int) := do
  let warm ← readSints o e
  let res ← decodeResidual n o
  pure (reconstruct warm (coefRow table o) 0 res)

/-- SF_FIXED(N, e, o) with the configuration's table (R243). -/
def sfFixed (n e o : Nat) : M (List Int) := do
  sfFixedWith (← reads (·.cfg.fixedCoef)) n e o

/-- SF_LPC(N, e, o) (R245 to R248). -/
def sfLpc (n e o : Nat) : M (List Int) := do
  let warm ← readSints o e
  let precm1 ← readUint 4
  let shift ← readSint 5
  setLpcParams (precm1 + 1) shift
  if shift < 0 then raise (.invalidLpcShift shift)
  else
    let coef ← readSints o (precm1 + 1)
    setCoef coef
    let res ← decodeResidual n o
    pure (reconstruct warm coef shift.toNat res)

/-- SF.UNSUPPORTED (R249). -/
def sfUnsupported (t : BitVec 6) : M (List Int) := raise (.unsupportedSubframeType t.toNat)

/-- DECODE_SUBFRAME from the wasted bits on (R235, R250), with the body the type selects. -/
def subframeElement (t : BitVec 6) (order : Nat) (body : Nat → M (List Int)) : M Unit := do
  setType t order
  let e ← effectiveDepth
  let buf ← body e
  setBuf (restore (← reads (·.sub.w)) buf)

/-- The dispatch of R235. -/
def subframeRest (t : BitVec 6) (n : Nat) : M Unit :=
  match subframeKind t with
  | .constant => subframeElement t 0 (sfConstant n)
  | .verbatim => subframeElement t 0 (sfVerbatim n)
  | .fixed o => subframeElement t o (sfFixed n · o)
  | .lpc o => subframeElement t o (sfLpc n · o)
  | .unsupported => subframeElement t 0 (fun _ => sfUnsupported t)

/-- DECODE_SUBFRAME(N, d) (R235, R236). -/
def decodeSubframe (n d : Nat) : M (List Int) := do
  setDepth d
  let _ ← readUint 1
  let t ← readUint 6
  subframeRest (BitVec.ofNat 6 t) n
  reads (·.sub.buf)

/-! ### The rows -/

/-- SF.CONSTANT. -/
def execSfConstant (s : State) : Host.Outcome State Fault Refusal :=
  runUnit (subframeElement 0 0 (sfConstant s.f.n)) s

/-- SF.VERBATIM. -/
def execSfVerbatim (s : State) : Host.Outcome State Fault Refusal :=
  runUnit (subframeElement 1 0 (sfVerbatim s.f.n)) s

/-- SF.FIXED, order 0. -/
def execSfFixed0 (s : State) : Host.Outcome State Fault Refusal :=
  runUnit (subframeElement 8 0 (sfFixed s.f.n · 0)) s

/-- SF.FIXED, order 1. -/
def execSfFixed1 (s : State) : Host.Outcome State Fault Refusal :=
  runUnit (subframeElement 9 1 (sfFixed s.f.n · 1)) s

/-- SF.FIXED, order 2. -/
def execSfFixed2 (s : State) : Host.Outcome State Fault Refusal :=
  runUnit (subframeElement 10 2 (sfFixed s.f.n · 2)) s

/-- SF.FIXED, order 3. -/
def execSfFixed3 (s : State) : Host.Outcome State Fault Refusal :=
  runUnit (subframeElement 11 3 (sfFixed s.f.n · 3)) s

/-- SF.FIXED, order 4. -/
def execSfFixed4 (s : State) : Host.Outcome State Fault Refusal :=
  runUnit (subframeElement 12 4 (sfFixed s.f.n · 4)) s

/-- SF.LPC, order `x + 1`. -/
def execSfLpc (x : BitVec 5) (s : State) : Host.Outcome State Fault Refusal :=
  runUnit (subframeElement (BitVec.ofNat 6 (32 + x.toNat)) (x.toNat + 1)
    (sfLpc s.f.n · (x.toNat + 1))) s

/-- The five SF.UNSUPPORTED rows share this: the wasted bits are consumed and checked, then the fault
(R249). -/
def unsupportedElement (t : Nat) : M Unit :=
  subframeElement (BitVec.ofNat 6 t) 0 (fun _ => sfUnsupported (BitVec.ofNat 6 t))

/-- SF.UNSUPPORTED, types 2 and 3. -/
def execSfUnsupported2 (x : BitVec 1) (s : State) : Host.Outcome State Fault Refusal :=
  runUnit (unsupportedElement (2 + x.toNat)) s

/-- SF.UNSUPPORTED, types 4 to 7. -/
def execSfUnsupported4 (x : BitVec 2) (s : State) : Host.Outcome State Fault Refusal :=
  runUnit (unsupportedElement (4 + x.toNat)) s

/-- SF.UNSUPPORTED, type 13. -/
def execSfUnsupported13 (s : State) : Host.Outcome State Fault Refusal :=
  runUnit (unsupportedElement 13) s

/-- SF.UNSUPPORTED, types 14 and 15. -/
def execSfUnsupported14 (x : BitVec 1) (s : State) : Host.Outcome State Fault Refusal :=
  runUnit (unsupportedElement (14 + x.toNat)) s

/-- SF.UNSUPPORTED, types 16 to 31. -/
def execSfUnsupported16 (x : BitVec 4) (s : State) : Host.Outcome State Fault Refusal :=
  runUnit (unsupportedElement (16 + x.toNat)) s

/-- READ_WASTED: the count is returned and latched in `S.w` (R235, R237). -/
def execReadWasted (s : State) : Host.Outcome State Fault Refusal :=
  run (do
    let w ← readWasted
    setWasted w
    pure (.nat w)) s

/-- PREDICT(N, o, warm, coef, s, res) (R244): `o` warm-up samples, `o` coefficients and `N - o`
residuals; the samples are built in `S.buf` (R42). -/
def execPredict (n o : Nat) (warm coef : List Int) (shift : Nat) (res : List Int) (s : State) :
    Host.Outcome State Fault Refusal :=
  run (do
    let buf := reconstruct (warm.take o) (coef.take o) shift (res.take (n - o))
    setBuf buf
    pure (.ints buf)) s

end Sys2Proof.Machine
end

