-- ==== Sys2Proof/Machine/Decorrelation.lean ====
section
/-! DEFINITION. Channel assignment and decorrelation (spec/43_decorrelation.md R220 to R228). As rows
of their own the channel elements take `N` and `b` from `F.N` and `SI.bps`. -/

namespace Sys2Proof.Machine

open Sys2Proof

/-! ### The assignments -/

/-- `F.nch <- k` (R41). -/
def setChannels (k : Nat) : M Unit := do
  let f ← reads (·.f)
  writes (·.setF ⟨f.bsc, f.src, f.ca, f.ssc, f.n, k⟩)

/-- The frame's channels replace those of the frame before (R44: entries outside the frame hold no
value; R203). -/
def setSamples (xs : List (List Int)) : M Unit := writes (·.setCh xs)

/-- `k` subframes at depth `b`, each written to the next channel (R220). -/
def independent (n b k : Nat) : M Unit :=
  match k with
  | 0 => pure ()
  | k + 1 => do
    let x ← decodeSubframe n b
    writes (·.addChannel x)
    independent n b k

/-- CA_INDEP(ca, N, b) (R220). -/
def caIndep (ca n b : Nat) : M Unit := do
  setChannels (ca + 1)
  setSamples []
  independent n b (ca + 1)

/-- CA_LEFT_SIDE(N, b) (R221, R222). -/
def caLeftSide (n b : Nat) : M Unit := do
  setChannels 2
  let left ← decodeSubframe n b
  let side ← decodeSubframe n (b + 1)
  setSamples [left, List.zipWith leftSideRight left side]

/-- CA_RIGHT_SIDE(N, b) (R223, R222). -/
def caRightSide (n b : Nat) : M Unit := do
  setChannels 2
  let side ← decodeSubframe n (b + 1)
  let right ← decodeSubframe n b
  setSamples [List.zipWith rightSideLeft side right, right]

/-- CA_MID_SIDE(N, b) (R224, R222). -/
def caMidSide (n b : Nat) : M Unit := do
  setChannels 2
  let mid ← decodeSubframe n b
  let side ← decodeSubframe n (b + 1)
  setSamples [List.zipWith midSideLeft mid side, List.zipWith midSideRight mid side]

/-- R225. -/
def caInvalid (ca : Nat) : M Unit := raise (.invalidChannelAssignment ca)

/-- DECODE_CHANNELS(ca, N, b) (R228). -/
def decodeChannels (ca : BitVec 4) (n b : Nat) : M Unit :=
  match channelKind ca with
  | .indep code => caIndep code n b
  | .leftSide => caLeftSide n b
  | .rightSide => caRightSide n b
  | .midSide => caMidSide n b
  | .invalid => caInvalid ca.toNat

/-! ### The rows -/

/-- An assignment with `N = F.N` and `b = SI.bps`, which must be readable (R40). -/
def withFrame (body : Nat → Nat → M Unit) : M Unit := do
  let b ← readBps
  body (← reads (·.f.n)) b

/-- CA.INDEP, code 0. -/
def execCaIndep0 (s : State) : Host.Outcome State Fault Refusal := runUnit (withFrame (caIndep 0)) s

/-- CA.INDEP, code 1. -/
def execCaIndep1 (s : State) : Host.Outcome State Fault Refusal := runUnit (withFrame (caIndep 1)) s

/-- CA.INDEP, code 2. -/
def execCaIndep2 (s : State) : Host.Outcome State Fault Refusal := runUnit (withFrame (caIndep 2)) s

/-- CA.INDEP, code 3. -/
def execCaIndep3 (s : State) : Host.Outcome State Fault Refusal := runUnit (withFrame (caIndep 3)) s

/-- CA.INDEP, code 4. -/
def execCaIndep4 (s : State) : Host.Outcome State Fault Refusal := runUnit (withFrame (caIndep 4)) s

/-- CA.INDEP, code 5. -/
def execCaIndep5 (s : State) : Host.Outcome State Fault Refusal := runUnit (withFrame (caIndep 5)) s

/-- CA.INDEP, code 6. -/
def execCaIndep6 (s : State) : Host.Outcome State Fault Refusal := runUnit (withFrame (caIndep 6)) s

/-- CA.INDEP, code 7. -/
def execCaIndep7 (s : State) : Host.Outcome State Fault Refusal := runUnit (withFrame (caIndep 7)) s

/-- CA.LEFT_SIDE. -/
def execCaLeftSide (s : State) : Host.Outcome State Fault Refusal := runUnit (withFrame caLeftSide) s

/-- CA.RIGHT_SIDE. -/
def execCaRightSide (s : State) : Host.Outcome State Fault Refusal := runUnit (withFrame caRightSide) s

/-- CA.MID_SIDE. -/
def execCaMidSide (s : State) : Host.Outcome State Fault Refusal := runUnit (withFrame caMidSide) s

/-- CA.INVALID, code 11. -/
def execCaInvalid11 (s : State) : Host.Outcome State Fault Refusal := runUnit (caInvalid 11) s

/-- CA.INVALID, code 12. -/
def execCaInvalid12 (s : State) : Host.Outcome State Fault Refusal := runUnit (caInvalid 12) s

/-- CA.INVALID, code 13. -/
def execCaInvalid13 (s : State) : Host.Outcome State Fault Refusal := runUnit (caInvalid 13) s

/-- CA.INVALID, code 14. -/
def execCaInvalid14 (s : State) : Host.Outcome State Fault Refusal := runUnit (caInvalid 14) s

/-- CA.INVALID, code 15. -/
def execCaInvalid15 (s : State) : Host.Outcome State Fault Refusal := runUnit (caInvalid 15) s

end Sys2Proof.Machine
end

