-- ==== Sys2Proof/Machine/Frame.lean ====
section
/-! DEFINITION. The frame header and footer (spec/42_frame.md R192 to R200): the steps of DECODE_FRAME
but for the channels, each as a rule and as the meaning of its rows. -/

namespace Sys2Proof.Machine

open Sys2Proof

/-! ### The steps -/

/-- Steps 1 and 2 (R192, R193): the sync test, then seven reads that make up the 32-bit word; the
two reserved bits and the blocking strategy are consumed and held nowhere (R41). -/
def frameSync : M Unit := do
  let sync ← readUint 14
  if sync = 0x3FFE then
    let _ ← readUint 1
    let _ ← readUint 1
    let bsc ← readUint 4
    let src ← readUint 4
    let ca ← readUint 4
    let ssc ← readUint 3
    let _ ← readUint 1
    let f ← reads (·.f)
    writes (·.setF ⟨BitVec.ofNat 4 bsc, BitVec.ofNat 4 src, BitVec.ofNat 4 ca, BitVec.ofNat 3 ssc,
      f.n, f.nch⟩)
  else raise (.invalidSync sync)

/-- The loop of SKIP_FRAME_NUMBER (R194): while `t >= 0xC0`, a continuation byte and the masked left
shift. A byte value leaves the loop after at most 7 passes, so 8 are enough. -/
def numberLoop (fuel t : Nat) : M Unit :=
  match fuel with
  | 0 => pure ()
  | fuel + 1 =>
    if 0xC0 ≤ t then do
      let _ ← readUint 8
      numberLoop fuel (t * 2 % 256)
    else pure ()

/-- SKIP_FRAME_NUMBER after its first byte (R194). -/
def numberTail (t : Nat) : M Unit := numberLoop 8 t

/-- Step 3, SKIP_FRAME_NUMBER() (R194). -/
def skipFrameNumber : M Unit := do
  let t ← readUint 8
  numberTail t

/-- RESOLVE_BLOCK_SIZE(c) (R196). -/
def resolveBlockSize (c : BitVec 4) : M Nat :=
  if c.toNat = 0 then raise (.invalidBlockSizeCode c.toNat)
  else if c.toNat = 6 then do
    let v ← readUint 8
    pure (v + 1)
  else if c.toNat = 7 then do
    let v ← readUint 16
    pure (v + 1)
  else pure (fixedBlockSize c.toNat)

/-- Step 4 (R190, R196): `F.N <- RESOLVE_BLOCK_SIZE(c)`. -/
def blockSizeElement (c : BitVec 4) : M Unit := do
  let n ← resolveBlockSize c
  let f ← reads (·.f)
  writes (·.setF ⟨f.bsc, f.src, f.ca, f.ssc, n, f.nch⟩)

/-- Step 5, SKIP_SAMPLE_RATE(c) (R197). -/
def skipSampleRate (c : BitVec 4) : M Unit := do
  let _ ← readUint (sampleRateBits c.toNat)

/-- Step 6 (R198): the header checksum is read and discarded. -/
def headerChecksum : M Unit := do
  let _ ← readUint 8

/-- The footer (R200): alignment, and the frame checksum read and discarded. -/
def frameFooter : M Unit := do
  align
  let _ ← readUint 16

/-! ### The rows -/

/-- FH.SYNC. -/
def execFhSync (s : State) : Host.Outcome State Fault Refusal := runUnit frameSync s

/-- FH.BLOCKSIZE, code 0. -/
def execFhBlocksize0 (s : State) : Host.Outcome State Fault Refusal := runUnit (blockSizeElement 0) s

/-- FH.BLOCKSIZE, code 1. -/
def execFhBlocksize1 (s : State) : Host.Outcome State Fault Refusal := runUnit (blockSizeElement 1) s

/-- FH.BLOCKSIZE, code 2. -/
def execFhBlocksize2 (s : State) : Host.Outcome State Fault Refusal := runUnit (blockSizeElement 2) s

/-- FH.BLOCKSIZE, code 3. -/
def execFhBlocksize3 (s : State) : Host.Outcome State Fault Refusal := runUnit (blockSizeElement 3) s

/-- FH.BLOCKSIZE, code 4. -/
def execFhBlocksize4 (s : State) : Host.Outcome State Fault Refusal := runUnit (blockSizeElement 4) s

/-- FH.BLOCKSIZE, code 5. -/
def execFhBlocksize5 (s : State) : Host.Outcome State Fault Refusal := runUnit (blockSizeElement 5) s

/-- FH.BLOCKSIZE, code 6. -/
def execFhBlocksize6 (s : State) : Host.Outcome State Fault Refusal := runUnit (blockSizeElement 6) s

/-- FH.BLOCKSIZE, code 7. -/
def execFhBlocksize7 (s : State) : Host.Outcome State Fault Refusal := runUnit (blockSizeElement 7) s

/-- FH.BLOCKSIZE, code 8. -/
def execFhBlocksize8 (s : State) : Host.Outcome State Fault Refusal := runUnit (blockSizeElement 8) s

/-- FH.BLOCKSIZE, code 9. -/
def execFhBlocksize9 (s : State) : Host.Outcome State Fault Refusal := runUnit (blockSizeElement 9) s

/-- FH.BLOCKSIZE, code 10. -/
def execFhBlocksize10 (s : State) : Host.Outcome State Fault Refusal := runUnit (blockSizeElement 10) s

/-- FH.BLOCKSIZE, code 11. -/
def execFhBlocksize11 (s : State) : Host.Outcome State Fault Refusal := runUnit (blockSizeElement 11) s

/-- FH.BLOCKSIZE, code 12. -/
def execFhBlocksize12 (s : State) : Host.Outcome State Fault Refusal := runUnit (blockSizeElement 12) s

/-- FH.BLOCKSIZE, code 13. -/
def execFhBlocksize13 (s : State) : Host.Outcome State Fault Refusal := runUnit (blockSizeElement 13) s

/-- FH.BLOCKSIZE, code 14. -/
def execFhBlocksize14 (s : State) : Host.Outcome State Fault Refusal := runUnit (blockSizeElement 14) s

/-- FH.BLOCKSIZE, code 15. -/
def execFhBlocksize15 (s : State) : Host.Outcome State Fault Refusal := runUnit (blockSizeElement 15) s

/-- FH.SAMPLERATE, code 0. -/
def execFhSamplerate0 (s : State) : Host.Outcome State Fault Refusal := runUnit (skipSampleRate 0) s

/-- FH.SAMPLERATE, code 1. -/
def execFhSamplerate1 (s : State) : Host.Outcome State Fault Refusal := runUnit (skipSampleRate 1) s

/-- FH.SAMPLERATE, code 2. -/
def execFhSamplerate2 (s : State) : Host.Outcome State Fault Refusal := runUnit (skipSampleRate 2) s

/-- FH.SAMPLERATE, code 3. -/
def execFhSamplerate3 (s : State) : Host.Outcome State Fault Refusal := runUnit (skipSampleRate 3) s

/-- FH.SAMPLERATE, code 4. -/
def execFhSamplerate4 (s : State) : Host.Outcome State Fault Refusal := runUnit (skipSampleRate 4) s

/-- FH.SAMPLERATE, code 5. -/
def execFhSamplerate5 (s : State) : Host.Outcome State Fault Refusal := runUnit (skipSampleRate 5) s

/-- FH.SAMPLERATE, code 6. -/
def execFhSamplerate6 (s : State) : Host.Outcome State Fault Refusal := runUnit (skipSampleRate 6) s

/-- FH.SAMPLERATE, code 7. -/
def execFhSamplerate7 (s : State) : Host.Outcome State Fault Refusal := runUnit (skipSampleRate 7) s

/-- FH.SAMPLERATE, code 8. -/
def execFhSamplerate8 (s : State) : Host.Outcome State Fault Refusal := runUnit (skipSampleRate 8) s

/-- FH.SAMPLERATE, code 9. -/
def execFhSamplerate9 (s : State) : Host.Outcome State Fault Refusal := runUnit (skipSampleRate 9) s

/-- FH.SAMPLERATE, code 10. -/
def execFhSamplerate10 (s : State) : Host.Outcome State Fault Refusal := runUnit (skipSampleRate 10) s

/-- FH.SAMPLERATE, code 11. -/
def execFhSamplerate11 (s : State) : Host.Outcome State Fault Refusal := runUnit (skipSampleRate 11) s

/-- FH.SAMPLERATE, code 12. -/
def execFhSamplerate12 (s : State) : Host.Outcome State Fault Refusal := runUnit (skipSampleRate 12) s

/-- FH.SAMPLERATE, code 13. -/
def execFhSamplerate13 (s : State) : Host.Outcome State Fault Refusal := runUnit (skipSampleRate 13) s

/-- FH.SAMPLERATE, code 14. -/
def execFhSamplerate14 (s : State) : Host.Outcome State Fault Refusal := runUnit (skipSampleRate 14) s

/-- FH.SAMPLERATE, code 15. -/
def execFhSamplerate15 (s : State) : Host.Outcome State Fault Refusal := runUnit (skipSampleRate 15) s

/-- FH.NUMBER, first byte 00 plus `x`. -/
def execFhNumber00 (x : BitVec 7) (s : State) : Host.Outcome State Fault Refusal :=
  runUnit (numberTail (0x00 + x.toNat)) s

/-- FH.NUMBER, first byte 80 plus `x`. -/
def execFhNumber80 (x : BitVec 6) (s : State) : Host.Outcome State Fault Refusal :=
  runUnit (numberTail (0x80 + x.toNat)) s

/-- FH.NUMBER, first byte C0 plus `x`. -/
def execFhNumberC0 (x : BitVec 5) (s : State) : Host.Outcome State Fault Refusal :=
  runUnit (numberTail (0xC0 + x.toNat)) s

/-- FH.NUMBER, first byte E0 plus `x`. -/
def execFhNumberE0 (x : BitVec 4) (s : State) : Host.Outcome State Fault Refusal :=
  runUnit (numberTail (0xE0 + x.toNat)) s

/-- FH.NUMBER, first byte F0 plus `x`. -/
def execFhNumberF0 (x : BitVec 3) (s : State) : Host.Outcome State Fault Refusal :=
  runUnit (numberTail (0xF0 + x.toNat)) s

/-- FH.NUMBER, first byte F8 plus `x`. -/
def execFhNumberF8 (x : BitVec 2) (s : State) : Host.Outcome State Fault Refusal :=
  runUnit (numberTail (0xF8 + x.toNat)) s

/-- FH.NUMBER, first byte FC plus `x`. -/
def execFhNumberFC (x : BitVec 1) (s : State) : Host.Outcome State Fault Refusal :=
  runUnit (numberTail (0xFC + x.toNat)) s

/-- FH.NUMBER, first byte FE. -/
def execFhNumberFE (s : State) : Host.Outcome State Fault Refusal :=
  runUnit (numberTail 0xFE) s

/-- FH.NUMBER, first byte FF. -/
def execFhNumberFF (s : State) : Host.Outcome State Fault Refusal :=
  runUnit (numberTail 0xFF) s

/-- FH.CRC8. -/
def execFhCrc8 (s : State) : Host.Outcome State Fault Refusal := runUnit headerChecksum s

/-- FH.FOOTER. -/
def execFhFooter (s : State) : Host.Outcome State Fault Refusal := runUnit frameFooter s

end Sys2Proof.Machine
end

