-- ==== Sys2Proof/Machine/Metadata.lean ====
section
/-! DEFINITION. The metadata block parser (spec/41_metadata.md R150 to R165). A block row's meaning is
everything of R151 that follows its header word: the first-block tests, the body, the record. -/

namespace Sys2Proof.Machine

open Sys2Proof

/-- `raise MalformedBlock` with the block's index and type (R301, R163). -/
def malformed {α : Type} (type : Nat) (reason : BlockReason) : M α := do
  raise (.malformedBlock (← reads (·.mdIndex)) type reason)

/-- TAKE(n, end) (R154): the overrun test comes before the read. -/
def take (type n fin : Nat) : M (List Byte) := do
  let p ← reads (·.br.pos)
  if p + n ≤ fin then readBytes n else malformed type (.innerOverrun n (fin - p))

/-- TAKE_LE32(end) (R154). -/
def takeLe32 (type fin : Nat) : M Nat := do
  let b ← take type 4 fin
  pure (leBytes b)

/-- TAKE_BE32(end) (R154). -/
def takeBe32 (type fin : Nat) : M Nat := do
  let b ← take type 4 fin
  pure (beBytes b)

/-- A string field: TAKE, then the UTF-8 test (R152, R156, R158), whose fault names the field. -/
def takeString (type n fin : Nat) (field : StringField) : M (List Byte) := do
  let b ← take type n fin
  if stringOk (← reads (·.cfg.utf8)) b then pure b else malformed type (.notUtf8 field)

/-- The body must end exactly at `end` (R94, R95, R156, R158). -/
def endAt (type length fin : Nat) : M Unit := do
  let p ← reads (·.br.pos)
  if p = fin then pure () else malformed type (.leftOver length (p - (fin - length)))

/-! ### The five variants -/

/-- PARSE_STREAMINFO(length) (R155, R93): the nine registers are loaded together. -/
def parseStreaminfo (type length : Nat) (last : Bool) : M Record := do
  if length = streaminfoLen then
    let minBlock ← readUint 16
    let maxBlock ← readUint 16
    let minFrame ← readUint 24
    let maxFrame ← readUint 24
    let rate ← readUint 20
    let channels ← readUint 3
    let bps ← readUint 5
    let total ← readUint 36
    let md5 ← readBytes 16
    let si : StreamInfo :=
      ⟨true, BitVec.ofNat 16 minBlock, BitVec.ofNat 16 maxBlock, BitVec.ofNat 24 minFrame,
        BitVec.ofNat 24 maxFrame, BitVec.ofNat 20 rate, channels + 1, bps + 1,
        BitVec.ofNat 36 total, md5⟩
    writes (·.setSi si)
    pure (.streamInfo length last si)
  else malformed type (.streaminfoLength length)

/-- The entries of a VorbisComment (R156): `count` of them, the first having index `i`. -/
def parseEntries (type fin count i : Nat) : M (List (List Byte × List Byte)) :=
  match count with
  | 0 => pure []
  | count + 1 => do
    let n ← takeLe32 type fin
    let e ← takeString type n fin (.entry i)
    match splitEntry e with
    | none => malformed type (.entryWithoutEquals i)
    | some entry =>
      let rest ← parseEntries type fin count (i + 1)
      pure (entry :: rest)

/-- PARSE_VORBIS_COMMENT(length, end) (R156, R94). -/
def parseVorbisComment (type length fin : Nat) (last : Bool) : M Record := do
  let vlen ← takeLe32 type fin
  let vendor ← takeString type vlen fin .vendor
  let count ← takeLe32 type fin
  let entries ← parseEntries type fin count 0
  endAt type length fin
  pure (.vorbisComment length last vendor entries)

/-- PARSE_PICTURE(length, end) (R158, R95). -/
def parsePicture (type length fin : Nat) (last : Bool) : M Record := do
  let ptype ← takeBe32 type fin
  if ptype ≤ picTypeMax then
    let mlen ← takeBe32 type fin
    let mime ← takeString type mlen fin .mime
    let dlen ← takeBe32 type fin
    let desc ← takeString type dlen fin .description
    let width ← takeBe32 type fin
    let height ← takeBe32 type fin
    let depth ← takeBe32 type fin
    let colors ← takeBe32 type fin
    let n ← takeBe32 type fin
    let data ← take type n fin
    endAt type length fin
    pure (.picture length last ptype mime desc width height depth colors data)
  else malformed type (.pictureType ptype)

/-- PARSE_APPLICATION(length) (R160, R96). -/
def parseApplication (type length : Nat) (last : Bool) : M Record := do
  if 4 ≤ length then
    let id ← readBytes 4
    let payload ← readBytes (length - 4)
    pure (.application length last id payload)
  else malformed type (.applicationShort length)

/-- PARSE_UNKNOWN(length) (R161, R97): skipped, not retained. -/
def parseUnknown (length : Nat) (last : Bool) : M Record := do
  let _ ← readBytes length
  pure (.unknown length last)

/-! ### One block, and all of them -/

/-- The tests R151 and R153 make on a header before any byte of the body. -/
def firstBlockTest (kind : BlockKind) (type : Nat) : M Unit := do
  let i ← reads (·.mdIndex)
  if i = 0 ∧ kind ≠ .streaminfo then malformed type .firstNotStreaminfo
  else if 0 < i ∧ kind = .streaminfo then malformed type .streaminfoRepeated
  else pure ()

/-- The body of a block, by the variant its type names (R151). -/
def blockBody (kind : BlockKind) (type length fin : Nat) (last : Bool) : M Record :=
  match kind with
  | .streaminfo => parseStreaminfo type length last
  | .vorbisComment => parseVorbisComment type length fin last
  | .picture => parsePicture type length fin last
  | .application => parseApplication type length last
  | .unknown => parseUnknown length last

/-- A block after its header word (R151): tests, body, record, and the last-flag (R162). -/
def blockElement (kind : BlockKind) (type : Nat) (last : Bool) (length : Nat) : M Unit := do
  firstBlockTest kind type
  let fin := (← reads (·.br.pos)) + length
  let rec ← blockBody kind type length fin last
  writes (·.addRecord rec)
  if last then writes (·.setPhase .frames) else pure ()

/-- One pass of PARSE_METADATA's loop (R151): header and block. Returns the last-flag. -/
def parseBlock : M Bool := do
  let last ← readUint 1
  let type ← readUint 7
  let length ← readUint 24
  blockElement (blockKind (← reads (·.cfg)) (BitVec.ofNat 7 type)) type (last == 1) length
  pure (last == 1)

/-- PARSE_METADATA (R151). Every pass consumes at least the header's four bytes, so `fuel` passes are
enough when `fuel` exceeds the bytes left (R351; log entry 15). -/
def parseMetadata (fuel : Nat) : M Unit :=
  match fuel with
  | 0 => do raise (.unexpectedEnd (← reads (·.br.pos)) 1)
  | fuel + 1 => do
    if (← parseBlock) then pure () else parseMetadata fuel

/-! ### The rows -/

/-- MBH. -/
def execMbh (s : State) : Host.Outcome State Fault Refusal := runUnit (do let _ ← parseBlock) s

/-- MB.STREAMINFO. -/
def execMbStreaminfo (last : Bool) (length : BitVec 24) (s : State) :
    Host.Outcome State Fault Refusal :=
  runUnit (blockElement .streaminfo s.cfg.btStreaminfo.toNat last length.toNat) s

/-- MB.APPLICATION. -/
def execMbApplication (last : Bool) (length : BitVec 24) (s : State) :
    Host.Outcome State Fault Refusal :=
  runUnit (blockElement .application s.cfg.btApplication.toNat last length.toNat) s

/-- MB.VORBIS_COMMENT. -/
def execMbVorbisComment (last : Bool) (length : BitVec 24) (s : State) :
    Host.Outcome State Fault Refusal :=
  runUnit (blockElement .vorbisComment s.cfg.btVorbisComment.toNat last length.toNat) s

/-- MB.PICTURE. -/
def execMbPicture (last : Bool) (length : BitVec 24) (s : State) :
    Host.Outcome State Fault Refusal :=
  runUnit (blockElement .picture s.cfg.btPicture.toNat last length.toNat) s

/-- MB.UNKNOWN, odd types. -/
def execMbUnknownOdd (last : Bool) (x : BitVec 6) (length : BitVec 24) (s : State) :
    Host.Outcome State Fault Refusal :=
  runUnit (blockElement .unknown (2 * x.toNat + 1) last length.toNat) s

/-- MB.UNKNOWN, even types 64 to 126. -/
def execMbUnknown64 (last : Bool) (x : BitVec 5) (length : BitVec 24) (s : State) :
    Host.Outcome State Fault Refusal :=
  runUnit (blockElement .unknown (64 + 2 * x.toNat) last length.toNat) s

/-- MB.UNKNOWN, even types 32 to 62. -/
def execMbUnknown32 (last : Bool) (x : BitVec 4) (length : BitVec 24) (s : State) :
    Host.Outcome State Fault Refusal :=
  runUnit (blockElement .unknown (32 + 2 * x.toNat) last length.toNat) s

/-- MB.UNKNOWN, even types 16 to 30. -/
def execMbUnknown16 (last : Bool) (x : BitVec 3) (length : BitVec 24) (s : State) :
    Host.Outcome State Fault Refusal :=
  runUnit (blockElement .unknown (16 + 2 * x.toNat) last length.toNat) s

/-- MB.UNKNOWN, even types 8 to 14. -/
def execMbUnknown8 (last : Bool) (x : BitVec 2) (length : BitVec 24) (s : State) :
    Host.Outcome State Fault Refusal :=
  runUnit (blockElement .unknown (8 + 2 * x.toNat) last length.toNat) s

end Sys2Proof.Machine
end

