-- ==== Sys2Proof/Machine/Control.lean ====
section
/-! DEFINITION. The stream sequencer (spec/46_stream_control.md R285 to R291) and DECODE_FRAME
(spec/42_frame.md R190, R191, R201). -/

namespace Sys2Proof.Machine

open Sys2Proof

/-! ### The rules -/

/-- CHECK_MAGIC() (R288, R91). -/
def checkMagic : M Unit := do
  let m ← readBytes 4
  if m = [0x66#8, 0x4C#8, 0x61#8, 0x43#8] then pure () else raise (.notAFlacStream m)

/-- OPEN(SRC) after its phase test (R287). -/
def openStream (src : List Byte) : M Unit := do
  writes (·.setSrc (Memory.ofBytes src))
  writes (·.setPhase .metadata)
  checkMagic
  parseMetadata ((← reads (·.srcLen)) + 1)

/-- Commit (R201): the first `F.nch` channels, `F.N` samples each. -/
def commitFrame : M Unit :=
  writes (fun s => s.setOut (.frame s.f.n s.f.nch ((s.ch.take s.f.nch).map (·.take s.f.n))))

/-- DECODE_FRAME() once a frame is expected (R190, steps 1 to 7, footer and commit). DESIGN CHOICE (log
entry 22): `F.*`, `S.*` and `RS.*`, dead once the frame, the subframe and the residual are over (R41 to R43,
U21), keep what was last written until they are written again; nothing reads them before that. -/
def decodeFrameBody : M Unit := do
  frameSync
  skipFrameNumber
  blockSizeElement (← reads (·.f.bsc))
  skipSampleRate (← reads (·.f.src))
  headerChecksum
  let b ← readBps
  decodeChannels (← reads (·.f.ca)) (← reads (·.f.n)) b
  frameFooter
  commitFrame

/-- DECODE_FRAME() (R190, R191): false is the end-of-stream signal. -/
def decodeFrame : M Bool := do
  if (← reads (·.atEnd)) then pure false
  else
    decodeFrameBody
    pure true

/-- PULL() (R289, R290, R291). -/
def pullFrame : M Ret := do
  match (← reads (·.phase)) with
  | .endOfStream =>
    writes (·.setOut .endOfStream)
    pure .endOfStream
  | .frames =>
    writes (·.setOut .none)
    if (← decodeFrame) then pure .frame
    else
      writes (·.setPhase .endOfStream)
      writes (·.setOut .endOfStream)
      pure .endOfStream
  | .idle => pure .refused
  | .metadata => pure .refused
  | .faulted => pure .refused

/-! ### The rows -/

/-- MAGIC. -/
def execMagic (s : State) : Host.Outcome State Fault Refusal := runUnit checkMagic s

/-- RESET (R286): legal in every phase, `Faulted` included. -/
def execResetCmd (s : State) : Host.Outcome State Fault Refusal :=
  .next (s.resetRegs.setRet .unit)

/-- OPEN(SRC) (R287); outside `Idle` it is refused and changes nothing (R291). -/
def execOpenCmd (src : List Byte) (s : State) : Host.Outcome State Fault Refusal :=
  run (do
    if (← reads (·.phase)) = .idle then
      openStream src
      pure .ok
    else pure .refused) s

/-- PULL. -/
def execPullCmd (s : State) : Host.Outcome State Fault Refusal := run pullFrame s

end Sys2Proof.Machine
end

