-- ==== Sys2Proof/Machine/Dispatch.lean ====
section
/-! DEFINITION. The meaning of every instruction: one arm per constructor of `Instr`. -/

namespace Sys2Proof.Machine

open Sys2Proof

def exec (i : Instr) (s : State) : Host.Outcome State Fault Refusal :=
  match i with
  | .magic => Sys2Proof.Machine.execMagic s
  | .mbh => Sys2Proof.Machine.execMbh s
  | .mbStreaminfo last length => Sys2Proof.Machine.execMbStreaminfo last length s
  | .mbApplication last length => Sys2Proof.Machine.execMbApplication last length s
  | .mbVorbisComment last length => Sys2Proof.Machine.execMbVorbisComment last length s
  | .mbPicture last length => Sys2Proof.Machine.execMbPicture last length s
  | .mbUnknownOdd last x length => Sys2Proof.Machine.execMbUnknownOdd last x length s
  | .mbUnknown64 last x length => Sys2Proof.Machine.execMbUnknown64 last x length s
  | .mbUnknown32 last x length => Sys2Proof.Machine.execMbUnknown32 last x length s
  | .mbUnknown16 last x length => Sys2Proof.Machine.execMbUnknown16 last x length s
  | .mbUnknown8 last x length => Sys2Proof.Machine.execMbUnknown8 last x length s
  | .fhSync => Sys2Proof.Machine.execFhSync s
  | .fhBlocksize0 => Sys2Proof.Machine.execFhBlocksize0 s
  | .fhBlocksize1 => Sys2Proof.Machine.execFhBlocksize1 s
  | .fhBlocksize2 => Sys2Proof.Machine.execFhBlocksize2 s
  | .fhBlocksize3 => Sys2Proof.Machine.execFhBlocksize3 s
  | .fhBlocksize4 => Sys2Proof.Machine.execFhBlocksize4 s
  | .fhBlocksize5 => Sys2Proof.Machine.execFhBlocksize5 s
  | .fhBlocksize6 => Sys2Proof.Machine.execFhBlocksize6 s
  | .fhBlocksize7 => Sys2Proof.Machine.execFhBlocksize7 s
  | .fhBlocksize8 => Sys2Proof.Machine.execFhBlocksize8 s
  | .fhBlocksize9 => Sys2Proof.Machine.execFhBlocksize9 s
  | .fhBlocksize10 => Sys2Proof.Machine.execFhBlocksize10 s
  | .fhBlocksize11 => Sys2Proof.Machine.execFhBlocksize11 s
  | .fhBlocksize12 => Sys2Proof.Machine.execFhBlocksize12 s
  | .fhBlocksize13 => Sys2Proof.Machine.execFhBlocksize13 s
  | .fhBlocksize14 => Sys2Proof.Machine.execFhBlocksize14 s
  | .fhBlocksize15 => Sys2Proof.Machine.execFhBlocksize15 s
  | .fhSamplerate0 => Sys2Proof.Machine.execFhSamplerate0 s
  | .fhSamplerate1 => Sys2Proof.Machine.execFhSamplerate1 s
  | .fhSamplerate2 => Sys2Proof.Machine.execFhSamplerate2 s
  | .fhSamplerate3 => Sys2Proof.Machine.execFhSamplerate3 s
  | .fhSamplerate4 => Sys2Proof.Machine.execFhSamplerate4 s
  | .fhSamplerate5 => Sys2Proof.Machine.execFhSamplerate5 s
  | .fhSamplerate6 => Sys2Proof.Machine.execFhSamplerate6 s
  | .fhSamplerate7 => Sys2Proof.Machine.execFhSamplerate7 s
  | .fhSamplerate8 => Sys2Proof.Machine.execFhSamplerate8 s
  | .fhSamplerate9 => Sys2Proof.Machine.execFhSamplerate9 s
  | .fhSamplerate10 => Sys2Proof.Machine.execFhSamplerate10 s
  | .fhSamplerate11 => Sys2Proof.Machine.execFhSamplerate11 s
  | .fhSamplerate12 => Sys2Proof.Machine.execFhSamplerate12 s
  | .fhSamplerate13 => Sys2Proof.Machine.execFhSamplerate13 s
  | .fhSamplerate14 => Sys2Proof.Machine.execFhSamplerate14 s
  | .fhSamplerate15 => Sys2Proof.Machine.execFhSamplerate15 s
  | .caIndep0 => Sys2Proof.Machine.execCaIndep0 s
  | .caIndep1 => Sys2Proof.Machine.execCaIndep1 s
  | .caIndep2 => Sys2Proof.Machine.execCaIndep2 s
  | .caIndep3 => Sys2Proof.Machine.execCaIndep3 s
  | .caIndep4 => Sys2Proof.Machine.execCaIndep4 s
  | .caIndep5 => Sys2Proof.Machine.execCaIndep5 s
  | .caIndep6 => Sys2Proof.Machine.execCaIndep6 s
  | .caIndep7 => Sys2Proof.Machine.execCaIndep7 s
  | .caLeftSide => Sys2Proof.Machine.execCaLeftSide s
  | .caRightSide => Sys2Proof.Machine.execCaRightSide s
  | .caMidSide => Sys2Proof.Machine.execCaMidSide s
  | .caInvalid11 => Sys2Proof.Machine.execCaInvalid11 s
  | .caInvalid12 => Sys2Proof.Machine.execCaInvalid12 s
  | .caInvalid13 => Sys2Proof.Machine.execCaInvalid13 s
  | .caInvalid14 => Sys2Proof.Machine.execCaInvalid14 s
  | .caInvalid15 => Sys2Proof.Machine.execCaInvalid15 s
  | .fhNumber00 x => Sys2Proof.Machine.execFhNumber00 x s
  | .fhNumber80 x => Sys2Proof.Machine.execFhNumber80 x s
  | .fhNumberC0 x => Sys2Proof.Machine.execFhNumberC0 x s
  | .fhNumberE0 x => Sys2Proof.Machine.execFhNumberE0 x s
  | .fhNumberF0 x => Sys2Proof.Machine.execFhNumberF0 x s
  | .fhNumberF8 x => Sys2Proof.Machine.execFhNumberF8 x s
  | .fhNumberFC x => Sys2Proof.Machine.execFhNumberFC x s
  | .fhNumberFE => Sys2Proof.Machine.execFhNumberFE s
  | .fhNumberFF => Sys2Proof.Machine.execFhNumberFF s
  | .fhCrc8 => Sys2Proof.Machine.execFhCrc8 s
  | .fhFooter => Sys2Proof.Machine.execFhFooter s
  | .sfConstant => Sys2Proof.Machine.execSfConstant s
  | .sfVerbatim => Sys2Proof.Machine.execSfVerbatim s
  | .sfFixed0 => Sys2Proof.Machine.execSfFixed0 s
  | .sfFixed1 => Sys2Proof.Machine.execSfFixed1 s
  | .sfFixed2 => Sys2Proof.Machine.execSfFixed2 s
  | .sfFixed3 => Sys2Proof.Machine.execSfFixed3 s
  | .sfFixed4 => Sys2Proof.Machine.execSfFixed4 s
  | .sfLpc x => Sys2Proof.Machine.execSfLpc x s
  | .sfUnsupported2 x => Sys2Proof.Machine.execSfUnsupported2 x s
  | .sfUnsupported4 x => Sys2Proof.Machine.execSfUnsupported4 x s
  | .sfUnsupported13 => Sys2Proof.Machine.execSfUnsupported13 s
  | .sfUnsupported14 x => Sys2Proof.Machine.execSfUnsupported14 x s
  | .sfUnsupported16 x => Sys2Proof.Machine.execSfUnsupported16 x s
  | .readWasted => Sys2Proof.Machine.execReadWasted s
  | .predict n o warm coef shift res => Sys2Proof.Machine.execPredict n o warm coef shift res s
  | .resRice4 => Sys2Proof.Machine.execResRice4 s
  | .resRice5 => Sys2Proof.Machine.execResRice5 s
  | .resInvalidMethod x => Sys2Proof.Machine.execResInvalidMethod x s
  | .resPorder => Sys2Proof.Machine.execResPorder s
  | .resParam wide k => Sys2Proof.Machine.execResParam wide k s
  | .resEscape4 => Sys2Proof.Machine.execResEscape4 s
  | .resEscape5 => Sys2Proof.Machine.execResEscape5 s
  | .resValues cnt => Sys2Proof.Machine.execResValues cnt s
  | .rice => Sys2Proof.Machine.execRice s
  | .readUint n => Sys2Proof.Machine.execReadUint n s
  | .readSint n => Sys2Proof.Machine.execReadSint n s
  | .readBytes n => Sys2Proof.Machine.execReadBytes n s
  | .readByteOrEos => Sys2Proof.Machine.execReadByteOrEos s
  | .align => Sys2Proof.Machine.execAlign s
  | .readRice k => Sys2Proof.Machine.execReadRice k s
  | .atEnd => Sys2Proof.Machine.execAtEnd s
  | .readLe32 => Sys2Proof.Machine.execReadLe32 s
  | .readBe32 => Sys2Proof.Machine.execReadBe32 s
  | .resetCmd => Sys2Proof.Machine.execResetCmd s
  | .openCmd src => Sys2Proof.Machine.execOpenCmd src s
  | .pullCmd => Sys2Proof.Machine.execPullCmd s

end Sys2Proof.Machine
end

