-- ==== Sys2Proof/Machine/Fetch.lean ====
section
/-! DEFINITION. How a request at the port becomes an instruction, and how a table word is placed where
the next step fetches.

At a grammar position `fetch` takes the format word from where the rules have it (the stream, or the
code latched in `F.*`) and decodes it. The bits that SELECT a row among several are consumed here, as
the calling rule's pseudocode reads them before it dispatches; an element that no code selects reads
all its bits itself, and `fetch` only looks at them (log entry 8). -/

namespace Sys2Proof.Machine

open Sys2Proof

/-- What the machine does with a word the decoder rejects: the fault the spec names for it. -/
def rejectTrap (r : Reject) : Trap :=
  match r with
  | .notTheMarker w =>
    .raise (.notAFlacStream [BitVec.ofNat 8 (bits w 31 24), BitVec.ofNat 8 (bits w 23 16),
      BitVec.ofNat 8 (bits w 15 8), BitVec.ofNat 8 (bits w 7 0)])
  | .badSync v => .raise (.invalidSync v)

/-- The MBH word, read as R151 reads its three fields. -/
def headerWord : M Nat := do
  let last ← readUint 1
  let type ← readUint 7
  let length ← readUint 24
  pure (last * 2 ^ 31 + type * 2 ^ 24 + length)

/-- The format word at a grammar position, the bits it cannot know yet being 0. The header of a block
whose type has no row of its own is left to MBH (log entry 21). DESIGN CHOICE (log entry 8): the width of a
parameter field, which R269 takes from `RS.pbits`, is that of the position asked for, 4 bits at `param4` and
5 at `param5`; `RS.pbits` is not read. -/
def fetchWord (c : Ctx) : M Nat :=
  match c with
  | .magic => peekUint 32
  | .blockHeader => pure 0
  | .block => do
    let w ← peek headerWord
    match blockRow (← reads (·.cfg)) w with
    | some _ => headerWord
    | none => pure w
  | .frameHeader => do
    let sync ← peekUint 14
    pure (sync * 2 ^ 18)
  | .number => readUint 8
  | .blockSize => do pure ((← reads (·.f.bsc)).toNat * 2 ^ 12)
  | .sampleRate => do pure ((← reads (·.f.src)).toNat * 2 ^ 8)
  | .headerCrc => pure 0
  | .channels => do pure ((← reads (·.f.ca)).toNat * 2 ^ 4)
  | .footer => pure 0
  | .subframe => do
    let r ← readUint 1
    let t ← readUint 6
    pure (r * 2 ^ 7 + t * 2)
  | .wasted => pure 1
  | .method => do
    let m ← readUint 2
    pure (m * 2 ^ 4)
  | .porder => pure 0
  | .param4 => do
    let k ← readUint 4
    pure (k * 2 ^ 5)
  | .param5 => do
    let k ← readUint 5
    pure (k * 2 ^ 5)
  | .rice => pure 1

/-- The instruction a grammar position selects, with the state after its selecting bits. -/
def fetchElement (c : Ctx) : M Instr := do
  let w ← fetchWord c
  match decode (← reads (·.cfg)) c w with
  | .ok i => pure i
  | .error r => trap (rejectTrap r)

/-- The instruction a request stands for. After a fault no element is accepted (R323, R348; log entry
20): its bits are not looked at. -/
def fetch (r : Request) : M Instr :=
  match r with
  | .call i => pure i
  | .element c => do
    if (← reads (·.halted)) then trap .notAccepted
    else fetchElement c

/-! ### Placing a table word -/

/-- A word of `width` bits as whole bytes, its first bit the first bit of the first byte (R9). -/
def wordBytes (width w : Nat) : List Byte :=
  let k := (width + 7) / 8
  (List.range k).map (fun j => BitVec.ofNat 8 (w * 2 ^ (8 * k - width) / 2 ^ (8 * (k - 1 - j))))

/-- The source with a byte string at the reader's position, aligned, and zero bytes after it. -/
def State.placeBytes (s : State) (bs : List Byte) : State :=
  let before := (s.src.bytes ++ List.replicate s.br.pos 0).take s.br.pos
  (s.dropBits).setSrc (Memory.ofBytes (before ++ bs ++ List.replicate 64 0))

/-- Put a grammar position at the head of the port. -/
def State.ask (s : State) (c : Ctx) : State := s.setPort [.element c]

/-- The phase a frame element is read in (R24), with `SI.valid` as it always is there (R40). -/
def State.inFrames (s : State) : State :=
  (s.setPhase .frames).setSi { s.si with valid := true }

/-- Place a format word at a grammar position, so that the next step fetches it; no fault is latched, so
that it runs. -/
def State.placeWord (s : State) (c : Ctx) (w : Nat) : State :=
  let s := s.setFault none
  match c with
  | .magic | .blockHeader | .block => ((s.setPhase .metadata).placeBytes (wordBytes 32 w)).ask c
  | .frameHeader | .number | .headerCrc | .footer | .subframe | .method | .porder | .rice =>
    (s.inFrames.placeBytes (wordBytes (wordWidth c) w)).ask c
  | .blockSize => ((s.inFrames.placeBytes []).setF { s.f with bsc := BitVec.ofNat 4 (bits w 15 12) }).ask c
  | .sampleRate => ((s.inFrames.placeBytes []).setF { s.f with src := BitVec.ofNat 4 (bits w 11 8) }).ask c
  | .channels => ((s.inFrames.placeBytes []).setF { s.f with ca := BitVec.ofNat 4 (bits w 7 4) }).ask c
  | .wasted =>
    let t := s.inFrames.placeBytes (wordBytes 8 w)
    (t.setBr ⟨t.br.pos + 1, w % 2, 1⟩).ask c
  | .param4 =>
    ((s.inFrames.placeBytes (wordBytes 9 w)).setRs { s.rs with method := 0, pbits := 4 }).ask c
  | .param5 =>
    ((s.inFrames.placeBytes (wordBytes 10 w)).setRs { s.rs with method := 1, pbits := 5 }).ask c

end Sys2Proof.Machine
end

