-- ==== Sys2Proof/Machine/Step.lean ====
section
/-! DEFINITION. One step of FLACDEC: the oldest request at the port is fetched and run. -/

namespace Sys2Proof.Machine

open Sys2Proof

/-- One step. With nothing asked for, the state is held (R333). A request leaves the port, is fetched,
and its instruction is run by `exec`; a fetch that traps is handled like any rule that does. -/
def step (s : State) : Host.Outcome State Fault Refusal :=
  match s.port with
  | [] => .next s
  | r :: rest =>
    match fetch r (s.setPort rest) with
    | .ok i t => exec i t
    | .error e t => finishTrap e t

/-- The state with a table word placed where the next step fetches (log entries 9 and 10); unchanged
for a width the table does not have. -/
def State.withFetchWord (s : State) (nbits w : Nat) : State :=
  match tableCtx nbits w with
  | none => s
  | some c => s.placeWord c w

end Sys2Proof.Machine
end

