-- ==== Sys2Proof/Machine/Format.lean ====
section
/-! DEFINITION. The stream format (spec/30_encoding.md R90 to R120) written the other way round: the
bits of a field, of a codeword, of a subframe, of a frame, of a block. The step function does not use
this file; statements do, to say what a source holds without saying how it is read. -/

namespace Sys2Proof.Machine

open Sys2Proof

/-! ### Bits and fields -/

/-- A field of `n` bits holding `v`, most significant bit first (R8). -/
def natBits (n v : Nat) : List Bool :=
  match n with
  | 0 => []
  | n + 1 => v.testBit n :: natBits n v

/-- The value of a field: the first bit is the most significant (R8). -/
def bitsNat (l : List Bool) : Nat := l.foldl (fun a b => 2 * a + b.toNat) 0

/-- A signed field of `n` bits holding `x` in two's complement (R113, R132). -/
def intBits (n : Nat) (x : Int) : List Bool := natBits n (x % ((2 ^ n : Nat) : Int)).toNat

/-- The integers a signed field of `n` bits can hold (R132: `-2^(n-1) .. 2^(n-1) - 1`). -/
def fitsInt (n : Nat) (x : Int) : Bool :=
  1 ≤ n && -((2 ^ (n - 1) : Nat) : Int) ≤ x && x < ((2 ^ (n - 1) : Nat) : Int)

/-- The bits of a byte, bit 7 first (R8). -/
def byteBits (b : Byte) : List Bool := natBits 8 b.toNat

/-- The bits of a byte string. -/
def bytesBits (bs : List Byte) : List Bool := bs.flatMap byteBits

/-! ### The reader as a bit cursor -/

/-- The reader that stands at stream bit `k` of a source (R23): `BR.pos = ceil(k / 8)`,
`BR.nbits = 8 * BR.pos - k`, `BR.acc = SRC[BR.pos - 1] mod 2^BR.nbits`. -/
def readerAt (m : Memory) (k : Nat) : Reader :=
  let p := (k + 7) / 8
  ⟨p, (m.bytes.getD (p - 1) 0#8).toNat % 2 ^ (8 * p - k), 8 * p - k⟩

/-- The invariant of R22, in R23's form: the reader is the one its bit cursor gives, inside a source
in canonical form. -/
def State.ReaderOk (s : State) : Prop :=
  s.src.wf = true ∧ s.br = readerAt s.src s.bp ∧ s.bp ≤ 8 * s.srcLen

/-- The stream bits not yet consumed, from the cursor to the end of the source. -/
def State.ahead (s : State) : List Bool := (bytesBits s.src.bytes).drop s.bp

/-- The state with the reader `n` bits further on. -/
def State.skip (s : State) (n : Nat) : State := s.setBr (readerAt s.src (s.bp + n))

/-- The reader aligned down to nothing buffered: at the next byte boundary (R135). -/
def State.bpAligned (s : State) : Nat := 8 * ((s.bp + 7) / 8)

/-! ### Codewords -/

/-- The wasted-bits flag and run (R104): as many 1 bits as the count, and one 0 bit. -/
def wastedBits (w : Nat) : List Bool := List.replicate w true ++ [false]

/-- The unsigned value a Rice codeword carries for a signed one (R111, inverted). -/
def unzigzag (x : Int) : Nat := if 0 ≤ x then 2 * x.toNat else 2 * (-x).toNat - 1

/-- A Rice codeword with parameter `k` (R111). -/
def riceBits (k : Nat) (x : Int) : List Bool :=
  List.replicate (unzigzag x / 2 ^ k) false ++ [true] ++ natBits k (unzigzag x % 2 ^ k)

/-! ### Strings and prediction -/

/-- The table of R152: one row per form, one range of byte values per byte. -/
def utf8Table : List (List (Nat × Nat)) :=
  [[(0x00, 0x7F)],
   [(0xC2, 0xDF), (0x80, 0xBF)],
   [(0xE0, 0xE0), (0xA0, 0xBF), (0x80, 0xBF)],
   [(0xE1, 0xEC), (0x80, 0xBF), (0x80, 0xBF)],
   [(0xED, 0xED), (0x80, 0x9F), (0x80, 0xBF)],
   [(0xEE, 0xEF), (0x80, 0xBF), (0x80, 0xBF)],
   [(0xF0, 0xF0), (0x90, 0xBF), (0x80, 0xBF), (0x80, 0xBF)],
   [(0xF1, 0xF3), (0x80, 0xBF), (0x80, 0xBF), (0x80, 0xBF)],
   [(0xF4, 0xF4), (0x80, 0x8F), (0x80, 0xBF), (0x80, 0xBF)]]

/-- A sequence that matches a row of R152's table. -/
def utf8Seq (p : List Byte) : Bool :=
  utf8Table.any (fun row => row.length == p.length &&
    (row.zip p).all (fun x => x.1.1 ≤ x.2.toNat && x.2.toNat ≤ x.1.2))

/-- The recurrence of R244, said of a whole buffer: the warm-up samples, then each sample as the floor
of the weighted sum of the `o` before it over `2^shift`, plus its residual. -/
def Predicts (n o : Nat) (warm coef : List Int) (shift : Nat) (res buf : List Int) : Prop :=
  buf.length = n ∧ (∀ i, i < o → buf.getD i 0 = warm.getD i 0) ∧
  ∀ i, o ≤ i → i < n → buf.getD i 0 =
    ((List.range o).map (fun j => coef.getD j 0 * buf.getD (i - 1 - j) 0)).sum / ((2 ^ shift : Nat) : Int) +
      res.getD (i - o) 0

/-! ### The residual (R109, R110) -/

/-- One partition: its parameter, whether it is given through the escape, its values. -/
structure Partition where
  k : Nat
  escaped : Bool
  values : List Int
deriving DecidableEq, Repr

/-- A residual: coding method 1 (`wide`) or 0, partition order, partitions. -/
structure Residual where
  wide : Bool
  p : Nat
  parts : List Partition
deriving DecidableEq, Repr

/-- The width of the parameter field (R120). -/
def fieldWidth (wide : Bool) : Nat := if wide then 5 else 4

/-- The parameters a partition can carry (R269). -/
def Partition.ok (wide : Bool) (q : Partition) : Bool :=
  if q.escaped then q.k < 32 else q.k < 2 ^ fieldWidth wide - 1

/-- The bits of a partition's parameter (R110). -/
def Partition.paramBits (wide : Bool) (q : Partition) : List Bool :=
  if q.escaped then natBits (fieldWidth wide) (2 ^ fieldWidth wide - 1) ++ natBits 5 q.k
  else natBits (fieldWidth wide) q.k

/-- The bits of a partition (R110). -/
def Partition.bits (wide : Bool) (q : Partition) : List Bool :=
  q.paramBits wide ++ q.values.flatMap (riceBits q.k)

/-- The residuals a block of `n` samples with order `o` can have (R267, R268): `2^p` partitions of
`n / 2^p` values, the first one `o` fewer. -/
def Residual.ok (n o : Nat) (r : Residual) : Bool :=
  r.p < 16 && n % 2 ^ r.p == 0 && o ≤ n / 2 ^ r.p && r.parts.all (Partition.ok r.wide) &&
    r.parts.map (fun q => q.values.length) ==
      (n / 2 ^ r.p - o) :: List.replicate (2 ^ r.p - 1) (n / 2 ^ r.p)

/-- The bits of a residual (R109). -/
def Residual.bits (r : Residual) : List Bool :=
  natBits 2 r.wide.toNat ++ natBits 4 r.p ++ r.parts.flatMap (Partition.bits r.wide)

/-- The values of a residual, in partition order (R271). -/
def Residual.values (r : Residual) : List Int := r.parts.flatMap (·.values)

/-- The parameter of the last partition. -/
def lastParam (parts : List Partition) : Nat :=
  match parts with
  | [] => 0
  | q :: rest => if rest.isEmpty then q.k else lastParam rest

/-- `RS.*` once the residual has been read (R43). -/
def Residual.regs (r : Residual) : ResidualRegs :=
  ⟨BitVec.ofNat 2 r.wide.toNat, fieldWidth r.wide, BitVec.ofNat 4 r.p, lastParam r.parts, r.values⟩

/-! ### Subframes (R103 to R108) -/

/-- A subframe body. -/
inductive Body where
  | constant (v : Int)
  | verbatim (xs : List Int)
  | fixed (warm : List Int) (res : Residual)
  | lpc (warm : List Int) (prec shift : Nat) (coef : List Int) (res : Residual)
deriving DecidableEq, Repr

/-- A subframe: the ignored bit, the wasted-bits count, the body. -/
structure Subframe where
  reserved : Bool
  wasted : Nat
  body : Body
deriving DecidableEq, Repr

/-- The predictor order: how many warm-up samples there are. -/
def Body.order (b : Body) : Nat :=
  match b with
  | .constant _ => 0
  | .verbatim _ => 0
  | .fixed warm _ => warm.length
  | .lpc warm _ _ _ _ => warm.length

/-- The type code (R119). -/
def Body.type (b : Body) : Nat :=
  match b with
  | .constant _ => 0
  | .verbatim _ => 1
  | .fixed warm _ => 8 + warm.length
  | .lpc warm _ _ _ _ => 31 + warm.length

/-- What a body of `n` samples at effective depth `e` can hold (R105 to R108, R240 to R248). -/
def Body.ok (n e : Nat) (b : Body) : Bool :=
  match b with
  | .constant v => fitsInt e v
  | .verbatim xs => xs.length == n && xs.all (fitsInt e)
  | .fixed warm res => warm.length ≤ 4 && warm.all (fitsInt e) && res.ok n warm.length
  | .lpc warm prec shift coef res =>
    1 ≤ warm.length && warm.length ≤ 32 && warm.all (fitsInt e) && 1 ≤ prec && prec ≤ 16 &&
      shift < 16 && coef.length == warm.length && coef.all (fitsInt prec) && res.ok n warm.length

/-- The bits of a body at effective depth `e`. -/
def Body.bits (e : Nat) (b : Body) : List Bool :=
  match b with
  | .constant v => intBits e v
  | .verbatim xs => xs.flatMap (intBits e)
  | .fixed warm res => warm.flatMap (intBits e) ++ res.bits
  | .lpc warm prec shift coef res =>
    warm.flatMap (intBits e) ++ natBits 4 (prec - 1) ++ intBits 5 shift ++
      coef.flatMap (intBits prec) ++ res.bits

/-- The samples of a body before restoration (R240, R241, R242, R245 with R244), for a table
`FIXED_COEF`. -/
def Body.narrow (table : FixedCoef) (n : Nat) (b : Body) : List Int :=
  match b with
  | .constant v => List.replicate n v
  | .verbatim xs => xs
  | .fixed warm res => reconstruct warm (coefRow table warm.length) 0 res.values
  | .lpc warm _ shift coef res => reconstruct warm coef shift res.values

/-- What a subframe of `n` samples at declared depth `d` can hold (R238). -/
def Subframe.ok (n d : Nat) (f : Subframe) : Bool := f.wasted < d && f.body.ok n (d - f.wasted)

/-- The bits of a subframe from the wasted-bits flag on. -/
def Subframe.tailBits (d : Nat) (f : Subframe) : List Bool :=
  wastedBits f.wasted ++ f.body.bits (d - f.wasted)

/-- The bits of a subframe. -/
def Subframe.bits (d : Nat) (f : Subframe) : List Bool :=
  f.reserved :: natBits 6 f.body.type ++ f.tailBits d

/-- The samples of a subframe: every one multiplied by `2^w` (R250). -/
def Subframe.samples (table : FixedCoef) (n : Nat) (f : Subframe) : List Int :=
  (f.body.narrow table n).map (· * ((2 ^ f.wasted : Nat) : Int))

/-- `S.*` once the subframe has been read (R42). -/
def Subframe.regs (table : FixedCoef) (n d : Nat) (f : Subframe) (r : SubframeRegs) : SubframeRegs :=
  let r : SubframeRegs := ⟨d, BitVec.ofNat 6 f.body.type, f.wasted, (d : Int) - f.wasted, f.body.order,
    r.prec, r.shift, r.coef, f.samples table n⟩
  match f.body with
  | .constant _ => r
  | .verbatim _ => r
  | .fixed _ _ => r
  | .lpc _ prec shift coef _ => { r with prec := prec, shift := shift, coef := coef }

/-- `RS.*` once the subframe has been read (R43). -/
def Subframe.resRegs (f : Subframe) (r : ResidualRegs) : ResidualRegs :=
  match f.body with
  | .constant _ => r
  | .verbatim _ => r
  | .fixed _ res => res.regs
  | .lpc _ _ _ _ res => res.regs

/-! ### The channels of a frame (R117, R220 to R224) -/

/-- The declared depths of the subframes, in stream order; none for an invalid code. -/
def depths (ca b : Nat) : List Nat :=
  if ca ≤ 7 then List.replicate (ca + 1) b
  else if ca = 8 then [b, b + 1]
  else if ca = 9 then [b + 1, b]
  else if ca = 10 then [b, b + 1]
  else []

/-- The output channels of the decoded subframes. -/
def outputs (ca : Nat) (xs : List (List Int)) : List (List Int) :=
  match xs with
  | [x, y] =>
    if ca = 8 then [x, List.zipWith (fun l s => l - s) x y]
    else if ca = 9 then [List.zipWith (fun s r => s + r) x y, y]
    else if ca = 10 then
      [List.zipWith (fun m s => (2 * m + s % 2 + s) / 2) x y,
        List.zipWith (fun m s => (2 * m + s % 2 - s) / 2) x y]
    else xs
  | _ => xs

/-- Subframes at the depths of a channel assignment. -/
def subframesOk (n : Nat) (ds : List Nat) (fs : List Subframe) : Bool :=
  match ds, fs with
  | [], [] => true
  | d :: ds, f :: fs => f.ok n d && subframesOk n ds fs
  | [], _ :: _ => false
  | _ :: _, [] => false

/-- Their bits, back to back (R199). -/
def subframesBits (ds : List Nat) (fs : List Subframe) : List Bool :=
  match ds, fs with
  | d :: ds, f :: fs => f.bits d ++ subframesBits ds fs
  | _, _ => []

/-- `S.*` after them. -/
def subframesRegs (table : FixedCoef) (n : Nat) (ds : List Nat) (fs : List Subframe) (r : SubframeRegs) :
    SubframeRegs :=
  match ds, fs with
  | d :: ds, f :: fs => subframesRegs table n ds fs (f.regs table n d r)
  | _, _ => r

/-- `RS.*` after them. -/
def subframesRes (fs : List Subframe) (r : ResidualRegs) : ResidualRegs :=
  match fs with
  | [] => r
  | f :: fs => subframesRes fs (f.resRegs r)

/-- The frame's channels, `N` samples each. -/
def channelsOf (table : FixedCoef) (n ca : Nat) (fs : List Subframe) : List (List Int) :=
  outputs ca (fs.map (Subframe.samples table n))

/-! ### Frames (R98 to R102, R112) -/

/-- How many continuation bytes a first byte announces (R99): leading 1 bits less one. -/
def numberCount (b : Byte) : Nat := ((byteBits b).takeWhile id).length - 1

/-- The extra bits of a block-size code (R115). -/
def bsxWidth (c : Nat) : Nat := if c = 6 then 8 else if c = 7 then 16 else 0

/-- The block size of a code and its extra field (R115's table; code 0 has none). -/
def blockSizeOf (c x : Nat) : Nat :=
  if c = 6 ∨ c = 7 then x + 1
  else [0, 192, 576, 1152, 2304, 4608, 0, 0, 256, 512, 1024, 2048, 4096, 8192, 16384, 32768].getD c 0

/-- The extra bits of a sample-rate code (R116). -/
def srxWidth (c : Nat) : Nat := [0, 0, 0, 0, 0, 0, 0, 0, 0, 0, 0, 0, 8, 16, 16, 0].getD c 0

/-- A frame, with every field the decoder ignores. -/
structure Frame where
  r1 : Bool
  bstrat : Bool
  bsc : BitVec 4
  src : BitVec 4
  ca : BitVec 4
  ssc : BitVec 3
  r2 : Bool
  number : Byte
  continuation : List Byte
  bsx : Nat
  srx : Nat
  crc8 : Byte
  subframes : List Subframe
  padding : List Bool
  crc16 : BitVec 16
deriving DecidableEq, Repr

/-- `F.N`. -/
def Frame.n (f : Frame) : Nat := blockSizeOf f.bsc.toNat f.bsx

/-- The 32 bits of FHW (R98). -/
def Frame.fixedBits (f : Frame) : List Bool :=
  natBits 14 0x3FFE ++ [f.r1, f.bstrat] ++ natBits 4 f.bsc.toNat ++ natBits 4 f.src.toNat ++
    natBits 4 f.ca.toNat ++ natBits 3 f.ssc.toNat ++ [f.r2]

/-- The rest of the header (R99 to R102). -/
def Frame.variableBits (f : Frame) : List Bool :=
  byteBits f.number ++ bytesBits f.continuation ++ natBits (bsxWidth f.bsc.toNat) f.bsx ++
    natBits (srxWidth f.src.toNat) f.srx ++ byteBits f.crc8

/-- The subframes, for a stream of depth `b`. -/
def Frame.channelBits (b : Nat) (f : Frame) : List Bool :=
  subframesBits (depths f.ca.toNat b) f.subframes

/-- The bits of a frame. -/
def Frame.bits (b : Nat) (f : Frame) : List Bool :=
  f.fixedBits ++ f.variableBits ++ f.channelBits b ++ f.padding ++ natBits 16 f.crc16.toNat

/-- The frames a stream of depth `b` can hold. -/
def Frame.ok (b : Nat) (f : Frame) : Bool :=
  f.bsc.toNat != 0 && f.ca.toNat ≤ 10 && f.continuation.length == numberCount f.number &&
    f.bsx < 2 ^ bsxWidth f.bsc.toNat && f.srx < 2 ^ srxWidth f.src.toNat &&
    subframesOk f.n (depths f.ca.toNat b) f.subframes && f.padding.length < 8 &&
    ((f.channelBits b).length + f.padding.length) % 8 == 0

/-- What PULL delivers for a frame (R201). -/
def Frame.out (table : FixedCoef) (f : Frame) : Out :=
  .frame f.n f.subframes.length (channelsOf table f.n f.ca.toNat f.subframes)

/-- The state the channels of a frame leave: reader, `S.*`, `RS.*`, `F.nch`, `CH`. -/
def State.withChannels (s : State) (n ca b : Nat) (fs : List Subframe) : State :=
  ((((s.skip (subframesBits (depths ca b) fs).length).setF { s.f with nch := fs.length }).setSub
    (subframesRegs s.cfg.fixedCoef n (depths ca b) fs s.sub)).setRs (subframesRes fs s.rs)).setCh
    (channelsOf s.cfg.fixedCoef n ca fs)

/-- The state a decoded frame leaves before it is committed. -/
def State.withFrame (s : State) (f : Frame) (b : Nat) : State :=
  ((((s.skip (f.bits b).length).setF ⟨f.bsc, f.src, f.ca, f.ssc, f.n, f.subframes.length⟩).setSub
    (subframesRegs s.cfg.fixedCoef f.n (depths f.ca.toNat b) f.subframes s.sub)).setRs
    (subframesRes f.subframes s.rs)).setCh (channelsOf s.cfg.fixedCoef f.n f.ca.toNat f.subframes)

/-! ### Metadata blocks (R92 to R97) -/

/-- Four bytes, least significant first. -/
def le4 (n : Nat) : List Byte :=
  [BitVec.ofNat 8 n, BitVec.ofNat 8 (n / 2 ^ 8), BitVec.ofNat 8 (n / 2 ^ 16), BitVec.ofNat 8 (n / 2 ^ 24)]

/-- Four bytes, most significant first. -/
def be4 (n : Nat) : List Byte := (le4 n).reverse

/-- The content of a block. -/
inductive Content where
  | streaminfo (si : StreamInfo)
  | application (id payload : List Byte)
  | vorbisComment (vendor : List Byte) (entries : List (List Byte × List Byte))
  | picture (ptype : Nat) (mime desc : List Byte) (width height depth colors : Nat) (data : List Byte)
  | unknown (type : BitVec 7) (data : List Byte)
deriving DecidableEq, Repr

/-- A metadata block. -/
structure Block where
  last : Bool
  content : Content
deriving DecidableEq, Repr

/-- The bytes of one comment entry, `NAME=value` (R94). -/
def entryBytes (e : List Byte × List Byte) : List Byte := e.1 ++ [0x3D#8] ++ e.2

/-- The bytes of the entries of a VorbisComment, each after its length (R94). -/
def entriesBytes (es : List (List Byte × List Byte)) : List Byte :=
  es.flatMap (fun e => le4 (entryBytes e).length ++ entryBytes e)

/-- The bits of SIB (R93). -/
def streaminfoBits (si : StreamInfo) : List Bool :=
  natBits 16 si.minBlock.toNat ++ natBits 16 si.maxBlock.toNat ++ natBits 24 si.minFrame.toNat ++
    natBits 24 si.maxFrame.toNat ++ natBits 20 si.sampleRate.toNat ++ natBits 3 (si.channels - 1) ++
    natBits 5 (si.bps - 1) ++ natBits 36 si.totalSamples.toNat ++ bytesBits si.md5

/-- The bytes of VCB (R94). -/
def vorbisBytes (vendor : List Byte) (entries : List (List Byte × List Byte)) : List Byte :=
  le4 vendor.length ++ vendor ++ le4 entries.length ++ entriesBytes entries

/-- The bytes of PICB (R95). -/
def pictureBytes (ptype : Nat) (mime desc : List Byte) (width height depth colors : Nat)
    (data : List Byte) : List Byte :=
  be4 ptype ++ be4 mime.length ++ mime ++ be4 desc.length ++ desc ++ be4 width ++ be4 height ++
    be4 depth ++ be4 colors ++ be4 data.length ++ data

/-- The bits of a block's body (R93 to R97). -/
def Content.bits (c : Content) : List Bool :=
  match c with
  | .streaminfo si => streaminfoBits si
  | .application id payload => bytesBits (id ++ payload)
  | .vorbisComment vendor entries => bytesBits (vorbisBytes vendor entries)
  | .picture t m d w h dp cl data => bytesBits (pictureBytes t m d w h dp cl data)
  | .unknown _ data => bytesBits data

/-- The length of a block's body in bytes. -/
def Content.length (c : Content) : Nat :=
  match c with
  | .streaminfo _ => 34
  | .application id payload => id.length + payload.length
  | .vorbisComment vendor entries => (vorbisBytes vendor entries).length
  | .picture t m d w h dp cl data => (pictureBytes t m d w h dp cl data).length
  | .unknown _ data => data.length

/-- The type code of a block (R114, D7). -/
def Content.type (cfg : Config) (c : Content) : BitVec 7 :=
  match c with
  | .streaminfo _ => cfg.btStreaminfo
  | .application _ _ => cfg.btApplication
  | .vorbisComment _ _ => cfg.btVorbisComment
  | .picture _ _ _ _ _ _ _ _ => cfg.btPicture
  | .unknown t _ => t

/-- The kind a content is parsed as (R114). -/
def Content.kind (c : Content) : BlockKind :=
  match c with
  | .streaminfo _ => .streaminfo
  | .application _ _ => .application
  | .vorbisComment _ _ => .vorbisComment
  | .picture _ _ _ _ _ _ _ _ => .picture
  | .unknown _ _ => .unknown

/-- Whether the block is a STREAMINFO. -/
def Content.isStreaminfo (c : Content) : Bool :=
  match c with
  | .streaminfo _ => true
  | .application _ _ => false
  | .vorbisComment _ _ => false
  | .picture _ _ _ _ _ _ _ _ => false
  | .unknown _ _ => false

/-- What the fields of a STREAMINFO can hold (R31 to R39). -/
def streaminfoOk (si : StreamInfo) : Bool :=
  si.valid && 1 ≤ si.channels && si.channels ≤ 8 && 1 ≤ si.bps && si.bps ≤ 32 && si.md5.length == 16

/-- What a block's body can hold without being malformed (R163). -/
def Content.fits (rule : Utf8Rule) (c : Content) : Bool :=
  c.length < 2 ^ 24 &&
  match c with
  | .streaminfo si => streaminfoOk si
  | .application id _ => id.length == 4
  | .vorbisComment vendor entries =>
    stringOk rule vendor &&
      entries.all (fun e => !e.1.contains 0x3D#8 && stringOk rule (entryBytes e))
  | .picture t m d w h dp cl _ =>
    t ≤ picTypeMax && stringOk rule m && stringOk rule d && w < 2 ^ 32 && h < 2 ^ 32 &&
      dp < 2 ^ 32 && cl < 2 ^ 32
  | .unknown _ _ => true

/-- A block whose type number stands for its kind (R114), with such a body. -/
def Content.ok (cfg : Config) (c : Content) : Bool :=
  blockKind cfg (c.type cfg) == c.kind && c.fits cfg.utf8

/-- The bits of a block: header (R92) and body. -/
def Block.bits (cfg : Config) (b : Block) : List Bool :=
  b.last :: natBits 7 (b.content.type cfg).toNat ++ natBits 24 b.content.length ++ b.content.bits

/-- The record of a block (R165). -/
def Block.record (b : Block) : Record :=
  match b.content with
  | .streaminfo si => .streamInfo 34 b.last si
  | .application id payload => .application b.content.length b.last id payload
  | .vorbisComment vendor entries => .vorbisComment b.content.length b.last vendor entries
  | .picture t m d w h dp cl data => .picture b.content.length b.last t m d w h dp cl data
  | .unknown _ _ => .unknown b.content.length b.last

/-- What a block does to the registers and to `META` (R151, R155, R162), the reader apart. -/
def Block.effect (b : Block) (s : State) : State :=
  let t := match b.content with
    | .streaminfo si => s.setSi si
    | .application _ _ => s
    | .vorbisComment _ _ => s
    | .picture _ _ _ _ _ _ _ _ => s
    | .unknown _ _ => s
  let u := t.addRecord b.record
  if b.last then u.setPhase .frames else u

/-- The metadata of a stream (R90, R153): STREAMINFO first and once, the last-flag on the last block
and on no other. -/
def metadataOk (cfg : Config) (bs : List Block) : Bool :=
  match bs with
  | [] => false
  | b :: rest =>
    b.content.isStreaminfo && bs.all (fun x => x.content.ok cfg) &&
      rest.all (fun x => !x.content.isStreaminfo) &&
      bs.map (fun x => x.last) == List.replicate rest.length false ++ [true]

/-- The bits of a stream's head: marker (R91) and blocks. -/
def headBits (cfg : Config) (bs : List Block) : List Bool :=
  bytesBits [0x66#8, 0x4C#8, 0x61#8, 0x43#8] ++ bs.flatMap (Block.bits cfg)

end Sys2Proof.Machine
end

