-- ==== Sys2Proof/Machine/Observe.lean ====
section
/-! DEFINITION. What the host can read (spec/46_stream_control.md R293), each part under the condition
R293 gives it, and the views of `META` (R157, R159, R293). They have no side effect and hold no
state. -/

namespace Sys2Proof.Machine

open Sys2Proof

/-- The phases in which `SI.*` and `META` are readable (R46, R293). -/
def State.opened (s : State) : Bool := s.phase == .frames || s.phase == .endOfStream

/-- `SI.*`: readable when `SI.valid = 1` in `Frames` or `EndOfStream`. -/
def State.hostSi (s : State) : Option StreamInfo :=
  if s.opened && s.siValid then some s.si else none

/-- Sample rate in Hz. -/
def State.hostSampleRate (s : State) : Option Nat := s.hostSi.map (·.sampleRate.toNat)

/-- Channel count. -/
def State.hostChannels (s : State) : Option Nat := s.hostSi.map (·.channels)

/-- Bits per sample. -/
def State.hostBps (s : State) : Option Nat := s.hostSi.map (·.bps)

/-- Total sample count. -/
def State.hostTotalSamples (s : State) : Option Nat := s.hostSi.map (·.totalSamples.toNat)

/-- `META`: readable in `Frames` and `EndOfStream`. -/
def State.hostMeta (s : State) : Option (List Record) := if s.opened then some s.metas else none

/-- `PHASE`, at any time. -/
def State.hostPhase (s : State) : Phase := s.phase

/-- `FAULT`, at any time: its code (R301) and info. -/
def State.hostFault (s : State) : Option (Nat × DecodeFault) := s.fault.map (fun d => (d.code, d))

/-- `OUT`, after a PULL. -/
def State.hostOut (s : State) : Out := s.out

/-- `BR.pos`, at any time outside `Faulted`. -/
def State.hostPos (s : State) : Option Nat := if s.phase == .faulted then none else some s.br.pos

/-- Whether a record is a VorbisComment. -/
def Record.isComment (r : Record) : Bool :=
  match r with
  | .vorbisComment _ _ _ _ => true
  | .streamInfo _ _ _ | .picture _ _ _ _ _ _ _ _ _ _ | .application _ _ _ _ | .unknown _ _ => false

/-- Whether a record is a Picture. -/
def Record.isPicture (r : Record) : Bool :=
  match r with
  | .picture _ _ _ _ _ _ _ _ _ _ => true
  | .streamInfo _ _ _ | .vorbisComment _ _ _ _ | .application _ _ _ _ | .unknown _ _ => false

/-- Whether a record is an Application. -/
def Record.isApplication (r : Record) : Bool :=
  match r with
  | .application _ _ _ _ => true
  | .streamInfo _ _ _ | .vorbisComment _ _ _ _ | .picture _ _ _ _ _ _ _ _ _ _ | .unknown _ _ => false

/-- The ordered list of comment blocks (R293). -/
def State.hostComments (s : State) : Option (List Record) := s.hostMeta.map (·.filter Record.isComment)

/-- The ordered list of pictures (R293). -/
def State.hostPictures (s : State) : Option (List Record) := s.hostMeta.map (·.filter Record.isPicture)

/-- The ordered list of application blocks (R293). -/
def State.hostApplications (s : State) : Option (List Record) :=
  s.hostMeta.map (·.filter Record.isApplication)

/-- `tags(name)` (R157): the values whose name equals the argument byte for byte, in entry order. -/
def tags (entries : List (List Byte × List Byte)) (name : List Byte) : List (List Byte) :=
  (entries.filter (fun e => e.1 == name)).map Prod.snd

/-- The label of a picture type (R159); no label outside 0 to 20. -/
def pictureLabel (ptype : Nat) : Option String :=
  ["Other", "32x32 pixels file icon (PNG only)", "Other file icon", "Cover (front)", "Cover (back)",
    "Leaflet page", "Media (e.g. label side of CD)", "Lead artist/lead performer/soloist",
    "Artist/performer", "Conductor", "Band/orchestra", "Composer", "Lyricist/text writer",
    "Recording location", "During recording", "During performance", "Movie/video screen capture",
    "A bright coloured fish", "Illustration", "Band/artist logotype", "Publisher/studio logotype"][ptype]?

/-- A run of host commands (R294): RESET, OPEN, then PULLs, each one step. -/
def State.afterCommands (s : State) (cmds : List Instr) : Host.Outcome State Fault Refusal :=
  match cmds with
  | [] => .next s
  | i :: rest =>
    match exec i s with
    | .next t => t.afterCommands rest
    | .fault r => .fault r
    | .refused r => .refused r

end Sys2Proof.Machine
end

