-- ==== Sys2Proof/Safety.lean ====
section
/-! DEFINITION. What counts as a safe run of FLACDEC, in the terms statements use: the invariants of
R51, a run driven by the host's commands, fault entry as an outcome, and what each unit of R3 may
write. -/

namespace Sys2Proof.Machine

open Sys2Proof

/-! ### Units (R3) -/

/-- The units that own the elements, and the host's side. -/
inductive Owner where
  | reader | metadata | header | channels | subframe | residual | host
deriving DecidableEq, Repr

/-- The unit whose rule an instruction is. -/
def owner (i : Instr) : Owner :=
  match i with
  | .magic | .rice | .readUint _ | .readSint _ | .readBytes _ | .readByteOrEos | .align | .readRice _
  | .atEnd | .readLe32 | .readBe32 => .reader
  | .mbh | .mbStreaminfo _ _ | .mbApplication _ _ | .mbVorbisComment _ _ | .mbPicture _ _
  | .mbUnknownOdd _ _ _ | .mbUnknown64 _ _ _ | .mbUnknown32 _ _ _ | .mbUnknown16 _ _ _
  | .mbUnknown8 _ _ _ => .metadata
  | .fhSync | .fhBlocksize0 | .fhBlocksize1 | .fhBlocksize2 | .fhBlocksize3 | .fhBlocksize4
  | .fhBlocksize5 | .fhBlocksize6 | .fhBlocksize7 | .fhBlocksize8 | .fhBlocksize9 | .fhBlocksize10
  | .fhBlocksize11 | .fhBlocksize12 | .fhBlocksize13 | .fhBlocksize14 | .fhBlocksize15
  | .fhSamplerate0 | .fhSamplerate1 | .fhSamplerate2 | .fhSamplerate3 | .fhSamplerate4
  | .fhSamplerate5 | .fhSamplerate6 | .fhSamplerate7 | .fhSamplerate8 | .fhSamplerate9
  | .fhSamplerate10 | .fhSamplerate11 | .fhSamplerate12 | .fhSamplerate13 | .fhSamplerate14
  | .fhSamplerate15 | .fhNumber00 _ | .fhNumber80 _ | .fhNumberC0 _ | .fhNumberE0 _ | .fhNumberF0 _
  | .fhNumberF8 _ | .fhNumberFC _ | .fhNumberFE | .fhNumberFF | .fhCrc8 | .fhFooter => .header
  | .caIndep0 | .caIndep1 | .caIndep2 | .caIndep3 | .caIndep4 | .caIndep5 | .caIndep6 | .caIndep7
  | .caLeftSide | .caRightSide | .caMidSide | .caInvalid11 | .caInvalid12 | .caInvalid13
  | .caInvalid14 | .caInvalid15 => .channels
  | .sfConstant | .sfVerbatim | .sfFixed0 | .sfFixed1 | .sfFixed2 | .sfFixed3 | .sfFixed4 | .sfLpc _
  | .sfUnsupported2 _ | .sfUnsupported4 _ | .sfUnsupported13 | .sfUnsupported14 _
  | .sfUnsupported16 _ | .readWasted | .predict _ _ _ _ _ _ => .subframe
  | .resRice4 | .resRice5 | .resInvalidMethod _ | .resPorder | .resParam _ _ | .resEscape4
  | .resEscape5 | .resValues _ => .residual
  | .resetCmd | .openCmd _ | .pullCmd => .host

/-- The three commands (R285). -/
def isCommand (i : Instr) : Bool := owner i == .host

/-! ### Invariants (R51) -/

/-- `MD.index` counts the records (R51 e), and a record stands only after STREAMINFO was loaded (R153,
R155). -/
def State.MdOk (s : State) : Prop :=
  s.mdIndex = s.metas.length ∧ (0 < s.mdIndex → s.si.valid = true)

/-- R51 (a), (b), (d), (e) and (f), with R22 whole and the source in canonical form: what every element
keeps, whoever asks for it. -/
def State.Inv (s : State) : Prop :=
  s.ReaderOk ∧ s.MdOk ∧ (s.opened = true → s.si.valid = true) ∧ (s.phase ≠ .faulted → s.fault = none)

/-- An element can run: the reader meets R22, and no fault is latched (R51 f: the phase is not
`Faulted`). -/
def State.Ready (s : State) : Prop := s.ReaderOk ∧ s.halted = false

/-- A request the host can make (R328: it "can write nothing but the three commands"). -/
def Request.fromHost (r : Request) : Bool :=
  match r with
  | .call i => isCommand i
  | .element _ => false

/-- The host drives: only its commands stand at the port. -/
def State.hostDriven (s : State) : Bool := s.port.all Request.fromHost

/-- R51 between two commands: `Idle` is the reset state of the decoder, `Frames` and `EndOfStream`
stand on a byte boundary with no fault latched, `Faulted` has its fault; `Metadata` is never seen. -/
def State.HostInv (s : State) : Prop :=
  s.hostDriven = true ∧ s.src.wf = true ∧
  match s.phase with
  | .idle => s.br = ⟨0, 0, 0⟩ ∧ s.fault = none ∧ s.mdIndex = 0 ∧ s.metas = [] ∧ s.si.valid = false ∧
      s.out = .none
  | .metadata => False
  | .frames => s.Inv ∧ s.fault = none ∧ s.br.nbits = 0
  | .endOfStream => s.Inv ∧ s.fault = none ∧ s.br.nbits = 0 ∧ s.out = .endOfStream
  | .faulted => s.fault ≠ none ∧ s.out = .none

/-! ### Outcomes -/

/-- Fault entry with `d`, and nothing else said (R320, R321). -/
def Raises (o : Host.Outcome State Fault Refusal) (d : DecodeFault) : Prop :=
  ∃ t, o = .next t ∧ t.fault = some d ∧ t.phase = .faulted ∧ t.out = .none ∧ t.ret = .fault

/-- Fault entry with a fault of code `c` (R301: two models agree on a fault when the names agree). -/
def RaisesCode (o : Host.Outcome State Fault Refusal) (c : Nat) : Prop :=
  ∃ d, Raises o d ∧ d.code = c

/-! ### What a unit may write -/

/-- The state with what a unit may write blanked, and `ret`: two states with equal blanked forms
differ in nothing else. Every unit moves the reader; the host's commands may write anything but the
port and the configuration. -/
def Owner.blank (o : Owner) (s : State) : State :=
  let s := (s.setRet .none).setBr ⟨0, 0, 0⟩
  match o with
  | .reader => s
  | .metadata => (((s.setSi State.reset.si).setMetas []).setMdIndex 0).setPhase .idle
  | .header => s.setF State.reset.f
  | .channels => (((s.setF State.reset.f).setSub State.reset.sub).setRs State.reset.rs).setCh []
  | .subframe => (s.setSub State.reset.sub).setRs State.reset.rs
  | .residual => s.setRs State.reset.rs
  | .host => (State.reset.setPort s.port).setCfg s.cfg

end Sys2Proof.Machine
end

