-- ==== Sys2Proof/Certificates/Slice0/Obligations.lean ====
section
/-! DEFINITION. The statements for the provers. Three premises recur: `s.halted = false`, no fault
latched (R51 f; OnlyResetLeavesFaulted says what happens otherwise), `s.Ready`, which adds the reader's
invariant of R22, and "these bits come next", written `bits <+: s.ahead`. A conclusion
`exec i s = .next t` gives the whole next state: what `t` does not set is as in `s`, every byte of SRC
and every register. `ret` and `port` are the model's own fields (log entries 3 and 4). A statement that
says nothing of the parameters `s.cfg` (R7, log entry 21) holds whatever they are. Some hold of states that no
run reaches too, with `RS.k`, `SI.bps` or `S.d` so large that a field has more than 64 bits; that such a field is
read, by R131's own pseudocode, is the model's choice (log entry 11). -/

open Sys2Proof Sys2Proof.Machine

/-! ### Reset, phases, commands -/

/-- R50, R286: what RESET leaves, from any state; and the state the model starts in. The registers R50
calls unspecified are not spoken of. That RESET leaves the parameters alone, and that the start state has
R7's defaults, is the model's choice (log entry 21). -/
def Obligations.ResetLeavesTheResetValues : Prop :=
  (∀ s : State, ∃ t, exec .resetCmd s = .next t ∧ t.br = ⟨0, 0, 0⟩ ∧ t.phase = .idle ∧ t.fault = none ∧
    t.mdIndex = 0 ∧ t.si.valid = false ∧ t.out = .none ∧ t.metas = [] ∧ t.cfg = s.cfg ∧
    ∀ a, t.src.read a = s.src.read a) ∧
  State.reset.br = ⟨0, 0, 0⟩ ∧ State.reset.phase = .idle ∧ State.reset.fault = none ∧
  State.reset.mdIndex = 0 ∧ State.reset.si.valid = false ∧ State.reset.out = .none ∧
  State.reset.metas = [] ∧ State.reset.cfg = config

/-- R51: the invariants hold after reset. The model's start state holds log entry 1's values. -/
def Obligations.ResetMeetsTheInvariants : Prop := State.reset.Inv ∧ State.reset.HostInv

/-- R291, R327: OPEN outside `Idle`, and PULL in `Idle`, `Metadata` or `Faulted`, return `Refused` and
change nothing. -/
def Obligations.CommandsInTheWrongPhaseAreRefused : Prop :=
  (∀ (s : State) src, s.phase ≠ .idle → exec (.openCmd src) s = .next (s.setRet .refused)) ∧
  ∀ s : State, s.phase = .idle ∨ s.phase = .metadata ∨ s.phase = .faulted →
    exec .pullCmd s = .next (s.setRet .refused)

/-- R25, R323, R324, R348: once a fault is latched, `FAULT` is changed only by RESET: every other command
and element is refused and changes nothing but the returned value, and so does any sequence of them; an
element selected by the stream is not even fetched. (Commands: R291. That elements asked for singly are
refused too is log entry 20.) -/
def Obligations.OnlyResetLeavesFaulted : Prop :=
  (∀ (i : Instr) (s : State), s.phase = .faulted ∨ s.fault ≠ none → i ≠ .resetCmd →
    exec i s = .next (s.setRet .refused)) ∧
  (∀ (is : List Instr) (s : State), s.phase = .faulted ∨ s.fault ≠ none → (∀ i ∈ is, i ≠ .resetCmd) →
    ∃ t, s.afterCommands is = .next t ∧ t.phase = s.phase ∧ t.fault = s.fault ∧ t.setRet s.ret = s) ∧
  ∀ (s : State) c rest, s.phase = .faulted ∨ s.fault ≠ none → s.port = .element c :: rest →
    step s = .next ((s.setPort rest).setRet .refused)

/-- R290: the end of the stream is a normal result, and its phase is absorbing: later PULLs answer
`EndOfStream`, change nothing but `OUT`, and no command but RESET leaves it; `SI.*` and `META` stay
readable. No fault is latched in these phases (R51 f). -/
def Obligations.EndOfStreamIsAbsorbing : Prop :=
  (∀ s : State, s.phase = .frames → s.fault = none → s.atEnd = true →
    exec .pullCmd s = .next (((s.setPhase .endOfStream).setOut .endOfStream).setRet .endOfStream)) ∧
  (∀ s : State, s.phase = .endOfStream → s.fault = none →
    exec .pullCmd s = .next ((s.setOut .endOfStream).setRet .endOfStream)) ∧
  (∀ (s t : State) i, s.phase = .endOfStream → isCommand i = true → i ≠ .resetCmd →
    exec i s = .next t → t.phase = .endOfStream) ∧
  ∀ s : State, s.phase = .endOfStream → s.hostMeta = some s.metas ∧
    (s.si.valid = true → s.hostSi = some s.si)

/-- R288, R302: the marker is tested on the four bytes the reader stands at; with fewer than four left
the fault is UnexpectedEnd, and a mismatch is NotAFlacStream with the bytes found. The
marker's byte values are the spec's own, from general knowledge (GK9, log entry 13). -/
def Obligations.MarkerIsChecked : Prop :=
  (∀ s : State, s.halted = false → s.src.wf = true → s.br.pos + 4 ≤ s.srcLen →
    ∃ b0 b1 b2 b3, s.src.read s.br.pos = some b0 ∧ s.src.read (s.br.pos + 1) = some b1 ∧
      s.src.read (s.br.pos + 2) = some b2 ∧ s.src.read (s.br.pos + 3) = some b3 ∧
      ([b0, b1, b2, b3] = [0x66#8, 0x4C#8, 0x61#8, 0x43#8] →
        exec .magic s = .next ((s.setBr ⟨s.br.pos + 4, 0, 0⟩).setRet .unit)) ∧
      ([b0, b1, b2, b3] ≠ [0x66#8, 0x4C#8, 0x61#8, 0x43#8] →
        Raises (exec .magic s) (.notAFlacStream [b0, b1, b2, b3]))) ∧
  (∀ s : State, s.halted = false → s.srcLen < s.br.pos + 4 → RaisesCode (exec .magic s) 3) ∧
  (∀ (s : State) src, s.phase = .idle → s.fault = none → s.br = ⟨0, 0, 0⟩ → src.length < 4 →
    RaisesCode (exec (.openCmd src) s) 3) ∧
  ∀ (s : State) src, s.phase = .idle → s.fault = none → s.br = ⟨0, 0, 0⟩ → 4 ≤ src.length →
    src.take 4 ≠ [0x66#8, 0x4C#8, 0x61#8, 0x43#8] →
    Raises (exec (.openCmd src) s) (.notAFlacStream (src.take 4))

/-- R287: OPEN in `Idle` on a source that begins with the marker and well-formed blocks parses all of
them: `Frames`, the STREAMINFO registers loaded, one record per block in stream order, the reader
aligned at the byte after the last block, and nothing else changed but SRC. The body layouts are the
spec's own (log entry 13); the block-type numbers and `Utf8Valid` are parameters (log entry 21). -/
def Obligations.OpenParsesTheWholeHead : Prop :=
  ∀ (s : State) (src : List Byte) (last : Bool) (si : StreamInfo) (rest : List Block),
    s.HostInv → s.phase = .idle → metadataOk s.cfg (⟨last, .streaminfo si⟩ :: rest) = true →
    headBits s.cfg (⟨last, .streaminfo si⟩ :: rest) <+: bytesBits src →
    exec (.openCmd src) s = .next ((((((((s.setSrc (Memory.ofBytes src)).setPhase .frames).setSi si).setMetas
      ((⟨last, .streaminfo si⟩ :: rest).map Block.record)).setMdIndex (rest.length + 1)).setBr
      ⟨(headBits s.cfg (⟨last, .streaminfo si⟩ :: rest)).length / 8, 0, 0⟩).setOut .none).setRet .ok)

/-- R289, R190, R201: PULL on the bits of a frame, of any form the format admits, delivers that frame's
channels, with the reader just after it. `FIXED_COEF` is a parameter (log entry 21). What the statement says
of `F.*`, `S.*` and `RS.*`, dead after the frame (R41 to R43), is the model's choice and no rule's (log
entry 22). Fields above 64 bits: log entry 11. -/
def Obligations.PullDeliversTheFrame : Prop :=
  ∀ (s : State) (f : Frame), s.Ready → s.phase = .frames → s.br.nbits = 0 → s.si.valid = true →
    f.ok s.si.bps = true → f.bits s.si.bps <+: s.ahead →
    exec .pullCmd s = .next (((((((s.setBr (readerAt s.src (s.bp + (f.bits s.si.bps).length))).setF
      ⟨f.bsc, f.src, f.ca, f.ssc, f.n, f.subframes.length⟩).setSub
      (subframesRegs s.cfg.fixedCoef f.n (depths f.ca.toNat s.si.bps) f.subframes s.sub)).setRs
      (subframesRes f.subframes s.rs)).setCh (channelsOf s.cfg.fixedCoef f.n f.ca.toNat f.subframes)).setOut
      (.frame f.n f.subframes.length (channelsOf s.cfg.fixedCoef f.n f.ca.toNat f.subframes))).setRet .frame)

/-- R294, R90: from any state, RESET, OPEN and PULLs over a stream made of a head and frames deliver
the blocks' records and the frames in order, then `EndOfStream`, with no fault (with log entries 13,
14 and 21). -/
def Obligations.StreamDecodesToItsFrames : Prop :=
  ∀ (s : State) (src : List Byte) (last : Bool) (si : StreamInfo) (rest : List Block) (fs : List Frame),
    metadataOk s.cfg (⟨last, .streaminfo si⟩ :: rest) = true → fs.all (Frame.ok si.bps) = true →
    bytesBits src = headBits s.cfg (⟨last, .streaminfo si⟩ :: rest) ++ fs.flatMap (Frame.bits si.bps) →
    (∀ k, k ≤ fs.length → ∃ t,
      s.afterCommands (.resetCmd :: .openCmd src :: List.replicate k .pullCmd) = .next t ∧
      t.phase = .frames ∧ t.fault = none ∧ t.si = si ∧
      t.metas = (⟨last, .streaminfo si⟩ :: rest).map Block.record ∧
      t.out = (match (fs.take k).getLast? with
        | none => .none
        | some f => .frame f.n f.subframes.length (channelsOf s.cfg.fixedCoef f.n f.ca.toNat f.subframes))) ∧
    ∃ t, s.afterCommands (.resetCmd :: .openCmd src :: List.replicate (fs.length + 1) .pullCmd) = .next t ∧
      t.phase = .endOfStream ∧ t.fault = none ∧ t.out = .endOfStream ∧ t.br.pos = src.length

/-! ### The bit reader -/

/-- R131: the next `n` bits as an unsigned number, the first the most significant; UnexpectedEnd when
fewer are left. For `n > 64`, where R131 lets a model refuse, that it runs is the model's choice (log
entry 11). -/
def Obligations.ReadUintReadsTheNextBits : Prop :=
  ∀ (n : Nat) (s : State), s.Ready →
    (s.bp + n ≤ 8 * s.srcLen → exec (.readUint n) s =
      .next ((s.setBr (readerAt s.src (s.bp + n))).setRet (.nat (bitsNat (s.ahead.take n))))) ∧
    (8 * s.srcLen < s.bp + n → RaisesCode (exec (.readUint n) s) 3)

/-- R132: the same bits as a two's complement number. For `n > 64` it rests on READ_UINT(n), which there is
the model's choice (log entry 11, as is `n = 0`, in TheTwoStops). -/
def Obligations.ReadSintReadsTwosComplement : Prop :=
  ∀ (n : Nat) (s : State), 1 ≤ n → s.Ready →
    (s.bp + n ≤ 8 * s.srcLen → ∃ x : Int,
      exec (.readSint n) s = .next ((s.setBr (readerAt s.src (s.bp + n))).setRet (.int x)) ∧
      ((2 ^ n : Nat) : Int) ∣ x - (bitsNat (s.ahead.take n) : Int) ∧
      -((2 ^ (n - 1) : Nat) : Int) ≤ x ∧ x < ((2 ^ (n - 1) : Nat) : Int)) ∧
    (8 * s.srcLen < s.bp + n → RaisesCode (exec (.readSint n) s) 3)

/-- The model's two stops, its choice and not the spec's (log entries 11 and 12): READ_SINT(0) is
refused (93 U25 allows it), and a channel row that would read `SI.bps` while `SI.valid` is 0 stops (R40
asks for a fault or a refusal). -/
def Obligations.TheTwoStops : Prop :=
  (∀ s : State, s.halted = false → exec (.readSint 0) s = .refused .signedReadOfNoBits) ∧
  ∀ s : State, s.halted = false → s.si.valid = false → ∀ i ∈ [Instr.caIndep0, .caIndep1, .caIndep2, .caIndep3, .caIndep4,
    .caIndep5, .caIndep6, .caIndep7, .caLeftSide, .caRightSide, .caMidSide],
    exec i s = .fault .streaminfoUnreadable

/-- R133: alignment, then the next `n` bytes; UnexpectedEnd when fewer remain. -/
def Obligations.ReadBytesReturnsTheNextBytes : Prop :=
  ∀ (n : Nat) (s : State), s.halted = false → s.src.wf = true →
    (s.br.pos + n ≤ s.srcLen → ∃ b : List Byte,
      exec (.readBytes n) s = .next ((s.setBr ⟨s.br.pos + n, 0, 0⟩).setRet (.bytes b)) ∧
      b.length = n ∧ ∀ j, j < n → s.src.read (s.br.pos + j) = b[j]?) ∧
    (s.srcLen < s.br.pos + n → RaisesCode (exec (.readBytes n) s) 3)

/-- R134, R135, R140: the sentinel read, alignment, and the test that agrees with the sentinel on an
aligned reader. None of them faults. -/
def Obligations.AlignmentAndTheEndTest : Prop :=
  (∀ s : State, s.halted = false → exec .align s = .next ((s.setBr ⟨s.br.pos, 0, 0⟩).setRet .unit)) ∧
  (∀ s : State, s.ReaderOk → (s.setBr ⟨s.br.pos, 0, 0⟩).bp = 8 * ((s.bp + 7) / 8)) ∧
  (∀ s : State, s.halted = false → s.src.read s.br.pos = none →
    exec .readByteOrEos s = .next ((s.setBr ⟨s.br.pos, 0, 0⟩).setRet .eos)) ∧
  (∀ (s : State) b, s.halted = false → s.src.read s.br.pos = some b →
    exec .readByteOrEos s = .next ((s.setBr ⟨s.br.pos + 1, 0, 0⟩).setRet (.bytes [b]))) ∧
  (∀ s : State, s.halted = false → exec .atEnd s =
    .next (s.setRet (.bool (s.br.nbits == 0 && s.br.pos == s.srcLen)))) ∧
  ∀ s : State, s.Ready → s.br.nbits = 0 →
    (s.atEnd = true ↔ exec .readByteOrEos s = .next (s.setRet .eos))

/-- R136, R111: `q` zero bits, a one bit and `k` bits `r` give the zigzag of `q * 2^k + r`; a source that
ends first gives UnexpectedEnd. RICE is the same with `k = RS.k`. R136 uses `k` from 0 to 31; that `k > 64`
runs, where R131 and U25 let READ_UINT(k) be refused, is the model's choice (log entry 11). -/
def Obligations.RiceCodewordsDecode : Prop :=
  ∀ (k q r : Nat) (s : State), s.Ready →
    (r < 2 ^ k → List.replicate q false ++ [true] ++ natBits k r <+: s.ahead → ∀ x : Int,
      (x = if (q * 2 ^ k + r) % 2 = 0 then (((q * 2 ^ k + r) / 2 : Nat) : Int)
        else -(((q * 2 ^ k + r) / 2 : Nat) : Int) - 1) →
      exec (.readRice k) s = .next ((s.setBr (readerAt s.src (s.bp + (q + 1 + k)))).setRet (.int x)) ∧
      (s.rs.k = k → exec .rice s =
        .next ((s.setBr (readerAt s.src (s.bp + (q + 1 + k)))).setRet (.int x)))) ∧
    (s.ahead = List.replicate q false → RaisesCode (exec (.readRice k) s) 3) ∧
    (∀ l, l.length < k → s.ahead = List.replicate q false ++ [true] ++ l →
      RaisesCode (exec (.readRice k) s) 3)

/-- R136's testable property, which it states for `k` from 0 to 20, for every `k`: every integer, written as
a codeword, is read back. That `k > 64` runs, where R131 and U25 let READ_UINT(k) be refused, is the model's
choice (log entry 11). -/
def Obligations.RiceRoundTrip : Prop :=
  ∀ (k : Nat) (x : Int) (s : State), s.Ready → riceBits k x <+: s.ahead →
    exec (.readRice k) s =
      .next ((s.setBr (readerAt s.src (s.bp + (riceBits k x).length))).setRet (.int x))

/-- R137: four bytes, the least significant first, or the most; the latter is READ_UINT(32) on an
aligned reader. -/
def Obligations.FourByteNumbers : Prop :=
  (∀ (s : State) (b0 b1 b2 b3 : Byte), s.Ready → s.src.read s.br.pos = some b0 →
    s.src.read (s.br.pos + 1) = some b1 → s.src.read (s.br.pos + 2) = some b2 →
    s.src.read (s.br.pos + 3) = some b3 →
    exec .readLe32 s = .next ((s.setBr ⟨s.br.pos + 4, 0, 0⟩).setRet
      (.nat (b0.toNat + b1.toNat * 2 ^ 8 + b2.toNat * 2 ^ 16 + b3.toNat * 2 ^ 24))) ∧
    exec .readBe32 s = .next ((s.setBr ⟨s.br.pos + 4, 0, 0⟩).setRet
      (.nat (b3.toNat + b2.toNat * 2 ^ 8 + b1.toNat * 2 ^ 16 + b0.toNat * 2 ^ 24))) ∧
    (s.br.nbits = 0 → exec .readBe32 s = exec (.readUint 32) s)) ∧
  ∀ s : State, s.halted = false → s.srcLen < s.br.pos + 4 →
    RaisesCode (exec .readLe32 s) 3 ∧ RaisesCode (exec .readBe32 s) 3

/-! ### Frame headers -/

/-- R192, R193, R98: the sync code is compared, the four codes are latched (`ssc` too, which no rule
reads), the other three bits (`r1`, `bstrat`, `r2`) are ignored; another sync code is InvalidSync; a source
that ends inside the sync code, or after it and inside the word, is UnexpectedEnd. -/
def Obligations.FrameWordIsLatched : Prop :=
  (∀ (s : State) (r1 bstrat r2 : Bool) (bsc src ca : BitVec 4) (ssc : BitVec 3), s.Ready →
    natBits 14 0x3FFE ++ [r1, bstrat] ++ natBits 4 bsc.toNat ++ natBits 4 src.toNat ++
      natBits 4 ca.toNat ++ natBits 3 ssc.toNat ++ [r2] <+: s.ahead →
    exec .fhSync s = .next (((s.setBr (readerAt s.src (s.bp + 32))).setF
      { s.f with bsc := bsc, src := src, ca := ca, ssc := ssc }).setRet .unit)) ∧
  (∀ (s : State) (v : Nat), s.Ready → v < 2 ^ 14 → v ≠ 0x3FFE → natBits 14 v <+: s.ahead →
    Raises (exec .fhSync s) (.invalidSync v)) ∧
  (∀ s : State, s.Ready → 8 * s.srcLen < s.bp + 14 → RaisesCode (exec .fhSync s) 3) ∧
  ∀ s : State, s.Ready → natBits 14 0x3FFE <+: s.ahead → 8 * s.srcLen < s.bp + 32 →
    RaisesCode (exec .fhSync s) 3

/-- R115, R196: the block size of every code; code 0 is InvalidBlockSizeCode. -/
def Obligations.BlockSizeOfEveryCode : Prop :=
  (∀ p ∈ [(Instr.fhBlocksize1, 192), (.fhBlocksize2, 576), (.fhBlocksize3, 1152), (.fhBlocksize4, 2304),
      (.fhBlocksize5, 4608), (.fhBlocksize8, 256), (.fhBlocksize9, 512), (.fhBlocksize10, 1024),
      (.fhBlocksize11, 2048), (.fhBlocksize12, 4096), (.fhBlocksize13, 8192), (.fhBlocksize14, 16384),
      (.fhBlocksize15, 32768)], ∀ s : State, s.halted = false →
    exec p.1 s = .next ((s.setF { s.f with n := p.2 }).setRet .unit)) ∧
  (∀ p ∈ [(Instr.fhBlocksize6, 8), (.fhBlocksize7, 16)], ∀ s : State, s.Ready →
    (∀ x, x < 2 ^ p.2 → natBits p.2 x <+: s.ahead → exec p.1 s =
      .next (((s.setBr (readerAt s.src (s.bp + p.2))).setF { s.f with n := x + 1 }).setRet .unit)) ∧
    (8 * s.srcLen < s.bp + p.2 → RaisesCode (exec p.1 s) 3)) ∧
  ∀ s : State, s.halted = false → Raises (exec .fhBlocksize0 s) (.invalidBlockSizeCode 0)

/-- R116, R197: codes 12, 13 and 14 skip 8, 16 and 16 bits, every other code nothing. -/
def Obligations.SampleRateCodesSkip : Prop :=
  (∀ i ∈ [Instr.fhSamplerate0, .fhSamplerate1, .fhSamplerate2, .fhSamplerate3, .fhSamplerate4,
      .fhSamplerate5, .fhSamplerate6, .fhSamplerate7, .fhSamplerate8, .fhSamplerate9, .fhSamplerate10,
      .fhSamplerate11, .fhSamplerate15], ∀ s : State, s.Ready → exec i s = .next (s.setRet .unit)) ∧
  ∀ p ∈ [(Instr.fhSamplerate12, 8), (.fhSamplerate13, 16), (.fhSamplerate14, 16)], ∀ s : State,
    s.Ready →
    (s.bp + p.2 ≤ 8 * s.srcLen →
      exec p.1 s = .next ((s.setBr (readerAt s.src (s.bp + p.2))).setRet .unit)) ∧
    (8 * s.srcLen < s.bp + p.2 → RaisesCode (exec p.1 s) 3)

/-- R99, R194: every class of first byte is followed by its count of continuation bytes, of any
value. -/
def Obligations.FrameNumberLength : Prop :=
  ∀ (s : State) (i : Instr) (c : Nat), s.Ready →
    ((∃ x, i = .fhNumber00 x ∧ c = 0) ∨ (∃ x, i = .fhNumber80 x ∧ c = 0) ∨
      (∃ x, i = .fhNumberC0 x ∧ c = 1) ∨ (∃ x, i = .fhNumberE0 x ∧ c = 2) ∨
      (∃ x, i = .fhNumberF0 x ∧ c = 3) ∨ (∃ x, i = .fhNumberF8 x ∧ c = 4) ∨
      (∃ x, i = .fhNumberFC x ∧ c = 5) ∨ (i = .fhNumberFE ∧ c = 6) ∨ (i = .fhNumberFF ∧ c = 7)) →
    (s.bp + 8 * c ≤ 8 * s.srcLen →
      exec i s = .next ((s.setBr (readerAt s.src (s.bp + 8 * c))).setRet .unit)) ∧
    (8 * s.srcLen < s.bp + 8 * c → RaisesCode (exec i s) 3)

/-- R99: the row a first byte selects, and how many bytes follow, are functions of its leading 1
bits. -/
def Obligations.FirstByteGivesTheNumberLength : Prop :=
  ∀ (b : Byte) (s : State), s.Ready →
    s.bp + 8 * (((natBits 8 b.toNat).takeWhile id).length - 1) ≤ 8 * s.srcLen →
    ∃ i, decode s.cfg .number b.toNat = .ok i ∧ exec i s = .next ((s.setBr (readerAt s.src
      (s.bp + 8 * (((natBits 8 b.toNat).takeWhile id).length - 1)))).setRet .unit)

/-- R198, R200, R112: the header checksum is 8 bits of any value; the footer drops the rest of a byte,
then 16 bits of any value. -/
def Obligations.ChecksumsAreSkipped : Prop :=
  ∀ s : State, s.Ready →
    (s.bp + 8 ≤ 8 * s.srcLen →
      exec .fhCrc8 s = .next ((s.setBr (readerAt s.src (s.bp + 8))).setRet .unit)) ∧
    (8 * s.srcLen < s.bp + 8 → RaisesCode (exec .fhCrc8 s) 3) ∧
    (s.br.pos + 2 ≤ s.srcLen →
      exec .fhFooter s = .next ((s.setBr ⟨s.br.pos + 2, 0, 0⟩).setRet .unit)) ∧
    (s.srcLen < s.br.pos + 2 → RaisesCode (exec .fhFooter s) 3)

/-! ### Channels -/

/-- R220: codes 0 to 7 decode `code + 1` subframes at the stream's depth, each the next channel. What `S.*`
and `RS.*`, dead by then, hold is the model's choice (log entry 22). Fields above 64 bits: log entry 11. -/
def Obligations.IndependentChannels : Prop :=
  ∀ p ∈ [(Instr.caIndep0, 1), (.caIndep1, 2), (.caIndep2, 3), (.caIndep3, 4), (.caIndep4, 5),
      (.caIndep5, 6), (.caIndep6, 7), (.caIndep7, 8)], ∀ (s : State) (fs : List Subframe), s.Ready →
    s.si.valid = true → fs.length = p.2 →
    subframesOk s.f.n (List.replicate p.2 s.si.bps) fs = true →
    subframesBits (List.replicate p.2 s.si.bps) fs <+: s.ahead →
    exec p.1 s = .next ((((((s.setBr (readerAt s.src
      (s.bp + (subframesBits (List.replicate p.2 s.si.bps) fs).length))).setF
      { s.f with nch := p.2 }).setSub
      (subframesRegs s.cfg.fixedCoef s.f.n (List.replicate p.2 s.si.bps) fs s.sub)).setRs
      (subframesRes fs s.rs)).setCh (fs.map (Subframe.samples s.cfg.fixedCoef s.f.n))).setRet .unit)

/-- R221, R222: code 8, left at depth `b`, side at `b + 1`: left, and left minus side. What `S.*` and
`RS.*`, dead by then, hold is the model's choice (log entry 22). Fields above 64 bits: log entry 11. -/
def Obligations.LeftSideChannels : Prop :=
  ∀ (s : State) (l d : Subframe), s.Ready → s.si.valid = true → l.ok s.f.n s.si.bps = true →
    d.ok s.f.n (s.si.bps + 1) = true → l.bits s.si.bps ++ d.bits (s.si.bps + 1) <+: s.ahead →
    exec .caLeftSide s = .next ((((((s.setBr (readerAt s.src
      (s.bp + (l.bits s.si.bps ++ d.bits (s.si.bps + 1)).length))).setF { s.f with nch := 2 }).setSub
      (d.regs s.cfg.fixedCoef s.f.n (s.si.bps + 1)
        (l.regs s.cfg.fixedCoef s.f.n s.si.bps s.sub))).setRs (d.resRegs (l.resRegs s.rs))).setCh
      [l.samples s.cfg.fixedCoef s.f.n, List.zipWith (fun x y => x - y) (l.samples s.cfg.fixedCoef s.f.n)
        (d.samples s.cfg.fixedCoef s.f.n)]).setRet .unit)

/-- R223, R222: code 9, side at depth `b + 1`, right at `b`: side plus right, and right. What `S.*` and
`RS.*`, dead by then, hold is the model's choice (log entry 22). Fields above 64 bits: log entry 11. -/
def Obligations.RightSideChannels : Prop :=
  ∀ (s : State) (d r : Subframe), s.Ready → s.si.valid = true →
    d.ok s.f.n (s.si.bps + 1) = true → r.ok s.f.n s.si.bps = true →
    d.bits (s.si.bps + 1) ++ r.bits s.si.bps <+: s.ahead →
    exec .caRightSide s = .next ((((((s.setBr (readerAt s.src
      (s.bp + (d.bits (s.si.bps + 1) ++ r.bits s.si.bps).length))).setF { s.f with nch := 2 }).setSub
      (r.regs s.cfg.fixedCoef s.f.n s.si.bps
        (d.regs s.cfg.fixedCoef s.f.n (s.si.bps + 1) s.sub))).setRs (r.resRegs (d.resRegs s.rs))).setCh
      [List.zipWith (fun x y => x + y) (d.samples s.cfg.fixedCoef s.f.n)
        (r.samples s.cfg.fixedCoef s.f.n), r.samples s.cfg.fixedCoef s.f.n]).setRet .unit)

/-- R224, R222: code 10, mid at depth `b`, side at `b + 1`, with R224's formulas. What `S.*` and `RS.*`,
dead by then, hold is the model's choice (log entry 22). Fields above 64 bits: log entry 11. -/
def Obligations.MidSideChannels : Prop :=
  ∀ (s : State) (m d : Subframe), s.Ready → s.si.valid = true → m.ok s.f.n s.si.bps = true →
    d.ok s.f.n (s.si.bps + 1) = true → m.bits s.si.bps ++ d.bits (s.si.bps + 1) <+: s.ahead →
    exec .caMidSide s = .next ((((((s.setBr (readerAt s.src
      (s.bp + (m.bits s.si.bps ++ d.bits (s.si.bps + 1)).length))).setF { s.f with nch := 2 }).setSub
      (d.regs s.cfg.fixedCoef s.f.n (s.si.bps + 1)
        (m.regs s.cfg.fixedCoef s.f.n s.si.bps s.sub))).setRs (d.resRegs (m.resRegs s.rs))).setCh
      [List.zipWith (fun x y => (2 * x + y % 2 + y) / 2) (m.samples s.cfg.fixedCoef s.f.n)
          (d.samples s.cfg.fixedCoef s.f.n),
        List.zipWith (fun x y => (2 * x + y % 2 - y) / 2) (m.samples s.cfg.fixedCoef s.f.n)
          (d.samples s.cfg.fixedCoef s.f.n)]).setRet .unit)

/-- R226: in the three stereo modes the channels have `N` samples, differ by the side channel, and in
mid/side their sum is twice the mid channel plus the side's parity. Fields above 64 bits: log entry 11. -/
def Obligations.StereoIdentities : Prop :=
  ∀ (s : State) (x d : Subframe), s.Ready → s.si.valid = true → x.ok s.f.n s.si.bps = true →
    d.ok s.f.n (s.si.bps + 1) = true →
    ∀ p ∈ [(Instr.caLeftSide, true), (.caRightSide, false), (.caMidSide, true)],
    (if p.2 then x.bits s.si.bps ++ d.bits (s.si.bps + 1) else d.bits (s.si.bps + 1) ++ x.bits s.si.bps)
      <+: s.ahead →
    ∃ t a b, exec p.1 s = .next t ∧ t.ch = [a, b] ∧ a.length = s.f.n ∧ b.length = s.f.n ∧
      (∀ i, i < s.f.n → a.getD i 0 - b.getD i 0 = (d.samples s.cfg.fixedCoef s.f.n).getD i 0) ∧
      (p.1 = .caMidSide → ∀ i, i < s.f.n → a.getD i 0 + b.getD i 0 =
        2 * (x.samples s.cfg.fixedCoef s.f.n).getD i 0 + (d.samples s.cfg.fixedCoef s.f.n).getD i 0 % 2)

/-- R225, R117: codes 11 to 15. -/
def Obligations.InvalidChannelCodesFault : Prop :=
  ∀ (s : State), s.halted = false → ∀ p ∈ [(Instr.caInvalid11, 11), (.caInvalid12, 12), (.caInvalid13, 13),
    (.caInvalid14, 14), (.caInvalid15, 15)], Raises (exec p.1 s) (.invalidChannelAssignment p.2)

/-! ### Subframes -/

/-- R237, R104: as many 1 bits as the count, then a 0 bit; a run that meets the end of the source is
UnexpectedEnd. -/
def Obligations.WastedBitsAreCounted : Prop :=
  ∀ (s : State) (w : Nat), s.Ready →
    (List.replicate w true ++ [false] <+: s.ahead → exec .readWasted s =
      .next (((s.setBr (readerAt s.src (s.bp + (w + 1)))).setSub { s.sub with w := w }).setRet (.nat w))) ∧
    (s.ahead = List.replicate w true → RaisesCode (exec .readWasted s) 3)

/-- R240, R250: one signed field of `d - w` bits, times `2^w`, in every place. That `S.*`, dead after the
subframe, holds what was last written is the model's choice (log entry 22). Fields above 64 bits: log entry
11. -/
def Obligations.ConstantSubframe : Prop :=
  ∀ (s : State) (w : Nat) (v : Int), s.Ready → w < s.sub.d → fitsInt (s.sub.d - w) v = true →
    wastedBits w ++ intBits (s.sub.d - w) v <+: s.ahead →
    exec .sfConstant s = .next (((s.setBr (readerAt s.src (s.bp + (w + 1 + (s.sub.d - w))))).setSub
      { s.sub with type := 0, w := w, e := (s.sub.d : Int) - w, order := 0,
                   buf := List.replicate s.f.n (v * ((2 ^ w : Nat) : Int)) }).setRet .unit)

/-- R241, R250: `N` signed fields of `d - w` bits, each times `2^w`. That `S.*`, dead after the subframe,
holds what was last written is the model's choice (log entry 22). Fields above 64 bits: log entry 11. -/
def Obligations.VerbatimSubframe : Prop :=
  ∀ (s : State) (w : Nat) (xs : List Int), s.Ready → w < s.sub.d → xs.length = s.f.n →
    xs.all (fitsInt (s.sub.d - w)) = true →
    wastedBits w ++ xs.flatMap (intBits (s.sub.d - w)) <+: s.ahead →
    exec .sfVerbatim s = .next (((s.setBr (readerAt s.src
      (s.bp + (w + 1 + s.f.n * (s.sub.d - w))))).setSub
      { s.sub with type := 1, w := w, e := (s.sub.d : Int) - w, order := 0,
                   buf := xs.map (· * ((2 ^ w : Nat) : Int)) }).setRet .unit)

/-- R242, R243, R250: warm-up samples, a residual, the prediction of R244 with the row of `FIXED_COEF` and
no shift, then restoration. The table is a parameter, whatever it holds (R7, log entry 21); its default is
the document's print (R243, log entry 14). That `S.*` and `RS.*`, dead after the subframe and the residual,
hold what was last written is the model's choice (log entry 22). Fields above 64 bits: log entry 11. -/
def Obligations.FixedSubframe : Prop :=
  (List.range 5).map (coefRow config.fixedCoef) = [[], [1], [2, -1], [3, -3, 1], [4, -6, 4, 1]] ∧
  ∀ p ∈ [(Instr.sfFixed0, 0), (.sfFixed1, 1), (.sfFixed2, 2), (.sfFixed3, 3), (.sfFixed4, 4)],
    ∀ (s : State) (w : Nat) (warm : List Int) (res : Residual), s.Ready → w < s.sub.d →
    warm.length = p.2 → warm.all (fitsInt (s.sub.d - w)) = true → res.ok s.f.n p.2 = true →
    wastedBits w ++ warm.flatMap (intBits (s.sub.d - w)) ++ res.bits <+: s.ahead →
    ∃ buf, Predicts s.f.n p.2 warm (coefRow s.cfg.fixedCoef p.2) 0 res.values buf ∧
      exec p.1 s = .next ((((s.setBr (readerAt s.src (s.bp + (wastedBits w ++
        warm.flatMap (intBits (s.sub.d - w)) ++ res.bits).length))).setSub
        { s.sub with type := BitVec.ofNat 6 (8 + p.2), w := w, e := (s.sub.d : Int) - w,
                     order := p.2, buf := buf.map (· * ((2 ^ w : Nat) : Int)) }).setRs res.regs).setRet .unit)

/-- R245 to R248, R250: warm-up samples, precision, shift, coefficients, a residual, the prediction of R244,
then restoration. That `S.*` and `RS.*`, dead after the subframe and the residual, hold what was last
written is the model's choice (log entry 22). Fields above 64 bits: log entry 11. -/
def Obligations.LpcSubframe : Prop :=
  ∀ (x : BitVec 5) (s : State) (w prec shift : Nat) (warm coef : List Int) (res : Residual), s.Ready →
    w < s.sub.d → warm.length = x.toNat + 1 → warm.all (fitsInt (s.sub.d - w)) = true → 1 ≤ prec →
    prec ≤ 16 → shift < 16 → coef.length = x.toNat + 1 → coef.all (fitsInt prec) = true →
    res.ok s.f.n (x.toNat + 1) = true →
    wastedBits w ++ warm.flatMap (intBits (s.sub.d - w)) ++ natBits 4 (prec - 1) ++ intBits 5 shift ++
      coef.flatMap (intBits prec) ++ res.bits <+: s.ahead →
    ∃ buf, Predicts s.f.n (x.toNat + 1) warm coef shift res.values buf ∧
      exec (.sfLpc x) s = .next ((((s.setBr (readerAt s.src (s.bp + (wastedBits w ++
        warm.flatMap (intBits (s.sub.d - w)) ++ natBits 4 (prec - 1) ++ intBits 5 shift ++
        coef.flatMap (intBits prec) ++ res.bits).length))).setSub
        ⟨s.sub.d, BitVec.ofNat 6 (32 + x.toNat), w, (s.sub.d : Int) - w, x.toNat + 1, prec, shift, coef,
          buf.map (· * ((2 ^ w : Nat) : Int))⟩).setRs res.regs).setRet .unit)

/-- R238, R249, R247: the depth test comes before the type is looked at, for every type; then an unsupported
type faults; a negative LPC shift faults before any coefficient is read. Fields above 64 bits: log entry 11.
-/
def Obligations.SubframeFaultsInOrder : Prop :=
  (∀ (s : State) (w : Nat) (i : Instr), s.Ready → owner i = .subframe → i ≠ .readWasted →
    (∀ n o a b c d, i ≠ .predict n o a b c d) → s.sub.d ≤ w → wastedBits w <+: s.ahead →
    Raises (exec i s) (.invalidWastedBits s.sub.d w)) ∧
  (∀ (s : State) (w t : Nat) (i : Instr), s.Ready →
    ((∃ x, i = .sfUnsupported2 x ∧ t = 2 + x.toNat) ∨ (∃ x, i = .sfUnsupported4 x ∧ t = 4 + x.toNat) ∨
      (i = .sfUnsupported13 ∧ t = 13) ∨ (∃ x, i = .sfUnsupported14 x ∧ t = 14 + x.toNat) ∨
      (∃ x, i = .sfUnsupported16 x ∧ t = 16 + x.toNat)) →
    w < s.sub.d → wastedBits w <+: s.ahead → Raises (exec i s) (.unsupportedSubframeType t)) ∧
  ∀ (x : BitVec 5) (s : State) (w prec : Nat) (shift : Int) (warm : List Int), s.Ready →
    w < s.sub.d → warm.length = x.toNat + 1 → warm.all (fitsInt (s.sub.d - w)) = true → 1 ≤ prec →
    prec ≤ 16 → -16 ≤ shift → shift < 0 →
    wastedBits w ++ warm.flatMap (intBits (s.sub.d - w)) ++ natBits 4 (prec - 1) ++ intBits 5 shift
      <+: s.ahead →
    Raises (exec (.sfLpc x) s) (.invalidLpcShift shift)

/-- R244: PREDICT builds the one buffer the recurrence allows. -/
def Obligations.PredictFollowsTheRecurrence : Prop :=
  ∀ (n o shift : Nat) (warm coef res : List Int) (s : State), s.halted = false → warm.length = o → coef.length = o →
    o + res.length = n →
    ∃ buf, exec (.predict n o warm coef shift res) s =
        .next ((s.setSub { s.sub with buf := buf }).setRet (.ints buf)) ∧
      Predicts n o warm coef shift res buf ∧
      ∀ buf', Predicts n o warm coef shift res buf' → buf' = buf

/-! ### Residuals -/

/-- R266, R120: the coding methods. -/
def Obligations.CodingMethods : Prop :=
  ∀ s : State, s.halted = false →
    exec .resRice4 s = .next ((s.setRs { s.rs with method := 0, pbits := 4 }).setRet .unit) ∧
    exec .resRice5 s = .next ((s.setRs { s.rs with method := 1, pbits := 5 }).setRet .unit) ∧
    ∀ x, Raises (exec (.resInvalidMethod x) s) (.invalidCodingMethod (2 + x.toNat))

/-- R267: the partition order, and PartitionMismatch when `N` is not a multiple of `2^p`. R268, R312: in a
Fixed or LPC subframe PartitionMismatch also when the first partition, of `N / 2^p` samples, is shorter than
the predictor order, before any parameter is read; an order larger than the block is such a case. Fields
above 64 bits: log entry 11. -/
def Obligations.PartitionOrder : Prop :=
  (∀ (s : State) (p : Nat), s.Ready → p < 16 → natBits 4 p <+: s.ahead →
    (s.f.n % 2 ^ p = 0 → exec .resPorder s = .next (((s.setBr (readerAt s.src (s.bp + 4))).setRs
      { s.rs with p := BitVec.ofNat 4 p }).setRet .unit)) ∧
    (s.f.n % 2 ^ p ≠ 0 → Raises (exec .resPorder s) (.partitionMismatch s.f.n p s.sub.order))) ∧
  (∀ i ∈ [(Instr.sfFixed1, 1), (.sfFixed2, 2), (.sfFixed3, 3), (.sfFixed4, 4)],
    ∀ (s : State) (w p : Nat) (warm : List Int) (wide : Bool), s.Ready → w < s.sub.d →
    warm.length = i.2 → warm.all (fitsInt (s.sub.d - w)) = true → p < 16 → s.f.n % 2 ^ p = 0 →
    s.f.n / 2 ^ p < i.2 →
    wastedBits w ++ warm.flatMap (intBits (s.sub.d - w)) ++ natBits 2 wide.toNat ++ natBits 4 p <+: s.ahead →
    Raises (exec i.1 s) (.partitionMismatch s.f.n p i.2)) ∧
  ∀ (x : BitVec 5) (s : State) (w prec shift p : Nat) (warm coef : List Int) (wide : Bool), s.Ready →
    w < s.sub.d → warm.length = x.toNat + 1 → warm.all (fitsInt (s.sub.d - w)) = true → 1 ≤ prec →
    prec ≤ 16 → shift < 16 → coef.length = x.toNat + 1 → coef.all (fitsInt prec) = true → p < 16 →
    s.f.n % 2 ^ p = 0 → s.f.n / 2 ^ p < x.toNat + 1 →
    wastedBits w ++ warm.flatMap (intBits (s.sub.d - w)) ++ natBits 4 (prec - 1) ++ intBits 5 shift ++
      coef.flatMap (intBits prec) ++ natBits 2 wide.toNat ++ natBits 4 p <+: s.ahead →
    Raises (exec (.sfLpc x) s) (.partitionMismatch s.f.n p (x.toNat + 1))

/-- R269: a parameter that is not all ones is `RS.k`; after the sentinel an explicit 5-bit value is,
whatever it is. That a row run by itself does not read `RS.pbits` is the model's choice (log entry 8). -/
def Obligations.RiceParameters : Prop :=
  (∀ (s : State) wide k, s.halted = false → WellFormed (.resParam wide k) = true →
    exec (.resParam wide k) s = .next ((s.setRs { s.rs with k := k.toNat }).setRet .unit)) ∧
  ∀ i ∈ [Instr.resEscape4, .resEscape5], ∀ s : State, s.Ready →
    (∀ k, k < 2 ^ 5 → natBits 5 k <+: s.ahead → exec i s =
      .next (((s.setBr (readerAt s.src (s.bp + 5))).setRs { s.rs with k := k }).setRet .unit)) ∧
    (8 * s.srcLen < s.bp + 5 → RaisesCode (exec i s) 3)

/-- R270: as many codewords as the partition has values, back to back, appended in order. That a row run by
itself appends to the values `RS.res` holds is the model's choice (log entry 8). So is that `RS.k > 64`,
which no run reaches, runs (log entry 11). -/
def Obligations.PartitionValues : Prop :=
  ∀ (s : State) (xs : List Int), s.Ready → xs.flatMap (riceBits s.rs.k) <+: s.ahead →
    exec (.resValues xs.length) s = .next (((s.setBr (readerAt s.src
      (s.bp + (xs.flatMap (riceBits s.rs.k)).length))).setRs
      { s.rs with res := s.rs.res ++ xs }).setRet .unit)

/-! ### Metadata -/

/-- R155, R93, R162, R165: the STREAMINFO body loads the nine registers together and its record is the
first. -/
def Obligations.StreaminfoBlock : Prop :=
  ∀ (s : State) (last : Bool) (si : StreamInfo), s.Ready → s.br.nbits = 0 → s.mdIndex = 0 →
    streaminfoOk si = true → streaminfoBits si <+: s.ahead →
    exec (.mbStreaminfo last 34) s = .next ((((((s.setBr ⟨s.br.pos + 34, 0, 0⟩).setSi si).setMetas
      (s.metas ++ [.streamInfo 34 last si])).setMdIndex 1).setPhase
      (if last then .frames else s.phase)).setRet .unit)

/-- R160, R96: an Application block of `n >= 4` bytes: four of id, the rest payload. -/
def Obligations.ApplicationBlock : Prop :=
  ∀ (s : State) (last : Bool) (n : BitVec 24) (id payload : List Byte), s.Ready → s.br.nbits = 0 →
    0 < s.mdIndex → id.length = 4 → n.toNat = 4 + payload.length → bytesBits (id ++ payload) <+: s.ahead →
    exec (.mbApplication last n) s = .next (((((s.setBr ⟨s.br.pos + n.toNat, 0, 0⟩).setMetas
      (s.metas ++ [.application n.toNat last id payload])).setMdIndex (s.mdIndex + 1)).setPhase
      (if last then .frames else s.phase)).setRet .unit)

/-- R156, R94, R63: the vendor string and the entries, little-endian lengths, each entry split at its
first `=`. The layout is the spec's own (GK2, log entry 13); `Utf8Valid` is a parameter (R7, R152, log
entry 21). -/
def Obligations.VorbisCommentBlock : Prop :=
  ∀ (s : State) (last : Bool) (n : BitVec 24) (vendor : List Byte) (entries : List (List Byte × List Byte)),
    s.Ready → s.br.nbits = 0 → 0 < s.mdIndex → stringOk s.cfg.utf8 vendor = true →
    (∀ e ∈ entries, e.1.contains 0x3D#8 = false ∧ stringOk s.cfg.utf8 (e.1 ++ [0x3D#8] ++ e.2) = true) →
    n.toNat = (vorbisBytes vendor entries).length → bytesBits (vorbisBytes vendor entries) <+: s.ahead →
    exec (.mbVorbisComment last n) s = .next (((((s.setBr ⟨s.br.pos + n.toNat, 0, 0⟩).setMetas
      (s.metas ++ [.vorbisComment n.toNat last vendor entries])).setMdIndex (s.mdIndex + 1)).setPhase
      (if last then .frames else s.phase)).setRet .unit)

/-- R158, R95: the eleven fields of a Picture, big-endian numbers. The layout is the spec's own (GK3,
log entry 13); `Utf8Valid` is a parameter (log entry 21). -/
def Obligations.PictureBlock : Prop :=
  ∀ (s : State) (last : Bool) (n : BitVec 24) (ptype w h depth colors : Nat) (mime desc data : List Byte),
    s.Ready → s.br.nbits = 0 → 0 < s.mdIndex → ptype ≤ 20 → stringOk s.cfg.utf8 mime = true →
    stringOk s.cfg.utf8 desc = true → w < 2 ^ 32 → h < 2 ^ 32 → depth < 2 ^ 32 → colors < 2 ^ 32 →
    n.toNat = (pictureBytes ptype mime desc w h depth colors data).length →
    bytesBits (pictureBytes ptype mime desc w h depth colors data) <+: s.ahead →
    exec (.mbPicture last n) s = .next (((((s.setBr ⟨s.br.pos + n.toNat, 0, 0⟩).setMetas
      (s.metas ++ [.picture n.toNat last ptype mime desc w h depth colors data])).setMdIndex
      (s.mdIndex + 1)).setPhase (if last then .frames else s.phase)).setRet .unit)

/-- R161, R97: any other block is skipped and recorded by its length alone. -/
def Obligations.UnknownBlock : Prop :=
  ∀ (s : State) (last : Bool) (n : BitVec 24) (i : Instr), s.halted = false → s.src.wf = true → 0 < s.mdIndex →
    ((∃ x, i = .mbUnknownOdd last x n) ∨ (∃ x, i = .mbUnknown64 last x n) ∨
      (∃ x, i = .mbUnknown32 last x n) ∨ (∃ x, i = .mbUnknown16 last x n) ∨
      (∃ x, i = .mbUnknown8 last x n)) →
    (s.br.pos + n.toNat ≤ s.srcLen →
      exec i s = .next (((((s.setBr ⟨s.br.pos + n.toNat, 0, 0⟩).setMetas
        (s.metas ++ [.unknown n.toNat last])).setMdIndex (s.mdIndex + 1)).setPhase
        (if last then .frames else s.phase)).setRet .unit)) ∧
    (s.srcLen < s.br.pos + n.toNat → RaisesCode (exec i s) 3)

/-- R151: MBH reads a header and runs the block it names: on the bits of any well-formed block it has
the effect of that block. The VorbisComment and Picture layouts are the spec's own (GK2, GK3, log entry
13); the type numbers and `Utf8Valid` are parameters (R114, log entry 21). -/
def Obligations.HeaderDispatchesTheBlock : Prop :=
  ∀ (s : State) (b : Block), s.Ready → s.br.nbits = 0 → b.content.ok s.cfg = true →
    b.content.isStreaminfo = decide (s.mdIndex = 0) → b.bits s.cfg <+: s.ahead →
    exec .mbh s =
      .next ((b.effect (s.setBr ⟨s.br.pos + 4 + b.content.length, 0, 0⟩)).setRet .unit)

/-- R153 and the length tests of R155 and R160, made before any byte of the body is read. -/
def Obligations.BlockHeadersAreChecked : Prop :=
  (∀ (s : State) (last : Bool) (n : BitVec 24) (i : Instr), s.halted = false → s.mdIndex = 0 →
    (i = .mbApplication last n ∨ i = .mbVorbisComment last n ∨ i = .mbPicture last n ∨
      (∃ x, i = .mbUnknownOdd last x n) ∨ (∃ x, i = .mbUnknown64 last x n) ∨
      (∃ x, i = .mbUnknown32 last x n) ∨ (∃ x, i = .mbUnknown16 last x n) ∨
      (∃ x, i = .mbUnknown8 last x n)) → RaisesCode (exec i s) 2) ∧
  (∀ (s : State) last n, s.halted = false → 0 < s.mdIndex → RaisesCode (exec (.mbStreaminfo last n) s) 2) ∧
  (∀ (s : State) last n, s.halted = false → s.mdIndex = 0 → n ≠ 34#24 →
    RaisesCode (exec (.mbStreaminfo last n) s) 2) ∧
  ∀ (s : State) last n, s.halted = false → 0 < s.mdIndex → n.toNat < 4 →
    RaisesCode (exec (.mbApplication last n) s) 2

/-- R154, R156: inside a VorbisComment every overrun of the declared length (by a length field or by what
it announces, for the vendor string and for an entry at any index), a vendor string or entry that is not
UTF-8, an entry without `=` and bytes left over are MalformedBlock; the info names the field and index
(R25; its form is log entry 16). The layout is the spec's own (log entry 13); the type number and
`Utf8Valid` are parameters (log entry 21). -/
def Obligations.BlockBodiesAreChecked : Prop :=
  ∀ (s : State) (last : Bool) (n : BitVec 24) (vendor : List Byte) (entries : List (List Byte × List Byte))
    (count : Nat), s.Ready → s.br.nbits = 0 → 0 < s.mdIndex →
    (n.toNat < 4 → RaisesCode (exec (.mbVorbisComment last n) s) 2) ∧
    (∀ v, v < 2 ^ 32 → 4 ≤ n.toNat → n.toNat < 4 + v → bytesBits (le4 v) <+: s.ahead →
      RaisesCode (exec (.mbVorbisComment last n) s) 2) ∧
    (stringOk s.cfg.utf8 vendor = false → 4 + vendor.length ≤ n.toNat →
      bytesBits (le4 vendor.length ++ vendor) <+: s.ahead →
      Raises (exec (.mbVorbisComment last n) s)
        (.malformedBlock s.mdIndex s.cfg.btVorbisComment.toNat (.notUtf8 .vendor))) ∧
    (stringOk s.cfg.utf8 vendor = true → 4 + vendor.length ≤ n.toNat → n.toNat < 8 + vendor.length →
      bytesBits (le4 vendor.length ++ vendor) <+: s.ahead →
      RaisesCode (exec (.mbVorbisComment last n) s) 2) ∧
    (stringOk s.cfg.utf8 vendor = true → count < 2 ^ 32 →
      (∀ e ∈ entries, e.1.contains 0x3D#8 = false ∧ stringOk s.cfg.utf8 (e.1 ++ [0x3D#8] ++ e.2) = true) →
      let before := le4 vendor.length ++ vendor ++ le4 count ++ entriesBytes entries
      before.length ≤ n.toNat → bytesBits before <+: s.ahead →
      (count = entries.length → before.length < n.toNat →
        RaisesCode (exec (.mbVorbisComment last n) s) 2) ∧
      (entries.length < count → n.toNat < before.length + 4 →
        RaisesCode (exec (.mbVorbisComment last n) s) 2) ∧
      (∀ v, entries.length < count → v < 2 ^ 32 → before.length + 4 ≤ n.toNat →
        n.toNat < before.length + 4 + v → bytesBits (before ++ le4 v) <+: s.ahead →
        RaisesCode (exec (.mbVorbisComment last n) s) 2) ∧
      ∀ e : List Byte, entries.length < count → before.length + 4 + e.length ≤ n.toNat →
        bytesBits (before ++ le4 e.length ++ e) <+: s.ahead →
        (stringOk s.cfg.utf8 e = false → Raises (exec (.mbVorbisComment last n) s)
          (.malformedBlock s.mdIndex s.cfg.btVorbisComment.toNat (.notUtf8 (.entry entries.length)))) ∧
        (stringOk s.cfg.utf8 e = true → e.contains 0x3D#8 = false → Raises (exec (.mbVorbisComment last n) s)
          (.malformedBlock s.mdIndex s.cfg.btVorbisComment.toNat (.entryWithoutEquals entries.length))))

/-- R154, R158: inside a Picture every overrun of the declared length (by a number, or by what a length
announces), a type above 20, a MIME string or description that is not UTF-8 and bytes left over are
MalformedBlock; the info names the field (R25; its form is log entry 16). The layout is the spec's own
(log entry 13); the type number and `Utf8Valid` are parameters (log entry 21). -/
def Obligations.PictureBodiesAreChecked : Prop :=
  ∀ (s : State) (last : Bool) (n : BitVec 24) (t : Nat) (mime desc : List Byte) (nums : List Nat),
    s.Ready → s.br.nbits = 0 → 0 < s.mdIndex → t < 2 ^ 32 →
    (n.toNat < 4 → RaisesCode (exec (.mbPicture last n) s) 2) ∧
    (20 < t → 4 ≤ n.toNat → bytesBits (be4 t) <+: s.ahead →
      Raises (exec (.mbPicture last n) s)
        (.malformedBlock s.mdIndex s.cfg.btPicture.toNat (.pictureType t))) ∧
    (t ≤ 20 →
      (4 ≤ n.toNat → n.toNat < 8 → bytesBits (be4 t) <+: s.ahead →
        RaisesCode (exec (.mbPicture last n) s) 2) ∧
      (∀ v, v < 2 ^ 32 → 8 ≤ n.toNat → n.toNat < 8 + v → bytesBits (be4 t ++ be4 v) <+: s.ahead →
        RaisesCode (exec (.mbPicture last n) s) 2) ∧
      (8 + mime.length ≤ n.toNat → bytesBits (be4 t ++ be4 mime.length ++ mime) <+: s.ahead →
        (stringOk s.cfg.utf8 mime = false → Raises (exec (.mbPicture last n) s)
          (.malformedBlock s.mdIndex s.cfg.btPicture.toNat (.notUtf8 .mime))) ∧
        (stringOk s.cfg.utf8 mime = true → n.toNat < 12 + mime.length →
          RaisesCode (exec (.mbPicture last n) s) 2) ∧
        (∀ v, stringOk s.cfg.utf8 mime = true → v < 2 ^ 32 → 12 + mime.length ≤ n.toNat →
          n.toNat < 12 + mime.length + v → bytesBits (be4 t ++ be4 mime.length ++ mime ++ be4 v) <+: s.ahead →
          RaisesCode (exec (.mbPicture last n) s) 2)) ∧
      (stringOk s.cfg.utf8 mime = true → 12 + mime.length + desc.length ≤ n.toNat →
        bytesBits (be4 t ++ be4 mime.length ++ mime ++ be4 desc.length ++ desc) <+: s.ahead →
        stringOk s.cfg.utf8 desc = false → Raises (exec (.mbPicture last n) s)
          (.malformedBlock s.mdIndex s.cfg.btPicture.toNat (.notUtf8 .description))) ∧
      (stringOk s.cfg.utf8 mime = true → stringOk s.cfg.utf8 desc = true → (∀ v ∈ nums, v < 2 ^ 32) →
        let before := be4 t ++ be4 mime.length ++ mime ++ be4 desc.length ++ desc ++ nums.flatMap be4
        before.length ≤ n.toNat → bytesBits before <+: s.ahead →
        (nums.length < 5 → n.toNat < before.length + 4 → RaisesCode (exec (.mbPicture last n) s) 2) ∧
        (∀ v, nums.length = 4 → v < 2 ^ 32 → before.length + 4 ≤ n.toNat →
          n.toNat < before.length + 4 + v → bytesBits (before ++ be4 v) <+: s.ahead →
          RaisesCode (exec (.mbPicture last n) s) 2) ∧
        ∀ data : List Byte, nums.length = 4 → before.length + 4 + data.length < n.toNat →
          bytesBits (before ++ be4 data.length ++ data) <+: s.ahead →
          RaisesCode (exec (.mbPicture last n) s) 2))

/-- R152: under the default rule a byte string is valid exactly when it is a concatenation of sequences
that match rows of the table, which is the spec's own, from general knowledge (GK6, log entry 13). -/
def Obligations.Utf8ValidityIsTheTable : Prop :=
  ∀ b : List Byte, stringOk config.utf8 b = true ↔
    ∃ parts : List (List Byte), b = parts.flatten ∧ ∀ p ∈ parts, utf8Seq p = true

/-! ### Words and steps -/

/-- Every instruction that bits of the stream select, with every operand at every value the encoding
admits, is what its word decodes to, at its position, whatever the parameters (R91 to R120, R124). -/
def Obligations.DecodeOfEncode : Prop :=
  ∀ (cfg : Config) (i : Instr) (c : Ctx) (w : Nat), WellFormed i = true →
    encode cfg i = some (c, w) → decode cfg c w = .ok i

/-- Words written out from R91, R92, R98, R99, R103, R109 and R110, under the default parameters (type
numbers and marker: log entry 13). -/
def Obligations.WordsOfTheFormats : Prop :=
  decode config .magic 0x664C6143 = .ok .magic ∧
  decode config .block 0x84000028 = .ok (.mbVorbisComment true 40) ∧
  decode config .block 0x01000003 = .ok (.mbUnknownOdd false 0 3) ∧
  decode config .frameHeader 0xFFF86CA2 = .ok .fhSync ∧
  decode config .blockSize 0xFFF86CA2 = .ok .fhBlocksize6 ∧
  decode config .sampleRate 0xFFF86CA2 = .ok .fhSamplerate12 ∧
  decode config .channels 0xFFF86CA2 = .ok .caMidSide ∧
  decode config .number 0xC2 = .ok (.fhNumberC0 2) ∧
  decode config .subframe 0x42 = .ok (.sfLpc 1) ∧
  decode config .method 0x01 = .ok .resRice4 ∧
  decode config .param4 0x1E3 = .ok .resEscape4 ∧
  (∀ w, w ≠ 0x664C6143 → decode config .magic w = .error (.notTheMarker w))

/-- A step takes the oldest request, fetches it and runs the instruction (log entries 3 and 8): asked
for by name, selected by bits the fetch consumes, by bits it only looks at (the marker, a frame's word, and
the header of a block whose type has no row of its own, log entry 21), by a latched code, or by the
position alone; a parameter's width is the position's, not `RS.pbits` (log entry 8). With nothing asked for, the state is held (R333). -/
def Obligations.StepRunsTheFetchedInstruction : Prop :=
  (∀ s : State, s.port = [] → step s = .next s) ∧
  (∀ (s : State) i rest, s.port = .call i :: rest → step s = exec i (s.setPort rest)) ∧
  (∀ (s : State) c rest i, s.Ready → s.port = .element c :: rest →
    ∀ p ∈ [(Ctx.block, 32, 0), (.number, 8, 0), (.subframe, 7, 1), (.method, 2, 4), (.param4, 4, 5),
      (.param5, 5, 5)], c = p.1 → s.bp + p.2.1 ≤ 8 * s.srcLen →
    decode s.cfg c (bitsNat (s.ahead.take p.2.1) * 2 ^ p.2.2) = .ok i → i ≠ .mbh →
    step s = exec i ((s.setPort rest).setBr (readerAt s.src (s.bp + p.2.1)))) ∧
  (∀ (s : State) c rest i, s.Ready → s.port = .element c :: rest →
    ∀ p ∈ [(Ctx.magic, 32, 0), (.frameHeader, 14, 18), (.block, 32, 0)], c = p.1 →
    s.bp + p.2.1 ≤ 8 * s.srcLen → decode s.cfg c (bitsNat (s.ahead.take p.2.1) * 2 ^ p.2.2) = .ok i →
    (c = .block → i = .mbh) → step s = exec i (s.setPort rest)) ∧
  ∀ (s : State) c rest, s.halted = false → s.port = .element c :: rest →
    ∀ p ∈ [(Ctx.blockSize, s.f.bsc.toNat * 2 ^ 12), (.sampleRate, s.f.src.toNat * 2 ^ 8),
      (.channels, s.f.ca.toNat * 2 ^ 4), (.blockHeader, 0), (.headerCrc, 0), (.footer, 0), (.porder, 0),
      (.wasted, 1), (.rice, 1)], c = p.1 → ∃ i, decode s.cfg c p.2 = .ok i ∧ step s = exec i (s.setPort rest)

/-! ### Rules of the whole machine -/

/-- R51 (a), (b), (d), (e), (f) and R22: every step from a state in the invariants ends in one, or in
`Faulted`. -/
def Obligations.StepKeepsTheInvariants : Prop :=
  ∀ s t : State, s.Inv → step s = .next t → t.phase = .faulted ∨ t.Inv

/-- R51 whole, R285, R345: as long as the host drives, every step answers a next state (no command
ever stops the machine) and keeps R51, with `Metadata` never seen between commands. -/
def Obligations.HostDrivenStepsKeepTheInvariants : Prop :=
  ∀ s : State, s.HostInv → ∃ t, step s = .next t ∧ t.HostInv

/-- No element stops, READ_SINT(0) and the channel rows without a readable `SI.bps` apart (log entries 11 and
12): from a state in the invariants it completes, enters a fault or, after a fault, is refused. R351, R300 and
R5 say as much of commands and of whole streams; the model's own choices are that it holds of elements asked for
singly (log entry 3), that READ_UINT(n), READ_SINT(n) and READ_RICE(k) run above 64 (log entry 11; R131 and U25
let a model refuse), and that an element after a fault is refused with a next state (log entry 20). -/
def Obligations.ElementsAnswerANextState : Prop :=
  ∀ (i : Instr) (s : State), s.Inv → isCommand i = false → i ≠ .readSint 0 →
    (owner i = .channels → s.si.valid = true) → ∃ t, exec i s = .next t

/-- R328, R41 to R43: an element changes nothing but the reader and what its own unit may write; on a fault,
fault entry is added and nothing more. The fault branch says what the model leaves in registers that R321
leaves undefined: the model's choice (log entry 5). An element after a fault is refused and changes nothing
but the returned value (log entry 20). -/
def Obligations.ElementsWriteOnlyTheirOwnRegisters : Prop :=
  ∀ (i : Instr) (s t : State), s.Inv → isCommand i = false → exec i s = .next t →
    (owner i).blank t = (owner i).blank s ∨
    ∃ d u, t = u.takeFault d ∧ (owner i).blank u = (owner i).blank s

/-- R60, R75: no instruction but OPEN changes a byte of SRC; OPEN in `Idle` makes SRC the bytes it is
given. No instruction at all changes the parameters of R7 (log entry 21). -/
def Obligations.OnlyOpenChangesTheSource : Prop :=
  (∀ (i : Instr) (s t : State), s.Inv → (∀ src, i ≠ .openCmd src) → exec i s = .next t →
    ∀ a, t.src.read a = s.src.read a) ∧
  (∀ (src : List Byte) (s t : State), s.Inv → exec (.openCmd src) s = .next t →
    (s.phase = .idle → ∀ a, t.src.read a = src[a]?) ∧
    (s.phase ≠ .idle → ∀ a, t.src.read a = s.src.read a)) ∧
  ∀ (i : Instr) (s t : State), s.Inv → exec i s = .next t → t.cfg = s.cfg

/-- R21, R138: `BR.pos` never decreases except by RESET, nor does the bit cursor; a fault leaves both
undefined (R321). -/
def Obligations.TheCursorOnlyMovesForward : Prop :=
  ∀ (i : Instr) (s t : State), s.Inv → i ≠ .resetCmd → exec i s = .next t → t.phase ≠ .faulted →
    s.br.pos ≤ t.br.pos ∧ s.bp ≤ t.bp

/-- R320: whatever instruction brings the machine into `Faulted`, it latches one of the eleven faults,
clears `OUT` and returns the fault. -/
def Obligations.EveryFaultIsEnteredAlike : Prop :=
  ∀ (i : Instr) (s t : State), s.Inv → s.phase ≠ .faulted → exec i s = .next t → t.phase = .faulted →
    ∃ d, t.fault = some d ∧ 1 ≤ d.code ∧ d.code ≤ 11 ∧ t.out = .none ∧ t.ret = .fault
end

