-- ==== Sys2Proof/Laws/Bits.lean ====
section
/-! SUPPORT. Bit strings and numbers: `natBits` and `bitsNat` are inverse, and cut where numbers are
divided. -/

namespace Sys2Proof.Machine

open Sys2Proof

@[simp] theorem natBits_length (n v : Nat) : (natBits n v).length = n := by
  induction n with
  | zero => rfl
  | succ n ih => simp [natBits, ih]

@[simp] theorem natBits_zero (v : Nat) : natBits 0 v = [] := rfl

@[simp] theorem bitsNat_nil : bitsNat [] = 0 := rfl

theorem foldl_bits (l : List Bool) (a : Nat) :
    l.foldl (fun a b => 2 * a + b.toNat) a = a * 2 ^ l.length + bitsNat l := by
  induction l generalizing a with
  | nil => simp
  | cons b l ih =>
    simp only [List.foldl_cons, bitsNat, List.length_cons]
    rw [ih, ih (2 * 0 + b.toNat)]
    ring

@[simp] theorem bitsNat_cons (b : Bool) (l : List Bool) :
    bitsNat (b :: l) = b.toNat * 2 ^ l.length + bitsNat l := by
  simpa [bitsNat] using foldl_bits l b.toNat

theorem bitsNat_append (a b : List Bool) : bitsNat (a ++ b) = bitsNat a * 2 ^ b.length + bitsNat b := by
  simpa [bitsNat] using foldl_bits b (bitsNat a)

theorem bitsNat_lt (l : List Bool) : bitsNat l < 2 ^ l.length := by
  induction l with
  | nil => simp
  | cons b l ih =>
    have : b.toNat ≤ 1 := Bool.toNat_le b
    simp only [bitsNat_cons, List.length_cons, pow_succ]
    nlinarith

theorem toNat_testBit (v n : Nat) : (v.testBit n).toNat = v / 2 ^ n % 2 := Nat.toNat_testBit v n

@[simp] theorem bitsNat_natBits (n v : Nat) : bitsNat (natBits n v) = v % 2 ^ n := by
  induction n with
  | zero => simp [Nat.mod_one]
  | succ n ih =>
    simp only [natBits, bitsNat_cons, natBits_length, ih, toNat_testBit]
    rw [Nat.pow_succ, Nat.mod_mul]
    ring

/-- Only the low `k` bits matter to a field of at most `k` bits. -/
theorem natBits_mod (n k v : Nat) (h : n ≤ k) : natBits n (v % 2 ^ k) = natBits n v := by
  induction n with
  | zero => rfl
  | succ n ih =>
    simp only [natBits, Nat.testBit_mod_two_pow]
    rw [ih (by omega)]
    simp [show n < k by omega]

theorem natBits_add_mul (n a v : Nat) : natBits n (a * 2 ^ n + v) = natBits n v := by
  rw [← natBits_mod n n _ le_rfl, Nat.mul_comm, Nat.mul_add_mod, natBits_mod n n _ le_rfl]

theorem natBits_bitsNat (l : List Bool) : natBits l.length (bitsNat l) = l := by
  induction l with
  | nil => rfl
  | cons b l ih =>
    have hl := bitsNat_lt l
    simp only [List.length_cons, natBits, bitsNat_cons, natBits_add_mul, ih]
    rw [Nat.testBit_eq_decide_div_mod_eq, Nat.mul_comm, Nat.mul_add_div (by positivity),
      Nat.div_eq_of_lt hl]
    cases b <;> simp

/-- A field of `m + n` bits is a field of `m` bits and one of `n` bits. -/
theorem natBits_add (m n v : Nat) : natBits (m + n) v = natBits m (v / 2 ^ n) ++ natBits n v := by
  induction m with
  | zero => simp
  | succ m ih =>
    rw [show m + 1 + n = m + n + 1 by omega]
    simp only [natBits, ih, List.cons_append]
    rw [Nat.testBit_div_two_pow]

theorem natBits_drop (m n v : Nat) : (natBits (m + n) v).drop m = natBits n v := by
  rw [natBits_add]
  exact List.drop_left' (natBits_length _ _)

@[simp] theorem byteBits_length (b : Byte) : (byteBits b).length = 8 := natBits_length _ _

@[simp] theorem bytesBits_nil : bytesBits [] = [] := rfl

@[simp] theorem bytesBits_cons (b : Byte) (bs : List Byte) :
    bytesBits (b :: bs) = byteBits b ++ bytesBits bs := rfl

@[simp] theorem bytesBits_append (a b : List Byte) : bytesBits (a ++ b) = bytesBits a ++ bytesBits b := by
  simp [bytesBits]

@[simp] theorem bytesBits_length (bs : List Byte) : (bytesBits bs).length = 8 * bs.length := by
  induction bs with
  | nil => rfl
  | cons b bs ih => simp [ih]; omega

theorem bytesBits_drop (k : Nat) (bs : List Byte) :
    (bytesBits bs).drop (8 * k) = bytesBits (bs.drop k) := by
  induction k generalizing bs with
  | zero => simp
  | succ k ih =>
    cases bs with
    | nil => simp
    | cons b bs =>
      simp only [bytesBits_cons, List.drop_succ_cons]
      rw [← ih bs, show 8 * (k + 1) = 8 + 8 * k by ring, ← List.drop_drop,
        List.drop_left' (byteBits_length b)]

@[simp] theorem bitsNat_byteBits (b : Byte) : bitsNat (byteBits b) = b.toNat := by
  simpa [byteBits] using b.isLt

/-- A byte string is determined by its bits. -/
theorem bytesBits_inj (a b : List Byte) (h : bytesBits a = bytesBits b) : a = b := by
  induction a generalizing b with
  | nil => cases b with
    | nil => rfl
    | cons y b => have := congrArg List.length h; simp at this; omega
  | cons x a ih => cases b with
    | nil => have := congrArg List.length h; simp at this
    | cons y b =>
      simp only [bytesBits_cons] at h
      obtain ⟨h1, h2⟩ := List.append_inj h (by simp)
      have hx : x.toNat = y.toNat := by rw [← bitsNat_byteBits, h1, bitsNat_byteBits]
      rw [ih b h2, BitVec.eq_of_toNat_eq hx]

@[simp] theorem intBits_length (n : Nat) (x : Int) : (intBits n x).length = n := natBits_length _ _

/-- Bits that come next, in two parts. -/
theorem append_prefix_iff (a b l : List Bool) : a ++ b <+: l ↔ a <+: l ∧ b <+: l.drop a.length := by
  constructor
  · rintro ⟨t, rfl⟩
    refine ⟨⟨b ++ t, by simp⟩, ⟨t, by simp⟩⟩
  · rintro ⟨⟨t, rfl⟩, ⟨u, hu⟩⟩
    rw [List.drop_left] at hu
    exact ⟨u, by rw [List.append_assoc, hu]⟩

theorem take_of_prefix {a l : List Bool} (h : a <+: l) : l.take a.length = a :=
  (List.prefix_iff_eq_take.mp h).symm

end Sys2Proof.Machine
end

