-- ==== Sys2Proof/Laws/Memory.lean ====
section
/-! SUPPORT. The source memory: the canonical form, what keeps it, and what a read gives. -/

namespace Sys2Proof.Machine

open Sys2Proof

theorem Memory.layout_wf (a : Nat) (bs : List Byte) : Memory.wfFrom a (Memory.layout a bs) = true := by
  induction bs generalizing a with
  | nil => rfl
  | cons b bs ih => simp [Memory.layout, Memory.wfFrom, ih]

/-- The one operation that makes a memory makes it canonical. -/
@[simp] theorem Memory.ofBytes_wf (bs : List Byte) : (Memory.ofBytes bs).wf = true :=
  Memory.layout_wf 0 bs

/-- The memory at reset is canonical. -/
theorem State.reset_wf : State.reset.src.wf = true := rfl

theorem Memory.layout_bytes (a : Nat) (bs : List Byte) : Memory.bytes (Memory.layout a bs) = bs := by
  induction bs generalizing a with
  | nil => rfl
  | cons b bs ih => simpa [Memory.layout, Memory.bytes] using ih (a + 1)

@[simp] theorem Memory.ofBytes_bytes (bs : List Byte) : (Memory.ofBytes bs).bytes = bs :=
  Memory.layout_bytes 0 bs

@[simp] theorem Memory.bytes_length (m : Memory) : m.bytes.length = m.length := by
  simp [Memory.bytes]

theorem Memory.layout_of_wfFrom (a : Nat) (m : Memory) (h : Memory.wfFrom a m = true) :
    Memory.layout a m.bytes = m := by
  induction m generalizing a with
  | nil => rfl
  | cons c m ih =>
    obtain ⟨x, b⟩ := c
    simp only [Memory.wfFrom, Bool.and_eq_true, Nat.beq_eq] at h
    obtain ⟨rfl, h⟩ := h
    simpa [Memory.bytes, Memory.layout] using ih _ h

/-- A canonical memory is the one of its bytes. -/
theorem Memory.ofBytes_of_wf (m : Memory) (h : m.wf = true) : Memory.ofBytes m.bytes = m :=
  Memory.layout_of_wfFrom 0 m h

theorem Memory.read_from (a k : Nat) (m : Memory) (h : Memory.wfFrom k m = true) (hk : k ≤ a) :
    m.read a = m.bytes[a - k]? := by
  induction m generalizing k with
  | nil => simp [Memory.read, Memory.unlisted, Memory.bytes]
  | cons c m ih =>
    obtain ⟨x, b⟩ := c
    simp only [Memory.wfFrom, Bool.and_eq_true, Nat.beq_eq] at h
    obtain ⟨rfl, h⟩ := h
    by_cases e : x = a
    · subst e; simp [Memory.read, Memory.bytes]
    · have e' : Nat.beq x a = false := by
        rw [Bool.eq_false_iff, ne_eq, Nat.beq_eq]; exact e
      rw [Memory.read, e', show a - x = (a - (x + 1)) + 1 by omega]
      simpa [Memory.bytes] using ih (x + 1) h (by omega)

/-- In a canonical memory the byte at an address is the byte at that place of the source. -/
theorem Memory.read_eq (m : Memory) (h : m.wf = true) (a : Nat) : m.read a = m.bytes[a]? := by
  simpa using Memory.read_from a 0 m h (Nat.zero_le _)

/-- A read answers nothing exactly at and beyond the end of the source. -/
theorem Memory.read_none_iff (m : Memory) (h : m.wf = true) (a : Nat) :
    m.read a = none ↔ m.length ≤ a := by
  rw [Memory.read_eq m h]; simp

@[simp] theorem Memory.readMany_length (m : Memory) (a n : Nat) (h : a + n ≤ m.length) :
    (m.readMany a n).length = n := by
  simp [Memory.readMany]; omega

end Sys2Proof.Machine
end

