-- ==== Sys2Proof/Laws/State.lean ====
section
/-! SUPPORT. One lemma per field per update of the state, all by rfl, so that no later proof unfolds
a record update. -/

namespace Sys2Proof.Machine

@[simp] theorem State.setBr_cfg (s : State) (v : Reader) : (s.setBr v).cfg = s.cfg := rfl
@[simp] theorem State.setBr_br (s : State) (v : Reader) : (s.setBr v).br = v := rfl
@[simp] theorem State.setBr_phase (s : State) (v : Reader) : (s.setBr v).phase = s.phase := rfl
@[simp] theorem State.setBr_fault (s : State) (v : Reader) : (s.setBr v).fault = s.fault := rfl
@[simp] theorem State.setBr_mdIndex (s : State) (v : Reader) : (s.setBr v).mdIndex = s.mdIndex := rfl
@[simp] theorem State.setBr_si (s : State) (v : Reader) : (s.setBr v).si = s.si := rfl
@[simp] theorem State.setBr_f (s : State) (v : Reader) : (s.setBr v).f = s.f := rfl
@[simp] theorem State.setBr_sub (s : State) (v : Reader) : (s.setBr v).sub = s.sub := rfl
@[simp] theorem State.setBr_rs (s : State) (v : Reader) : (s.setBr v).rs = s.rs := rfl
@[simp] theorem State.setBr_ch (s : State) (v : Reader) : (s.setBr v).ch = s.ch := rfl
@[simp] theorem State.setBr_out (s : State) (v : Reader) : (s.setBr v).out = s.out := rfl
@[simp] theorem State.setBr_metas (s : State) (v : Reader) : (s.setBr v).metas = s.metas := rfl
@[simp] theorem State.setBr_src (s : State) (v : Reader) : (s.setBr v).src = s.src := rfl
@[simp] theorem State.setBr_port (s : State) (v : Reader) : (s.setBr v).port = s.port := rfl
@[simp] theorem State.setBr_ret (s : State) (v : Reader) : (s.setBr v).ret = s.ret := rfl

@[simp] theorem State.setPhase_cfg (s : State) (v : Phase) : (s.setPhase v).cfg = s.cfg := rfl
@[simp] theorem State.setPhase_br (s : State) (v : Phase) : (s.setPhase v).br = s.br := rfl
@[simp] theorem State.setPhase_phase (s : State) (v : Phase) : (s.setPhase v).phase = v := rfl
@[simp] theorem State.setPhase_fault (s : State) (v : Phase) : (s.setPhase v).fault = s.fault := rfl
@[simp] theorem State.setPhase_mdIndex (s : State) (v : Phase) : (s.setPhase v).mdIndex = s.mdIndex := rfl
@[simp] theorem State.setPhase_si (s : State) (v : Phase) : (s.setPhase v).si = s.si := rfl
@[simp] theorem State.setPhase_f (s : State) (v : Phase) : (s.setPhase v).f = s.f := rfl
@[simp] theorem State.setPhase_sub (s : State) (v : Phase) : (s.setPhase v).sub = s.sub := rfl
@[simp] theorem State.setPhase_rs (s : State) (v : Phase) : (s.setPhase v).rs = s.rs := rfl
@[simp] theorem State.setPhase_ch (s : State) (v : Phase) : (s.setPhase v).ch = s.ch := rfl
@[simp] theorem State.setPhase_out (s : State) (v : Phase) : (s.setPhase v).out = s.out := rfl
@[simp] theorem State.setPhase_metas (s : State) (v : Phase) : (s.setPhase v).metas = s.metas := rfl
@[simp] theorem State.setPhase_src (s : State) (v : Phase) : (s.setPhase v).src = s.src := rfl
@[simp] theorem State.setPhase_port (s : State) (v : Phase) : (s.setPhase v).port = s.port := rfl
@[simp] theorem State.setPhase_ret (s : State) (v : Phase) : (s.setPhase v).ret = s.ret := rfl

@[simp] theorem State.setFault_cfg (s : State) (v : Option DecodeFault) : (s.setFault v).cfg = s.cfg := rfl
@[simp] theorem State.setFault_br (s : State) (v : Option DecodeFault) : (s.setFault v).br = s.br := rfl
@[simp] theorem State.setFault_phase (s : State) (v : Option DecodeFault) : (s.setFault v).phase = s.phase := rfl
@[simp] theorem State.setFault_fault (s : State) (v : Option DecodeFault) : (s.setFault v).fault = v := rfl
@[simp] theorem State.setFault_mdIndex (s : State) (v : Option DecodeFault) : (s.setFault v).mdIndex = s.mdIndex := rfl
@[simp] theorem State.setFault_si (s : State) (v : Option DecodeFault) : (s.setFault v).si = s.si := rfl
@[simp] theorem State.setFault_f (s : State) (v : Option DecodeFault) : (s.setFault v).f = s.f := rfl
@[simp] theorem State.setFault_sub (s : State) (v : Option DecodeFault) : (s.setFault v).sub = s.sub := rfl
@[simp] theorem State.setFault_rs (s : State) (v : Option DecodeFault) : (s.setFault v).rs = s.rs := rfl
@[simp] theorem State.setFault_ch (s : State) (v : Option DecodeFault) : (s.setFault v).ch = s.ch := rfl
@[simp] theorem State.setFault_out (s : State) (v : Option DecodeFault) : (s.setFault v).out = s.out := rfl
@[simp] theorem State.setFault_metas (s : State) (v : Option DecodeFault) : (s.setFault v).metas = s.metas := rfl
@[simp] theorem State.setFault_src (s : State) (v : Option DecodeFault) : (s.setFault v).src = s.src := rfl
@[simp] theorem State.setFault_port (s : State) (v : Option DecodeFault) : (s.setFault v).port = s.port := rfl
@[simp] theorem State.setFault_ret (s : State) (v : Option DecodeFault) : (s.setFault v).ret = s.ret := rfl

@[simp] theorem State.setMdIndex_cfg (s : State) (v : Nat) : (s.setMdIndex v).cfg = s.cfg := rfl
@[simp] theorem State.setMdIndex_br (s : State) (v : Nat) : (s.setMdIndex v).br = s.br := rfl
@[simp] theorem State.setMdIndex_phase (s : State) (v : Nat) : (s.setMdIndex v).phase = s.phase := rfl
@[simp] theorem State.setMdIndex_fault (s : State) (v : Nat) : (s.setMdIndex v).fault = s.fault := rfl
@[simp] theorem State.setMdIndex_mdIndex (s : State) (v : Nat) : (s.setMdIndex v).mdIndex = v := rfl
@[simp] theorem State.setMdIndex_si (s : State) (v : Nat) : (s.setMdIndex v).si = s.si := rfl
@[simp] theorem State.setMdIndex_f (s : State) (v : Nat) : (s.setMdIndex v).f = s.f := rfl
@[simp] theorem State.setMdIndex_sub (s : State) (v : Nat) : (s.setMdIndex v).sub = s.sub := rfl
@[simp] theorem State.setMdIndex_rs (s : State) (v : Nat) : (s.setMdIndex v).rs = s.rs := rfl
@[simp] theorem State.setMdIndex_ch (s : State) (v : Nat) : (s.setMdIndex v).ch = s.ch := rfl
@[simp] theorem State.setMdIndex_out (s : State) (v : Nat) : (s.setMdIndex v).out = s.out := rfl
@[simp] theorem State.setMdIndex_metas (s : State) (v : Nat) : (s.setMdIndex v).metas = s.metas := rfl
@[simp] theorem State.setMdIndex_src (s : State) (v : Nat) : (s.setMdIndex v).src = s.src := rfl
@[simp] theorem State.setMdIndex_port (s : State) (v : Nat) : (s.setMdIndex v).port = s.port := rfl
@[simp] theorem State.setMdIndex_ret (s : State) (v : Nat) : (s.setMdIndex v).ret = s.ret := rfl

@[simp] theorem State.setSi_cfg (s : State) (v : StreamInfo) : (s.setSi v).cfg = s.cfg := rfl
@[simp] theorem State.setSi_br (s : State) (v : StreamInfo) : (s.setSi v).br = s.br := rfl
@[simp] theorem State.setSi_phase (s : State) (v : StreamInfo) : (s.setSi v).phase = s.phase := rfl
@[simp] theorem State.setSi_fault (s : State) (v : StreamInfo) : (s.setSi v).fault = s.fault := rfl
@[simp] theorem State.setSi_mdIndex (s : State) (v : StreamInfo) : (s.setSi v).mdIndex = s.mdIndex := rfl
@[simp] theorem State.setSi_si (s : State) (v : StreamInfo) : (s.setSi v).si = v := rfl
@[simp] theorem State.setSi_f (s : State) (v : StreamInfo) : (s.setSi v).f = s.f := rfl
@[simp] theorem State.setSi_sub (s : State) (v : StreamInfo) : (s.setSi v).sub = s.sub := rfl
@[simp] theorem State.setSi_rs (s : State) (v : StreamInfo) : (s.setSi v).rs = s.rs := rfl
@[simp] theorem State.setSi_ch (s : State) (v : StreamInfo) : (s.setSi v).ch = s.ch := rfl
@[simp] theorem State.setSi_out (s : State) (v : StreamInfo) : (s.setSi v).out = s.out := rfl
@[simp] theorem State.setSi_metas (s : State) (v : StreamInfo) : (s.setSi v).metas = s.metas := rfl
@[simp] theorem State.setSi_src (s : State) (v : StreamInfo) : (s.setSi v).src = s.src := rfl
@[simp] theorem State.setSi_port (s : State) (v : StreamInfo) : (s.setSi v).port = s.port := rfl
@[simp] theorem State.setSi_ret (s : State) (v : StreamInfo) : (s.setSi v).ret = s.ret := rfl

@[simp] theorem State.setF_cfg (s : State) (v : FrameRegs) : (s.setF v).cfg = s.cfg := rfl
@[simp] theorem State.setF_br (s : State) (v : FrameRegs) : (s.setF v).br = s.br := rfl
@[simp] theorem State.setF_phase (s : State) (v : FrameRegs) : (s.setF v).phase = s.phase := rfl
@[simp] theorem State.setF_fault (s : State) (v : FrameRegs) : (s.setF v).fault = s.fault := rfl
@[simp] theorem State.setF_mdIndex (s : State) (v : FrameRegs) : (s.setF v).mdIndex = s.mdIndex := rfl
@[simp] theorem State.setF_si (s : State) (v : FrameRegs) : (s.setF v).si = s.si := rfl
@[simp] theorem State.setF_f (s : State) (v : FrameRegs) : (s.setF v).f = v := rfl
@[simp] theorem State.setF_sub (s : State) (v : FrameRegs) : (s.setF v).sub = s.sub := rfl
@[simp] theorem State.setF_rs (s : State) (v : FrameRegs) : (s.setF v).rs = s.rs := rfl
@[simp] theorem State.setF_ch (s : State) (v : FrameRegs) : (s.setF v).ch = s.ch := rfl
@[simp] theorem State.setF_out (s : State) (v : FrameRegs) : (s.setF v).out = s.out := rfl
@[simp] theorem State.setF_metas (s : State) (v : FrameRegs) : (s.setF v).metas = s.metas := rfl
@[simp] theorem State.setF_src (s : State) (v : FrameRegs) : (s.setF v).src = s.src := rfl
@[simp] theorem State.setF_port (s : State) (v : FrameRegs) : (s.setF v).port = s.port := rfl
@[simp] theorem State.setF_ret (s : State) (v : FrameRegs) : (s.setF v).ret = s.ret := rfl

@[simp] theorem State.setSub_cfg (s : State) (v : SubframeRegs) : (s.setSub v).cfg = s.cfg := rfl
@[simp] theorem State.setSub_br (s : State) (v : SubframeRegs) : (s.setSub v).br = s.br := rfl
@[simp] theorem State.setSub_phase (s : State) (v : SubframeRegs) : (s.setSub v).phase = s.phase := rfl
@[simp] theorem State.setSub_fault (s : State) (v : SubframeRegs) : (s.setSub v).fault = s.fault := rfl
@[simp] theorem State.setSub_mdIndex (s : State) (v : SubframeRegs) : (s.setSub v).mdIndex = s.mdIndex := rfl
@[simp] theorem State.setSub_si (s : State) (v : SubframeRegs) : (s.setSub v).si = s.si := rfl
@[simp] theorem State.setSub_f (s : State) (v : SubframeRegs) : (s.setSub v).f = s.f := rfl
@[simp] theorem State.setSub_sub (s : State) (v : SubframeRegs) : (s.setSub v).sub = v := rfl
@[simp] theorem State.setSub_rs (s : State) (v : SubframeRegs) : (s.setSub v).rs = s.rs := rfl
@[simp] theorem State.setSub_ch (s : State) (v : SubframeRegs) : (s.setSub v).ch = s.ch := rfl
@[simp] theorem State.setSub_out (s : State) (v : SubframeRegs) : (s.setSub v).out = s.out := rfl
@[simp] theorem State.setSub_metas (s : State) (v : SubframeRegs) : (s.setSub v).metas = s.metas := rfl
@[simp] theorem State.setSub_src (s : State) (v : SubframeRegs) : (s.setSub v).src = s.src := rfl
@[simp] theorem State.setSub_port (s : State) (v : SubframeRegs) : (s.setSub v).port = s.port := rfl
@[simp] theorem State.setSub_ret (s : State) (v : SubframeRegs) : (s.setSub v).ret = s.ret := rfl

@[simp] theorem State.setRs_cfg (s : State) (v : ResidualRegs) : (s.setRs v).cfg = s.cfg := rfl
@[simp] theorem State.setRs_br (s : State) (v : ResidualRegs) : (s.setRs v).br = s.br := rfl
@[simp] theorem State.setRs_phase (s : State) (v : ResidualRegs) : (s.setRs v).phase = s.phase := rfl
@[simp] theorem State.setRs_fault (s : State) (v : ResidualRegs) : (s.setRs v).fault = s.fault := rfl
@[simp] theorem State.setRs_mdIndex (s : State) (v : ResidualRegs) : (s.setRs v).mdIndex = s.mdIndex := rfl
@[simp] theorem State.setRs_si (s : State) (v : ResidualRegs) : (s.setRs v).si = s.si := rfl
@[simp] theorem State.setRs_f (s : State) (v : ResidualRegs) : (s.setRs v).f = s.f := rfl
@[simp] theorem State.setRs_sub (s : State) (v : ResidualRegs) : (s.setRs v).sub = s.sub := rfl
@[simp] theorem State.setRs_rs (s : State) (v : ResidualRegs) : (s.setRs v).rs = v := rfl
@[simp] theorem State.setRs_ch (s : State) (v : ResidualRegs) : (s.setRs v).ch = s.ch := rfl
@[simp] theorem State.setRs_out (s : State) (v : ResidualRegs) : (s.setRs v).out = s.out := rfl
@[simp] theorem State.setRs_metas (s : State) (v : ResidualRegs) : (s.setRs v).metas = s.metas := rfl
@[simp] theorem State.setRs_src (s : State) (v : ResidualRegs) : (s.setRs v).src = s.src := rfl
@[simp] theorem State.setRs_port (s : State) (v : ResidualRegs) : (s.setRs v).port = s.port := rfl
@[simp] theorem State.setRs_ret (s : State) (v : ResidualRegs) : (s.setRs v).ret = s.ret := rfl

@[simp] theorem State.setCh_cfg (s : State) (v : List (List Int)) : (s.setCh v).cfg = s.cfg := rfl
@[simp] theorem State.setCh_br (s : State) (v : List (List Int)) : (s.setCh v).br = s.br := rfl
@[simp] theorem State.setCh_phase (s : State) (v : List (List Int)) : (s.setCh v).phase = s.phase := rfl
@[simp] theorem State.setCh_fault (s : State) (v : List (List Int)) : (s.setCh v).fault = s.fault := rfl
@[simp] theorem State.setCh_mdIndex (s : State) (v : List (List Int)) : (s.setCh v).mdIndex = s.mdIndex := rfl
@[simp] theorem State.setCh_si (s : State) (v : List (List Int)) : (s.setCh v).si = s.si := rfl
@[simp] theorem State.setCh_f (s : State) (v : List (List Int)) : (s.setCh v).f = s.f := rfl
@[simp] theorem State.setCh_sub (s : State) (v : List (List Int)) : (s.setCh v).sub = s.sub := rfl
@[simp] theorem State.setCh_rs (s : State) (v : List (List Int)) : (s.setCh v).rs = s.rs := rfl
@[simp] theorem State.setCh_ch (s : State) (v : List (List Int)) : (s.setCh v).ch = v := rfl
@[simp] theorem State.setCh_out (s : State) (v : List (List Int)) : (s.setCh v).out = s.out := rfl
@[simp] theorem State.setCh_metas (s : State) (v : List (List Int)) : (s.setCh v).metas = s.metas := rfl
@[simp] theorem State.setCh_src (s : State) (v : List (List Int)) : (s.setCh v).src = s.src := rfl
@[simp] theorem State.setCh_port (s : State) (v : List (List Int)) : (s.setCh v).port = s.port := rfl
@[simp] theorem State.setCh_ret (s : State) (v : List (List Int)) : (s.setCh v).ret = s.ret := rfl

@[simp] theorem State.setOut_cfg (s : State) (v : Out) : (s.setOut v).cfg = s.cfg := rfl
@[simp] theorem State.setOut_br (s : State) (v : Out) : (s.setOut v).br = s.br := rfl
@[simp] theorem State.setOut_phase (s : State) (v : Out) : (s.setOut v).phase = s.phase := rfl
@[simp] theorem State.setOut_fault (s : State) (v : Out) : (s.setOut v).fault = s.fault := rfl
@[simp] theorem State.setOut_mdIndex (s : State) (v : Out) : (s.setOut v).mdIndex = s.mdIndex := rfl
@[simp] theorem State.setOut_si (s : State) (v : Out) : (s.setOut v).si = s.si := rfl
@[simp] theorem State.setOut_f (s : State) (v : Out) : (s.setOut v).f = s.f := rfl
@[simp] theorem State.setOut_sub (s : State) (v : Out) : (s.setOut v).sub = s.sub := rfl
@[simp] theorem State.setOut_rs (s : State) (v : Out) : (s.setOut v).rs = s.rs := rfl
@[simp] theorem State.setOut_ch (s : State) (v : Out) : (s.setOut v).ch = s.ch := rfl
@[simp] theorem State.setOut_out (s : State) (v : Out) : (s.setOut v).out = v := rfl
@[simp] theorem State.setOut_metas (s : State) (v : Out) : (s.setOut v).metas = s.metas := rfl
@[simp] theorem State.setOut_src (s : State) (v : Out) : (s.setOut v).src = s.src := rfl
@[simp] theorem State.setOut_port (s : State) (v : Out) : (s.setOut v).port = s.port := rfl
@[simp] theorem State.setOut_ret (s : State) (v : Out) : (s.setOut v).ret = s.ret := rfl

@[simp] theorem State.setMetas_cfg (s : State) (v : List Record) : (s.setMetas v).cfg = s.cfg := rfl
@[simp] theorem State.setMetas_br (s : State) (v : List Record) : (s.setMetas v).br = s.br := rfl
@[simp] theorem State.setMetas_phase (s : State) (v : List Record) : (s.setMetas v).phase = s.phase := rfl
@[simp] theorem State.setMetas_fault (s : State) (v : List Record) : (s.setMetas v).fault = s.fault := rfl
@[simp] theorem State.setMetas_mdIndex (s : State) (v : List Record) : (s.setMetas v).mdIndex = s.mdIndex := rfl
@[simp] theorem State.setMetas_si (s : State) (v : List Record) : (s.setMetas v).si = s.si := rfl
@[simp] theorem State.setMetas_f (s : State) (v : List Record) : (s.setMetas v).f = s.f := rfl
@[simp] theorem State.setMetas_sub (s : State) (v : List Record) : (s.setMetas v).sub = s.sub := rfl
@[simp] theorem State.setMetas_rs (s : State) (v : List Record) : (s.setMetas v).rs = s.rs := rfl
@[simp] theorem State.setMetas_ch (s : State) (v : List Record) : (s.setMetas v).ch = s.ch := rfl
@[simp] theorem State.setMetas_out (s : State) (v : List Record) : (s.setMetas v).out = s.out := rfl
@[simp] theorem State.setMetas_metas (s : State) (v : List Record) : (s.setMetas v).metas = v := rfl
@[simp] theorem State.setMetas_src (s : State) (v : List Record) : (s.setMetas v).src = s.src := rfl
@[simp] theorem State.setMetas_port (s : State) (v : List Record) : (s.setMetas v).port = s.port := rfl
@[simp] theorem State.setMetas_ret (s : State) (v : List Record) : (s.setMetas v).ret = s.ret := rfl

@[simp] theorem State.setSrc_cfg (s : State) (v : Memory) : (s.setSrc v).cfg = s.cfg := rfl
@[simp] theorem State.setSrc_br (s : State) (v : Memory) : (s.setSrc v).br = s.br := rfl
@[simp] theorem State.setSrc_phase (s : State) (v : Memory) : (s.setSrc v).phase = s.phase := rfl
@[simp] theorem State.setSrc_fault (s : State) (v : Memory) : (s.setSrc v).fault = s.fault := rfl
@[simp] theorem State.setSrc_mdIndex (s : State) (v : Memory) : (s.setSrc v).mdIndex = s.mdIndex := rfl
@[simp] theorem State.setSrc_si (s : State) (v : Memory) : (s.setSrc v).si = s.si := rfl
@[simp] theorem State.setSrc_f (s : State) (v : Memory) : (s.setSrc v).f = s.f := rfl
@[simp] theorem State.setSrc_sub (s : State) (v : Memory) : (s.setSrc v).sub = s.sub := rfl
@[simp] theorem State.setSrc_rs (s : State) (v : Memory) : (s.setSrc v).rs = s.rs := rfl
@[simp] theorem State.setSrc_ch (s : State) (v : Memory) : (s.setSrc v).ch = s.ch := rfl
@[simp] theorem State.setSrc_out (s : State) (v : Memory) : (s.setSrc v).out = s.out := rfl
@[simp] theorem State.setSrc_metas (s : State) (v : Memory) : (s.setSrc v).metas = s.metas := rfl
@[simp] theorem State.setSrc_src (s : State) (v : Memory) : (s.setSrc v).src = v := rfl
@[simp] theorem State.setSrc_port (s : State) (v : Memory) : (s.setSrc v).port = s.port := rfl
@[simp] theorem State.setSrc_ret (s : State) (v : Memory) : (s.setSrc v).ret = s.ret := rfl

@[simp] theorem State.setPort_cfg (s : State) (v : List Request) : (s.setPort v).cfg = s.cfg := rfl
@[simp] theorem State.setPort_br (s : State) (v : List Request) : (s.setPort v).br = s.br := rfl
@[simp] theorem State.setPort_phase (s : State) (v : List Request) : (s.setPort v).phase = s.phase := rfl
@[simp] theorem State.setPort_fault (s : State) (v : List Request) : (s.setPort v).fault = s.fault := rfl
@[simp] theorem State.setPort_mdIndex (s : State) (v : List Request) : (s.setPort v).mdIndex = s.mdIndex := rfl
@[simp] theorem State.setPort_si (s : State) (v : List Request) : (s.setPort v).si = s.si := rfl
@[simp] theorem State.setPort_f (s : State) (v : List Request) : (s.setPort v).f = s.f := rfl
@[simp] theorem State.setPort_sub (s : State) (v : List Request) : (s.setPort v).sub = s.sub := rfl
@[simp] theorem State.setPort_rs (s : State) (v : List Request) : (s.setPort v).rs = s.rs := rfl
@[simp] theorem State.setPort_ch (s : State) (v : List Request) : (s.setPort v).ch = s.ch := rfl
@[simp] theorem State.setPort_out (s : State) (v : List Request) : (s.setPort v).out = s.out := rfl
@[simp] theorem State.setPort_metas (s : State) (v : List Request) : (s.setPort v).metas = s.metas := rfl
@[simp] theorem State.setPort_src (s : State) (v : List Request) : (s.setPort v).src = s.src := rfl
@[simp] theorem State.setPort_port (s : State) (v : List Request) : (s.setPort v).port = v := rfl
@[simp] theorem State.setPort_ret (s : State) (v : List Request) : (s.setPort v).ret = s.ret := rfl

@[simp] theorem State.setRet_cfg (s : State) (v : Ret) : (s.setRet v).cfg = s.cfg := rfl
@[simp] theorem State.setRet_br (s : State) (v : Ret) : (s.setRet v).br = s.br := rfl
@[simp] theorem State.setRet_phase (s : State) (v : Ret) : (s.setRet v).phase = s.phase := rfl
@[simp] theorem State.setRet_fault (s : State) (v : Ret) : (s.setRet v).fault = s.fault := rfl
@[simp] theorem State.setRet_mdIndex (s : State) (v : Ret) : (s.setRet v).mdIndex = s.mdIndex := rfl
@[simp] theorem State.setRet_si (s : State) (v : Ret) : (s.setRet v).si = s.si := rfl
@[simp] theorem State.setRet_f (s : State) (v : Ret) : (s.setRet v).f = s.f := rfl
@[simp] theorem State.setRet_sub (s : State) (v : Ret) : (s.setRet v).sub = s.sub := rfl
@[simp] theorem State.setRet_rs (s : State) (v : Ret) : (s.setRet v).rs = s.rs := rfl
@[simp] theorem State.setRet_ch (s : State) (v : Ret) : (s.setRet v).ch = s.ch := rfl
@[simp] theorem State.setRet_out (s : State) (v : Ret) : (s.setRet v).out = s.out := rfl
@[simp] theorem State.setRet_metas (s : State) (v : Ret) : (s.setRet v).metas = s.metas := rfl
@[simp] theorem State.setRet_src (s : State) (v : Ret) : (s.setRet v).src = s.src := rfl
@[simp] theorem State.setRet_port (s : State) (v : Ret) : (s.setRet v).port = s.port := rfl
@[simp] theorem State.setRet_ret (s : State) (v : Ret) : (s.setRet v).ret = v := rfl

@[simp] theorem State.setCfg_cfg (s : State) (v : Config) : (s.setCfg v).cfg = v := rfl
@[simp] theorem State.setCfg_br (s : State) (v : Config) : (s.setCfg v).br = s.br := rfl
@[simp] theorem State.setCfg_phase (s : State) (v : Config) : (s.setCfg v).phase = s.phase := rfl
@[simp] theorem State.setCfg_fault (s : State) (v : Config) : (s.setCfg v).fault = s.fault := rfl
@[simp] theorem State.setCfg_mdIndex (s : State) (v : Config) : (s.setCfg v).mdIndex = s.mdIndex := rfl
@[simp] theorem State.setCfg_si (s : State) (v : Config) : (s.setCfg v).si = s.si := rfl
@[simp] theorem State.setCfg_f (s : State) (v : Config) : (s.setCfg v).f = s.f := rfl
@[simp] theorem State.setCfg_sub (s : State) (v : Config) : (s.setCfg v).sub = s.sub := rfl
@[simp] theorem State.setCfg_rs (s : State) (v : Config) : (s.setCfg v).rs = s.rs := rfl
@[simp] theorem State.setCfg_ch (s : State) (v : Config) : (s.setCfg v).ch = s.ch := rfl
@[simp] theorem State.setCfg_out (s : State) (v : Config) : (s.setCfg v).out = s.out := rfl
@[simp] theorem State.setCfg_metas (s : State) (v : Config) : (s.setCfg v).metas = s.metas := rfl
@[simp] theorem State.setCfg_src (s : State) (v : Config) : (s.setCfg v).src = s.src := rfl
@[simp] theorem State.setCfg_port (s : State) (v : Config) : (s.setCfg v).port = s.port := rfl
@[simp] theorem State.setCfg_ret (s : State) (v : Config) : (s.setCfg v).ret = s.ret := rfl

@[simp] theorem State.takeFault_halted (s : State) (d : DecodeFault) : (s.takeFault d).halted = true := rfl
@[simp] theorem State.setRet_halted (s : State) (v : Ret) : (s.setRet v).halted = s.halted := rfl
@[simp] theorem State.setBr_halted (s : State) (v : Reader) : (s.setBr v).halted = s.halted := rfl
@[simp] theorem State.setCfg_halted (s : State) (v : Config) : (s.setCfg v).halted = s.halted := rfl
@[simp] theorem State.setPort_halted (s : State) (v : List Request) : (s.setPort v).halted = s.halted := rfl
@[simp] theorem State.setOut_halted (s : State) (v : Out) : (s.setOut v).halted = s.halted := rfl

/-- R51 (f): no fault is latched outside `Faulted`. -/
theorem State.halted_eq_false {s : State} : s.halted = false ↔ s.phase ≠ .faulted ∧ s.fault = none := by
  simp [State.halted]

@[simp] theorem State.takeFault_cfg (s : State) (d : DecodeFault) : (s.takeFault d).cfg = s.cfg := rfl
@[simp] theorem State.takeFault_phase (s : State) (d : DecodeFault) : (s.takeFault d).phase = .faulted := rfl
@[simp] theorem State.takeFault_fault (s : State) (d : DecodeFault) : (s.takeFault d).fault = some d := rfl
@[simp] theorem State.takeFault_out (s : State) (d : DecodeFault) : (s.takeFault d).out = .none := rfl
@[simp] theorem State.takeFault_ret (s : State) (d : DecodeFault) : (s.takeFault d).ret = .fault := rfl
@[simp] theorem State.takeFault_port (s : State) (d : DecodeFault) : (s.takeFault d).port = s.port := rfl
@[simp] theorem State.takeFault_src (s : State) (d : DecodeFault) : (s.takeFault d).src = s.src := rfl

/-! Writing twice, writing back, and writes of two registers in either order (the order of the record is
taken as the normal one). -/

@[simp] theorem State.setCfg_setCfg (s : State) (v w : Config) : (s.setCfg v).setCfg w = s.setCfg w := rfl
@[simp] theorem State.setCfg_self (s : State) : s.setCfg s.cfg = s := rfl
@[simp] theorem State.setBr_setBr (s : State) (v w : Reader) : (s.setBr v).setBr w = s.setBr w := rfl
@[simp] theorem State.setBr_self (s : State) : s.setBr s.br = s := rfl
@[simp] theorem State.setPhase_setPhase (s : State) (v w : Phase) : (s.setPhase v).setPhase w = s.setPhase w := rfl
@[simp] theorem State.setPhase_self (s : State) : s.setPhase s.phase = s := rfl
@[simp] theorem State.setFault_setFault (s : State) (v w : Option DecodeFault) : (s.setFault v).setFault w = s.setFault w := rfl
@[simp] theorem State.setFault_self (s : State) : s.setFault s.fault = s := rfl
@[simp] theorem State.setMdIndex_setMdIndex (s : State) (v w : Nat) : (s.setMdIndex v).setMdIndex w = s.setMdIndex w := rfl
@[simp] theorem State.setMdIndex_self (s : State) : s.setMdIndex s.mdIndex = s := rfl
@[simp] theorem State.setSi_setSi (s : State) (v w : StreamInfo) : (s.setSi v).setSi w = s.setSi w := rfl
@[simp] theorem State.setSi_self (s : State) : s.setSi s.si = s := rfl
@[simp] theorem State.setF_setF (s : State) (v w : FrameRegs) : (s.setF v).setF w = s.setF w := rfl
@[simp] theorem State.setF_self (s : State) : s.setF s.f = s := rfl
@[simp] theorem State.setSub_setSub (s : State) (v w : SubframeRegs) : (s.setSub v).setSub w = s.setSub w := rfl
@[simp] theorem State.setSub_self (s : State) : s.setSub s.sub = s := rfl
@[simp] theorem State.setRs_setRs (s : State) (v w : ResidualRegs) : (s.setRs v).setRs w = s.setRs w := rfl
@[simp] theorem State.setRs_self (s : State) : s.setRs s.rs = s := rfl
@[simp] theorem State.setCh_setCh (s : State) (v w : List (List Int)) : (s.setCh v).setCh w = s.setCh w := rfl
@[simp] theorem State.setCh_self (s : State) : s.setCh s.ch = s := rfl
@[simp] theorem State.setOut_setOut (s : State) (v w : Out) : (s.setOut v).setOut w = s.setOut w := rfl
@[simp] theorem State.setOut_self (s : State) : s.setOut s.out = s := rfl
@[simp] theorem State.setMetas_setMetas (s : State) (v w : List Record) : (s.setMetas v).setMetas w = s.setMetas w := rfl
@[simp] theorem State.setMetas_self (s : State) : s.setMetas s.metas = s := rfl
@[simp] theorem State.setSrc_setSrc (s : State) (v w : Memory) : (s.setSrc v).setSrc w = s.setSrc w := rfl
@[simp] theorem State.setSrc_self (s : State) : s.setSrc s.src = s := rfl
@[simp] theorem State.setPort_setPort (s : State) (v w : List Request) : (s.setPort v).setPort w = s.setPort w := rfl
@[simp] theorem State.setPort_self (s : State) : s.setPort s.port = s := rfl
@[simp] theorem State.setRet_setRet (s : State) (v w : Ret) : (s.setRet v).setRet w = s.setRet w := rfl
@[simp] theorem State.setRet_self (s : State) : s.setRet s.ret = s := rfl

@[simp] theorem State.setBr_setCfg (s : State) (v : Reader) (w : Config) :
    (s.setBr v).setCfg w = (s.setCfg w).setBr v := rfl
@[simp] theorem State.setPhase_setCfg (s : State) (v : Phase) (w : Config) :
    (s.setPhase v).setCfg w = (s.setCfg w).setPhase v := rfl
@[simp] theorem State.setFault_setCfg (s : State) (v : Option DecodeFault) (w : Config) :
    (s.setFault v).setCfg w = (s.setCfg w).setFault v := rfl
@[simp] theorem State.setMdIndex_setCfg (s : State) (v : Nat) (w : Config) :
    (s.setMdIndex v).setCfg w = (s.setCfg w).setMdIndex v := rfl
@[simp] theorem State.setSi_setCfg (s : State) (v : StreamInfo) (w : Config) :
    (s.setSi v).setCfg w = (s.setCfg w).setSi v := rfl
@[simp] theorem State.setF_setCfg (s : State) (v : FrameRegs) (w : Config) :
    (s.setF v).setCfg w = (s.setCfg w).setF v := rfl
@[simp] theorem State.setSub_setCfg (s : State) (v : SubframeRegs) (w : Config) :
    (s.setSub v).setCfg w = (s.setCfg w).setSub v := rfl
@[simp] theorem State.setRs_setCfg (s : State) (v : ResidualRegs) (w : Config) :
    (s.setRs v).setCfg w = (s.setCfg w).setRs v := rfl
@[simp] theorem State.setCh_setCfg (s : State) (v : List (List Int)) (w : Config) :
    (s.setCh v).setCfg w = (s.setCfg w).setCh v := rfl
@[simp] theorem State.setOut_setCfg (s : State) (v : Out) (w : Config) :
    (s.setOut v).setCfg w = (s.setCfg w).setOut v := rfl
@[simp] theorem State.setMetas_setCfg (s : State) (v : List Record) (w : Config) :
    (s.setMetas v).setCfg w = (s.setCfg w).setMetas v := rfl
@[simp] theorem State.setSrc_setCfg (s : State) (v : Memory) (w : Config) :
    (s.setSrc v).setCfg w = (s.setCfg w).setSrc v := rfl
@[simp] theorem State.setPort_setCfg (s : State) (v : List Request) (w : Config) :
    (s.setPort v).setCfg w = (s.setCfg w).setPort v := rfl
@[simp] theorem State.setRet_setCfg (s : State) (v : Ret) (w : Config) :
    (s.setRet v).setCfg w = (s.setCfg w).setRet v := rfl
@[simp] theorem State.setPhase_setBr (s : State) (v : Phase) (w : Reader) :
    (s.setPhase v).setBr w = (s.setBr w).setPhase v := rfl
@[simp] theorem State.setFault_setBr (s : State) (v : Option DecodeFault) (w : Reader) :
    (s.setFault v).setBr w = (s.setBr w).setFault v := rfl
@[simp] theorem State.setMdIndex_setBr (s : State) (v : Nat) (w : Reader) :
    (s.setMdIndex v).setBr w = (s.setBr w).setMdIndex v := rfl
@[simp] theorem State.setSi_setBr (s : State) (v : StreamInfo) (w : Reader) :
    (s.setSi v).setBr w = (s.setBr w).setSi v := rfl
@[simp] theorem State.setF_setBr (s : State) (v : FrameRegs) (w : Reader) :
    (s.setF v).setBr w = (s.setBr w).setF v := rfl
@[simp] theorem State.setSub_setBr (s : State) (v : SubframeRegs) (w : Reader) :
    (s.setSub v).setBr w = (s.setBr w).setSub v := rfl
@[simp] theorem State.setRs_setBr (s : State) (v : ResidualRegs) (w : Reader) :
    (s.setRs v).setBr w = (s.setBr w).setRs v := rfl
@[simp] theorem State.setCh_setBr (s : State) (v : List (List Int)) (w : Reader) :
    (s.setCh v).setBr w = (s.setBr w).setCh v := rfl
@[simp] theorem State.setOut_setBr (s : State) (v : Out) (w : Reader) :
    (s.setOut v).setBr w = (s.setBr w).setOut v := rfl
@[simp] theorem State.setMetas_setBr (s : State) (v : List Record) (w : Reader) :
    (s.setMetas v).setBr w = (s.setBr w).setMetas v := rfl
@[simp] theorem State.setSrc_setBr (s : State) (v : Memory) (w : Reader) :
    (s.setSrc v).setBr w = (s.setBr w).setSrc v := rfl
@[simp] theorem State.setPort_setBr (s : State) (v : List Request) (w : Reader) :
    (s.setPort v).setBr w = (s.setBr w).setPort v := rfl
@[simp] theorem State.setRet_setBr (s : State) (v : Ret) (w : Reader) :
    (s.setRet v).setBr w = (s.setBr w).setRet v := rfl
@[simp] theorem State.setFault_setPhase (s : State) (v : Option DecodeFault) (w : Phase) :
    (s.setFault v).setPhase w = (s.setPhase w).setFault v := rfl
@[simp] theorem State.setMdIndex_setPhase (s : State) (v : Nat) (w : Phase) :
    (s.setMdIndex v).setPhase w = (s.setPhase w).setMdIndex v := rfl
@[simp] theorem State.setSi_setPhase (s : State) (v : StreamInfo) (w : Phase) :
    (s.setSi v).setPhase w = (s.setPhase w).setSi v := rfl
@[simp] theorem State.setF_setPhase (s : State) (v : FrameRegs) (w : Phase) :
    (s.setF v).setPhase w = (s.setPhase w).setF v := rfl
@[simp] theorem State.setSub_setPhase (s : State) (v : SubframeRegs) (w : Phase) :
    (s.setSub v).setPhase w = (s.setPhase w).setSub v := rfl
@[simp] theorem State.setRs_setPhase (s : State) (v : ResidualRegs) (w : Phase) :
    (s.setRs v).setPhase w = (s.setPhase w).setRs v := rfl
@[simp] theorem State.setCh_setPhase (s : State) (v : List (List Int)) (w : Phase) :
    (s.setCh v).setPhase w = (s.setPhase w).setCh v := rfl
@[simp] theorem State.setOut_setPhase (s : State) (v : Out) (w : Phase) :
    (s.setOut v).setPhase w = (s.setPhase w).setOut v := rfl
@[simp] theorem State.setMetas_setPhase (s : State) (v : List Record) (w : Phase) :
    (s.setMetas v).setPhase w = (s.setPhase w).setMetas v := rfl
@[simp] theorem State.setSrc_setPhase (s : State) (v : Memory) (w : Phase) :
    (s.setSrc v).setPhase w = (s.setPhase w).setSrc v := rfl
@[simp] theorem State.setPort_setPhase (s : State) (v : List Request) (w : Phase) :
    (s.setPort v).setPhase w = (s.setPhase w).setPort v := rfl
@[simp] theorem State.setRet_setPhase (s : State) (v : Ret) (w : Phase) :
    (s.setRet v).setPhase w = (s.setPhase w).setRet v := rfl
@[simp] theorem State.setMdIndex_setFault (s : State) (v : Nat) (w : Option DecodeFault) :
    (s.setMdIndex v).setFault w = (s.setFault w).setMdIndex v := rfl
@[simp] theorem State.setSi_setFault (s : State) (v : StreamInfo) (w : Option DecodeFault) :
    (s.setSi v).setFault w = (s.setFault w).setSi v := rfl
@[simp] theorem State.setF_setFault (s : State) (v : FrameRegs) (w : Option DecodeFault) :
    (s.setF v).setFault w = (s.setFault w).setF v := rfl
@[simp] theorem State.setSub_setFault (s : State) (v : SubframeRegs) (w : Option DecodeFault) :
    (s.setSub v).setFault w = (s.setFault w).setSub v := rfl
@[simp] theorem State.setRs_setFault (s : State) (v : ResidualRegs) (w : Option DecodeFault) :
    (s.setRs v).setFault w = (s.setFault w).setRs v := rfl
@[simp] theorem State.setCh_setFault (s : State) (v : List (List Int)) (w : Option DecodeFault) :
    (s.setCh v).setFault w = (s.setFault w).setCh v := rfl
@[simp] theorem State.setOut_setFault (s : State) (v : Out) (w : Option DecodeFault) :
    (s.setOut v).setFault w = (s.setFault w).setOut v := rfl
@[simp] theorem State.setMetas_setFault (s : State) (v : List Record) (w : Option DecodeFault) :
    (s.setMetas v).setFault w = (s.setFault w).setMetas v := rfl
@[simp] theorem State.setSrc_setFault (s : State) (v : Memory) (w : Option DecodeFault) :
    (s.setSrc v).setFault w = (s.setFault w).setSrc v := rfl
@[simp] theorem State.setPort_setFault (s : State) (v : List Request) (w : Option DecodeFault) :
    (s.setPort v).setFault w = (s.setFault w).setPort v := rfl
@[simp] theorem State.setRet_setFault (s : State) (v : Ret) (w : Option DecodeFault) :
    (s.setRet v).setFault w = (s.setFault w).setRet v := rfl
@[simp] theorem State.setSi_setMdIndex (s : State) (v : StreamInfo) (w : Nat) :
    (s.setSi v).setMdIndex w = (s.setMdIndex w).setSi v := rfl
@[simp] theorem State.setF_setMdIndex (s : State) (v : FrameRegs) (w : Nat) :
    (s.setF v).setMdIndex w = (s.setMdIndex w).setF v := rfl
@[simp] theorem State.setSub_setMdIndex (s : State) (v : SubframeRegs) (w : Nat) :
    (s.setSub v).setMdIndex w = (s.setMdIndex w).setSub v := rfl
@[simp] theorem State.setRs_setMdIndex (s : State) (v : ResidualRegs) (w : Nat) :
    (s.setRs v).setMdIndex w = (s.setMdIndex w).setRs v := rfl
@[simp] theorem State.setCh_setMdIndex (s : State) (v : List (List Int)) (w : Nat) :
    (s.setCh v).setMdIndex w = (s.setMdIndex w).setCh v := rfl
@[simp] theorem State.setOut_setMdIndex (s : State) (v : Out) (w : Nat) :
    (s.setOut v).setMdIndex w = (s.setMdIndex w).setOut v := rfl
@[simp] theorem State.setMetas_setMdIndex (s : State) (v : List Record) (w : Nat) :
    (s.setMetas v).setMdIndex w = (s.setMdIndex w).setMetas v := rfl
@[simp] theorem State.setSrc_setMdIndex (s : State) (v : Memory) (w : Nat) :
    (s.setSrc v).setMdIndex w = (s.setMdIndex w).setSrc v := rfl
@[simp] theorem State.setPort_setMdIndex (s : State) (v : List Request) (w : Nat) :
    (s.setPort v).setMdIndex w = (s.setMdIndex w).setPort v := rfl
@[simp] theorem State.setRet_setMdIndex (s : State) (v : Ret) (w : Nat) :
    (s.setRet v).setMdIndex w = (s.setMdIndex w).setRet v := rfl
@[simp] theorem State.setF_setSi (s : State) (v : FrameRegs) (w : StreamInfo) :
    (s.setF v).setSi w = (s.setSi w).setF v := rfl
@[simp] theorem State.setSub_setSi (s : State) (v : SubframeRegs) (w : StreamInfo) :
    (s.setSub v).setSi w = (s.setSi w).setSub v := rfl
@[simp] theorem State.setRs_setSi (s : State) (v : ResidualRegs) (w : StreamInfo) :
    (s.setRs v).setSi w = (s.setSi w).setRs v := rfl
@[simp] theorem State.setCh_setSi (s : State) (v : List (List Int)) (w : StreamInfo) :
    (s.setCh v).setSi w = (s.setSi w).setCh v := rfl
@[simp] theorem State.setOut_setSi (s : State) (v : Out) (w : StreamInfo) :
    (s.setOut v).setSi w = (s.setSi w).setOut v := rfl
@[simp] theorem State.setMetas_setSi (s : State) (v : List Record) (w : StreamInfo) :
    (s.setMetas v).setSi w = (s.setSi w).setMetas v := rfl
@[simp] theorem State.setSrc_setSi (s : State) (v : Memory) (w : StreamInfo) :
    (s.setSrc v).setSi w = (s.setSi w).setSrc v := rfl
@[simp] theorem State.setPort_setSi (s : State) (v : List Request) (w : StreamInfo) :
    (s.setPort v).setSi w = (s.setSi w).setPort v := rfl
@[simp] theorem State.setRet_setSi (s : State) (v : Ret) (w : StreamInfo) :
    (s.setRet v).setSi w = (s.setSi w).setRet v := rfl
@[simp] theorem State.setSub_setF (s : State) (v : SubframeRegs) (w : FrameRegs) :
    (s.setSub v).setF w = (s.setF w).setSub v := rfl
@[simp] theorem State.setRs_setF (s : State) (v : ResidualRegs) (w : FrameRegs) :
    (s.setRs v).setF w = (s.setF w).setRs v := rfl
@[simp] theorem State.setCh_setF (s : State) (v : List (List Int)) (w : FrameRegs) :
    (s.setCh v).setF w = (s.setF w).setCh v := rfl
@[simp] theorem State.setOut_setF (s : State) (v : Out) (w : FrameRegs) :
    (s.setOut v).setF w = (s.setF w).setOut v := rfl
@[simp] theorem State.setMetas_setF (s : State) (v : List Record) (w : FrameRegs) :
    (s.setMetas v).setF w = (s.setF w).setMetas v := rfl
@[simp] theorem State.setSrc_setF (s : State) (v : Memory) (w : FrameRegs) :
    (s.setSrc v).setF w = (s.setF w).setSrc v := rfl
@[simp] theorem State.setPort_setF (s : State) (v : List Request) (w : FrameRegs) :
    (s.setPort v).setF w = (s.setF w).setPort v := rfl
@[simp] theorem State.setRet_setF (s : State) (v : Ret) (w : FrameRegs) :
    (s.setRet v).setF w = (s.setF w).setRet v := rfl
@[simp] theorem State.setRs_setSub (s : State) (v : ResidualRegs) (w : SubframeRegs) :
    (s.setRs v).setSub w = (s.setSub w).setRs v := rfl
@[simp] theorem State.setCh_setSub (s : State) (v : List (List Int)) (w : SubframeRegs) :
    (s.setCh v).setSub w = (s.setSub w).setCh v := rfl
@[simp] theorem State.setOut_setSub (s : State) (v : Out) (w : SubframeRegs) :
    (s.setOut v).setSub w = (s.setSub w).setOut v := rfl
@[simp] theorem State.setMetas_setSub (s : State) (v : List Record) (w : SubframeRegs) :
    (s.setMetas v).setSub w = (s.setSub w).setMetas v := rfl
@[simp] theorem State.setSrc_setSub (s : State) (v : Memory) (w : SubframeRegs) :
    (s.setSrc v).setSub w = (s.setSub w).setSrc v := rfl
@[simp] theorem State.setPort_setSub (s : State) (v : List Request) (w : SubframeRegs) :
    (s.setPort v).setSub w = (s.setSub w).setPort v := rfl
@[simp] theorem State.setRet_setSub (s : State) (v : Ret) (w : SubframeRegs) :
    (s.setRet v).setSub w = (s.setSub w).setRet v := rfl
@[simp] theorem State.setCh_setRs (s : State) (v : List (List Int)) (w : ResidualRegs) :
    (s.setCh v).setRs w = (s.setRs w).setCh v := rfl
@[simp] theorem State.setOut_setRs (s : State) (v : Out) (w : ResidualRegs) :
    (s.setOut v).setRs w = (s.setRs w).setOut v := rfl
@[simp] theorem State.setMetas_setRs (s : State) (v : List Record) (w : ResidualRegs) :
    (s.setMetas v).setRs w = (s.setRs w).setMetas v := rfl
@[simp] theorem State.setSrc_setRs (s : State) (v : Memory) (w : ResidualRegs) :
    (s.setSrc v).setRs w = (s.setRs w).setSrc v := rfl
@[simp] theorem State.setPort_setRs (s : State) (v : List Request) (w : ResidualRegs) :
    (s.setPort v).setRs w = (s.setRs w).setPort v := rfl
@[simp] theorem State.setRet_setRs (s : State) (v : Ret) (w : ResidualRegs) :
    (s.setRet v).setRs w = (s.setRs w).setRet v := rfl
@[simp] theorem State.setOut_setCh (s : State) (v : Out) (w : List (List Int)) :
    (s.setOut v).setCh w = (s.setCh w).setOut v := rfl
@[simp] theorem State.setMetas_setCh (s : State) (v : List Record) (w : List (List Int)) :
    (s.setMetas v).setCh w = (s.setCh w).setMetas v := rfl
@[simp] theorem State.setSrc_setCh (s : State) (v : Memory) (w : List (List Int)) :
    (s.setSrc v).setCh w = (s.setCh w).setSrc v := rfl
@[simp] theorem State.setPort_setCh (s : State) (v : List Request) (w : List (List Int)) :
    (s.setPort v).setCh w = (s.setCh w).setPort v := rfl
@[simp] theorem State.setRet_setCh (s : State) (v : Ret) (w : List (List Int)) :
    (s.setRet v).setCh w = (s.setCh w).setRet v := rfl
@[simp] theorem State.setMetas_setOut (s : State) (v : List Record) (w : Out) :
    (s.setMetas v).setOut w = (s.setOut w).setMetas v := rfl
@[simp] theorem State.setSrc_setOut (s : State) (v : Memory) (w : Out) :
    (s.setSrc v).setOut w = (s.setOut w).setSrc v := rfl
@[simp] theorem State.setPort_setOut (s : State) (v : List Request) (w : Out) :
    (s.setPort v).setOut w = (s.setOut w).setPort v := rfl
@[simp] theorem State.setRet_setOut (s : State) (v : Ret) (w : Out) :
    (s.setRet v).setOut w = (s.setOut w).setRet v := rfl
@[simp] theorem State.setSrc_setMetas (s : State) (v : Memory) (w : List Record) :
    (s.setSrc v).setMetas w = (s.setMetas w).setSrc v := rfl
@[simp] theorem State.setPort_setMetas (s : State) (v : List Request) (w : List Record) :
    (s.setPort v).setMetas w = (s.setMetas w).setPort v := rfl
@[simp] theorem State.setRet_setMetas (s : State) (v : Ret) (w : List Record) :
    (s.setRet v).setMetas w = (s.setMetas w).setRet v := rfl
@[simp] theorem State.setPort_setSrc (s : State) (v : List Request) (w : Memory) :
    (s.setPort v).setSrc w = (s.setSrc w).setPort v := rfl
@[simp] theorem State.setRet_setSrc (s : State) (v : Ret) (w : Memory) :
    (s.setRet v).setSrc w = (s.setSrc w).setRet v := rfl
@[simp] theorem State.setRet_setPort (s : State) (v : Ret) (w : List Request) :
    (s.setRet v).setPort w = (s.setPort w).setRet v := rfl

end Sys2Proof.Machine
end

