-- ==== Sys2Proof/Laws/Monad.lean ====
section
/-! SUPPORT. How a rule's pseudocode runs: one equation per building block, so that no later proof
unfolds the monad. -/

namespace Sys2Proof.Machine

open Sys2Proof

variable {α β : Type}

@[simp] theorem pure_run (a : α) (s : State) : (pure a : M α) s = .ok a s := rfl

theorem bind_run (m : M α) (f : α → M β) (s : State) :
    (m >>= f) s = match m s with
      | .ok a t => f a t
      | .error e t => .error e t := by
  simp only [bind, EStateM.bind]
  cases m s <;> rfl

theorem bind_ok {m : M α} {f : α → M β} {s t : State} {a : α} (h : m s = .ok a t) :
    (m >>= f) s = f a t := by rw [bind_run, h]

theorem bind_error {m : M α} {f : α → M β} {s t : State} {e : Trap} (h : m s = .error e t) :
    (m >>= f) s = .error e t := by rw [bind_run, h]

@[simp] theorem reads_run (g : State → α) (s : State) : reads g s = .ok (g s) s := rfl

@[simp] theorem writes_run (g : State → State) (s : State) : writes g s = .ok () (g s) := rfl

@[simp] theorem trap_run (e : Trap) (s : State) : (trap e : M α) s = .error e s := rfl

@[simp] theorem raise_run (d : DecodeFault) (s : State) : (raise d : M α) s = .error (.raise d) s := rfl

@[simp] theorem reads_bind_run (g : State → α) (f : α → M β) (s : State) :
    (reads g >>= f) s = f (g s) s := rfl

@[simp] theorem writes_bind_run (g : State → State) (f : Unit → M β) (s : State) :
    (writes g >>= f) s = f () (g s) := rfl

@[simp] theorem pure_bind_run (a : α) (f : α → M β) (s : State) : (pure a >>= f) s = f a s := rfl

@[simp] theorem trap_bind_run (e : Trap) (f : α → M β) (s : State) :
    ((trap e : M α) >>= f) s = .error e s := rfl

@[simp] theorem raise_bind_run (d : DecodeFault) (f : α → M β) (s : State) :
    ((raise d : M α) >>= f) s = .error (.raise d) s := rfl

theorem bind_assoc_run {γ : Type} (m : M α) (f : α → M β) (g : β → M γ) (s : State) :
    ((m >>= f) >>= g) s = (m >>= fun a => f a >>= g) s := by
  simp only [bind_run]
  cases m s <;> rfl

/-- After a fault nothing runs (R323, R348). -/
theorem run_halted {m : M Ret} {s : State} (hh : s.halted = true) : run m s = .next (s.setRet .refused) := by
  rw [run, if_pos hh]; rfl

theorem run_live {m : M Ret} {s : State} (hh : s.halted = false) :
    run m s = match m s with
      | .ok r t => .next (t.setRet r)
      | .error t u => finishTrap t u := by rw [run, hh]; rfl

theorem run_ok {m : M Ret} {s t : State} {r : Ret} (hh : s.halted = false) (h : m s = .ok r t) :
    run m s = .next (t.setRet r) := by rw [run_live hh, h]

theorem run_error {m : M Ret} {s t : State} {e : Trap} (hh : s.halted = false) (h : m s = .error e t) :
    run m s = finishTrap e t := by rw [run_live hh, h]

theorem runUnit_halted {m : M Unit} {s : State} (hh : s.halted = true) :
    runUnit m s = .next (s.setRet .refused) := run_halted hh

theorem runUnit_ok {m : M Unit} {s t : State} (hh : s.halted = false) (h : m s = .ok () t) :
    runUnit m s = .next (t.setRet .unit) := run_ok hh (by rw [bind_ok h]; rfl)

theorem runUnit_error {m : M Unit} {s t : State} {e : Trap} (hh : s.halted = false)
    (h : m s = .error e t) : runUnit m s = finishTrap e t := run_error hh (bind_error h)

@[simp] theorem finishTrap_raise (d : DecodeFault) (s : State) :
    finishTrap (.raise d) s = .next (s.takeFault d) := rfl

@[simp] theorem finishTrap_notAccepted (s : State) :
    finishTrap .notAccepted s = .next (s.setRet .refused) := rfl

@[simp] theorem finishTrap_stop (f : Fault) (s : State) : finishTrap (.stop f) s = .fault f := rfl

@[simp] theorem finishTrap_refuse (r : Refusal) (s : State) : finishTrap (.refuse r) s = .refused r := rfl

end Sys2Proof.Machine
end

