-- ==== Sys2Proof/Laws/Reader.lean ====
section
/-! SUPPORT. The bit reader over the bit cursor (R23): what each primitive does to a reader that meets
R22's invariant, said once. -/

namespace Sys2Proof.Machine

open Sys2Proof

/-! ### The reader of a cursor -/

@[simp] theorem readerAt_pos (m : Memory) (k : Nat) : (readerAt m k).pos = (k + 7) / 8 := rfl

@[simp] theorem readerAt_nbits (m : Memory) (k : Nat) : (readerAt m k).nbits = 8 * ((k + 7) / 8) - k := rfl

theorem readerAt_nbits_lt (m : Memory) (k : Nat) : (readerAt m k).nbits < 8 := by
  simp; omega

theorem readerAt_acc_lt (m : Memory) (k : Nat) : (readerAt m k).acc < 2 ^ (readerAt m k).nbits :=
  Nat.mod_lt _ (by positivity)

/-- At a byte boundary nothing is buffered. -/
theorem readerAt_aligned (m : Memory) (p : Nat) : readerAt m (8 * p) = ⟨p, 0, 0⟩ := by
  have h : (8 * p + 7) / 8 = p := by omega
  simp [readerAt, h, Nat.mod_one]

@[simp] theorem State.skip_cfg (s : State) (n : Nat) : (s.skip n).cfg = s.cfg := rfl
@[simp] theorem State.skip_src (s : State) (n : Nat) : (s.skip n).src = s.src := rfl
@[simp] theorem State.skip_br (s : State) (n : Nat) : (s.skip n).br = readerAt s.src (s.bp + n) := rfl
@[simp] theorem State.skip_phase (s : State) (n : Nat) : (s.skip n).phase = s.phase := rfl
@[simp] theorem State.skip_fault (s : State) (n : Nat) : (s.skip n).fault = s.fault := rfl
@[simp] theorem State.skip_mdIndex (s : State) (n : Nat) : (s.skip n).mdIndex = s.mdIndex := rfl
@[simp] theorem State.skip_si (s : State) (n : Nat) : (s.skip n).si = s.si := rfl
@[simp] theorem State.skip_f (s : State) (n : Nat) : (s.skip n).f = s.f := rfl
@[simp] theorem State.skip_sub (s : State) (n : Nat) : (s.skip n).sub = s.sub := rfl
@[simp] theorem State.skip_rs (s : State) (n : Nat) : (s.skip n).rs = s.rs := rfl
@[simp] theorem State.skip_ch (s : State) (n : Nat) : (s.skip n).ch = s.ch := rfl
@[simp] theorem State.skip_out (s : State) (n : Nat) : (s.skip n).out = s.out := rfl
@[simp] theorem State.skip_metas (s : State) (n : Nat) : (s.skip n).metas = s.metas := rfl
@[simp] theorem State.skip_port (s : State) (n : Nat) : (s.skip n).port = s.port := rfl
@[simp] theorem State.skip_ret (s : State) (n : Nat) : (s.skip n).ret = s.ret := rfl
@[simp] theorem State.skip_srcLen (s : State) (n : Nat) : (s.skip n).srcLen = s.srcLen := rfl

theorem bp_readerAt (s : State) (k : Nat) : (s.setBr (readerAt s.src k)).bp = k := by
  simp [State.bp]; omega

@[simp] theorem State.skip_bp (s : State) (n : Nat) : (s.skip n).bp = s.bp + n := bp_readerAt s _

@[simp] theorem State.skip_skip (s : State) (m n : Nat) : (s.skip m).skip n = s.skip (m + n) := by
  have h : (s.skip m).skip n = s.setBr (readerAt s.src ((s.skip m).bp + n)) := rfl
  rw [h, State.skip_bp, State.skip, Nat.add_assoc]

@[simp] theorem State.skip_ahead (s : State) (n : Nat) : (s.skip n).ahead = s.ahead.drop n := by
  simp [State.ahead, List.drop_drop]

theorem State.skip_zero {s : State} (h : s.ReaderOk) : s.skip 0 = s := by
  unfold State.skip
  rw [Nat.add_zero, ← h.2.1]; rfl

theorem State.ahead_length (s : State) : s.ahead.length = 8 * s.srcLen - s.bp := by
  simp [State.ahead, State.srcLen]

/-- Moving the reader inside the source keeps the invariant of R22. -/
theorem State.ReaderOk.skip {s : State} (h : s.ReaderOk) {n : Nat} (hn : n ≤ s.ahead.length) :
    (s.skip n).ReaderOk := by
  refine ⟨h.1, ?_, ?_⟩
  · simp
  · have := h.2.2
    rw [State.ahead_length] at hn
    simp; omega

/-- Two states with the same source and reader have the same bits ahead. -/
theorem ReaderOk_congr {s t : State} (hs : t.src = s.src) (hb : t.br = s.br) (h : s.ReaderOk) :
    t.ReaderOk := by
  unfold State.ReaderOk State.bp State.srcLen at *
  rw [hs, hb]; exact h

theorem ahead_congr {s t : State} (hs : t.src = s.src) (hb : t.br = s.br) : t.ahead = s.ahead := by
  unfold State.ahead State.bp; rw [hs, hb]

/-! ### The reader and the other registers

A write of another register leaves the cursor, the bits ahead and R22's invariant alone, and commutes
with moving the reader. -/

@[simp] theorem State.setCfg_bp (s : State) (v : Config) : (s.setCfg v).bp = s.bp := rfl
@[simp] theorem State.setCfg_ahead (s : State) (v : Config) : (s.setCfg v).ahead = s.ahead := rfl
@[simp] theorem State.setCfg_srcLen (s : State) (v : Config) : (s.setCfg v).srcLen = s.srcLen := rfl
@[simp] theorem State.setCfg_ok (s : State) (v : Config) : (s.setCfg v).ReaderOk ↔ s.ReaderOk := Iff.rfl
@[simp] theorem State.setCfg_skip (s : State) (v : Config) (n : Nat) :
    (s.setCfg v).skip n = (s.skip n).setCfg v := rfl
@[simp] theorem State.setPhase_bp (s : State) (v : Phase) : (s.setPhase v).bp = s.bp := rfl
@[simp] theorem State.setPhase_ahead (s : State) (v : Phase) : (s.setPhase v).ahead = s.ahead := rfl
@[simp] theorem State.setPhase_srcLen (s : State) (v : Phase) : (s.setPhase v).srcLen = s.srcLen := rfl
@[simp] theorem State.setPhase_ok (s : State) (v : Phase) : (s.setPhase v).ReaderOk ↔ s.ReaderOk := Iff.rfl
@[simp] theorem State.setPhase_skip (s : State) (v : Phase) (n : Nat) :
    (s.setPhase v).skip n = (s.skip n).setPhase v := rfl
@[simp] theorem State.setFault_bp (s : State) (v : Option DecodeFault) : (s.setFault v).bp = s.bp := rfl
@[simp] theorem State.setFault_ahead (s : State) (v : Option DecodeFault) : (s.setFault v).ahead = s.ahead := rfl
@[simp] theorem State.setFault_srcLen (s : State) (v : Option DecodeFault) : (s.setFault v).srcLen = s.srcLen := rfl
@[simp] theorem State.setFault_ok (s : State) (v : Option DecodeFault) : (s.setFault v).ReaderOk ↔ s.ReaderOk := Iff.rfl
@[simp] theorem State.setFault_skip (s : State) (v : Option DecodeFault) (n : Nat) :
    (s.setFault v).skip n = (s.skip n).setFault v := rfl
@[simp] theorem State.setMdIndex_bp (s : State) (v : Nat) : (s.setMdIndex v).bp = s.bp := rfl
@[simp] theorem State.setMdIndex_ahead (s : State) (v : Nat) : (s.setMdIndex v).ahead = s.ahead := rfl
@[simp] theorem State.setMdIndex_srcLen (s : State) (v : Nat) : (s.setMdIndex v).srcLen = s.srcLen := rfl
@[simp] theorem State.setMdIndex_ok (s : State) (v : Nat) : (s.setMdIndex v).ReaderOk ↔ s.ReaderOk := Iff.rfl
@[simp] theorem State.setMdIndex_skip (s : State) (v : Nat) (n : Nat) :
    (s.setMdIndex v).skip n = (s.skip n).setMdIndex v := rfl
@[simp] theorem State.setSi_bp (s : State) (v : StreamInfo) : (s.setSi v).bp = s.bp := rfl
@[simp] theorem State.setSi_ahead (s : State) (v : StreamInfo) : (s.setSi v).ahead = s.ahead := rfl
@[simp] theorem State.setSi_srcLen (s : State) (v : StreamInfo) : (s.setSi v).srcLen = s.srcLen := rfl
@[simp] theorem State.setSi_ok (s : State) (v : StreamInfo) : (s.setSi v).ReaderOk ↔ s.ReaderOk := Iff.rfl
@[simp] theorem State.setSi_skip (s : State) (v : StreamInfo) (n : Nat) :
    (s.setSi v).skip n = (s.skip n).setSi v := rfl
@[simp] theorem State.setF_bp (s : State) (v : FrameRegs) : (s.setF v).bp = s.bp := rfl
@[simp] theorem State.setF_ahead (s : State) (v : FrameRegs) : (s.setF v).ahead = s.ahead := rfl
@[simp] theorem State.setF_srcLen (s : State) (v : FrameRegs) : (s.setF v).srcLen = s.srcLen := rfl
@[simp] theorem State.setF_ok (s : State) (v : FrameRegs) : (s.setF v).ReaderOk ↔ s.ReaderOk := Iff.rfl
@[simp] theorem State.setF_skip (s : State) (v : FrameRegs) (n : Nat) :
    (s.setF v).skip n = (s.skip n).setF v := rfl
@[simp] theorem State.setSub_bp (s : State) (v : SubframeRegs) : (s.setSub v).bp = s.bp := rfl
@[simp] theorem State.setSub_ahead (s : State) (v : SubframeRegs) : (s.setSub v).ahead = s.ahead := rfl
@[simp] theorem State.setSub_srcLen (s : State) (v : SubframeRegs) : (s.setSub v).srcLen = s.srcLen := rfl
@[simp] theorem State.setSub_ok (s : State) (v : SubframeRegs) : (s.setSub v).ReaderOk ↔ s.ReaderOk := Iff.rfl
@[simp] theorem State.setSub_skip (s : State) (v : SubframeRegs) (n : Nat) :
    (s.setSub v).skip n = (s.skip n).setSub v := rfl
@[simp] theorem State.setRs_bp (s : State) (v : ResidualRegs) : (s.setRs v).bp = s.bp := rfl
@[simp] theorem State.setRs_ahead (s : State) (v : ResidualRegs) : (s.setRs v).ahead = s.ahead := rfl
@[simp] theorem State.setRs_srcLen (s : State) (v : ResidualRegs) : (s.setRs v).srcLen = s.srcLen := rfl
@[simp] theorem State.setRs_ok (s : State) (v : ResidualRegs) : (s.setRs v).ReaderOk ↔ s.ReaderOk := Iff.rfl
@[simp] theorem State.setRs_skip (s : State) (v : ResidualRegs) (n : Nat) :
    (s.setRs v).skip n = (s.skip n).setRs v := rfl
@[simp] theorem State.setCh_bp (s : State) (v : List (List Int)) : (s.setCh v).bp = s.bp := rfl
@[simp] theorem State.setCh_ahead (s : State) (v : List (List Int)) : (s.setCh v).ahead = s.ahead := rfl
@[simp] theorem State.setCh_srcLen (s : State) (v : List (List Int)) : (s.setCh v).srcLen = s.srcLen := rfl
@[simp] theorem State.setCh_ok (s : State) (v : List (List Int)) : (s.setCh v).ReaderOk ↔ s.ReaderOk := Iff.rfl
@[simp] theorem State.setCh_skip (s : State) (v : List (List Int)) (n : Nat) :
    (s.setCh v).skip n = (s.skip n).setCh v := rfl
@[simp] theorem State.setOut_bp (s : State) (v : Out) : (s.setOut v).bp = s.bp := rfl
@[simp] theorem State.setOut_ahead (s : State) (v : Out) : (s.setOut v).ahead = s.ahead := rfl
@[simp] theorem State.setOut_srcLen (s : State) (v : Out) : (s.setOut v).srcLen = s.srcLen := rfl
@[simp] theorem State.setOut_ok (s : State) (v : Out) : (s.setOut v).ReaderOk ↔ s.ReaderOk := Iff.rfl
@[simp] theorem State.setOut_skip (s : State) (v : Out) (n : Nat) :
    (s.setOut v).skip n = (s.skip n).setOut v := rfl
@[simp] theorem State.setMetas_bp (s : State) (v : List Record) : (s.setMetas v).bp = s.bp := rfl
@[simp] theorem State.setMetas_ahead (s : State) (v : List Record) : (s.setMetas v).ahead = s.ahead := rfl
@[simp] theorem State.setMetas_srcLen (s : State) (v : List Record) : (s.setMetas v).srcLen = s.srcLen := rfl
@[simp] theorem State.setMetas_ok (s : State) (v : List Record) : (s.setMetas v).ReaderOk ↔ s.ReaderOk := Iff.rfl
@[simp] theorem State.setMetas_skip (s : State) (v : List Record) (n : Nat) :
    (s.setMetas v).skip n = (s.skip n).setMetas v := rfl
@[simp] theorem State.setPort_bp (s : State) (v : List Request) : (s.setPort v).bp = s.bp := rfl
@[simp] theorem State.setPort_ahead (s : State) (v : List Request) : (s.setPort v).ahead = s.ahead := rfl
@[simp] theorem State.setPort_srcLen (s : State) (v : List Request) : (s.setPort v).srcLen = s.srcLen := rfl
@[simp] theorem State.setPort_ok (s : State) (v : List Request) : (s.setPort v).ReaderOk ↔ s.ReaderOk := Iff.rfl
@[simp] theorem State.setPort_skip (s : State) (v : List Request) (n : Nat) :
    (s.setPort v).skip n = (s.skip n).setPort v := rfl
@[simp] theorem State.setRet_bp (s : State) (v : Ret) : (s.setRet v).bp = s.bp := rfl
@[simp] theorem State.setRet_ahead (s : State) (v : Ret) : (s.setRet v).ahead = s.ahead := rfl
@[simp] theorem State.setRet_srcLen (s : State) (v : Ret) : (s.setRet v).srcLen = s.srcLen := rfl
@[simp] theorem State.setRet_ok (s : State) (v : Ret) : (s.setRet v).ReaderOk ↔ s.ReaderOk := Iff.rfl
@[simp] theorem State.setRet_skip (s : State) (v : Ret) (n : Nat) :
    (s.setRet v).skip n = (s.skip n).setRet v := rfl

theorem State.ReaderOk.pos_eq {s : State} (h : s.ReaderOk) : s.br.pos = (s.bp + 7) / 8 :=
  congrArg Reader.pos h.2.1

theorem State.ReaderOk.nbits_eq {s : State} (h : s.ReaderOk) :
    s.br.nbits = 8 * ((s.bp + 7) / 8) - s.bp := congrArg Reader.nbits h.2.1

theorem State.ReaderOk.acc_eq {s : State} (h : s.ReaderOk) :
    s.br.acc = (s.src.bytes.getD ((s.bp + 7) / 8 - 1) 0#8).toNat % 2 ^ (8 * ((s.bp + 7) / 8) - s.bp) :=
  congrArg Reader.acc h.2.1

theorem State.ReaderOk.acc_lt {s : State} (h : s.ReaderOk) : s.br.acc < 2 ^ s.br.nbits := by
  have := readerAt_acc_lt s.src s.bp
  rwa [← h.2.1] at this

/-- The bits ahead: those buffered, then those of the bytes not yet pulled. -/
theorem State.ahead_eq {s : State} (h : s.ReaderOk) :
    s.ahead = natBits s.br.nbits s.br.acc ++ bytesBits (s.src.bytes.drop s.br.pos) := by
  have hl := h.2.2
  rw [h.pos_eq, h.nbits_eq, h.acc_eq]
  set k := s.bp
  by_cases h0 : 8 * ((k + 7) / 8) - k = 0
  · rw [h0, natBits_zero, List.nil_append, ← bytesBits_drop]
    unfold State.ahead
    congr 1; omega
  · have hlen : (k + 7) / 8 - 1 < s.src.bytes.length := by
      simp [State.srcLen] at hl ⊢; omega
    have hk : k = 8 * ((k + 7) / 8 - 1) + (8 - (8 * ((k + 7) / 8) - k)) := by omega
    unfold State.ahead
    conv_lhs => rw [show s.bp = k from rfl, hk, ← List.drop_drop, bytesBits_drop,
      List.drop_eq_getElem_cons hlen, bytesBits_cons]
    rw [show (k + 7) / 8 - 1 + 1 = (k + 7) / 8 by omega, natBits_mod _ _ _ le_rfl,
      List.drop_append_of_le_length (by simp), List.getD_eq_getElem _ _ hlen]
    congr 1
    have := natBits_drop (8 - (8 * ((k + 7) / 8) - k)) (8 * ((k + 7) / 8) - k)
      (s.src.bytes[(k + 7) / 8 - 1]).toNat
    rw [← this, byteBits]
    congr 2; omega

/-! ### Pulling -/

theorem pull_ok (w : Nat) {s : State} {b : Byte} (h : s.src.read s.br.pos = some b) :
    pull w s = .ok () (s.setBr ⟨s.br.pos + 1, s.br.acc * 256 + b.toNat, s.br.nbits + 8⟩) := by
  simp [pull, h]

theorem pull_end (w : Nat) {s : State} (h : s.src.read s.br.pos = none) :
    pull w s = .error (.raise (.unexpectedEnd s.br.pos w)) s := by
  simp [pull, h]

/-- `k` pulls inside the source: the accumulator takes `k` bytes, most significant first. -/
theorem pulls_ok (w k : Nat) {s : State} (hw : s.src.wf = true) (h : s.br.pos + k ≤ s.srcLen) :
    pulls w k s = .ok () (s.setBr ⟨s.br.pos + k,
      s.br.acc * 2 ^ (8 * k) + bitsNat (bytesBits ((s.src.bytes.drop s.br.pos).take k)),
      s.br.nbits + 8 * k⟩) := by
  induction k generalizing s with
  | zero => simp [pulls]; rfl
  | succ k ih =>
    have hlt : s.br.pos < s.src.bytes.length := by simp [State.srcLen] at h ⊢; omega
    have hr : s.src.read s.br.pos = some s.src.bytes[s.br.pos] := by
      rw [Memory.read_eq _ hw]; simp
    simp only [pulls]
    rw [bind_ok (pull_ok w hr), ih (by simpa using hw) (by simp [State.srcLen] at h ⊢; omega)]
    simp only [State.setBr_src, State.setBr_br]
    congr 1
    rw [List.drop_eq_getElem_cons hlt, List.take_succ_cons, bytesBits_cons, bitsNat_append]
    simp only [bitsNat_byteBits, bytesBits_length, List.length_take, List.length_drop]
    have hk : min k (s.src.bytes.length - (s.br.pos + 1)) = k := by
      simp [State.srcLen] at h ⊢; omega
    rw [hk]
    unfold State.setBr
    congr 2
    · ring
    · rw [show 8 * (k + 1) = 8 * k + 8 by ring, pow_add]; ring
    · ring

/-- Pulls past the end of the source raise UnexpectedEnd. -/
theorem pulls_end (w k : Nat) {s : State} (hw : s.src.wf = true) (hp : s.br.pos ≤ s.srcLen)
    (h : s.srcLen < s.br.pos + k) :
    ∃ p t, pulls w k s = .error (.raise (.unexpectedEnd p w)) t := by
  induction k generalizing s with
  | zero => omega
  | succ k ih =>
    simp only [pulls]
    by_cases hlt : s.br.pos < s.src.bytes.length
    · have hr : s.src.read s.br.pos = some s.src.bytes[s.br.pos] := by
        rw [Memory.read_eq _ hw]; simp
      rw [bind_ok (pull_ok w hr)]
      rw [Memory.bytes_length] at hlt
      simp only [State.srcLen] at hp h ⊢
      exact ih (by simpa using hw) (by simp [State.srcLen]; omega) (by simp [State.srcLen]; omega)
    · have hr : s.src.read s.br.pos = none := by
        rw [Memory.read_eq _ hw]; simp at hlt ⊢; exact hlt
      exact ⟨_, _, bind_error (pull_end w hr)⟩

/-! ### READ_UINT -/

theorem mod_of_split (a b m k : Nat) (h : m ≤ k) : (a * 2 ^ k + b) % 2 ^ m = b % 2 ^ m := by
  obtain ⟨c, rfl⟩ := Nat.exists_eq_add_of_le h
  rw [pow_add, show a * (2 ^ m * 2 ^ c) + b = 2 ^ m * (a * 2 ^ c) + b by ring, Nat.mul_add_mod]

theorem bitsNat_take (l : List Bool) (n : Nat) (h : n ≤ l.length) :
    bitsNat (l.take n) = bitsNat l / 2 ^ (l.length - n) := by
  conv_rhs => rw [← List.take_append_drop n l, bitsNat_append]
  have := bitsNat_lt (l.drop n)
  simp only [List.length_drop] at this
  simp only [List.length_drop, List.length_append, List.length_take]
  rw [show min n l.length + (l.length - n) - n = l.length - n by omega, Nat.mul_comm,
    Nat.mul_add_div (by positivity), Nat.div_eq_of_lt this, Nat.add_zero]

theorem bitsNat_drop (l : List Bool) (n : Nat) : bitsNat (l.drop n) = bitsNat l % 2 ^ (l.length - n) := by
  conv_rhs => rw [← List.take_append_drop n l, bitsNat_append]
  have := bitsNat_lt (l.drop n)
  simp only [List.length_drop] at this
  rw [List.take_append_drop, List.length_drop, Nat.mul_comm, Nat.mul_add_mod, Nat.mod_eq_of_lt this]

/-- READ_UINT(n) (R131, R23): the next `n` bits as a number, and the cursor `n` bits on. -/
theorem readUint_run {s : State} (h : s.ReaderOk) {n : Nat} (hn : n ≤ s.ahead.length) :
    readUint n s = .ok (bitsNat (s.ahead.take n)) (s.skip n) := by
  have hae := State.ahead_eq h
  have hp := h.pos_eq
  have hnb := h.nbits_eq
  have hacc := h.acc_lt
  have hacceq := h.acc_eq
  obtain ⟨hw, hb, hl⟩ := h
  rw [State.ahead_length] at hn
  set k := pullsFor n s.br.nbits with hk
  have hkv : k = (n - s.br.nbits + 7) / 8 := rfl
  have hbound : s.br.pos + k ≤ s.srcLen := by omega
  have hrun := pulls_ok n k hw hbound
  simp only [readUint, reads_bind_run]
  rw [bind_ok hrun]
  simp only [reads_bind_run, State.setBr_br, writes_bind_run, pure_run]
  -- the buffered bits after the pulls
  set X := (s.src.bytes.drop s.br.pos).take k with hX
  have hXl : X.length = k := by
    rw [hX, List.length_take, List.length_drop, Memory.bytes_length]
    simp only [State.srcLen] at hbound; omega
  set L := natBits s.br.nbits s.br.acc ++ bytesBits X with hL
  have hLl : L.length = s.br.nbits + 8 * k := by simp [hL, hXl]
  have hLn : n ≤ L.length := by omega
  have hval : s.br.acc * 2 ^ (8 * k) + bitsNat (bytesBits X) = bitsNat L := by
    rw [hL, bitsNat_append, bitsNat_natBits, Nat.mod_eq_of_lt hacc, bytesBits_length, hXl]
  have htake : s.ahead.take n = L.take n := by
    have : s.ahead = L ++ bytesBits ((s.src.bytes.drop s.br.pos).drop k) := by
      rw [hae, hL, List.append_assoc, ← bytesBits_append, hX, List.take_append_drop]
    rw [this, List.take_append_of_le_length hLn]
  rw [hval, htake]
  have hlt := bitsNat_lt (L.take n)
  rw [List.length_take, Nat.min_eq_left hLn] at hlt
  have h1 : bitsNat L / 2 ^ (s.br.nbits + 8 * k - n) % 2 ^ n = bitsNat (L.take n) := by
    rw [← hLl, ← bitsNat_take L n hLn, Nat.mod_eq_of_lt hlt]
  rw [h1]
  congr 1
  -- the reader left behind
  unfold State.skip State.setBr
  congr 1
  unfold readerAt
  have hpos : s.br.pos + k = (s.bp + n + 7) / 8 := by omega
  have hrest : s.br.nbits + 8 * k - n = 8 * ((s.bp + n + 7) / 8) - (s.bp + n) := by omega
  simp only [hpos, hrest]
  congr 1
  set m := 8 * ((s.bp + n + 7) / 8) - (s.bp + n) with hm
  have hm8 : m < 8 := by omega
  rw [← hval]
  by_cases hk0 : k = 0
  · have hX0 : X = [] := by rw [← List.length_eq_zero_iff, hXl, hk0]
    rw [hX0, hk0]
    simp only [Nat.mul_zero, pow_zero, Nat.mul_one, bytesBits_nil, bitsNat_nil, Nat.add_zero]
    rw [hacceq, Nat.mod_mod_of_dvd _ (pow_dvd_pow 2 (by omega))]
    rw [show (s.bp + n + 7) / 8 = (s.bp + 7) / 8 by omega]
  · obtain ⟨j, hj⟩ := Nat.exists_eq_succ_of_ne_zero hk0
    have hlast : s.br.pos + j < s.src.bytes.length := by
      rw [Memory.bytes_length]; simp only [State.srcLen] at hbound; omega
    have hXs : X = (s.src.bytes.drop s.br.pos).take j ++ [s.src.bytes[s.br.pos + j]] := by
      rw [hX, hj, List.take_add_one]
      congr 1
      rw [List.getElem?_drop, List.getElem?_eq_getElem hlast]; rfl
    rw [hXs, bytesBits_append, bitsNat_append]
    have h8 : (bytesBits [s.src.bytes[s.br.pos + j]]).length = 8 := by simp
    rw [h8, hj, show 8 * (j + 1) = 8 * j + 8 by ring, pow_add,
      show ∀ a b c d : Nat, a * (b * 2 ^ 8) + (c * 2 ^ 8 + d) = (a * b + c) * 2 ^ 8 + d by intros; ring,
      mod_of_split _ _ _ _ hm8.le]
    rw [show (s.bp + n + 7) / 8 - 1 = s.br.pos + j by omega, List.getD_eq_getElem _ _ hlast]
    simp

/-- READ_UINT(n) past the end of the source (R131). -/
theorem readUint_end {s : State} (h : s.ReaderOk) {n : Nat} (hn : s.ahead.length < n) :
    ∃ p t, readUint n s = .error (.raise (.unexpectedEnd p n)) t := by
  have hp := h.pos_eq
  have hnb := h.nbits_eq
  obtain ⟨hw, hb, hl⟩ := h
  rw [State.ahead_length] at hn
  have hkv : pullsFor n s.br.nbits = (n - s.br.nbits + 7) / 8 := rfl
  obtain ⟨p, t, ht⟩ := pulls_end n (pullsFor n s.br.nbits) hw (by omega) (by omega)
  exact ⟨p, t, by simp only [readUint, reads_bind_run]; exact bind_error ht⟩

end Sys2Proof.Machine
end

