-- ==== Sys2Proof/Laws/Primitives.lean ====
section
/-! SUPPORT. The primitives on a field, codeword or byte string that comes next in the stream. -/

namespace Sys2Proof.Machine

open Sys2Proof

/-! ### What comes next -/

theorem prefix_length {a : List Bool} {s : State} (h : a <+: s.ahead) : a.length ≤ s.ahead.length :=
  h.length_le

/-- A string that comes next leaves the reader in order once it is read. -/
theorem State.ReaderOk.after {s : State} (h : s.ReaderOk) {a : List Bool} (ha : a <+: s.ahead) :
    (s.skip a.length).ReaderOk := h.skip ha.length_le

/-- Two strings that come next, one after the other. -/
theorem ahead_append {s : State} (a b : List Bool) :
    a ++ b <+: s.ahead ↔ a <+: s.ahead ∧ b <+: (s.skip a.length).ahead := by
  rw [append_prefix_iff, State.skip_ahead]

/-! ### Fields -/

theorem readUint_field {s : State} (h : s.ReaderOk) {n v : Nat} (hv : v < 2 ^ n)
    (ha : natBits n v <+: s.ahead) : readUint n s = .ok v (s.skip n) := by
  have hn := ha.length_le
  rw [natBits_length] at hn
  rw [readUint_run h hn]
  have := take_of_prefix ha
  rw [natBits_length] at this
  rw [this, bitsNat_natBits, Nat.mod_eq_of_lt hv]

theorem readUint_bit {s : State} (h : s.ReaderOk) {b : Bool} (ha : [b] <+: s.ahead) :
    readUint 1 s = .ok b.toNat (s.skip 1) := by
  apply readUint_field h
  · cases b <;> decide
  · cases b <;> exact ha

theorem sext_emod {n : Nat} {x : Int} (h : fitsInt n x = true) :
    sext n (x % ((2 ^ n : Nat) : Int)).toNat = x := by
  simp only [fitsInt, Bool.and_eq_true, decide_eq_true_eq] at h
  obtain ⟨⟨h1, h2⟩, h3⟩ := h
  have hp : (2 ^ n : Nat) = 2 * 2 ^ (n - 1) := by
    rw [← pow_succ']; congr 1; omega
  unfold sext
  rw [hp]
  generalize (2 ^ (n - 1) : Nat) = k at *
  have hk : (0 : Int) ≤ k := by positivity
  by_cases hx : 0 ≤ x
  · rw [Int.emod_eq_of_lt hx (by push_cast; omega)]
    rw [if_neg (by omega)]
    omega
  · have : x % ((2 * k : Nat) : Int) = x + 2 * k := by
      rw [← Int.add_emod_right, Int.emod_eq_of_lt (by push_cast; omega) (by push_cast; omega)]
      push_cast; ring
    rw [this, if_pos (by omega)]
    push_cast; omega

theorem intBits_lt (n : Nat) (x : Int) : (x % ((2 ^ n : Nat) : Int)).toNat < 2 ^ n := by
  have h0 : (0 : Int) < ((2 ^ n : Nat) : Int) := by positivity
  have h1 := Int.emod_lt_of_pos x h0
  have h2 := Int.emod_nonneg x h0.ne'
  omega

theorem fitsInt_pos {n : Nat} {x : Int} (h : fitsInt n x = true) : n ≠ 0 := by
  simp only [fitsInt, Bool.and_eq_true, decide_eq_true_eq] at h
  omega

theorem readSint_field {s : State} (h : s.ReaderOk) {n : Nat} {x : Int} (hx : fitsInt n x = true)
    (ha : intBits n x <+: s.ahead) : readSint n s = .ok x (s.skip n) := by
  rw [readSint, if_neg (fitsInt_pos hx), bind_ok (readUint_field h (intBits_lt n x) ha)]
  rw [pure_run, sext_emod hx]

/-- `n` signed fields in a row. -/
theorem readSints_fields {s : State} (h : s.ReaderOk) {w : Nat} {xs : List Int}
    (hx : xs.all (fitsInt w) = true) (ha : xs.flatMap (intBits w) <+: s.ahead) :
    readSints xs.length w s = .ok xs (s.skip (xs.flatMap (intBits w)).length) := by
  induction xs generalizing s with
  | nil => simp [readSints, State.skip_zero h]
  | cons x xs ih =>
    rw [List.flatMap_cons, ahead_append] at ha
    simp only [List.all_cons, Bool.and_eq_true] at hx
    have hs := readSint_field h hx.1 ha.1
    rw [← intBits_length w x] at hs
    have := ih (h.after ha.1) hx.2 ha.2
    rw [List.length_cons, readSints]
    rw [intBits_length] at hs this
    rw [bind_ok hs, bind_ok this]
    simp

/-! ### Unary runs and Rice codewords -/

theorem unaryRun_ok (b : Bool) (q : Nat) : ∀ {s : State} (_ : s.ReaderOk) {fuel : Nat} (_ : q < fuel)
    (_ : List.replicate q b ++ [!b] <+: s.ahead),
    unaryRun b.toNat fuel s = .ok q (s.skip (q + 1)) := by
  induction q with
  | zero =>
    intro s h fuel hf ha
    obtain ⟨f, rfl⟩ := Nat.exists_eq_succ_of_ne_zero (by omega : fuel ≠ 0)
    rw [unaryRun, bind_ok (readUint_bit h ha)]
    cases b <;> simp
  | succ q ih =>
    intro s h fuel hf ha
    obtain ⟨f, rfl⟩ := Nat.exists_eq_succ_of_ne_zero (by omega : fuel ≠ 0)
    rw [List.replicate_succ, List.cons_append, ← List.singleton_append, ahead_append] at ha
    have hr : unaryRun b.toNat f (s.skip 1) = .ok q ((s.skip 1).skip (q + 1)) :=
      ih (h.after ha.1) (by omega) ha.2
    rw [unaryRun, bind_ok (readUint_bit h ha.1), if_pos rfl, bind_ok hr, pure_run, State.skip_skip,
      Nat.add_comm 1]

theorem zigzag_unzigzag (x : Int) : zigzag (unzigzag x) = x := by
  unfold zigzag unzigzag
  split_ifs <;> omega

theorem unzigzag_zigzag (v : Nat) : unzigzag (zigzag v) = v := by
  unfold zigzag unzigzag
  split_ifs <;> omega

theorem bitsLeft_eq {s : State} (h : s.ReaderOk) : s.bitsLeft = s.ahead.length := by
  have h1 := h.pos_eq
  have h2 := h.nbits_eq
  have h3 := h.2.2
  rw [State.ahead_length, State.bitsLeft]
  omega

/-- READ_RICE(k) on the codeword of `x` (R136, R111). -/
theorem readRice_code {s : State} (h : s.ReaderOk) {k : Nat} {x : Int} (ha : riceBits k x <+: s.ahead) :
    readRice k s = .ok x (s.skip (riceBits k x).length) := by
  rw [riceBits, ahead_append] at ha
  obtain ⟨h1, h2⟩ := ha
  have hq : unaryRun 0 (s.bitsLeft + 1) s = _ := unaryRun_ok false (unzigzag x / 2 ^ k) h (fuel := s.bitsLeft + 1)
    (by rw [bitsLeft_eq h]; have := h1.length_le; simp at this; omega) h1
  have hs := h.after h1
  simp only [List.length_append, List.length_replicate, List.length_singleton] at h2 hs
  rw [readRice]
  simp only [reads_bind_run]
  rw [bind_ok hq, bind_ok (readUint_field hs (Nat.mod_lt _ (by positivity)) h2)]
  simp only [pure_run, State.skip_skip, riceBits, List.length_append, List.length_replicate,
    List.length_singleton, natBits_length]
  rw [Nat.mul_comm, Nat.div_add_mod, zigzag_unzigzag]

theorem readRices_codes {s : State} (h : s.ReaderOk) {k : Nat} {xs : List Int}
    (ha : xs.flatMap (riceBits k) <+: s.ahead) :
    readRices xs.length k s = .ok xs (s.skip (xs.flatMap (riceBits k)).length) := by
  induction xs generalizing s with
  | nil => simp [readRices, State.skip_zero h]
  | cons x xs ih =>
    rw [List.flatMap_cons, ahead_append] at ha
    rw [List.length_cons, readRices, bind_ok (readRice_code h ha.1), bind_ok (ih (h.after ha.1) ha.2)]
    simp

/-! ### Bytes -/

theorem dropBits_eq {s : State} (h : s.ReaderOk) : s.dropBits = s.setBr (readerAt s.src s.bpAligned) := by
  unfold State.dropBits
  rw [State.bpAligned, readerAt_aligned, h.pos_eq]

/-- ALIGN() over the bit cursor (R135). -/
theorem dropBits_skip {s : State} (h : s.ReaderOk) : s.dropBits = s.skip (s.bpAligned - s.bp) := by
  rw [dropBits_eq h, State.skip]
  congr 2
  unfold State.bpAligned; omega

theorem dropBits_aligned {s : State} (h : s.ReaderOk) (ha : s.bp % 8 = 0) : s.dropBits = s := by
  rw [dropBits_skip h, show s.bpAligned - s.bp = 0 by unfold State.bpAligned; omega, State.skip_zero h]

theorem bpAligned_le {s : State} (h : s.ReaderOk) : s.bpAligned - s.bp ≤ s.ahead.length := by
  have := h.2.2
  rw [State.ahead_length]; unfold State.bpAligned; omega

theorem readMany_prefix {s : State} {bs : List Byte} (hb : bytesBits bs <+: s.ahead)
    {p : Nat} (hp : s.bp = 8 * p) : s.src.readMany p bs.length = bs := by
  unfold Memory.readMany
  have he : s.ahead = bytesBits (s.src.bytes.drop p) := by
    rw [State.ahead, hp, bytesBits_drop]
  rw [he] at hb
  have hl : bs.length ≤ (s.src.bytes.drop p).length := by
    have := hb.length_le; simp only [bytesBits_length] at this; omega
  apply bytesBits_inj
  have h2 := take_of_prefix hb
  conv_rhs => rw [← h2]
  conv_rhs => rw [← List.take_append_drop bs.length (s.src.bytes.drop p), bytesBits_append]
  rw [List.take_left' (by simp; simpa using hl)]

/-- READ_BYTES on an aligned reader (R133). -/
theorem readBytes_aligned {s : State} (h : s.ReaderOk) (ha : s.bp % 8 = 0) {bs : List Byte}
    (hb : bytesBits bs <+: s.ahead) : readBytes bs.length s = .ok bs (s.skip (8 * bs.length)) := by
  have hp : s.bp = 8 * s.br.pos := by have := h.pos_eq; omega
  have hl := hb.length_le
  have hle := h.2.2
  rw [State.ahead_length, bytesBits_length] at hl
  simp only [readBytes, align, writes_bind_run, reads_bind_run, dropBits_aligned h ha]
  rw [if_pos (by omega)]
  simp only [writes_bind_run, reads_run, State.setBr_src, readMany_prefix hb hp]
  congr 1
  rw [State.skip, hp, show 8 * s.br.pos + 8 * bs.length = 8 * (s.br.pos + bs.length) by ring,
    readerAt_aligned]

/-- READ_BYTES past the end of the source (R133). -/
theorem readBytes_end {s : State} {n : Nat} (hn : s.srcLen < s.br.pos + n) :
    readBytes n s = .error (.raise (.unexpectedEnd s.br.pos n)) s.dropBits := by
  simp only [readBytes, align, writes_bind_run, reads_bind_run]
  rw [if_neg (by simp [State.dropBits, State.srcLen] at hn ⊢; omega)]
  rfl

theorem leBytes_le4 (n : Nat) (h : n < 2 ^ 32) : leBytes (le4 n) = n := by
  simp only [leBytes, le4, BitVec.toNat_ofNat]
  omega

theorem beBytes_be4 (n : Nat) (h : n < 2 ^ 32) : beBytes (be4 n) = n := by
  rw [beBytes, be4, List.reverse_reverse, leBytes_le4 n h]

@[simp] theorem le4_length (n : Nat) : (le4 n).length = 4 := rfl

@[simp] theorem be4_length (n : Nat) : (be4 n).length = 4 := rfl

/-- READ_BYTES inside the source, from any reader (R133). -/
theorem readBytes_ok {s : State} {n : Nat} (hn : s.br.pos + n ≤ s.srcLen) :
    readBytes n s = .ok (s.src.readMany s.br.pos n) (s.setBr ⟨s.br.pos + n, 0, 0⟩) := by
  simp only [readBytes, align, writes_bind_run, reads_bind_run]
  have e1 : s.dropBits.srcLen = s.srcLen := rfl
  have hp : s.dropBits.br.pos = s.br.pos := rfl
  rw [hp, e1, if_pos hn]
  simp [State.dropBits]

/-- A run of equal bits that meets the end of the source (R136, R237). -/
theorem unaryRun_end (b : Bool) : ∀ (q : Nat) {s : State} {fuel : Nat}, s.ReaderOk →
    s.ahead = List.replicate q b →
    ∃ p t, unaryRun b.toNat fuel s = .error (.raise (.unexpectedEnd p 1)) t := by
  intro q
  induction q with
  | zero =>
    intro s fuel h ha
    cases fuel with
    | zero => exact ⟨_, _, rfl⟩
    | succ fuel =>
      obtain ⟨p, t, e⟩ := readUint_end h (n := 1) (by rw [ha]; simp)
      exact ⟨p, t, by rw [unaryRun, bind_error e]⟩
  | succ q ih =>
    intro s fuel h ha
    cases fuel with
    | zero => exact ⟨_, _, rfl⟩
    | succ fuel =>
      have hb : [b] <+: s.ahead := by rw [ha, List.replicate_succ]; exact ⟨_, rfl⟩
      have r := readUint_bit h hb
      obtain ⟨p, t, e⟩ := ih (s := s.skip 1) (fuel := fuel) (by simpa using h.after hb)
        (by rw [State.skip_ahead, ha]; simp)
      exact ⟨p, t, by rw [unaryRun, bind_ok r, if_pos rfl, bind_error e]⟩

/-- On a byte boundary, moving on by whole bytes (R23). -/
theorem skip_aligned {s : State} (h0 : s.br.nbits = 0) (n : Nat) :
    s.skip (8 * n) = s.setBr ⟨s.br.pos + n, 0, 0⟩ := by
  have : s.bp = 8 * s.br.pos := by simp [State.bp, h0]
  unfold State.skip
  rw [this, ← Nat.mul_add, readerAt_aligned]

end Sys2Proof.Machine
end

