-- ==== Sys2Proof/Laws/Keeps.lean ====
section
/-! SUPPORT. What a rule keeps, said once and composed: from a reader in its invariant it ends in one
(R22), the cursor does not move back (R60), a part `V` of the state is as before, and it never stops. -/

namespace Sys2Proof.Machine

open Sys2Proof

variable {α β : Type}

/-- From a state with `P`, the rule ends with the reader in its invariant and `Q`, or raises; either
way the cursor has not moved back and `V` is as it was. -/
def Keeps (V : State → State) (P : State → Prop) (m : M α) (Q : α → State → Prop) : Prop :=
  ∀ s, s.ReaderOk → P s →
    (∃ a t, m s = .ok a t ∧ t.ReaderOk ∧ s.bp ≤ t.bp ∧ s.br.pos ≤ t.br.pos ∧ V t = V s ∧ Q a t) ∨
    (∃ d t, m s = .error (.raise d) t ∧ s.br.pos ≤ t.br.pos ∧ V t = V s)

/-- No condition. -/
abbrev Any : State → Prop := fun _ => True

/-- No result. -/
abbrev Any2 : α → State → Prop := fun _ _ => True

variable {V : State → State} {P R : State → Prop}

theorem Keeps.bind {m : M α} {f : α → M β} {Q : α → State → Prop} {S : β → State → Prop}
    (h1 : Keeps V P m Q) (h2 : ∀ a, Keeps V (Q a) (f a) S) : Keeps V P (m >>= f) S := by
  intro s hs hp
  rcases h1 s hs hp with ⟨a, t, e, ht, hb, hpos, hv, hq⟩ | ⟨d, t, e, hpos, hv⟩
  · rw [bind_ok e]
    rcases h2 a t ht hq with ⟨b, u, e2, hu, hb2, hpos2, hv2, hq2⟩ | ⟨d, u, e2, hpos2, hv2⟩
    · exact .inl ⟨b, u, e2, hu, hb.trans hb2, hpos.trans hpos2, hv2.trans hv, hq2⟩
    · exact .inr ⟨d, u, e2, hpos.trans hpos2, hv2.trans hv⟩
  · exact .inr ⟨d, t, bind_error e, hpos, hv⟩

theorem Keeps.conseq {m : M α} {Q Q' : α → State → Prop} (h : Keeps V P m Q) (hP : ∀ s, R s → P s)
    (hQ : ∀ a t, Q a t → Q' a t) : Keeps V R m Q' := by
  intro s hs hp
  rcases h s hs (hP s hp) with ⟨a, t, e, ht, hb, hpos, hv, hq⟩ | h
  · exact .inl ⟨a, t, e, ht, hb, hpos, hv, hQ a t hq⟩
  · exact .inr h

theorem Keeps.pure {a : α} {Q : α → State → Prop} (h : ∀ s, P s → Q a s) : Keeps V P (Pure.pure a) Q :=
  fun s hs hp => .inl ⟨a, s, rfl, hs, le_rfl, le_rfl, rfl, h s hp⟩

theorem Keeps.reads {g : State → α} {Q : α → State → Prop} (h : ∀ s, P s → Q (g s) s) :
    Keeps V P (Machine.reads g) Q :=
  fun s hs hp => .inl ⟨g s, s, rfl, hs, le_rfl, le_rfl, rfl, h s hp⟩

theorem Keeps.raise {d : DecodeFault} {Q : α → State → Prop} : Keeps V P (Machine.raise d : M α) Q :=
  fun s _ _ => .inr ⟨d, s, rfl, le_rfl, rfl⟩

/-- A register write that leaves the reader and the source alone. -/
theorem Keeps.writes {g : State → State} {Q : Unit → State → Prop} (hb : ∀ s, (g s).br = s.br)
    (hs : ∀ s, (g s).src = s.src) (hv : ∀ s, V (g s) = V s) (h : ∀ s, P s → Q () (g s)) :
    Keeps V P (Machine.writes g) Q := by
  intro s ho hp
  exact .inl ⟨(), g s, rfl, ReaderOk_congr (hs s) (hb s) ho, by simp [State.bp, hb], by rw [hb], hv s, h s hp⟩

theorem Keeps.ite {c : Prop} [Decidable c] {a b : M α} {Q : α → State → Prop}
    (h1 : c → Keeps V P a Q) (h2 : ¬ c → Keeps V P b Q) : Keeps V P (if c then a else b) Q := by
  by_cases h : c
  · rw [if_pos h]; exact h1 h
  · rw [if_neg h]; exact h2 h

/-! ### The primitives -/

/-- `V` does not look at the reader. -/
abbrev HidesBr (V : State → State) : Prop := ∀ s b, V (s.setBr b) = V s

theorem pull_keeps (w : Nat) (s : State) :
    (∃ t, pull w s = .ok () t ∧ s.br.pos ≤ t.br.pos ∧ ∃ b, t = s.setBr b) ∨
    (∃ d t, pull w s = .error (.raise d) t ∧ s.br.pos ≤ t.br.pos ∧ ∃ b, t = s.setBr b) := by
  unfold pull
  cases s.src.read s.br.pos with
  | none => exact .inr ⟨_, s, rfl, le_rfl, s.br, rfl⟩
  | some b => exact .inl ⟨_, rfl, by simp, _, rfl⟩

theorem pulls_error_keeps (w k : Nat) : ∀ {s t : State} {e : Trap}, pulls w k s = .error e t →
    s.br.pos ≤ t.br.pos ∧ ∃ b, t = s.setBr b := by
  induction k with
  | zero => intro s t e h; cases h
  | succ k ih =>
    intro s t e h
    rw [pulls] at h
    rcases pull_keeps w s with ⟨u, hu, hp, b, rfl⟩ | ⟨d, u, hu, hp, b, rfl⟩
    · rw [bind_ok hu] at h
      obtain ⟨h1, b2, rfl⟩ := ih h
      exact ⟨hp.trans h1, b2, by simp⟩
    · rw [bind_error hu] at h
      cases h
      exact ⟨hp, b, rfl⟩

theorem pos_mono {s : State} (h : s.ReaderOk) (n : Nat) : s.br.pos ≤ (s.skip n).br.pos := by
  rw [h.pos_eq, State.skip_br, readerAt_pos]; omega

theorem readUint_keeps (hV : HidesBr V) (n : Nat) : Keeps V P (readUint n) Any2 := by
  intro s h _
  by_cases hn : n ≤ s.ahead.length
  · refine .inl ⟨_, _, readUint_run h hn, h.skip hn, by simp, pos_mono h n, ?_, trivial⟩
    unfold State.skip; rw [hV]
  · obtain ⟨p, t, e⟩ := readUint_end h (by omega : s.ahead.length < n)
    refine .inr ⟨_, t, e, ?_⟩
    have : pulls n (pullsFor n s.br.nbits) s = .error (.raise (.unexpectedEnd p n)) t := by
      rw [readUint] at e
      simp only [reads_bind_run] at e
      rw [bind_run] at e
      cases hq : pulls n (pullsFor n s.br.nbits) s with
      | ok a u => rw [hq] at e; cases e
      | error e' u => rw [hq] at e; cases e; rfl
    obtain ⟨h1, b, rfl⟩ := pulls_error_keeps _ _ this
    exact ⟨h1, hV _ _⟩

theorem readSint_keeps (hV : HidesBr V) {n : Nat} (hn : n ≠ 0) : Keeps V P (readSint n) Any2 := by
  rw [readSint, if_neg hn]
  exact (readUint_keeps hV n).bind fun _ => .pure fun _ _ => trivial

theorem align_keeps (hV : HidesBr V) : Keeps V P align (fun _ t => t.bp % 8 = 0) := by
  intro s h _
  refine .inl ⟨(), s.dropBits, rfl, ?_, ?_, le_rfl, hV _ _, ?_⟩
  · rw [dropBits_skip h]; exact h.skip (bpAligned_le h)
  · rw [dropBits_skip h]; simp
  · simp [State.dropBits, State.bp]

theorem readBytes_keeps (hV : HidesBr V) (n : Nat) :
    Keeps V P (readBytes n) (fun a t => a.length = n ∧ t.bp % 8 = 0) := by
  intro s h _
  have hd := dropBits_skip h
  have hp : s.dropBits.br.pos = s.br.pos := rfl
  have h1 : s.dropBits.ReaderOk := by rw [hd]; exact h.skip (bpAligned_le h)
  unfold readBytes
  simp only [align, writes_bind_run, reads_bind_run]
  have e1 : s.dropBits.srcLen = s.srcLen := rfl
  have e2 : s.dropBits.src = s.src := rfl
  rw [hp, e1]
  by_cases hn : s.br.pos + n ≤ s.srcLen
  · rw [if_pos hn]
    simp only [writes_bind_run, reads_run]
    refine .inl ⟨_, _, rfl, ?_, ?_, by simp, ?_, ?_, by simp [State.bp]⟩
    · refine ⟨h.1, ?_, ?_⟩
      · have : (s.dropBits.setBr ⟨s.br.pos + n, 0, 0⟩).bp = 8 * (s.br.pos + n) := by simp [State.bp]
        rw [this, readerAt_aligned]; rfl
      · simp [State.bp, State.srcLen, State.dropBits] at hn ⊢; omega
    · simp [State.bp]; omega
    · rw [hV]; exact hV _ _
    · exact Memory.readMany_length _ _ _ hn
  · rw [if_neg hn]
    exact .inr ⟨_, _, rfl, le_rfl, hV _ _⟩

theorem readByteOrEos_keeps (hV : HidesBr V) : Keeps V P readByteOrEos Any2 := by
  intro s h _
  have h1 : s.dropBits.ReaderOk := by rw [dropBits_skip h]; exact h.skip (bpAligned_le h)
  have hb : s.bp ≤ s.dropBits.bp := by rw [dropBits_skip h]; simp
  unfold readByteOrEos
  simp only [align, writes_bind_run, reads_bind_run]
  have e2 : s.dropBits.src = s.src := rfl
  have e1 : s.dropBits.br.pos = s.br.pos := rfl
  rw [e1, e2]
  cases hr : s.src.read s.br.pos with
  | none => exact .inl ⟨_, _, rfl, h1, hb, le_rfl, hV _ _, trivial⟩
  | some b =>
    have hlt : s.br.pos < s.srcLen := by
      by_contra hc
      rw [(Memory.read_none_iff _ h.1 _).2 (by simpa [State.srcLen] using hc)] at hr; cases hr
    simp only [writes_bind_run]
    refine .inl ⟨_, _, rfl, ?_, ?_, by simp, ?_, trivial⟩
    · refine ⟨h.1, ?_, ?_⟩
      · have : (s.dropBits.setBr ⟨s.br.pos + 1, 0, 0⟩).bp = 8 * (s.br.pos + 1) := by simp [State.bp]
        rw [this, readerAt_aligned]; rfl
      · simp [State.bp, State.srcLen, State.dropBits] at hlt ⊢; omega
    · simp [State.bp]; omega
    · rw [hV]; exact hV _ _

theorem unaryRun_keeps (hV : HidesBr V) (b fuel : Nat) : Keeps V P (unaryRun b fuel) Any2 := by
  induction fuel generalizing P with
  | zero => exact Keeps.bind (.reads (Q := Any2) fun _ _ => trivial) fun _ => .raise
  | succ fuel ih =>
    rw [unaryRun]
    refine (readUint_keeps hV 1).bind fun v => ?_
    refine .ite (fun _ => ?_) (fun _ => .pure fun _ _ => trivial)
    exact ih.bind fun _ => .pure fun _ _ => trivial

theorem readRice_keeps (hV : HidesBr V) (k : Nat) : Keeps V P (readRice k) Any2 := by
  unfold readRice
  refine Keeps.bind (.reads (Q := Any2) fun _ _ => trivial) fun _ => ?_
  refine (unaryRun_keeps hV _ _).bind fun _ => ?_
  exact (readUint_keeps hV k).bind fun _ => .pure fun _ _ => trivial

theorem readSints_keeps (hV : HidesBr V) (n : Nat) {w : Nat} (hw : w ≠ 0) :
    Keeps V P (readSints n w) (fun a _ => a.length = n) := by
  induction n generalizing P with
  | zero => exact .pure fun _ _ => rfl
  | succ n ih =>
    rw [readSints]
    refine (readSint_keeps hV hw).bind fun _ => ?_
    refine ih.bind fun a => .pure fun _ h => ?_
    simp [h]

theorem readRices_keeps (hV : HidesBr V) (n k : Nat) :
    Keeps V P (readRices n k) (fun a _ => a.length = n) := by
  induction n generalizing P with
  | zero => exact .pure fun _ _ => rfl
  | succ n ih =>
    rw [readRices]
    refine (readRice_keeps hV k).bind fun _ => ?_
    refine ih.bind fun a => .pure fun _ h => ?_
    simp [h]

/-! ### From a rule to a step -/

/-- Everything a row can answer when its rule keeps and no fault is latched. -/
theorem run_keeps {m : M Ret} {Q : Ret → State → Prop} (hm : Keeps V P m Q) {s : State}
    (hh : s.halted = false) (h : s.ReaderOk) (hp : P s) :
    (∃ r t, run m s = .next (t.setRet r) ∧ t.ReaderOk ∧ s.bp ≤ t.bp ∧ s.br.pos ≤ t.br.pos ∧ V t = V s ∧
      Q r t) ∨
    (∃ d t, run m s = .next (t.takeFault d) ∧ s.br.pos ≤ t.br.pos ∧ V t = V s) := by
  rcases hm s h hp with ⟨a, t, e, rest⟩ | ⟨d, t, e, rest⟩
  · exact .inl ⟨a, t, run_ok hh e, rest⟩
  · exact .inr ⟨d, t, by rw [run_error hh e]; rfl, rest⟩

theorem runUnit_keeps {m : M Unit} {Q : Unit → State → Prop} (hm : Keeps V P m Q) {s : State}
    (hh : s.halted = false) (h : s.ReaderOk) (hp : P s) :
    (∃ t, runUnit m s = .next (t.setRet .unit) ∧ t.ReaderOk ∧ s.bp ≤ t.bp ∧ s.br.pos ≤ t.br.pos ∧
      V t = V s ∧ Q () t) ∨
    (∃ d t, runUnit m s = .next (t.takeFault d) ∧ s.br.pos ≤ t.br.pos ∧ V t = V s) := by
  rcases hm s h hp with ⟨a, t, e, rest⟩ | ⟨d, t, e, rest⟩
  · exact .inl ⟨t, runUnit_ok hh e, rest⟩
  · exact .inr ⟨d, t, by rw [runUnit_error hh e]; rfl, rest⟩

end Sys2Proof.Machine
end

