-- ==== Sys2Proof/Laws/KeepsRules.lean ====
section
/-! SUPPORT. What every rule of the decoder keeps (R22, R60, R328, R351). -/

namespace Sys2Proof.Machine

open Sys2Proof

variable {V : State → State} {P : State → Prop}

abbrev HidesRs (V : State → State) : Prop := ∀ s b, V (s.setRs b) = V s
abbrev HidesSub (V : State → State) : Prop := ∀ s b, V (s.setSub b) = V s
abbrev HidesF (V : State → State) : Prop := ∀ s b, V (s.setF b) = V s
abbrev HidesCh (V : State → State) : Prop := ∀ s b, V (s.setCh b) = V s
abbrev HidesOut (V : State → State) : Prop := ∀ s b, V (s.setOut b) = V s

/-- Reading a part of the state. -/
theorem reads_any {α : Type} (g : State → α) : Keeps V P (reads g) Any2 := .reads fun _ _ => trivial

/-! ### The residual -/

theorem latchMethod_keeps (hR : HidesRs V) (m : BitVec 2) (k : Nat) : Keeps V P (latchMethod m k) Any2 :=
  (reads_any _).bind fun _ => .writes (fun _ => rfl) (fun _ => rfl) (fun _ => hR _ _) fun _ _ => trivial

theorem latchParam_keeps (hR : HidesRs V) (k : Nat) : Keeps V P (latchParam k) Any2 :=
  (reads_any _).bind fun _ => .writes (fun _ => rfl) (fun _ => rfl) (fun _ => hR _ _) fun _ _ => trivial

theorem setResiduals_keeps (hR : HidesRs V) (l : List Int) : Keeps V P (setResiduals l) Any2 :=
  (reads_any _).bind fun _ => .writes (fun _ => rfl) (fun _ => rfl) (fun _ => hR _ _) fun _ _ => trivial

theorem methodElement_keeps (hR : HidesRs V) (m : BitVec 2) : Keeps V P (methodElement m) Any2 := by
  unfold methodElement
  cases methodKind m with
  | rice4 => exact latchMethod_keeps hR m 4
  | rice5 => exact latchMethod_keeps hR m 5
  | invalid => exact (reads_any _).bind fun _ => (latchMethod_keeps hR m _).bind fun _ => .raise

theorem partitionOrder_keeps (hV : HidesBr V) (hR : HidesRs V) (n o : Nat) :
    Keeps V P (partitionOrder n o) Any2 := by
  refine (readUint_keeps hV 4).bind fun p => (reads_any _).bind fun r => ?_
  refine Keeps.bind (Q := Any2) (.writes (fun _ => rfl) (fun _ => rfl) (fun _ => hR _ _) fun _ _ => trivial) fun _ => ?_
  exact .ite (fun _ => .pure fun _ _ => trivial) fun _ => .raise

theorem escapeParam_keeps (hV : HidesBr V) (hR : HidesRs V) : Keeps V P escapeParam Any2 :=
  (readUint_keeps hV 5).bind fun k => latchParam_keeps hR k

theorem partitionParam_keeps (hV : HidesBr V) (hR : HidesRs V) : Keeps V P partitionParam Any2 := by
  refine (reads_any _).bind fun pb => (readUint_keeps hV pb).bind fun k => ?_
  refine (latchParam_keeps hR k).bind fun _ => ?_
  exact .ite (fun _ => escapeParam_keeps hV hR) fun _ => .pure fun _ _ => trivial

theorem partitionValues_keeps (hV : HidesBr V) (hR : HidesRs V) (cnt : Nat) :
    Keeps V P (partitionValues cnt) Any2 := by
  refine (reads_any _).bind fun k => (readRices_keeps hV cnt k).bind fun xs => (reads_any _).bind fun r => ?_
  exact setResiduals_keeps hR _

theorem partition_keeps (hV : HidesBr V) (hR : HidesRs V) (n p o t : Nat) :
    Keeps V P (partition n p o t) Any2 :=
  .ite (fun _ => (partitionParam_keeps hV hR).bind fun _ => partitionValues_keeps hV hR _) fun _ => .raise

theorem partitions_keeps (hV : HidesBr V) (hR : HidesRs V) (n p o k : Nat) :
    Keeps V P (partitions n p o k) Any2 := by
  induction k generalizing P with
  | zero => exact .pure fun _ _ => trivial
  | succ k ih => exact (partition_keeps hV hR n p o 0).bind fun _ => ih

theorem decodeResidual_keeps (hV : HidesBr V) (hR : HidesRs V) (n o : Nat) :
    Keeps V P (decodeResidual n o) Any2 := by
  refine Keeps.bind (Q := Any2) ((readUint_keeps hV 2).bind fun m => methodElement_keeps hR _) fun _ => ?_
  refine (partitionOrder_keeps hV hR n o).bind fun _ => (reads_any _).bind fun p => ?_
  refine (setResiduals_keeps hR []).bind fun _ => (partition_keeps hV hR _ _ _ _).bind fun _ => ?_
  exact (partitions_keeps hV hR _ _ _ _).bind fun _ => reads_any _

/-! ### Subframes -/

theorem setSub_keeps (hS : HidesSub V) {g : SubframeRegs → SubframeRegs} {Q : Unit → State → Prop}
    (h : ∀ s, P s → Q () (s.setSub (g s.sub))) :
    Keeps V P (do let r ← reads (·.sub); writes (·.setSub (g r))) Q := by
  intro s hs hp
  exact .inl ⟨(), s.setSub (g s.sub), rfl, hs, le_rfl, le_rfl, hS _ _, h s hp⟩

theorem readWasted_keeps (hV : HidesBr V) : Keeps V P readWasted Any2 := by
  refine (readUint_keeps hV 1).bind fun flag => .ite (fun _ => ?_) fun _ => .pure fun _ _ => trivial
  exact (reads_any _).bind fun _ => (unaryRun_keeps hV _ _).bind fun _ => .pure fun _ _ => trivial

/-- The effective depth is at least 1 whenever the rule goes on (R238). -/
theorem effectiveDepth_keeps (hV : HidesBr V) (hS : HidesSub V) :
    Keeps V P effectiveDepth (fun e _ => e ≠ 0) := by
  refine (readWasted_keeps hV).bind fun w => ?_
  refine Keeps.bind (Q := Any2) (setSub_keeps hS (g := fun r => ⟨r.d, r.type, w, r.e, r.order, r.prec, r.shift, r.coef, r.buf⟩) fun _ _ => trivial) fun _ => ?_
  refine (reads_any _).bind fun d => ?_
  refine Keeps.bind (Q := Any2) (setSub_keeps hS (g := fun r => ⟨r.d, r.type, r.w, (d : Int) - w, r.order, r.prec, r.shift, r.coef, r.buf⟩) fun _ _ => trivial) fun _ => ?_
  exact .ite (fun h => .pure fun _ _ => by omega) fun _ => .raise

theorem sfConstant_keeps (hV : HidesBr V) (n : Nat) {e : Nat} (he : e ≠ 0) :
    Keeps V P (sfConstant n e) Any2 :=
  (readSint_keeps hV he).bind fun _ => .pure fun _ _ => trivial

theorem sfVerbatim_keeps (hV : HidesBr V) (n : Nat) {e : Nat} (he : e ≠ 0) :
    Keeps V P (sfVerbatim n e) Any2 :=
  (readSints_keeps hV n he).conseq (fun _ h => h) fun _ _ _ => trivial

theorem sfFixed_keeps (hV : HidesBr V) (hR : HidesRs V) (n o : Nat) {e : Nat} (he : e ≠ 0) :
    Keeps V P (sfFixed n e o) Any2 :=
  (reads_any _).bind fun _ => (readSints_keeps hV o he).bind fun _ =>
    (decodeResidual_keeps hV hR n o).bind fun _ => .pure fun _ _ => trivial

theorem sfLpc_keeps (hV : HidesBr V) (hR : HidesRs V) (hS : HidesSub V) (n o : Nat) {e : Nat} (he : e ≠ 0) :
    Keeps V P (sfLpc n e o) Any2 := by
  refine (readSints_keeps hV o he).bind fun _ => (readUint_keeps hV 4).bind fun pm => ?_
  refine (readSint_keeps hV (by decide)).bind fun sh => ?_
  refine Keeps.bind (Q := Any2) (setSub_keeps hS (g := fun r => ⟨r.d, r.type, r.w, r.e, r.order, pm + 1, sh, r.coef, r.buf⟩) fun _ _ => trivial) fun _ => ?_
  refine .ite (fun _ => .raise) fun _ => ?_
  refine (readSints_keeps hV o (by omega)).bind fun coef => ?_
  refine Keeps.bind (Q := Any2) (setSub_keeps hS (g := fun r => ⟨r.d, r.type, r.w, r.e, r.order, r.prec, r.shift, coef, r.buf⟩) fun _ _ => trivial) fun _ => ?_
  exact (decodeResidual_keeps hV hR n o).bind fun _ => .pure fun _ _ => trivial

theorem subframeElement_keeps (hV : HidesBr V) (hS : HidesSub V) (t : BitVec 6) (o : Nat)
    {body : Nat → M (List Int)} (hbody : ∀ (R : State → Prop) e, e ≠ 0 → Keeps V R (body e) Any2) :
    Keeps V P (subframeElement t o body) Any2 := by
  refine Keeps.bind (Q := Any2) (setSub_keeps hS (g := fun r => ⟨r.d, t, r.w, r.e, o, r.prec, r.shift, r.coef, r.buf⟩) fun _ _ => trivial) fun _ => ?_
  refine (effectiveDepth_keeps hV hS).bind fun e => ?_
  have h0 : Keeps V (fun _ => e ≠ 0) (body e) Any2 := by
    intro s hs he
    exact hbody Any e he s hs trivial
  refine h0.bind fun buf => (reads_any _).bind fun w => ?_
  exact setSub_keeps hS (g := fun r => ⟨r.d, r.type, r.w, r.e, r.order, r.prec, r.shift, r.coef, restore w buf⟩) fun _ _ => trivial

theorem subframeRest_keeps (hV : HidesBr V) (hR : HidesRs V) (hS : HidesSub V) (t : BitVec 6) (n : Nat) :
    Keeps V P (subframeRest t n) Any2 := by
  unfold subframeRest
  cases subframeKind t with
  | constant => exact subframeElement_keeps hV hS _ _ fun _ _ he => sfConstant_keeps hV n he
  | verbatim => exact subframeElement_keeps hV hS _ _ fun _ _ he => sfVerbatim_keeps hV n he
  | fixed o => exact subframeElement_keeps hV hS _ _ fun _ _ he => sfFixed_keeps hV hR n o he
  | lpc o => exact subframeElement_keeps hV hS _ _ fun _ _ he => sfLpc_keeps hV hR hS n o he
  | unsupported => exact subframeElement_keeps hV hS _ _ fun _ _ _ => .raise

theorem decodeSubframe_keeps (hV : HidesBr V) (hR : HidesRs V) (hS : HidesSub V) (n d : Nat) :
    Keeps V P (decodeSubframe n d) Any2 := by
  refine Keeps.bind (Q := Any2) (setSub_keeps hS (g := fun r => ⟨d, r.type, r.w, r.e, r.order, r.prec, r.shift, r.coef, r.buf⟩) fun _ _ => trivial) fun _ => ?_
  refine (readUint_keeps hV 1).bind fun _ => (readUint_keeps hV 6).bind fun t => ?_
  exact (subframeRest_keeps hV hR hS _ n).bind fun _ => reads_any _

/-! ### Channels -/

theorem setChannels_keeps (hF : HidesF V) (k : Nat) : Keeps V P (setChannels k) Any2 :=
  (reads_any _).bind fun _ => .writes (fun _ => rfl) (fun _ => rfl) (fun _ => hF _ _) fun _ _ => trivial

theorem setSamples_keeps (hC : HidesCh V) (xs : List (List Int)) : Keeps V P (setSamples xs) Any2 :=
  .writes (fun _ => rfl) (fun _ => rfl) (fun _ => hC _ _) fun _ _ => trivial

theorem independent_keeps (hV : HidesBr V) (hR : HidesRs V) (hS : HidesSub V) (hC : HidesCh V) (n b k : Nat) :
    Keeps V P (independent n b k) Any2 := by
  induction k generalizing P with
  | zero => exact .pure fun _ _ => trivial
  | succ k ih =>
    refine (decodeSubframe_keeps hV hR hS n b).bind fun x => ?_
    refine Keeps.bind (Q := Any2) (.writes (fun _ => rfl) (fun _ => rfl) (fun _ => hC _ _) fun _ _ => trivial) fun _ => ih

theorem caIndep_keeps (hV : HidesBr V) (hR : HidesRs V) (hS : HidesSub V) (hF : HidesF V) (hC : HidesCh V)
    (ca n b : Nat) : Keeps V P (caIndep ca n b) Any2 :=
  (setChannels_keeps hF _).bind fun _ => (setSamples_keeps hC _).bind fun _ => independent_keeps hV hR hS hC _ _ _

theorem caLeftSide_keeps (hV : HidesBr V) (hR : HidesRs V) (hS : HidesSub V) (hF : HidesF V) (hC : HidesCh V)
    (n b : Nat) : Keeps V P (caLeftSide n b) Any2 :=
  (setChannels_keeps hF _).bind fun _ => (decodeSubframe_keeps hV hR hS _ _).bind fun _ =>
    (decodeSubframe_keeps hV hR hS _ _).bind fun _ => setSamples_keeps hC _

theorem caRightSide_keeps (hV : HidesBr V) (hR : HidesRs V) (hS : HidesSub V) (hF : HidesF V) (hC : HidesCh V)
    (n b : Nat) : Keeps V P (caRightSide n b) Any2 :=
  (setChannels_keeps hF _).bind fun _ => (decodeSubframe_keeps hV hR hS _ _).bind fun _ =>
    (decodeSubframe_keeps hV hR hS _ _).bind fun _ => setSamples_keeps hC _

theorem caMidSide_keeps (hV : HidesBr V) (hR : HidesRs V) (hS : HidesSub V) (hF : HidesF V) (hC : HidesCh V)
    (n b : Nat) : Keeps V P (caMidSide n b) Any2 :=
  (setChannels_keeps hF _).bind fun _ => (decodeSubframe_keeps hV hR hS _ _).bind fun _ =>
    (decodeSubframe_keeps hV hR hS _ _).bind fun _ => setSamples_keeps hC _

theorem decodeChannels_keeps (hV : HidesBr V) (hR : HidesRs V) (hS : HidesSub V) (hF : HidesF V)
    (hC : HidesCh V) (ca : BitVec 4) (n b : Nat) : Keeps V P (decodeChannels ca n b) Any2 := by
  unfold decodeChannels
  cases channelKind ca with
  | indep c => exact caIndep_keeps hV hR hS hF hC c n b
  | leftSide => exact caLeftSide_keeps hV hR hS hF hC n b
  | rightSide => exact caRightSide_keeps hV hR hS hF hC n b
  | midSide => exact caMidSide_keeps hV hR hS hF hC n b
  | invalid => exact .raise

/-- A rule that reads `SI.bps` keeps where it may be read (R40). -/
theorem withFrame_keeps {body : Nat → Nat → M Unit} (hbody : ∀ n b, Keeps V P (body n b) Any2) :
    Keeps V (fun s => s.si.valid = true ∧ P s) (withFrame body) Any2 := by
  intro s hs hp
  have e : withFrame body s = body s.f.n s.si.bps s := by
    simp [withFrame, bind_run, readBps, hp.1]
  rw [e]
  exact hbody _ _ s hs hp.2

/-! ### Frames -/

theorem frameSync_keeps (hV : HidesBr V) (hF : HidesF V) : Keeps V P frameSync Any2 := by
  refine (readUint_keeps hV 14).bind fun sync => .ite (fun _ => ?_) fun _ => .raise
  refine (readUint_keeps hV _).bind fun _ => (readUint_keeps hV _).bind fun _ => ?_
  refine (readUint_keeps hV _).bind fun _ => (readUint_keeps hV _).bind fun _ => ?_
  refine (readUint_keeps hV _).bind fun _ => (readUint_keeps hV _).bind fun _ => ?_
  refine (readUint_keeps hV _).bind fun _ => (reads_any _).bind fun _ => ?_
  exact .writes (fun _ => rfl) (fun _ => rfl) (fun _ => hF _ _) fun _ _ => trivial

theorem numberLoop_keeps (hV : HidesBr V) (fuel t : Nat) : Keeps V P (numberLoop fuel t) Any2 := by
  induction fuel generalizing P t with
  | zero => exact .pure fun _ _ => trivial
  | succ fuel ih =>
    exact .ite (fun _ => (readUint_keeps hV 8).bind fun _ => ih _) fun _ => .pure fun _ _ => trivial

theorem resolveBlockSize_keeps (hV : HidesBr V) (c : BitVec 4) : Keeps V P (resolveBlockSize c) Any2 := by
  refine .ite (fun _ => .raise) fun _ => .ite (fun _ => ?_) fun _ => .ite (fun _ => ?_) fun _ => ?_
  · exact (readUint_keeps hV 8).bind fun _ => .pure fun _ _ => trivial
  · exact (readUint_keeps hV 16).bind fun _ => .pure fun _ _ => trivial
  · exact .pure fun _ _ => trivial

theorem blockSizeElement_keeps (hV : HidesBr V) (hF : HidesF V) (c : BitVec 4) :
    Keeps V P (blockSizeElement c) Any2 :=
  (resolveBlockSize_keeps hV c).bind fun _ => (reads_any _).bind fun _ =>
    .writes (fun _ => rfl) (fun _ => rfl) (fun _ => hF _ _) fun _ _ => trivial

theorem skipSampleRate_keeps (hV : HidesBr V) (c : BitVec 4) : Keeps V P (skipSampleRate c) Any2 :=
  (readUint_keeps hV _).bind fun _ => .pure fun _ _ => trivial

theorem headerChecksum_keeps (hV : HidesBr V) : Keeps V P headerChecksum Any2 :=
  (readUint_keeps hV 8).bind fun _ => .pure fun _ _ => trivial

/-- The footer ends on a byte boundary (R200). -/
theorem frameFooter_keeps (hV : HidesBr V) : Keeps V P frameFooter (fun _ t => t.bp % 8 = 0) := by
  intro s h _
  have e : frameFooter s = (readUint 16 >>= fun _ => pure ()) s.dropBits := rfl
  have hd := dropBits_skip h
  have h1 : s.dropBits.ReaderOk := by rw [hd]; exact h.skip (bpAligned_le h)
  have hb : s.bp ≤ s.dropBits.bp := by rw [hd]; simp
  have ha : s.dropBits.bp % 8 = 0 := by simp [State.dropBits, State.bp]
  rw [e]
  by_cases hn : 16 ≤ s.dropBits.ahead.length
  · rw [bind_ok (readUint_run h1 hn)]
    refine .inl ⟨(), _, rfl, h1.skip hn, by simp; omega, pos_mono h1 16, ?_, by simp; omega⟩
    unfold State.skip; rw [hV]; exact hV _ _
  · rcases readUint_keeps (P := Any) hV 16 s.dropBits h1 trivial with ⟨a, t, e2, _⟩ | ⟨d, t, e2, hp, hv⟩
    · obtain ⟨p, t2, e3⟩ := readUint_end h1 (by omega : s.dropBits.ahead.length < 16)
      rw [e3] at e2; cases e2
    · exact .inr ⟨d, t, bind_error e2, hp, by rw [hv]; exact hV _ _⟩

theorem commitFrame_keeps (hO : HidesOut V) {Q : Unit → State → Prop}
    (h : ∀ s v, P s → Q () (s.setOut v)) : Keeps V P commitFrame Q :=
  .writes (fun _ => rfl) (fun _ => rfl) (fun _ => hO _ _) fun _ hp => h _ _ hp

/-- DECODE_FRAME() past the end test keeps where `SI.bps` may be read, and ends on a byte boundary. -/
theorem decodeFrameBody_keeps (hV : HidesBr V) (hR : HidesRs V) (hS : HidesSub V) (hF : HidesF V)
    (hC : HidesCh V) (hO : HidesOut V) (hsi : ∀ s t, V t = V s → t.si = s.si) :
    Keeps V (fun s => s.si.valid = true) decodeFrameBody (fun _ t => t.bp % 8 = 0) := by
  have tail : ∀ (R : State → Prop) b, Keeps V R (do
      decodeChannels (← reads (·.f.ca)) (← reads (·.f.n)) b
      frameFooter
      commitFrame) (fun _ t => t.bp % 8 = 0) := by
    intro R b
    refine (reads_any _).bind fun ca => (reads_any _).bind fun n => ?_
    refine (decodeChannels_keeps hV hR hS hF hC ca n b).bind fun _ => ?_
    exact (frameFooter_keeps hV).bind fun _ => commitFrame_keeps hO fun _ _ h => h
  have head : Keeps V Any (do
      frameSync
      skipFrameNumber
      blockSizeElement (← reads (·.f.bsc))
      skipSampleRate (← reads (·.f.src))
      headerChecksum) Any2 := by
    refine (frameSync_keeps hV hF).bind fun _ => ?_
    refine Keeps.bind (Q := Any2) ((readUint_keeps hV 8).bind fun t => numberLoop_keeps hV 8 t) fun _ => ?_
    refine (reads_any _).bind fun c => (blockSizeElement_keeps hV hF c).bind fun _ => ?_
    exact (reads_any _).bind fun c => (skipSampleRate_keeps hV c).bind fun _ => headerChecksum_keeps hV
  have split : decodeFrameBody = (do
      frameSync
      skipFrameNumber
      blockSizeElement (← reads (·.f.bsc))
      skipSampleRate (← reads (·.f.src))
      headerChecksum) >>= fun _ => readBps >>= fun b => (do
        decodeChannels (← reads (·.f.ca)) (← reads (·.f.n)) b
        frameFooter
        commitFrame) := by
    simp only [decodeFrameBody, bind_assoc]
  rw [split]
  intro s hs hp
  rcases head s hs trivial with ⟨a, t, e, ht, hb, hpos, hv, _⟩ | ⟨d, t, e, hpos, hv⟩
  · have hval : t.si.valid = true := by rw [hsi s t hv]; exact hp
    have e2 : readBps t = .ok t.si.bps t := by simp [readBps, hval]
    rw [bind_ok e, bind_ok e2]
    rcases tail Any t.si.bps t ht trivial with ⟨a, u, e3, hu, hb2, hp2, hv2, hq⟩ | ⟨d, u, e3, hp2, hv2⟩
    · exact .inl ⟨a, u, e3, hu, hb.trans hb2, hpos.trans hp2, hv2.trans hv, hq⟩
    · exact .inr ⟨d, u, e3, hpos.trans hp2, hv2.trans hv⟩
  · exact .inr ⟨d, t, bind_error e, hpos, hv⟩

end Sys2Proof.Machine
end

