-- ==== Sys2Proof/Laws/KeepsMeta.lean ====
section
/-! SUPPORT. What the metadata rules, OPEN and PULL keep (R22, R26, R40, R51, R60). -/

namespace Sys2Proof.Machine

open Sys2Proof

variable {V : State → State} {P : State → Prop}

/-- On a byte boundary. -/
abbrev Whole {α : Type} : α → State → Prop := fun _ t => t.bp % 8 = 0

theorem malformed_keeps {α : Type} (type : Nat) (r : BlockReason) {Q : α → State → Prop} :
    Keeps V P (malformed type r : M α) Q := (reads_any _).bind fun _ => .raise

theorem take_keeps (hV : HidesBr V) (type n fin : Nat) : Keeps V P (take type n fin) Whole := by
  refine (reads_any _).bind fun p => .ite (fun _ => ?_) fun _ => malformed_keeps _ _
  exact (readBytes_keeps hV n).conseq (fun _ h => h) fun _ _ h => h.2

theorem takeLe32_keeps (hV : HidesBr V) (type fin : Nat) : Keeps V P (takeLe32 type fin) Whole :=
  (take_keeps hV _ _ _).bind fun _ => .pure fun _ h => h

theorem takeBe32_keeps (hV : HidesBr V) (type fin : Nat) : Keeps V P (takeBe32 type fin) Whole :=
  (take_keeps hV _ _ _).bind fun _ => .pure fun _ h => h

theorem takeString_keeps (hV : HidesBr V) (type n fin : Nat) (field : StringField) :
    Keeps V P (takeString type n fin field) Whole :=
  (take_keeps hV _ _ _).bind fun _ => Keeps.bind (Q := Whole) (.reads fun _ h => h) fun _ =>
    .ite (fun _ => .pure fun _ h => h) fun _ => malformed_keeps _ _

theorem endAt_keeps (type length fin : Nat) :
    Keeps V (fun s => s.bp % 8 = 0) (endAt type length fin) Whole :=
  Keeps.bind (Q := Whole) (.reads fun _ h => h) fun _ =>
    .ite (fun _ => .pure fun _ h => h) fun _ => malformed_keeps _ _

theorem parseEntries_keeps (hV : HidesBr V) (type fin count i : Nat) :
    Keeps V (fun s => s.bp % 8 = 0) (parseEntries type fin count i) Whole := by
  induction count generalizing i with
  | zero => exact .pure fun _ h => h
  | succ count ih =>
    rw [parseEntries]
    refine (takeLe32_keeps hV _ _).bind fun n => (takeString_keeps hV _ _ _ _).bind fun e => ?_
    cases splitEntry e with
    | none => exact malformed_keeps _ _
    | some entry => exact (ih (i + 1)).bind fun _ => .pure fun _ h => h

theorem parseVorbisComment_keeps (hV : HidesBr V) (type length fin : Nat) (last : Bool) :
    Keeps V P (parseVorbisComment type length fin last) Whole := by
  refine (takeLe32_keeps hV _ _).bind fun _ => (takeString_keeps hV _ _ _ _).bind fun _ => ?_
  refine (takeLe32_keeps hV _ _).bind fun _ => (parseEntries_keeps hV _ _ _ _).bind fun _ => ?_
  exact (endAt_keeps _ _ _).bind fun _ => .pure fun _ h => h

theorem parsePicture_keeps (hV : HidesBr V) (type length fin : Nat) (last : Bool) :
    Keeps V P (parsePicture type length fin last) Whole := by
  refine (takeBe32_keeps hV _ _).bind fun _ => .ite (fun _ => ?_) fun _ => malformed_keeps _ _
  refine (takeBe32_keeps hV _ _).bind fun _ => (takeString_keeps hV _ _ _ _).bind fun _ => ?_
  refine (takeBe32_keeps hV _ _).bind fun _ => (takeString_keeps hV _ _ _ _).bind fun _ => ?_
  refine (takeBe32_keeps hV _ _).bind fun _ => (takeBe32_keeps hV _ _).bind fun _ => ?_
  refine (takeBe32_keeps hV _ _).bind fun _ => (takeBe32_keeps hV _ _).bind fun _ => ?_
  refine (takeBe32_keeps hV _ _).bind fun _ => (take_keeps hV _ _ _).bind fun _ => ?_
  exact (endAt_keeps _ _ _).bind fun _ => .pure fun _ h => h

theorem parseApplication_keeps (hV : HidesBr V) (type length : Nat) (last : Bool) :
    Keeps V P (parseApplication type length last) Whole := by
  refine .ite (fun _ => ?_) fun _ => malformed_keeps _ _
  refine (readBytes_keeps hV 4).bind fun _ => (readBytes_keeps hV _).bind fun _ => .pure fun _ h => h.2

theorem parseUnknown_keeps (hV : HidesBr V) (length : Nat) (last : Bool) :
    Keeps V P (parseUnknown length last) Whole :=
  (readBytes_keeps hV _).bind fun _ => .pure fun _ h => h.2

theorem parseStreaminfo_keeps (hV : HidesBr V) (hSi : ∀ s v, V (s.setSi v) = V s) (type length : Nat)
    (last : Bool) :
    Keeps V P (parseStreaminfo type length last) (fun _ t => t.bp % 8 = 0 ∧ t.si.valid = true) := by
  refine .ite (fun _ => ?_) fun _ => malformed_keeps _ _
  refine (readUint_keeps hV _).bind fun _ => (readUint_keeps hV _).bind fun _ => ?_
  refine (readUint_keeps hV _).bind fun _ => (readUint_keeps hV _).bind fun _ => ?_
  refine (readUint_keeps hV _).bind fun _ => (readUint_keeps hV _).bind fun _ => ?_
  refine (readUint_keeps hV _).bind fun _ => (readUint_keeps hV _).bind fun _ => ?_
  refine (readBytes_keeps hV _).bind fun _ => ?_
  refine Keeps.bind (Q := fun _ t => t.bp % 8 = 0 ∧ t.si.valid = true)
    (.writes (fun _ => rfl) (fun _ => rfl) (fun _ => hSi _ _) fun s h => ⟨h.2, rfl⟩) fun _ => ?_
  exact .pure fun _ h => h

/-- The state without what metadata rules write (R328): reader, `SI.*`, `META`, `MD.index`, `PHASE`. -/
def State.metaPart (s : State) : State :=
  ((((s.setBr ⟨0, 0, 0⟩).setSi State.reset.si).setMetas []).setMdIndex 0).setPhase .idle

/-- The state without the reader and `SI.*`. -/
def State.siPart (s : State) : State := (s.setBr ⟨0, 0, 0⟩).setSi State.reset.si

/-- The state without the reader. -/
def State.brPart (s : State) : State := s.setBr ⟨0, 0, 0⟩

theorem siPart_eq {s t : State} (h : t.siPart = s.siPart) :
    t.metaPart = s.metaPart ∧ t.mdIndex = s.mdIndex ∧ t.metas = s.metas ∧ t.phase = s.phase :=
  ⟨congrArg (fun u => ((u.setMetas []).setMdIndex 0).setPhase .idle) h, by injection h, by injection h, by injection h⟩

theorem brPart_eq {s t : State} (h : t.brPart = s.brPart) :
    t.siPart = s.siPart ∧ t.si = s.si :=
  ⟨congrArg (fun u => u.setSi State.reset.si) h, by injection h⟩

/-- The body of a block, by kind, with what the tests before it have shown (R153). -/
theorem blockBody_keeps (kind : BlockKind) (type : Nat) (last : Bool) (length fin : Nat) {s : State}
    (h : s.ReaderOk) (hm : s.MdOk) (hk : s.mdIndex = 0 → kind = .streaminfo) :
    (∃ a t, blockBody kind type length fin last s = .ok a t ∧ t.ReaderOk ∧ s.bp ≤ t.bp ∧ s.br.pos ≤ t.br.pos ∧ t.siPart = s.siPart ∧
      t.bp % 8 = 0 ∧ t.si.valid = true) ∨
    (∃ d t, blockBody kind type length fin last s = .error (.raise d) t ∧ s.br.pos ≤ t.br.pos ∧
      t.siPart = s.siPart) := by
  have other : kind ≠ .streaminfo → ∀ m : M Record, Keeps State.brPart Any m Whole →
      (∃ a t, m s = .ok a t ∧ t.ReaderOk ∧ s.bp ≤ t.bp ∧ s.br.pos ≤ t.br.pos ∧ t.siPart = s.siPart ∧
        t.bp % 8 = 0 ∧ t.si.valid = true) ∨
      (∃ d t, m s = .error (.raise d) t ∧ s.br.pos ≤ t.br.pos ∧ t.siPart = s.siPart) := by
    intro hne m hkeep
    have hpos : 0 < s.mdIndex := by
      by_contra hc
      exact hne (hk (by omega))
    rcases hkeep s h trivial with ⟨a, t, e, ht, hb, hp, hv, hw⟩ | ⟨d, t, e, hp, hv⟩
    · obtain ⟨h1, h2⟩ := brPart_eq hv
      exact .inl ⟨a, t, e, ht, hb, hp, h1, hw, by rw [h2]; exact hm.2 hpos⟩
    · exact .inr ⟨d, t, e, hp, (brPart_eq hv).1⟩
  have hV : HidesBr State.brPart := fun _ _ => rfl
  cases kind with
  | streaminfo =>
    rcases parseStreaminfo_keeps (V := State.siPart) (P := Any) (fun _ _ => rfl) (fun _ _ => rfl) type length last
      s h trivial with ⟨a, t, e, ht, hb, hp, hv, hw⟩ | ⟨d, t, e, hp, hv⟩
    · exact .inl ⟨a, t, e, ht, hb, hp, hv, hw⟩
    · exact .inr ⟨d, t, e, hp, hv⟩
  | vorbisComment => exact other (by simp) _ (parseVorbisComment_keeps hV type length fin last)
  | picture => exact other (by simp) _ (parsePicture_keeps hV type length fin last)
  | application => exact other (by simp) _ (parseApplication_keeps hV type length last)
  | unknown => exact other (by simp) _ (parseUnknown_keeps hV length last)

/-- A block after its header word (R151): it ends on a byte boundary with `SI.*` valid, the record
appended, and `Frames` entered exactly by the last block. -/
theorem blockElement_keeps (kind : BlockKind) (type : Nat) (last : Bool) (length : Nat) :
    Keeps State.metaPart State.MdOk (blockElement kind type last length)
      (fun _ t => t.MdOk ∧ t.si.valid = true ∧ t.bp % 8 = 0 ∧ (last = true → t.phase = .frames)) := by
  intro s h hm
  by_cases ht1 : s.mdIndex = 0 ∧ kind ≠ .streaminfo
  · have e : firstBlockTest kind type s = .error (.raise (.malformedBlock s.mdIndex type .firstNotStreaminfo)) s := by
      simp only [firstBlockTest, reads_bind_run]; rw [if_pos ht1]; rfl
    exact .inr ⟨_, s, bind_error e, le_rfl, rfl⟩
  by_cases ht2 : 0 < s.mdIndex ∧ kind = .streaminfo
  · have e : firstBlockTest kind type s = .error (.raise (.malformedBlock s.mdIndex type .streaminfoRepeated)) s := by
      simp only [firstBlockTest, reads_bind_run]; rw [if_neg ht1, if_pos ht2]; rfl
    exact .inr ⟨_, s, bind_error e, le_rfl, rfl⟩
  have e : firstBlockTest kind type s = .ok () s := by
    simp only [firstBlockTest, reads_bind_run]; rw [if_neg ht1, if_neg ht2]; rfl
  have hk : s.mdIndex = 0 → kind = .streaminfo := fun h0 => by
    by_contra hc; exact ht1 ⟨h0, hc⟩
  have hbody := blockBody_keeps kind type last length (s.br.pos + length) h hm hk
  simp only [blockElement]
  rw [bind_ok e]
  simp only [reads_bind_run]
  rcases hbody with ⟨a, t, e2, ht, hb, hp, hv, hw, hval⟩ | ⟨d, t, e2, hp, hv⟩
  · left
    obtain ⟨v1, v2, v3, v4⟩ := siPart_eq hv
    rw [bind_ok e2, writes_bind_run]
    have hmd : (t.addRecord a).MdOk := by
      refine ⟨?_, fun _ => hval⟩
      simp [State.addRecord, v2, v3, hm.1]
    cases last with
    | false =>
      exact ⟨(), t.addRecord a, rfl, ht, hb, hp, v1, hmd, hval, hw, by simp⟩
    | true =>
      exact ⟨(), (t.addRecord a).setPhase .frames, rfl, ht, hb, hp, v1, hmd, hval, hw, fun _ => rfl⟩
  · right
    exact ⟨d, t, bind_error e2, hp, (siPart_eq hv).1⟩

/-- One pass of PARSE_METADATA reads a header and then is the element of the block it announces (R151). -/
theorem parseBlock_header {s : State} (h : s.ReaderOk) :
    (∃ kind type last length t, parseBlock s = (blockElement kind type last length >>= fun _ => pure last) t ∧
      t.ReaderOk ∧ s.bp ≤ t.bp ∧ s.br.pos ≤ t.br.pos ∧ t.brPart = s.brPart) ∨
    (∃ d t, parseBlock s = .error (.raise d) t ∧ s.br.pos ≤ t.br.pos ∧ t.brPart = s.brPart) := by
  have hdr : Keeps State.brPart Any (do
      let last ← readUint 1
      let type ← readUint 7
      let length ← readUint 24
      let cfg ← reads (·.cfg)
      pure (last, type, length, cfg)) Any2 :=
    (readUint_keeps (fun _ _ => rfl) _).bind fun _ => (readUint_keeps (fun _ _ => rfl) _).bind fun _ =>
      (readUint_keeps (fun _ _ => rfl) _).bind fun _ => (reads_any _).bind fun _ => .pure fun _ _ => trivial
  have e : parseBlock = (do
      let last ← readUint 1
      let type ← readUint 7
      let length ← readUint 24
      let cfg ← reads (·.cfg)
      pure (last, type, length, cfg)) >>= fun x =>
        (blockElement (blockKind x.2.2.2 (BitVec.ofNat 7 x.2.1)) x.2.1 (x.1 == 1) x.2.2.1 >>=
          fun _ => pure (x.1 == 1)) := by
    simp only [parseBlock, bind_assoc, pure_bind]
  rw [e]
  rcases hdr s h trivial with ⟨x, t, e2, ht, hb, hp, hv, _⟩ | ⟨d, t, e2, hp, hv⟩
  · rw [bind_ok e2]
    exact .inl ⟨_, _, _, _, t, rfl, ht, hb, hp, hv⟩
  · exact .inr ⟨d, t, bind_error e2, hp, hv⟩

theorem parseBlock_keeps :
    Keeps State.metaPart State.MdOk parseBlock
      (fun l t => t.MdOk ∧ t.si.valid = true ∧ t.bp % 8 = 0 ∧ (l = true → t.phase = .frames)) := by
  intro s h hm
  rcases parseBlock_header h with ⟨kind, type, last, length, t, e, ht, hb, hp, hv⟩ | ⟨d, t, e, hp, hv⟩
  · obtain ⟨w1, w2⟩ := brPart_eq hv
    obtain ⟨v1, v2, v3, v4⟩ := siPart_eq w1
    have hm' : t.MdOk := ⟨by rw [v2, v3]; exact hm.1, by rw [v2, w2]; exact hm.2⟩
    rw [e]
    rcases ((blockElement_keeps kind type last length).bind
      fun _ => Keeps.pure (a := last) (Q := fun l t => t.MdOk ∧ t.si.valid = true ∧ t.bp % 8 = 0 ∧
        (l = true → t.phase = .frames)) fun _ h => h) t ht hm' with
      ⟨a, u, e3, hu, hb2, hp2, hv2, hq⟩ | ⟨d, u, e3, hp2, hv2⟩
    · exact .inl ⟨a, u, e3, hu, hb.trans hb2, hp.trans hp2, hv2.trans v1, hq⟩
    · exact .inr ⟨d, u, e3, hp.trans hp2, hv2.trans v1⟩
  · exact .inr ⟨d, t, e, hp, (siPart_eq (brPart_eq hv).1).1⟩

/-- A block that completes leaves `PHASE` or enters `Frames` (R162). -/
theorem blockElement_phase {kind : BlockKind} {type : Nat} {last : Bool} {length : Nat} {s t : State}
    (h : s.ReaderOk) (hm : s.MdOk)
    (e : blockElement kind type last length s = .ok () t) : t.phase = s.phase ∨ t.phase = .frames := by
  by_cases h1 : s.mdIndex = 0 ∧ kind ≠ .streaminfo
  · have : firstBlockTest kind type s = .error (.raise (.malformedBlock s.mdIndex type .firstNotStreaminfo)) s := by
      simp only [firstBlockTest, reads_bind_run]; rw [if_pos h1]; rfl
    simp only [blockElement] at e; rw [bind_error this] at e; cases e
  by_cases h2 : 0 < s.mdIndex ∧ kind = .streaminfo
  · have : firstBlockTest kind type s = .error (.raise (.malformedBlock s.mdIndex type .streaminfoRepeated)) s := by
      simp only [firstBlockTest, reads_bind_run]; rw [if_neg h1, if_pos h2]; rfl
    simp only [blockElement] at e; rw [bind_error this] at e; cases e
  have hk : s.mdIndex = 0 → kind = .streaminfo := fun h0 => by
    by_contra hc; exact h1 ⟨h0, hc⟩
  simp only [blockElement] at e
  have h0 : firstBlockTest kind type s = .ok () s := by
    simp only [firstBlockTest, reads_bind_run]; rw [if_neg h1, if_neg h2]; rfl
  rw [bind_ok h0] at e
  simp only [reads_bind_run] at e
  rcases blockBody_keeps kind type last length (s.br.pos + length) h hm hk with
    ⟨a, u, e2, ht, hb, hp, hv, hw, hval⟩ | ⟨d, u, e2, hp, hv⟩
  · rw [bind_ok e2, writes_bind_run] at e
    have : u.phase = s.phase := by injection hv
    cases last
    · cases e; exact .inl this
    · cases e; exact .inr rfl
  · rw [bind_error e2] at e; cases e

theorem parseBlock_phase {l : Bool} {s t : State} (h : s.ReaderOk) (hm : s.MdOk)
    (e : parseBlock s = .ok l t) : t.phase = s.phase ∨ t.phase = .frames := by
  rcases parseBlock_header h with ⟨kind, type, last, length, u, e2, hu, hb, hp, hv⟩ | ⟨d, u, e2, hp, hv⟩
  · obtain ⟨w1, w2⟩ := brPart_eq hv
    obtain ⟨v1, v2, v3, v4⟩ := siPart_eq w1
    have hm' : u.MdOk := ⟨by rw [v2, v3]; exact hm.1, by rw [v2, w2]; exact hm.2⟩
    rw [e2, bind_run] at e
    cases hb : blockElement kind type last length u with
    | error y v => rw [hb] at e; cases e
    | ok y v =>
      rw [hb] at e; cases e
      rw [← v4]
      exact blockElement_phase hu hm' hb
  · rw [e2] at e; cases e

theorem parseMetadata_keeps (fuel : Nat) :
    Keeps State.metaPart State.MdOk (parseMetadata fuel)
      (fun _ t => t.MdOk ∧ t.si.valid = true ∧ t.bp % 8 = 0 ∧ t.phase = .frames) := by
  induction fuel with
  | zero => exact (reads_any _).bind fun _ => .raise
  | succ fuel ih =>
    refine parseBlock_keeps.bind fun l => ?_
    refine .ite (fun hl => .pure fun _ h => ⟨h.1, h.2.1, h.2.2.1, h.2.2.2 hl⟩) fun _ => ?_
    exact ih.conseq (fun _ h => h.1) fun _ _ h => h

theorem checkMagic_keeps (hV : HidesBr V) : Keeps V P checkMagic Whole := by
  refine (readBytes_keeps hV 4).bind fun m => .ite (fun _ => .pure fun _ h => h.2) fun _ => .raise

/-- READ_BYTES leaves the reader in its invariant whatever it was before (R133). -/
theorem readBytes_any {s : State} (hw : s.src.wf = true) (n : Nat) :
    (∃ a t, readBytes n s = .ok a t ∧ t.ReaderOk ∧ s.bp ≤ t.bp ∧ s.br.pos ≤ t.br.pos ∧
      t.brPart = s.brPart) ∨
    (∃ d t, readBytes n s = .error (.raise d) t ∧ t.brPart = s.brPart) := by
  unfold readBytes
  simp only [align, writes_bind_run, reads_bind_run]
  have e1 : s.dropBits.srcLen = s.srcLen := rfl
  have hp : s.dropBits.br.pos = s.br.pos := rfl
  rw [hp, e1]
  by_cases hn : s.br.pos + n ≤ s.srcLen
  · rw [if_pos hn]
    simp only [writes_bind_run, reads_run]
    refine .inl ⟨_, _, rfl, ⟨hw, ?_, ?_⟩, ?_, by simp, rfl⟩
    · have : (s.dropBits.setBr ⟨s.br.pos + n, 0, 0⟩).bp = 8 * (s.br.pos + n) := by simp [State.bp]
      rw [this, readerAt_aligned]; rfl
    · simp [State.bp, State.srcLen, State.dropBits] at hn ⊢; omega
    · simp [State.bp]; omega
  · rw [if_neg hn]
    exact .inr ⟨_, _, rfl, rfl⟩

theorem checkMagic_any {s : State} (hw : s.src.wf = true) :
    (∃ t, checkMagic s = .ok () t ∧ t.ReaderOk ∧ s.bp ≤ t.bp ∧ s.br.pos ≤ t.br.pos ∧
      t.brPart = s.brPart) ∨
    (∃ d t, checkMagic s = .error (.raise d) t ∧ t.brPart = s.brPart) := by
  rcases readBytes_any hw 4 with ⟨a, t, e, ht, hb, hp, hv⟩ | ⟨d, t, e, hv⟩
  · rw [checkMagic, bind_ok e]
    by_cases hm : a = [0x66#8, 0x4C#8, 0x61#8, 0x43#8]
    · rw [if_pos hm]; exact .inl ⟨t, rfl, ht, hb, hp, hv⟩
    · rw [if_neg hm]; exact .inr ⟨_, t, rfl, hv⟩
  · rw [checkMagic, bind_error e]; exact .inr ⟨d, t, rfl, hv⟩

/-- OPEN(SRC) after its phase test, from any reader (R287). -/
theorem openStream_keeps (src : List Byte) {s : State} (hm : s.MdOk) :
    (∃ t, openStream src s = .ok () t ∧ t.ReaderOk ∧ t.MdOk ∧ t.si.valid = true ∧ t.bp % 8 = 0 ∧
      t.phase = .frames ∧ t.src = Memory.ofBytes src ∧ s.bp ≤ t.bp ∧ s.br.pos ≤ t.br.pos ∧
      t.metaPart = (s.setSrc (Memory.ofBytes src)).metaPart) ∨
    (∃ d t, openStream src s = .error (.raise d) t ∧ t.src = Memory.ofBytes src ∧
      t.metaPart = (s.setSrc (Memory.ofBytes src)).metaPart) := by
  set u := (s.setSrc (Memory.ofBytes src)).setPhase .metadata with hu
  have hmu : u.MdOk := hm
  have huv : u.metaPart = (s.setSrc (Memory.ofBytes src)).metaPart := rfl
  have e : openStream src s = (checkMagic >>= fun _ => reads (·.srcLen) >>= fun n => parseMetadata (n + 1)) u := rfl
  have srcOf : ∀ t : State, t.metaPart = u.metaPart → t.src = Memory.ofBytes src := fun t ht => by
    have h2 : t.metaPart.src = u.metaPart.src := by rw [ht]
    exact h2
  rw [e]
  rcases checkMagic_any (s := u) (by simp [hu]) with ⟨t, e1, ht, hb1, hp1, hvv⟩ | ⟨d, t, e1, hvv⟩
  · obtain ⟨w1, w2⟩ := brPart_eq hvv
    obtain ⟨v1, v2, v3, v4⟩ := siPart_eq w1
    have hm' : t.MdOk := ⟨by rw [v2, v3]; exact hmu.1, by rw [v2, w2]; exact hmu.2⟩
    rw [bind_ok e1, reads_bind_run]
    rcases parseMetadata_keeps (t.srcLen + 1) t ht hm' with
      ⟨a, x, e3, hx, hb2, hp2, hv2, q1, q2, q3, q4⟩ | ⟨d, x, e3, hp2, hv2⟩
    · exact .inl ⟨x, e3, hx, q1, q2, q3, q4, srcOf x (hv2.trans v1), le_trans (by simpa [hu, State.bp] using hb1) hb2,
        le_trans (by simpa [hu] using hp1) hp2, (hv2.trans v1).trans huv⟩
    · exact .inr ⟨d, x, e3, srcOf x (hv2.trans v1), (hv2.trans v1).trans huv⟩
  · have v1 := (siPart_eq (brPart_eq hvv).1).1
    exact .inr ⟨d, t, bind_error e1, srcOf t v1, v1.trans huv⟩

/-- The state without what PULL writes before its result (R328): reader, `F.*`, `S.*`, `RS.*`, `CH`,
`OUT`. -/
def State.framePart (s : State) : State :=
  (((((s.setBr ⟨0, 0, 0⟩).setF State.reset.f).setSub State.reset.sub).setRs State.reset.rs).setCh []).setOut .none

/-- PULL in `Frames` with `SI.bps` readable: a frame on a byte boundary, the end, or a fault (R289). -/
theorem pullFrame_keeps {s : State} (h : s.ReaderOk) (hp : s.phase = .frames) (hv : s.si.valid = true) :
    (∃ t, pullFrame s = .ok .frame t ∧ t.ReaderOk ∧ t.bp % 8 = 0 ∧ s.br.pos ≤ t.br.pos ∧
      t.framePart = s.framePart) ∨
    (s.atEnd = true ∧ pullFrame s = .ok .endOfStream ((s.setPhase .endOfStream).setOut .endOfStream)) ∨
    (∃ d t, pullFrame s = .error (.raise d) t ∧ s.br.pos ≤ t.br.pos ∧ t.framePart = s.framePart) := by
  by_cases he : s.atEnd = true
  · right; left
    refine ⟨he, ?_⟩
    have he' : (s.setOut .none).atEnd = true := by simpa [State.atEnd, State.aligned, State.srcLen] using he
    simp only [pullFrame, reads_bind_run, hp, writes_bind_run, decodeFrame, bind_assoc, he', if_true,
      pure_bind, Bool.false_eq_true, if_false]
    rfl
  · have he' : (s.setOut .none).atEnd = false := by
      have : s.atEnd = false := by simpa using he
      simpa [State.atEnd, State.aligned, State.srcLen] using this
    have hk := decodeFrameBody_keeps (V := State.framePart) (fun _ _ => rfl) (fun _ _ => rfl) (fun _ _ => rfl)
      (fun _ _ => rfl) (fun _ _ => rfl) (fun _ _ => rfl) (fun _ _ h => by injection h) (s.setOut .none)
      (by simpa using h) (by simpa using hv)
    have e : pullFrame s = (decodeFrameBody >>= fun _ => pure Ret.frame) (s.setOut .none) := by
      simp only [pullFrame, reads_bind_run, hp, writes_bind_run, decodeFrame, bind_assoc, he', pure_bind,
        Bool.false_eq_true, if_false, if_true]
    rw [e]
    rcases hk with ⟨a, t, e2, ht, _, hpos, hv2, hw⟩ | ⟨d, t, e2, hpos, hv2⟩
    · exact .inl ⟨t, by rw [bind_ok e2]; rfl, ht, hw, hpos, hv2⟩
    · exact .inr (.inr ⟨d, t, bind_error e2, hpos, hv2⟩)

end Sys2Proof.Machine
end

