-- ==== Sys2Proof/Laws/Rows.lean ====
section
/-! SUPPORT. Everything a row that is no command can answer, one lemma for each row and one for all. -/

namespace Sys2Proof.Machine

open Sys2Proof

/-- What a row answers from `s`: a next state with the reader in its invariant (after a fault, `Refused`
and nothing else), or a fault entry; the cursor has not moved back and nothing but what its unit may
write has changed. -/
def RowKeeps (o : Owner) (s : State) (r : Host.Outcome State Fault Refusal) : Prop :=
  (∃ t v, r = .next (t.setRet v) ∧ t.ReaderOk ∧ s.bp ≤ t.bp ∧ s.br.pos ≤ t.br.pos ∧ o.blank t = o.blank s) ∨
  (∃ d t, r = .next (t.takeFault d) ∧ s.br.pos ≤ t.br.pos ∧ o.blank t = o.blank s)

theorem rowKeeps_halted {o : Owner} {m : M Ret} {s : State} (hh : s.halted = true) (h : s.ReaderOk) :
    RowKeeps o s (run m s) := .inl ⟨s, _, run_halted hh, h, le_rfl, le_rfl, rfl⟩

theorem rowKeeps_run {o : Owner} {m : M Ret} {P : State → Prop} {Q : Ret → State → Prop}
    (hm : Keeps o.blank P m Q) {s : State} (h : s.ReaderOk) (hp : P s) : RowKeeps o s (run m s) := by
  cases hh : s.halted with
  | true => exact rowKeeps_halted hh h
  | false =>
  rcases run_keeps hm hh h hp with ⟨r, t, e, ht, hb, hpos, hv, _⟩ | ⟨d, t, e, hpos, hv⟩
  · exact .inl ⟨t, r, e, ht, hb, hpos, hv⟩
  · exact .inr ⟨d, t, e, hpos, hv⟩

theorem rowKeeps_unit {o : Owner} {m : M Unit} {P : State → Prop} {Q : Unit → State → Prop}
    (hm : Keeps o.blank P m Q) {s : State} (h : s.ReaderOk) (hp : P s) : RowKeeps o s (runUnit m s) := by
  cases hh : s.halted with
  | true => exact rowKeeps_halted hh h
  | false =>
  rcases runUnit_keeps hm hh h hp with ⟨t, e, ht, hb, hpos, hv, _⟩ | ⟨d, t, e, hpos, hv⟩
  · exact .inl ⟨t, _, e, ht, hb, hpos, hv⟩
  · exact .inr ⟨d, t, e, hpos, hv⟩

theorem hidesBr_blank (o : Owner) : HidesBr o.blank := fun _ _ => by cases o <;> rfl

theorem rows_header {m : M Unit} (hm : Keeps Owner.header.blank Any m Any2) {s : State}
    (h : s.ReaderOk) : RowKeeps .header s (runUnit m s) := rowKeeps_unit hm h trivial

theorem rows_channels {body : Nat → Nat → M Unit}
    (hm : ∀ n b, Keeps Owner.channels.blank Any (body n b) Any2) {s : State}
    (h : s.ReaderOk) (hv : s.si.valid = true) : RowKeeps .channels s (runUnit (withFrame body) s) :=
  rowKeeps_unit (withFrame_keeps hm) h ⟨hv, trivial⟩

theorem rows_subframe {t : BitVec 6} {o : Nat} {body : Nat → M (List Int)}
    (hm : ∀ (R : State → Prop) e, e ≠ 0 → Keeps Owner.subframe.blank R (body e) Any2) {s : State}
    (h : s.ReaderOk) : RowKeeps .subframe s (runUnit (subframeElement t o body) s) :=
  rowKeeps_unit (P := Any) (subframeElement_keeps (hidesBr_blank _) (fun _ _ => rfl) t o hm) h trivial

theorem rows_metadata (kind : BlockKind) (type : Nat) (last : Bool) (length : Nat) {s : State}
    (h : s.ReaderOk) (hm : s.MdOk) :
    RowKeeps .metadata s (runUnit (blockElement kind type last length) s) := by
  cases hh : s.halted with
  | true => exact rowKeeps_halted hh h
  | false =>
  rcases runUnit_keeps (blockElement_keeps kind type last length) hh h hm with
    ⟨t, e, ht, hb, hpos, hv, _⟩ | ⟨d, t, e, hpos, hv⟩
  · exact .inl ⟨t, _, e, ht, hb, hpos, congrArg (State.setRet · .none) hv⟩
  · exact .inr ⟨d, t, e, hpos, congrArg (State.setRet · .none) hv⟩

/-- After a fault every command and element but RESET is refused, and nothing else changes (R291, R323,
R348). -/
theorem exec_halted {i : Instr} {s : State} (hh : s.halted = true) (hi : i ≠ .resetCmd) :
    exec i s = .next (s.setRet .refused) := by
  cases i with
  | resetCmd => exact absurd rfl hi
  | predict n o warm coef shift res => unfold exec execPredict; exact run_halted hh
  | atEnd => unfold exec execAtEnd; exact run_halted hh
  | _ =>
    first
    | exact runUnit_halted hh
    | exact run_halted hh
    | simp only [exec, runUnit_halted hh,
      execFhBlocksize0, execFhBlocksize1, execFhBlocksize2, execFhBlocksize3,
      execFhBlocksize4, execFhBlocksize5, execFhBlocksize8, execFhBlocksize9,
      execFhBlocksize10, execFhBlocksize11, execFhBlocksize12, execFhBlocksize13,
      execFhBlocksize14, execFhBlocksize15, execCaInvalid11, execCaInvalid12,
      execCaInvalid13, execCaInvalid14, execCaInvalid15, execResRice4, execResRice5,
      execResParam, execAlign]

/-- Every row that is no command, from a state in the invariants with `SI.valid = 1` where a channel
row needs it: never a stop (READ_SINT(0) apart, 93 U25). -/
theorem exec_keeps {i : Instr} {s : State} (h : s.ReaderOk) (hm : s.MdOk) (hc : isCommand i = false)
    (hv : owner i = .channels → s.si.valid = true) (hs : i ≠ .readSint 0) :
    RowKeeps (owner i) s (exec i s) := by
  have hb := hidesBr_blank
  cases i with
  | magic => exact rowKeeps_unit (P := Any) (checkMagic_keeps (hb _)) h trivial
  | mbh =>
    cases hh : s.halted with
    | true => exact rowKeeps_halted hh h
    | false =>
    rcases runUnit_keeps (Keeps.bind parseBlock_keeps fun _ => Keeps.pure (Q := Any2) fun _ _ => trivial) hh h hm with
      ⟨t, e, ht, hb, hpos, hv, _⟩ | ⟨d, t, e, hpos, hv⟩
    · exact .inl ⟨t, _, e, ht, hb, hpos, congrArg (State.setRet · .none) hv⟩
    · exact .inr ⟨d, t, e, hpos, congrArg (State.setRet · .none) hv⟩
  | mbStreaminfo l n => exact rows_metadata _ _ l _ h hm
  | mbApplication l n => exact rows_metadata _ _ l _ h hm
  | mbVorbisComment l n => exact rows_metadata _ _ l _ h hm
  | mbPicture l n => exact rows_metadata _ _ l _ h hm
  | mbUnknownOdd l x n => exact rows_metadata _ _ l _ h hm
  | mbUnknown64 l x n => exact rows_metadata _ _ l _ h hm
  | mbUnknown32 l x n => exact rows_metadata _ _ l _ h hm
  | mbUnknown16 l x n => exact rows_metadata _ _ l _ h hm
  | mbUnknown8 l x n => exact rows_metadata _ _ l _ h hm
  | fhSync => exact rows_header (frameSync_keeps (hb _) fun _ _ => rfl) h
  | fhBlocksize0 => exact rows_header (blockSizeElement_keeps (hb _) (fun _ _ => rfl) 0) h
  | fhBlocksize1 => exact rows_header (blockSizeElement_keeps (hb _) (fun _ _ => rfl) 1) h
  | fhBlocksize2 => exact rows_header (blockSizeElement_keeps (hb _) (fun _ _ => rfl) 2) h
  | fhBlocksize3 => exact rows_header (blockSizeElement_keeps (hb _) (fun _ _ => rfl) 3) h
  | fhBlocksize4 => exact rows_header (blockSizeElement_keeps (hb _) (fun _ _ => rfl) 4) h
  | fhBlocksize5 => exact rows_header (blockSizeElement_keeps (hb _) (fun _ _ => rfl) 5) h
  | fhBlocksize6 => exact rows_header (blockSizeElement_keeps (hb _) (fun _ _ => rfl) 6) h
  | fhBlocksize7 => exact rows_header (blockSizeElement_keeps (hb _) (fun _ _ => rfl) 7) h
  | fhBlocksize8 => exact rows_header (blockSizeElement_keeps (hb _) (fun _ _ => rfl) 8) h
  | fhBlocksize9 => exact rows_header (blockSizeElement_keeps (hb _) (fun _ _ => rfl) 9) h
  | fhBlocksize10 => exact rows_header (blockSizeElement_keeps (hb _) (fun _ _ => rfl) 10) h
  | fhBlocksize11 => exact rows_header (blockSizeElement_keeps (hb _) (fun _ _ => rfl) 11) h
  | fhBlocksize12 => exact rows_header (blockSizeElement_keeps (hb _) (fun _ _ => rfl) 12) h
  | fhBlocksize13 => exact rows_header (blockSizeElement_keeps (hb _) (fun _ _ => rfl) 13) h
  | fhBlocksize14 => exact rows_header (blockSizeElement_keeps (hb _) (fun _ _ => rfl) 14) h
  | fhBlocksize15 => exact rows_header (blockSizeElement_keeps (hb _) (fun _ _ => rfl) 15) h
  | fhSamplerate0 => exact rows_header (skipSampleRate_keeps (hb _) _) h
  | fhSamplerate1 => exact rows_header (skipSampleRate_keeps (hb _) _) h
  | fhSamplerate2 => exact rows_header (skipSampleRate_keeps (hb _) _) h
  | fhSamplerate3 => exact rows_header (skipSampleRate_keeps (hb _) _) h
  | fhSamplerate4 => exact rows_header (skipSampleRate_keeps (hb _) _) h
  | fhSamplerate5 => exact rows_header (skipSampleRate_keeps (hb _) _) h
  | fhSamplerate6 => exact rows_header (skipSampleRate_keeps (hb _) _) h
  | fhSamplerate7 => exact rows_header (skipSampleRate_keeps (hb _) _) h
  | fhSamplerate8 => exact rows_header (skipSampleRate_keeps (hb _) _) h
  | fhSamplerate9 => exact rows_header (skipSampleRate_keeps (hb _) _) h
  | fhSamplerate10 => exact rows_header (skipSampleRate_keeps (hb _) _) h
  | fhSamplerate11 => exact rows_header (skipSampleRate_keeps (hb _) _) h
  | fhSamplerate12 => exact rows_header (skipSampleRate_keeps (hb _) _) h
  | fhSamplerate13 => exact rows_header (skipSampleRate_keeps (hb _) _) h
  | fhSamplerate14 => exact rows_header (skipSampleRate_keeps (hb _) _) h
  | fhSamplerate15 => exact rows_header (skipSampleRate_keeps (hb _) _) h
  | caIndep0 => exact rows_channels (fun n b => caIndep_keeps (hb _) (fun _ _ => rfl) (fun _ _ => rfl) (fun _ _ => rfl) (fun _ _ => rfl) _ n b) h (hv rfl)
  | caIndep1 => exact rows_channels (fun n b => caIndep_keeps (hb _) (fun _ _ => rfl) (fun _ _ => rfl) (fun _ _ => rfl) (fun _ _ => rfl) _ n b) h (hv rfl)
  | caIndep2 => exact rows_channels (fun n b => caIndep_keeps (hb _) (fun _ _ => rfl) (fun _ _ => rfl) (fun _ _ => rfl) (fun _ _ => rfl) _ n b) h (hv rfl)
  | caIndep3 => exact rows_channels (fun n b => caIndep_keeps (hb _) (fun _ _ => rfl) (fun _ _ => rfl) (fun _ _ => rfl) (fun _ _ => rfl) _ n b) h (hv rfl)
  | caIndep4 => exact rows_channels (fun n b => caIndep_keeps (hb _) (fun _ _ => rfl) (fun _ _ => rfl) (fun _ _ => rfl) (fun _ _ => rfl) _ n b) h (hv rfl)
  | caIndep5 => exact rows_channels (fun n b => caIndep_keeps (hb _) (fun _ _ => rfl) (fun _ _ => rfl) (fun _ _ => rfl) (fun _ _ => rfl) _ n b) h (hv rfl)
  | caIndep6 => exact rows_channels (fun n b => caIndep_keeps (hb _) (fun _ _ => rfl) (fun _ _ => rfl) (fun _ _ => rfl) (fun _ _ => rfl) _ n b) h (hv rfl)
  | caIndep7 => exact rows_channels (fun n b => caIndep_keeps (hb _) (fun _ _ => rfl) (fun _ _ => rfl) (fun _ _ => rfl) (fun _ _ => rfl) _ n b) h (hv rfl)
  | caLeftSide => exact rows_channels (fun n b => caLeftSide_keeps (hb _) (fun _ _ => rfl) (fun _ _ => rfl) (fun _ _ => rfl) (fun _ _ => rfl) n b) h (hv rfl)
  | caRightSide => exact rows_channels (fun n b => caRightSide_keeps (hb _) (fun _ _ => rfl) (fun _ _ => rfl) (fun _ _ => rfl) (fun _ _ => rfl) n b) h (hv rfl)
  | caMidSide => exact rows_channels (fun n b => caMidSide_keeps (hb _) (fun _ _ => rfl) (fun _ _ => rfl) (fun _ _ => rfl) (fun _ _ => rfl) n b) h (hv rfl)
  | caInvalid11 => exact rowKeeps_unit (P := Any) (Q := Any2) .raise h trivial
  | caInvalid12 => exact rowKeeps_unit (P := Any) (Q := Any2) .raise h trivial
  | caInvalid13 => exact rowKeeps_unit (P := Any) (Q := Any2) .raise h trivial
  | caInvalid14 => exact rowKeeps_unit (P := Any) (Q := Any2) .raise h trivial
  | caInvalid15 => exact rowKeeps_unit (P := Any) (Q := Any2) .raise h trivial
  | fhNumber00 x => exact rows_header (numberLoop_keeps (hb _) _ _) h
  | fhNumber80 x => exact rows_header (numberLoop_keeps (hb _) _ _) h
  | fhNumberC0 x => exact rows_header (numberLoop_keeps (hb _) _ _) h
  | fhNumberE0 x => exact rows_header (numberLoop_keeps (hb _) _ _) h
  | fhNumberF0 x => exact rows_header (numberLoop_keeps (hb _) _ _) h
  | fhNumberF8 x => exact rows_header (numberLoop_keeps (hb _) _ _) h
  | fhNumberFC x => exact rows_header (numberLoop_keeps (hb _) _ _) h
  | fhNumberFE => exact rows_header (numberLoop_keeps (hb _) _ _) h
  | fhNumberFF => exact rows_header (numberLoop_keeps (hb _) _ _) h
  | fhCrc8 => exact rows_header (headerChecksum_keeps (hb _)) h
  | fhFooter => exact rowKeeps_unit (P := Any) (frameFooter_keeps (hb _)) h trivial
  | sfConstant => exact rows_subframe (fun _ _ he => sfConstant_keeps (hb _) _ he) h
  | sfVerbatim => exact rows_subframe (fun _ _ he => sfVerbatim_keeps (hb _) _ he) h
  | sfFixed0 => exact rows_subframe (fun _ _ he => sfFixed_keeps (hb _) (fun _ _ => rfl) _ _ he) h
  | sfFixed1 => exact rows_subframe (fun _ _ he => sfFixed_keeps (hb _) (fun _ _ => rfl) _ _ he) h
  | sfFixed2 => exact rows_subframe (fun _ _ he => sfFixed_keeps (hb _) (fun _ _ => rfl) _ _ he) h
  | sfFixed3 => exact rows_subframe (fun _ _ he => sfFixed_keeps (hb _) (fun _ _ => rfl) _ _ he) h
  | sfFixed4 => exact rows_subframe (fun _ _ he => sfFixed_keeps (hb _) (fun _ _ => rfl) _ _ he) h
  | sfLpc x => exact rows_subframe (fun _ _ he => sfLpc_keeps (hb _) (fun _ _ => rfl) (fun _ _ => rfl) _ _ he) h
  | sfUnsupported2 x => exact rows_subframe (fun _ _ _ => .raise) h
  | sfUnsupported4 x => exact rows_subframe (fun _ _ _ => .raise) h
  | sfUnsupported13 => exact rows_subframe (fun _ _ _ => .raise) h
  | sfUnsupported14 x => exact rows_subframe (fun _ _ _ => .raise) h
  | sfUnsupported16 x => exact rows_subframe (fun _ _ _ => .raise) h
  | readWasted =>
    refine rowKeeps_run (P := Any) (Q := Any2) ((readWasted_keeps (hb _)).bind fun w => ?_) h trivial
    exact Keeps.bind (Q := Any2) (setSub_keeps (fun _ _ => rfl)
      (g := fun r => ⟨r.d, r.type, w, r.e, r.order, r.prec, r.shift, r.coef, r.buf⟩) fun _ _ => trivial)
      fun _ => .pure fun _ _ => trivial
  | predict n o warm coef shift res =>
    show RowKeeps .subframe s (execPredict n o warm coef shift res s)
    unfold execPredict
    refine rowKeeps_run (P := Any) (Q := Any2) ?_ h trivial
    exact Keeps.bind (Q := Any2) (setSub_keeps (fun _ _ => rfl)
      (g := fun r => ⟨r.d, r.type, r.w, r.e, r.order, r.prec, r.shift, r.coef,
        reconstruct (warm.take o) (coef.take o) shift (res.take (n - o))⟩) fun _ _ => trivial)
      fun _ => .pure fun _ _ => trivial
  | resRice4 => exact rowKeeps_unit (o := .residual) (P := Any) (methodElement_keeps (fun _ _ => rfl) 0) h trivial
  | resRice5 => exact rowKeeps_unit (o := .residual) (P := Any) (methodElement_keeps (fun _ _ => rfl) 1) h trivial
  | resInvalidMethod x => exact rowKeeps_unit (P := Any) (methodElement_keeps (fun _ _ => rfl) _) h trivial
  | resPorder =>
    exact rowKeeps_unit (P := Any) ((reads_any _).bind fun n => (reads_any _).bind fun o =>
      partitionOrder_keeps (hb _) (fun _ _ => rfl) n o) h trivial
  | resParam wide k => exact rowKeeps_unit (P := Any) (latchParam_keeps (fun _ _ => rfl) _) h trivial
  | resEscape4 => exact rowKeeps_unit (P := Any) (escapeParam_keeps (hb _) (fun _ _ => rfl)) h trivial
  | resEscape5 => exact rowKeeps_unit (P := Any) (escapeParam_keeps (hb _) (fun _ _ => rfl)) h trivial
  | resValues cnt => exact rowKeeps_unit (P := Any) (partitionValues_keeps (hb _) (fun _ _ => rfl) cnt) h trivial
  | rice =>
    exact rowKeeps_run (P := Any) (Q := Any2) ((reads_any _).bind fun k => (readRice_keeps (hb _) k).bind
      fun _ => .pure fun _ _ => trivial) h trivial
  | readUint n => exact rowKeeps_run (P := Any) (Q := Any2) ((readUint_keeps (hb _) n).bind fun _ => .pure fun _ _ => trivial) h trivial
  | readSint n =>
    have hn : n ≠ 0 := fun e => hs (by rw [e])
    exact rowKeeps_run (P := Any) (Q := Any2) ((readSint_keeps (hb _) hn).bind fun _ => .pure fun _ _ => trivial) h trivial
  | readBytes n => exact rowKeeps_run (P := Any) (Q := Any2) ((readBytes_keeps (hb _) n).bind fun _ => .pure fun _ _ => trivial) h trivial
  | readByteOrEos => exact rowKeeps_run (P := Any) (readByteOrEos_keeps (hb _)) h trivial
  | align => exact rowKeeps_unit (P := Any) (align_keeps (hb _)) h trivial
  | readRice k => exact rowKeeps_run (P := Any) (Q := Any2) ((readRice_keeps (hb _) k).bind fun _ => .pure fun _ _ => trivial) h trivial
  | atEnd => exact rowKeeps_run (P := Any) (Q := Any2) ((reads_any _).bind fun _ => .pure fun _ _ => trivial) h trivial
  | readLe32 =>
    exact rowKeeps_run (P := Any) (Q := Any2) (Keeps.bind (Q := Any2) (Keeps.bind (readBytes_keeps (hb _) 4) fun _ => .pure fun _ _ => trivial)
      fun _ => .pure fun _ _ => trivial) h trivial
  | readBe32 =>
    exact rowKeeps_run (P := Any) (Q := Any2) (Keeps.bind (Q := Any2) (Keeps.bind (readBytes_keeps (hb _) 4) fun _ => .pure fun _ _ => trivial)
      fun _ => .pure fun _ _ => trivial) h trivial
  | resetCmd => cases hc
  | openCmd src => cases hc
  | pullCmd => cases hc

end Sys2Proof.Machine
end

