-- ==== Sys2Proof/Laws/Residual.lean ====
section
/-! SUPPORT. The residual decoder on the bits of a residual (R265 to R272). -/

namespace Sys2Proof.Machine

open Sys2Proof

@[simp] theorem latchMethod_run (s : State) (m : BitVec 2) (pbits : Nat) :
    latchMethod m pbits s = .ok () (s.setRs { s.rs with method := m, pbits := pbits }) := rfl

@[simp] theorem latchParam_run (s : State) (k : Nat) :
    latchParam k s = .ok () (s.setRs { s.rs with k := k }) := rfl

@[simp] theorem setResiduals_run (s : State) (l : List Int) :
    setResiduals l s = .ok () (s.setRs { s.rs with res := l }) := rfl

theorem partitionParam_code {s : State} (h : s.ReaderOk) {wide : Bool} {q : Partition}
    (hq : q.ok wide = true) (hp : s.rs.pbits = fieldWidth wide) (ha : q.paramBits wide <+: s.ahead) :
    partitionParam s = .ok () ((s.skip (q.paramBits wide).length).setRs { s.rs with k := q.k }) := by
  unfold Partition.paramBits at *
  unfold Partition.ok at hq
  have hpos : 0 < 2 ^ fieldWidth wide := by positivity
  simp only [partitionParam, reads_bind_run, hp]
  by_cases he : q.escaped = true
  · rw [if_pos he] at *
    rw [ahead_append, natBits_length] at ha
    simp only [decide_eq_true_eq] at hq
    have h1 := readUint_field h (n := fieldWidth wide) (by omega) ha.1
    have h2 : (s.skip (fieldWidth wide)).ReaderOk := by simpa using h.after ha.1
    rw [bind_ok h1]
    have h3 := readUint_field h2 (n := 5) hq ha.2
    rw [bind_ok (latchParam_run _ _), if_pos rfl, escapeParam]
    rw [bind_ok (readUint_field (by simpa using h2) hq (by simpa using ha.2))]
    simp [hp]
  · rw [if_neg he] at *
    simp only [decide_eq_true_eq] at hq
    rw [bind_ok (readUint_field h (by omega) ha), bind_ok (latchParam_run _ _), if_neg (by omega)]
    simp [hp]

theorem partitionValues_codes {s : State} (h : s.ReaderOk) {xs : List Int}
    (ha : xs.flatMap (riceBits s.rs.k) <+: s.ahead) :
    partitionValues xs.length s = .ok () ((s.skip (xs.flatMap (riceBits s.rs.k)).length).setRs
      { s.rs with res := s.rs.res ++ xs }) := by
  simp only [partitionValues, reads_bind_run]
  rw [bind_ok (readRices_codes h ha)]
  simp

/-- One partition on its bits (R268 to R270). -/
theorem partition_code {s : State} (h : s.ReaderOk) {wide : Bool} {q : Partition} {n p o taken : Nat}
    (hq : q.ok wide = true) (hp : s.rs.pbits = fieldWidth wide) (ht : taken ≤ n / 2 ^ p)
    (hc : q.values.length = n / 2 ^ p - taken) (ha : q.bits wide <+: s.ahead) :
    partition n p o taken s = .ok () ((s.skip (q.bits wide).length).setRs
      { s.rs with k := q.k, res := s.rs.res ++ q.values }) := by
  unfold Partition.bits at *
  rw [ahead_append] at ha
  rw [partition, if_pos ht, bind_ok (partitionParam_code h hq hp ha.1), ← hc]
  rw [partitionValues_codes (by simpa using h.after ha.1) (by simpa using ha.2)]
  simp

theorem partitions_codes {wide : Bool} {n p o : Nat} (parts : List Partition) :
    ∀ {s : State} (_ : s.ReaderOk) (_ : parts.all (Partition.ok wide) = true)
    (_ : s.rs.pbits = fieldWidth wide)
    (_ : parts.map (fun q => q.values.length) = List.replicate parts.length (n / 2 ^ p))
    (_ : parts.flatMap (Partition.bits wide) <+: s.ahead),
    partitions n p o parts.length s = .ok () ((s.skip (parts.flatMap (Partition.bits wide)).length).setRs
      { s.rs with k := if parts.isEmpty then s.rs.k else lastParam parts,
                  res := s.rs.res ++ parts.flatMap (·.values) }) := by
  induction parts with
  | nil =>
    intro s h _ _ _ _
    simp [partitions, State.skip_zero h]
    rfl
  | cons q parts ih =>
    intro s h hok hp hc ha
    rw [List.flatMap_cons, ahead_append] at ha
    simp only [List.all_cons, Bool.and_eq_true] at hok
    simp only [List.map_cons, List.length_cons, List.replicate_succ, List.cons.injEq] at hc
    rw [List.length_cons, partitions,
      bind_ok (partition_code h hok.1 hp (Nat.zero_le _) (by simpa using hc.1) ha.1),
      ih (by simpa using h.after ha.1) hok.2 (by simpa using hp) hc.2 (by simpa using ha.2)]
    simp [lastParam]

theorem residualMethod_code {s : State} (h : s.ReaderOk) {wide : Bool}
    (ha : natBits 2 wide.toNat <+: s.ahead) :
    residualMethod s = .ok () ((s.skip 2).setRs
      { s.rs with method := BitVec.ofNat 2 wide.toNat, pbits := fieldWidth wide }) := by
  rw [residualMethod, bind_ok (readUint_field h (by cases wide <;> decide) ha)]
  cases wide <;> simp [methodElement, methodKind, fieldWidth]

theorem partitionOrder_code {s : State} (h : s.ReaderOk) {n p o : Nat} (hp : p < 16)
    (hn : n % 2 ^ p = 0) (ha : natBits 4 p <+: s.ahead) :
    partitionOrder n o s = .ok () ((s.skip 4).setRs { s.rs with p := BitVec.ofNat 4 p }) := by
  rw [partitionOrder, bind_ok (readUint_field h hp ha)]
  simp [hn]

/-- DECODE_RESIDUAL(N, o) on the bits of a residual (R265). -/
theorem decodeResidual_code {s : State} (h : s.ReaderOk) {n o : Nat} {r : Residual}
    (hr : r.ok n o = true) (ha : r.bits <+: s.ahead) :
    decodeResidual n o s = .ok r.values ((s.skip r.bits.length).setRs r.regs) := by
  obtain ⟨wide, p, parts⟩ := r
  simp only [Residual.ok, Bool.and_eq_true, decide_eq_true_eq, beq_iff_eq] at hr
  obtain ⟨⟨⟨⟨hp, hn⟩, ho⟩, hq⟩, hc⟩ := hr
  unfold Residual.bits at *
  simp only at *
  rw [ahead_append, ahead_append] at ha
  obtain ⟨⟨h1, h2⟩, h3⟩ := ha
  simp only [natBits_length, List.length_append] at h2 h3
  have ok1 : (s.skip 2).ReaderOk := by simpa using h.after h1
  have ok2 : ((s.skip 2).skip 4).ReaderOk := by simpa using ok1.after h2
  rw [State.skip_skip] at ok2
  rw [decodeResidual, bind_ok (residualMethod_code h h1),
    bind_ok (partitionOrder_code (by simpa using ok1) hp hn (by simpa using h2))]
  have hpn : (BitVec.ofNat 4 p).toNat = p := by simp; omega
  simp only [State.setRs_skip, State.skip_skip, State.setRs_rs, reads_bind_run, hpn]
  cases parts with
  | nil => simp at hc
  | cons q parts =>
    simp only [List.map_cons, List.cons.injEq] at hc
    obtain ⟨hc1, hc2⟩ := hc
    have hl : parts.length = 2 ^ p - 1 := by
      have := congrArg List.length hc2; simpa using this
    simp only [List.all_cons, Bool.and_eq_true] at hq
    rw [List.flatMap_cons, ahead_append] at h3
    rw [bind_ok (setResiduals_run _ _)]
    rw [bind_ok (partition_code (by simpa using ok2) hq.1 (by simp) ho hc1 (by simpa using h3.1))]
    rw [← hl, bind_ok (partitions_codes parts (wide := wide)
      (by simpa using ok2.after h3.1) hq.2 (by simp) (by rw [hc2, hl]) (by simpa using h3.2))]
    simp [Residual.values, Residual.regs, lastParam]
    congr 2; omega

end Sys2Proof.Machine
end

