-- ==== Sys2Proof/Laws/Subframe.lean ====
section
/-! SUPPORT. The subframe decoder on the bits of a subframe (R235 to R252), and prediction over sample
indexes (R244). -/

namespace Sys2Proof.Machine

open Sys2Proof

/-! ### Register writes -/

@[simp] theorem setDepth_run (s : State) (d : Nat) :
    setDepth d s = .ok () (s.setSub { s.sub with d := d }) := rfl

@[simp] theorem setType_run (s : State) (t : BitVec 6) (o : Nat) :
    setType t o s = .ok () (s.setSub { s.sub with type := t, order := o }) := rfl

@[simp] theorem setWasted_run (s : State) (w : Nat) :
    setWasted w s = .ok () (s.setSub { s.sub with w := w }) := rfl

@[simp] theorem setEffective_run (s : State) (e : Int) :
    setEffective e s = .ok () (s.setSub { s.sub with e := e }) := rfl

@[simp] theorem setLpcParams_run (s : State) (p : Nat) (x : Int) :
    setLpcParams p x s = .ok () (s.setSub { s.sub with prec := p, shift := x }) := rfl

@[simp] theorem setCoef_run (s : State) (c : List Int) :
    setCoef c s = .ok () (s.setSub { s.sub with coef := c }) := rfl

@[simp] theorem setBuf_run (s : State) (b : List Int) :
    setBuf b s = .ok () (s.setSub { s.sub with buf := b }) := rfl

/-! ### Wasted bits -/

/-- READ_WASTED on a flag and run (R237, R104). -/
theorem readWasted_code {s : State} (h : s.ReaderOk) {w : Nat} (ha : wastedBits w <+: s.ahead) :
    readWasted s = .ok w (s.skip (w + 1)) := by
  unfold wastedBits at ha
  rw [readWasted]
  cases w with
  | zero =>
    rw [bind_ok (readUint_bit h ha)]
    simp
  | succ w =>
    rw [List.replicate_succ, List.cons_append, ← List.singleton_append, ahead_append] at ha
    rw [bind_ok (readUint_bit h ha.1)]
    have hs : (s.skip 1).ReaderOk := h.after ha.1
    have hrun : unaryRun 1 ((s.skip 1).bitsLeft + 1) (s.skip 1) = _ :=
      unaryRun_ok true w hs (by
        rw [bitsLeft_eq hs]
        have := ha.2.length_le; simp at this ⊢; omega) ha.2
    simp only [Bool.toNat_true, if_true, reads_bind_run]
    rw [bind_ok hrun]
    simp; congr 1; omega

/-- The effective depth (R238). -/
theorem effectiveDepth_code {s : State} (h : s.ReaderOk) {w : Nat} (hw : w < s.sub.d)
    (ha : wastedBits w <+: s.ahead) :
    effectiveDepth s = .ok (s.sub.d - w) ((s.skip (wastedBits w).length).setSub
      { s.sub with w := w, e := (s.sub.d : Int) - w }) := by
  have hl : (wastedBits w).length = w + 1 := by simp [wastedBits]
  rw [effectiveDepth, bind_ok (readWasted_code h ha), bind_ok (setWasted_run _ _)]
  simp only [State.setSub_sub, reads_bind_run, State.skip_sub]
  rw [bind_ok (setEffective_run _ _)]
  simp [hl, hw]

/-- A wasted-bits count of the declared depth or more (R238). -/
theorem effectiveDepth_bad {s : State} (h : s.ReaderOk) {w : Nat} (hw : s.sub.d ≤ w)
    (ha : wastedBits w <+: s.ahead) :
    ∃ t, effectiveDepth s = .error (.raise (.invalidWastedBits s.sub.d w)) t := by
  rw [effectiveDepth, bind_ok (readWasted_code h ha), bind_ok (setWasted_run _ _)]
  simp only [State.setSub_sub, reads_bind_run, State.skip_sub]
  rw [bind_ok (setEffective_run _ _)]
  simp [Nat.not_lt.mpr hw]

/-! ### Bodies -/

/-- What a body leaves in `S.*` besides the samples. -/
def Body.bodyRegs (b : Body) (r : SubframeRegs) : SubframeRegs :=
  match b with
  | .constant _ => r
  | .verbatim _ => r
  | .fixed _ _ => r
  | .lpc _ prec shift coef _ => { r with prec := prec, shift := shift, coef := coef }

/-- What a body leaves in `RS.*`. -/
def Body.resRegs (b : Body) (r : ResidualRegs) : ResidualRegs :=
  match b with
  | .constant _ => r
  | .verbatim _ => r
  | .fixed _ res => res.regs
  | .lpc _ _ _ _ res => res.regs

/-- The rule that decodes a body. -/
def Body.rule (n e : Nat) (b : Body) : M (List Int) :=
  match b with
  | .constant _ => sfConstant n e
  | .verbatim _ => sfVerbatim n e
  | .fixed warm _ => sfFixed n e warm.length
  | .lpc warm _ _ _ _ => sfLpc n e warm.length

/-- The four strategies on the bits of a body (R240, R241, R242, R245). -/
theorem body_code {s : State} (h : s.ReaderOk) {n e : Nat} {b : Body} (hb : b.ok n e = true)
    (ha : b.bits e <+: s.ahead) :
    b.rule n e s = .ok (b.narrow s.cfg.fixedCoef n)
      (((s.skip (b.bits e).length).setSub (b.bodyRegs s.sub)).setRs (b.resRegs s.rs)) := by
  cases b with
  | constant v =>
    simp only [Body.ok, Body.bits] at hb ha
    rw [Body.rule, sfConstant, bind_ok (readSint_field h hb ha)]
    simp only [Body.narrow, Body.bits, Body.bodyRegs, Body.resRegs, intBits_length, pure_run]
    rfl
  | verbatim xs =>
    simp only [Body.ok, Body.bits, Bool.and_eq_true, beq_iff_eq] at hb ha
    obtain ⟨rfl, hb⟩ := hb
    rw [Body.rule, sfVerbatim, readSints_fields h hb ha]
    rfl
  | fixed warm res =>
    simp only [Body.ok, Body.bits, Bool.and_eq_true, decide_eq_true_eq] at hb ha
    obtain ⟨⟨h1, h2⟩, h3⟩ := hb
    rw [ahead_append] at ha
    rw [Body.rule, sfFixed, reads_bind_run, sfFixedWith, bind_ok (readSints_fields h h2 ha.1),
      bind_ok (decodeResidual_code (h.after ha.1) h3 ha.2)]
    simp [Body.narrow, Body.bits, Body.bodyRegs, Body.resRegs]
    rfl
  | lpc warm prec shift coef res =>
    simp only [Body.ok, Body.bits, Bool.and_eq_true, decide_eq_true_eq, beq_iff_eq] at hb ha
    obtain ⟨⟨⟨⟨⟨⟨⟨⟨h1, h2⟩, h3⟩, h4⟩, h5⟩, h6⟩, h7⟩, h8⟩, h9⟩ := hb
    rw [ahead_append, ahead_append, ahead_append, ahead_append] at ha
    obtain ⟨⟨⟨⟨a1, a2⟩, a3⟩, a4⟩, a5⟩ := ha
    simp only [List.length_append, natBits_length, intBits_length] at a2 a3 a4 a5
    set k := (List.flatMap (intBits e) warm).length with hk
    have o1 : (s.skip k).ReaderOk := h.after a1
    have o2 : (s.skip (k + 4)).ReaderOk := by simpa using o1.after a2
    have o3 : (s.skip (k + 4 + 5)).ReaderOk := by simpa using o2.after a3
    have hprec : prec - 1 + 1 = prec := by omega
    have hsh : fitsInt 5 (shift : Int) = true := by
      simp only [fitsInt, Bool.and_eq_true, decide_eq_true_eq]
      refine ⟨⟨by omega, ?_⟩, ?_⟩
      · norm_num
      · norm_num; omega
    rw [Body.rule, sfLpc, bind_ok (readSints_fields h h3 a1), ← hk,
      bind_ok (readUint_field o1 (by omega) a2), State.skip_skip,
      bind_ok (readSint_field o2 hsh a3), bind_ok (setLpcParams_run _ _ _),
      if_neg (by omega), hprec, ← h7, State.skip_skip]
    rw [bind_ok (readSints_fields (by simpa using o3) h8 (by simpa using a4)),
      bind_ok (setCoef_run _ _), h7]
    simp only [State.setSub_skip, State.skip_skip, State.setSub_setSub, State.setSub_sub]
    rw [bind_ok (decodeResidual_code (by simpa using o3.after a4) h9 (by simpa using a5))]
    simp [Body.narrow, Body.bits, Body.bodyRegs, Body.resRegs]
    have hk' : k = warm.length * e := by simp [hk]
    congr 3
    omega

theorem restore_eq (w : Nat) (xs : List Int) : restore w xs = xs.map (· * ((2 ^ w : Nat) : Int)) := by
  unfold restore shl
  split
  · rfl
  · rw [show w = 0 by omega]; simp

theorem Subframe.regs_eq (table : FixedCoef) (n d : Nat) (f : Subframe) (r : SubframeRegs) :
    f.regs table n d r = { f.body.bodyRegs { r with
      d := d, type := BitVec.ofNat 6 f.body.type, w := f.wasted, e := (d : Int) - f.wasted,
      order := f.body.order } with buf := f.samples table n } := by
  unfold Subframe.regs Body.bodyRegs
  cases f.body <;> rfl

theorem Subframe.resRegs_eq (f : Subframe) (r : ResidualRegs) : f.resRegs r = f.body.resRegs r := by
  unfold Subframe.resRegs Body.resRegs
  cases f.body <;> rfl

theorem bodyRegs_wd (b : Body) (r : SubframeRegs) : (b.bodyRegs r).w = r.w := by
  cases b <;> rfl

/-- DECODE_SUBFRAME from the wasted bits on (R235). -/
theorem subframeElement_code {s : State} (h : s.ReaderOk) {n : Nat} {f : Subframe}
    (hf : f.ok n s.sub.d = true) (ha : f.tailBits s.sub.d <+: s.ahead) :
    subframeElement (BitVec.ofNat 6 f.body.type) f.body.order (fun e => f.body.rule n e) s =
      .ok () (((s.skip (f.tailBits s.sub.d).length).setSub (f.regs s.cfg.fixedCoef n s.sub.d s.sub)).setRs
        (f.resRegs s.rs)) := by
  simp only [Subframe.ok, Bool.and_eq_true, decide_eq_true_eq] at hf
  unfold Subframe.tailBits at *
  rw [ahead_append] at ha
  rw [subframeElement, bind_ok (setType_run _ _ _),
    bind_ok (effectiveDepth_code (by simpa using h) (by simpa using hf.1) (by simpa using ha.1))]
  rw [bind_ok (body_code (by simpa using h.after ha.1) (by simpa using hf.2) (by simpa using ha.2))]
  simp only [reads_bind_run]
  rw [setBuf_run, Subframe.regs_eq, Subframe.resRegs_eq]
  simp [restore_eq, bodyRegs_wd, Subframe.samples]

/-! ### The whole subframe -/

theorem Body.type_lt {n e : Nat} {b : Body} (hb : b.ok n e = true) : b.type < 64 := by
  cases b <;> simp only [Body.ok, Bool.and_eq_true, decide_eq_true_eq] at hb <;> simp only [Body.type] <;> omega

theorem subframeKind_fixed {t : BitVec 6} {o : Nat} (h : t.toNat = 8 + o) (ho : o ≤ 4) :
    subframeKind t = .fixed o := by
  unfold subframeKind
  rw [if_neg (by omega), if_neg (by omega), if_pos (by omega)]
  congr 1; omega

theorem subframeKind_lpc {t : BitVec 6} {o : Nat} (h : t.toNat = 31 + o) (ho : 1 ≤ o) :
    subframeKind t = .lpc o := by
  unfold subframeKind
  rw [if_neg (by omega), if_neg (by omega), if_neg (by omega), if_pos (by omega)]
  congr 1; omega

/-- The dispatch of R235 on the type code of a body. -/
theorem subframeRest_body {n e : Nat} {b : Body} (hb : b.ok n e = true) :
    subframeRest (BitVec.ofNat 6 b.type) n =
      subframeElement (BitVec.ofNat 6 b.type) b.order (fun e => b.rule n e) := by
  have hlt := Body.type_lt hb
  have ht : (BitVec.ofNat 6 b.type).toNat = b.type := by simp; omega
  rw [subframeRest]
  cases b with
  | constant v => rfl
  | verbatim xs => rfl
  | fixed warm res =>
    simp only [Body.ok, Bool.and_eq_true, decide_eq_true_eq] at hb
    rw [subframeKind_fixed ht hb.1.1]
    rfl
  | lpc warm prec shift coef res =>
    simp only [Body.ok, Bool.and_eq_true, decide_eq_true_eq] at hb
    rw [subframeKind_lpc ht hb.1.1.1.1.1.1.1.1]
    rfl

/-- DECODE_SUBFRAME(N, d) on the bits of a subframe (R235). -/
theorem decodeSubframe_code {s : State} (h : s.ReaderOk) {n d : Nat} {f : Subframe}
    (hf : f.ok n d = true) (ha : f.bits d <+: s.ahead) :
    decodeSubframe n d s = .ok (f.samples s.cfg.fixedCoef n)
      (((s.skip (f.bits d).length).setSub (f.regs s.cfg.fixedCoef n d s.sub)).setRs (f.resRegs s.rs)) := by
  have hb : f.body.ok n (d - f.wasted) = true := by
    simp only [Subframe.ok, Bool.and_eq_true] at hf; exact hf.2
  have ha' : [f.reserved] ++ natBits 6 f.body.type ++ f.tailBits d <+: s.ahead := by
    simpa [Subframe.bits] using ha
  rw [ahead_append, ahead_append] at ha'
  obtain ⟨⟨a1, a2⟩, a3⟩ := ha'
  have o1 := h.after a1
  have o2 := o1.after a2
  simp only [List.length_append, List.length_singleton, natBits_length, State.skip_skip] at a2 a3 o1 o2
  rw [decodeSubframe, bind_ok (setDepth_run _ _),
    bind_ok (readUint_bit (by simpa using h) (by simpa using a1)),
    bind_ok (readUint_field (by simpa using o1) (Body.type_lt hb) (by simpa using a2)),
    subframeRest_body hb]
  rw [bind_ok (subframeElement_code (by simpa using o2) (by simpa using hf) (by simpa using a3))]
  simp only [reads_run]
  have hl : (f.bits d).length = 1 + 6 + (f.tailBits d).length := by
    simp [Subframe.bits]; omega
  rw [hl]
  simp [Subframe.regs_eq]

/-! ### Prediction -/

theorem predictTail_length (coef : List Int) (shift : Nat) (newest res : List Int) :
    (predictTail coef shift newest res).length = res.length := by
  induction res generalizing newest with
  | nil => rfl
  | cons r res ih => simp [predictTail, ih]

theorem reconstruct_length (warm coef : List Int) (shift : Nat) (res : List Int) :
    (reconstruct warm coef shift res).length = warm.length + res.length := by
  simp [reconstruct, predictTail_length]

/-- A row of any table has as many coefficients as its order. -/
theorem coefRow_length (table : FixedCoef) {o : Nat} (h : o ≤ 4) : (coefRow table o).length = o := by
  interval_cases o <;> simp [coefRow]

/-- The weighted sum of R244 by index. -/
theorem weightedSum_eq (coef xs : List Int) (hl : coef.length ≤ xs.length) :
    weightedSum coef xs =
      ((List.range coef.length).map (fun j => coef.getD j 0 * xs.getD j 0)).sum := by
  induction coef generalizing xs with
  | nil => simp [weightedSum]
  | cons c cs ih =>
    cases xs with
    | nil => simp at hl
    | cons x xs =>
      rw [weightedSum, ih xs (by simpa using hl), List.length_cons, List.range_succ_eq_map]
      simp [Function.comp_def]

/-- Sample `pre.length + i` of a buffer that continues `pre` (R244). -/
theorem predictTail_getD {coef : List Int} {shift o : Nat} (hc : coef.length = o) (res : List Int) :
    ∀ (pre : List Int), o ≤ pre.length → ∀ i, i < res.length →
      (pre ++ predictTail coef shift pre.reverse res).getD (pre.length + i) 0 =
        ((List.range o).map (fun j => coef.getD j 0 *
          (pre ++ predictTail coef shift pre.reverse res).getD (pre.length + i - 1 - j) 0)).sum
          / ((2 ^ shift : Nat) : Int) + res.getD i 0 := by
  induction res with
  | nil => intro pre _ i hi; simp at hi
  | cons r rest ih =>
    intro pre hp i hi
    set v := asr (weightedSum coef pre.reverse) shift + r with hv
    have e : pre ++ predictTail coef shift pre.reverse (r :: rest) =
        (pre ++ [v]) ++ predictTail coef shift (pre ++ [v]).reverse rest := by simp [predictTail, hv]
    rw [e]
    cases i with
    | zero =>
      have hs : weightedSum coef pre.reverse = ((List.range o).map (fun j => coef.getD j 0 *
          ((pre ++ [v]) ++ predictTail coef shift (pre ++ [v]).reverse rest).getD
            (pre.length + 0 - 1 - j) 0)).sum := by
        rw [weightedSum_eq _ _ (by simp; omega), hc]
        congr 1
        apply List.map_congr_left
        intro j hj
        rw [List.mem_range] at hj
        congr 1
        rw [List.getD_eq_getElem?_getD, List.getD_eq_getElem?_getD, List.getElem?_reverse (by omega),
          List.append_assoc, List.getElem?_append_left (by omega)]
        congr 2
      rw [← hs, List.append_assoc, List.getD_append_right _ _ _ _ (by omega)]
      simp [hv, asr]
    | succ i =>
      have := ih (pre ++ [v]) (by simp; omega) i (by simpa using hi)
      rw [List.length_append, List.length_singleton] at this
      rw [show pre.length + (i + 1) = pre.length + 1 + i by omega, this]
      simp

/-- What PREDICT builds satisfies R244's recurrence. -/
theorem reconstruct_predicts {n o shift : Nat} {warm coef res : List Int} (hw : warm.length = o)
    (hc : coef.length = o) (hn : o + res.length = n) :
    Predicts n o warm coef shift res (reconstruct warm coef shift res) := by
  refine ⟨by rw [reconstruct_length]; omega, fun i hi => ?_, fun i h1 h2 => ?_⟩
  · unfold reconstruct; rw [List.getD_append _ _ _ _ (by omega)]
  · have := predictTail_getD (shift := shift) hc res warm (by omega) (i - o) (by omega)
    rw [show warm.length + (i - o) = i by omega] at this
    exact this

end Sys2Proof.Machine
end

