-- ==== Sys2Proof/Laws/Frame.lean ====
section
/-! SUPPORT. The channels and the frame on their bits (R190 to R203, R220 to R228). -/

namespace Sys2Proof.Machine

open Sys2Proof

/-! ### Channels -/

@[simp] theorem setChannels_run (s : State) (k : Nat) :
    setChannels k s = .ok () (s.setF { s.f with nch := k }) := rfl

@[simp] theorem setSamples_run (s : State) (xs : List (List Int)) :
    setSamples xs s = .ok () (s.setCh xs) := rfl

theorem independent_code {n b : Nat} (fs : List Subframe) : ∀ {s : State} (_ : s.ReaderOk)
    (_ : subframesOk n (List.replicate fs.length b) fs = true)
    (_ : subframesBits (List.replicate fs.length b) fs <+: s.ahead),
    independent n b fs.length s = .ok ()
      ((((s.skip (subframesBits (List.replicate fs.length b) fs).length).setSub
        (subframesRegs s.cfg.fixedCoef n (List.replicate fs.length b) fs s.sub)).setRs (subframesRes fs s.rs)).setCh
        (s.ch ++ fs.map (Subframe.samples s.cfg.fixedCoef n))) := by
  induction fs with
  | nil =>
    intro s h _ _
    simp [independent, subframesBits, subframesRegs, subframesRes, State.skip_zero h]
  | cons f fs ih =>
    intro s h hok ha
    simp only [List.length_cons, List.replicate_succ, subframesOk, subframesBits,
      Bool.and_eq_true] at hok ha ⊢
    rw [ahead_append] at ha
    rw [independent, bind_ok (decodeSubframe_code h hok.1 ha.1)]
    simp only [writes_bind_run, State.addChannel]
    rw [ih (by simpa using h.after ha.1) hok.2 (by simpa using ha.2)]
    simp [subframesRegs, subframesRes]

theorem subframesOk_length {n : Nat} {ds : List Nat} {fs : List Subframe}
    (h : subframesOk n ds fs = true) : fs.length = ds.length := by
  induction ds generalizing fs with
  | nil => cases fs with
    | nil => rfl
    | cons f fs => simp [subframesOk] at h
  | cons d ds ih => cases fs with
    | nil => simp [subframesOk] at h
    | cons f fs =>
      simp only [subframesOk, Bool.and_eq_true] at h
      simp [ih h.2]

theorem depths_indep {ca b : Nat} (h : ca ≤ 7) : depths ca b = List.replicate (ca + 1) b := by
  simp [depths, h]

theorem outputs_indep {ca : Nat} (h : ca ≤ 7) (xs : List (List Int)) : outputs ca xs = xs := by
  unfold outputs
  split
  · rw [if_neg (by omega), if_neg (by omega), if_neg (by omega)]
  · rfl

theorem caIndep_code {s : State} (h : s.ReaderOk) {ca n b : Nat} {fs : List Subframe} (hca : ca ≤ 7)
    (hok : subframesOk n (depths ca b) fs = true) (ha : subframesBits (depths ca b) fs <+: s.ahead) :
    caIndep ca n b s = .ok () (s.withChannels n ca b fs) := by
  have hl := subframesOk_length hok
  rw [depths_indep hca, List.length_replicate] at hl
  unfold State.withChannels
  rw [depths_indep hca] at *
  rw [← hl] at hok ha ⊢
  rw [caIndep, ← hl, bind_ok (setChannels_run _ _), bind_ok (setSamples_run _ _), independent_code fs (by simpa using h) hok (by simpa using ha)]
  simp [channelsOf, outputs_indep hca]

/-- Two subframes at two depths. -/
theorem two_subframes {s : State} (h : s.ReaderOk) {n d1 d2 : Nat} {f1 f2 : Subframe}
    (hok : subframesOk n [d1, d2] [f1, f2] = true) (ha : subframesBits [d1, d2] [f1, f2] <+: s.ahead)
    {α : Type} (k : List Int → List Int → M α) :
    (decodeSubframe n d1 >>= fun x => decodeSubframe n d2 >>= fun y => k x y) s =
      k (f1.samples s.cfg.fixedCoef n) (f2.samples s.cfg.fixedCoef n)
        (((s.skip (subframesBits [d1, d2] [f1, f2]).length).setSub
          (subframesRegs s.cfg.fixedCoef n [d1, d2] [f1, f2] s.sub)).setRs (subframesRes [f1, f2] s.rs)) := by
  simp only [subframesOk, subframesBits, Bool.and_eq_true, and_true, List.append_nil] at hok ha
  rw [ahead_append] at ha
  rw [bind_ok (decodeSubframe_code h hok.1 ha.1),
    bind_ok (decodeSubframe_code (by simpa using h.after ha.1) hok.2 (by simpa using ha.2))]
  simp [subframesRegs, subframesRes, subframesBits]

theorem two_of_depths {n d1 d2 : Nat} {fs : List Subframe} (hok : subframesOk n [d1, d2] fs = true) :
    ∃ f1 f2, fs = [f1, f2] := by
  have := subframesOk_length hok
  match fs, this with
  | [f1, f2], _ => exact ⟨f1, f2, rfl⟩

theorem asr_one (x : Int) : asr x 1 = x / 2 := by simp [asr]

theorem midSideLeft_eq : midSideLeft = fun m s => (2 * m + s % 2 + s) / 2 := by
  funext m s; simp [midSideLeft, midSideCombined, asr_one]

theorem midSideRight_eq : midSideRight = fun m s => (2 * m + s % 2 - s) / 2 := by
  funext m s; simp [midSideRight, midSideCombined, asr_one]

/-- DECODE_CHANNELS(ca, N, b) on the bits of the subframes (R228, R220 to R224). -/
theorem decodeChannels_code {s : State} (h : s.ReaderOk) {ca : BitVec 4} {n b : Nat}
    {fs : List Subframe} (hca : ca.toNat ≤ 10) (hok : subframesOk n (depths ca.toNat b) fs = true)
    (ha : subframesBits (depths ca.toNat b) fs <+: s.ahead) :
    decodeChannels ca n b s = .ok () (s.withChannels n ca.toNat b fs) := by
  unfold decodeChannels channelKind
  by_cases h7 : ca.toNat ≤ 7
  · rw [if_pos h7]
    exact caIndep_code h h7 hok ha
  · rw [if_neg h7]
    by_cases h8 : ca.toNat = 8
    · rw [if_pos h8]
      have hd : depths ca.toNat b = [b, b + 1] := by simp [depths, h8]
      rw [hd] at hok ha
      obtain ⟨f1, f2, rfl⟩ := two_of_depths hok
      simp only [caLeftSide]
      rw [bind_ok (setChannels_run _ _), two_subframes (by simpa using h) hok (by simpa using ha)]
      rw [State.withChannels, hd]
      simp [channelsOf, outputs, h8]
      rfl
    · rw [if_neg h8]
      by_cases h9 : ca.toNat = 9
      · rw [if_pos h9]
        have hd : depths ca.toNat b = [b + 1, b] := by simp [depths, h9]
        rw [hd] at hok ha
        obtain ⟨f1, f2, rfl⟩ := two_of_depths hok
        simp only [caRightSide]
        rw [bind_ok (setChannels_run _ _), two_subframes (by simpa using h) hok (by simpa using ha)]
        rw [State.withChannels, hd]
        simp [channelsOf, outputs, h9]
        rfl
      · have h10 : ca.toNat = 10 := by omega
        rw [if_neg h9, if_pos h10]
        have hd : depths ca.toNat b = [b, b + 1] := by simp [depths, h10]
        rw [hd] at hok ha
        obtain ⟨f1, f2, rfl⟩ := two_of_depths hok
        simp only [caMidSide]
        rw [bind_ok (setChannels_run _ _), two_subframes (by simpa using h) hok (by simpa using ha)]
        rw [State.withChannels, hd]
        simp [channelsOf, outputs, h10, midSideLeft_eq, midSideRight_eq]

/-! ### The header -/

/-- Steps 1 and 2 on the fixed word (R192, R193). -/
theorem frameSync_code {s : State} (h : s.ReaderOk) {f : Frame} (ha : f.fixedBits <+: s.ahead) :
    frameSync s = .ok () ((s.skip 32).setF { s.f with bsc := f.bsc, src := f.src, ca := f.ca, ssc := f.ssc }) := by
  unfold Frame.fixedBits at ha
  have e : [f.r1, f.bstrat] = [f.r1] ++ [f.bstrat] := rfl
  rw [e, ← List.append_assoc] at ha
  simp only [ahead_append, List.length_append, natBits_length, List.length_singleton] at ha
  obtain ⟨⟨⟨⟨⟨⟨⟨a1, a2⟩, a3⟩, a4⟩, a5⟩, a6⟩, a7⟩, a8⟩ := ha
  have o1 : (s.skip 14).ReaderOk := by simpa using h.after a1
  have o2 : (s.skip 15).ReaderOk := by simpa using o1.after a2
  have o3 : (s.skip 16).ReaderOk := by simpa using o2.after a3
  have o4 : (s.skip 20).ReaderOk := by simpa using o3.after a4
  have o5 : (s.skip 24).ReaderOk := by simpa using o4.after a5
  have o6 : (s.skip 28).ReaderOk := by simpa using o5.after a6
  have o7 : (s.skip 31).ReaderOk := by simpa using o6.after a7
  have r1 := readUint_field h (n := 14) (v := 0x3FFE) (by norm_num) a1
  have r2 := readUint_bit o1 a2
  have r3 := readUint_bit o2 a3
  have r4 := readUint_field o3 f.bsc.isLt a4
  have r5 := readUint_field o4 f.src.isLt a5
  have r6 := readUint_field o5 f.ca.isLt a6
  have r7 := readUint_field o6 f.ssc.isLt a7
  have r8 := readUint_bit o7 a8
  simp only [State.skip_skip] at r2 r3 r4 r5 r6 r7 r8
  rw [frameSync, bind_ok r1, if_pos rfl, bind_ok r2, bind_ok r3, bind_ok r4, bind_ok r5, bind_ok r6,
    bind_ok r7, bind_ok r8]
  simp

/-- Any other sync value (R192). -/
theorem frameSync_bad {s : State} (h : s.ReaderOk) {v : Nat} (hv : v < 2 ^ 14) (hne : v ≠ 0x3FFE)
    (ha : natBits 14 v <+: s.ahead) :
    frameSync s = .error (.raise (.invalidSync v)) (s.skip 14) := by
  rw [frameSync, bind_ok (readUint_field h hv ha), if_neg hne]; rfl

/-- A field, then a rule that meets the end of the source, meets it too. -/
theorem readUint_bind_end {α : Type} {s : State} (h : s.ReaderOk) {n : Nat} {k : Nat → M α}
    (hk : ∀ v, n ≤ s.ahead.length → ∃ p m t, k v (s.skip n) = .error (.raise (.unexpectedEnd p m)) t) :
    ∃ p m t, (readUint n >>= k) s = .error (.raise (.unexpectedEnd p m)) t := by
  by_cases hn : n ≤ s.ahead.length
  · rw [bind_ok (readUint_run h hn)]; exact hk _ hn
  · obtain ⟨p, t, e⟩ := readUint_end h (by omega : s.ahead.length < n)
    exact ⟨p, n, t, bind_error e⟩

/-- The source ends inside the fixed word, after its sync code (R193). -/
theorem frameSync_short {s : State} (h : s.ReaderOk) (ha : natBits 14 0x3FFE <+: s.ahead)
    (hl : s.ahead.length < 32) : ∃ p m t, frameSync s = .error (.raise (.unexpectedEnd p m)) t := by
  have hs := ha.length_le
  rw [natBits_length] at hs
  have ok : ∀ n, n ≤ s.ahead.length → (s.skip n).ReaderOk := fun n hn => h.skip hn
  have len : ∀ n, (s.skip n).ahead.length = s.ahead.length - n := fun n => by simp
  rw [frameSync, bind_ok (readUint_field h (by decide) ha), if_pos rfl]
  refine readUint_bind_end (ok 14 hs) fun _ h1 => ?_
  simp only [State.skip_skip, len] at h1 ⊢
  refine readUint_bind_end (ok _ (by omega)) fun _ h2 => ?_
  simp only [State.skip_skip, len] at h2 ⊢
  refine readUint_bind_end (ok _ (by omega)) fun _ h3 => ?_
  simp only [State.skip_skip, len] at h3 ⊢
  refine readUint_bind_end (ok _ (by omega)) fun _ h4 => ?_
  simp only [State.skip_skip, len] at h4 ⊢
  refine readUint_bind_end (ok _ (by omega)) fun _ h5 => ?_
  simp only [State.skip_skip, len] at h5 ⊢
  refine readUint_bind_end (ok _ (by omega)) fun _ h6 => ?_
  simp only [State.skip_skip, len] at h6 ⊢
  refine readUint_bind_end (ok _ (by omega)) fun _ h7 => ?_
  simp only [len] at h7
  omega

/-- The passes of the frame-number loop, as R99 counts them. -/
theorem numberLoop_code (c : Nat) : ∀ {s : State} {fuel t : Nat} {bs : List Byte} (_ : s.ReaderOk)
    (_ : t < 256) (_ : ((natBits 8 t).takeWhile id).length - 1 = c) (_ : c < fuel)
    (_ : bs.length = c) (_ : bytesBits bs <+: s.ahead),
    numberLoop fuel t s = .ok () (s.skip (8 * bs.length)) := by
  have table : ∀ t < 256, (0xC0 ≤ t ↔ 0 < ((natBits 8 t).takeWhile id).length - 1) ∧
      (0xC0 ≤ t → ((natBits 8 (t * 2 % 256)).takeWhile id).length - 1 =
        ((natBits 8 t).takeWhile id).length - 1 - 1) := by decide +kernel
  induction c with
  | zero =>
    intro s fuel t bs h ht hc hf hl ha
    obtain ⟨f, rfl⟩ := Nat.exists_eq_succ_of_ne_zero (by omega : fuel ≠ 0)
    have := (table t ht).1
    rw [numberLoop, if_neg (by omega), hl]
    rw [Nat.mul_zero, State.skip_zero h]; rfl
  | succ c ih =>
    intro s fuel t bs h ht hc hf hl ha
    obtain ⟨f, rfl⟩ := Nat.exists_eq_succ_of_ne_zero (by omega : fuel ≠ 0)
    have h1 := (table t ht).1
    have h2 := (table t ht).2
    match bs, hl with
    | b :: bs, hl =>
      simp only [List.length_cons] at hl
      rw [bytesBits_cons, ahead_append, byteBits_length] at ha
      rw [numberLoop, if_pos (by omega), bind_ok (readUint_field h b.isLt ha.1),
        ih (by simpa using h.skip (n := 8) (by simpa using ha.1.length_le)) (Nat.mod_lt _ (by norm_num)) (by rw [h2 (by omega)]; omega)
          (by omega) (by omega) ha.2, State.skip_skip, List.length_cons]
      congr 2; ring

/-- SKIP_FRAME_NUMBER after its first byte (R194). -/
theorem numberTail_code {s : State} (h : s.ReaderOk) {b : Byte} {bs : List Byte}
    (hl : bs.length = numberCount b) (ha : bytesBits bs <+: s.ahead) :
    numberTail b.toNat s = .ok () (s.skip (8 * bs.length)) := by
  have h7 : numberCount b ≤ 7 := by
    have := (List.takeWhile_sublist (p := id) (l := byteBits b)).length_le
    simp at this; unfold numberCount; omega
  exact numberLoop_code (numberCount b) h b.isLt rfl (by omega) hl ha

theorem blockSize_fixed : ∀ c < 16, c ≠ 0 → c ≠ 6 → c ≠ 7 → ∀ x, fixedBlockSize c = blockSizeOf c x := by
  intro c hc h0 h6 h7 x
  unfold blockSizeOf
  rw [if_neg (by omega)]
  revert h0 h6 h7
  revert c
  decide

/-- RESOLVE_BLOCK_SIZE(c) (R196, R115). -/
theorem blockSizeElement_code {s : State} (h : s.ReaderOk) {c : BitVec 4} {x : Nat} (hc : c.toNat ≠ 0)
    (hx : x < 2 ^ bsxWidth c.toNat) (ha : natBits (bsxWidth c.toNat) x <+: s.ahead) :
    blockSizeElement c s = .ok ()
      ((s.skip (bsxWidth c.toNat)).setF { s.f with n := blockSizeOf c.toNat x }) := by
  have hlt : c.toNat < 16 := c.isLt
  rw [blockSizeElement, resolveBlockSize]
  rw [if_neg hc]
  by_cases h6 : c.toNat = 6
  · simp only [h6, bsxWidth, if_true] at hx ha ⊢
    rw [bind_ok (a := x + 1) (t := s.skip 8) (by rw [bind_ok (readUint_field h hx ha)]; rfl)]
    simp [blockSizeOf]
  · by_cases h7 : c.toNat = 7
    · have hw : bsxWidth c.toNat = 16 := by simp [bsxWidth, h7]
      rw [hw] at hx ha ⊢
      rw [if_neg h6, if_pos h7, bind_ok (a := x + 1) (t := s.skip 16)
        (by rw [bind_ok (readUint_field h hx ha)]; rfl)]
      simp [blockSizeOf, h7]
    · have hw : bsxWidth c.toNat = 0 := by unfold bsxWidth; rw [if_neg h6, if_neg h7]
      rw [if_neg h6, if_neg h7, blockSize_fixed _ hlt hc h6 h7 x, hw, State.skip_zero h]
      rfl

theorem sampleRateBits_eq : ∀ c < 16, sampleRateBits c = srxWidth c := by decide

/-- SKIP_SAMPLE_RATE(c) (R197, R116). -/
theorem skipSampleRate_code {s : State} (h : s.ReaderOk) {c : BitVec 4} {x : Nat}
    (hx : x < 2 ^ srxWidth c.toNat) (ha : natBits (srxWidth c.toNat) x <+: s.ahead) :
    skipSampleRate c s = .ok () (s.skip (srxWidth c.toNat)) := by
  rw [skipSampleRate, sampleRateBits_eq _ c.isLt, bind_ok (readUint_field h hx ha)]
  rfl

/-- The footer after `k` padding bits to the boundary (R200). -/
theorem frameFooter_code {s : State} (h : s.ReaderOk) {pad : List Bool} {c : BitVec 16}
    (hp : pad.length < 8) (hal : (s.bp + pad.length) % 8 = 0)
    (ha : pad ++ natBits 16 c.toNat <+: s.ahead) :
    frameFooter s = .ok () (s.skip (pad.length + 16)) := by
  rw [ahead_append] at ha
  have hk : s.bpAligned - s.bp = pad.length := by unfold State.bpAligned; omega
  have hd := dropBits_skip h
  rw [hk] at hd
  simp only [frameFooter, align, writes_bind_run, hd]
  rw [bind_ok (readUint_field (h.after ha.1) c.isLt ha.2)]
  simp

/-! ### The frame -/

theorem fixedBits_length (f : Frame) : f.fixedBits.length = 32 := by simp [Frame.fixedBits]

/-- A residual has the `N - o` values of R271. -/
theorem Residual.values_length {n o : Nat} {r : Residual} (h : r.ok n o = true) :
    o + r.values.length = n := by
  simp only [Residual.ok, Bool.and_eq_true, decide_eq_true_eq, beq_iff_eq] at h
  obtain ⟨⟨⟨⟨hp, hn⟩, ho⟩, hq⟩, hc⟩ := h
  have : r.values.length = (r.parts.map (fun q => q.values.length)).sum := by
    simp [Residual.values, List.length_flatMap]
  rw [this, hc, List.sum_cons, List.sum_replicate, smul_eq_mul]
  have h2 := Nat.div_add_mod n (2 ^ r.p)
  rw [hn, Nat.add_zero] at h2
  have h3 : 1 ≤ 2 ^ r.p := Nat.one_le_two_pow
  generalize n / 2 ^ r.p = m at *
  obtain ⟨j, hj⟩ := Nat.exists_eq_add_of_le h3
  rw [hj] at h2 ⊢
  rw [show 1 + j - 1 = j by omega]
  have : (1 + j) * m = m + j * m := by ring
  omega

theorem Subframe.samples_length (table : FixedCoef) {n d : Nat} {f : Subframe} (h : f.ok n d = true) :
    (f.samples table n).length = n := by
  obtain ⟨r, w, b⟩ := f
  simp only [Subframe.ok, Bool.and_eq_true] at h
  replace h := h.2
  simp only [Subframe.samples, List.length_map]
  cases b with
  | constant v => simp [Body.narrow]
  | verbatim xs => simp only [Body.ok, Bool.and_eq_true, beq_iff_eq] at h; exact h.1
  | fixed warm res =>
    simp only [Body.ok, Bool.and_eq_true] at h
    simp [Body.narrow, reconstruct_length, Residual.values_length h.2]
  | lpc warm prec shift coef res =>
    simp only [Body.ok, Bool.and_eq_true] at h
    simp [Body.narrow, reconstruct_length, Residual.values_length h.2]

theorem subframes_samples_length (table : FixedCoef) {n : Nat} {ds : List Nat} {fs : List Subframe}
    (h : subframesOk n ds fs = true) : ∀ x ∈ fs.map (Subframe.samples table n), x.length = n := by
  induction ds generalizing fs with
  | nil => cases fs with
    | nil => simp
    | cons f fs => simp [subframesOk] at h
  | cons d ds ih => cases fs with
    | nil => simp
    | cons f fs =>
      simp only [subframesOk, Bool.and_eq_true] at h
      intro x hx
      rw [List.map_cons, List.mem_cons] at hx
      rcases hx with rfl | hx
      · exact Subframe.samples_length table h.1
      · exact ih h.2 x hx

theorem outputs_length (ca : Nat) (xs : List (List Int)) : (outputs ca xs).length = xs.length := by
  unfold outputs
  split
  · split_ifs <;> simp
  · rfl

theorem outputs_samples {n ca : Nat} {xs : List (List Int)} (h : ∀ x ∈ xs, x.length = n) :
    ∀ x ∈ outputs ca xs, x.length = n := by
  unfold outputs
  split
  · rename_i a b
    have ha : a.length = n := h a (by simp)
    have hb : b.length = n := h b (by simp)
    split_ifs <;> intro x hx <;> simp at hx <;> rcases hx with rfl | rfl <;> simp [ha, hb]
  · exact h

/-- What is committed is the whole of the decoded channels. -/
theorem commit_whole {n : Nat} {k : Nat} {xs : List (List Int)} (hk : xs.length = k)
    (h : ∀ x ∈ xs, x.length = n) : (xs.take k).map (·.take n) = xs := by
  rw [List.take_of_length_le hk.le]
  conv_rhs => rw [← List.map_id xs]
  apply List.map_congr_left
  intro x hx
  rw [List.take_of_length_le (h x hx).le]; rfl

/-- DECODE_FRAME() on the bits of a frame (R190). -/
theorem decodeFrameBody_code {s : State} (h : s.ReaderOk) {f : Frame} (hal : s.bp % 8 = 0)
    (hv : s.si.valid = true) (hf : f.ok s.si.bps = true) (ha : f.bits s.si.bps <+: s.ahead) :
    decodeFrameBody s = .ok () ((s.withFrame f s.si.bps).setOut (f.out s.cfg.fixedCoef)) := by
  simp only [Frame.ok, Bool.and_eq_true, decide_eq_true_eq, beq_iff_eq, bne_iff_ne] at hf
  obtain ⟨⟨⟨⟨⟨⟨⟨h1, h2⟩, h3⟩, h4⟩, h5⟩, h6⟩, h7⟩, h8⟩ := hf
  unfold Frame.bits Frame.variableBits Frame.channelBits at *
  set b := s.si.bps with hb
  unfold State.withFrame
  have w1 : bsxWidth f.bsc.toNat % 8 = 0 := by unfold bsxWidth; split_ifs <;> rfl
  have w2 : ∀ c < 16, srxWidth c % 8 = 0 := by decide
  have w2 := w2 f.src.toNat f.src.isLt
  have hbl : (f.bits b).length = 32 + (8 + (8 * f.continuation.length + (bsxWidth f.bsc.toNat +
      (srxWidth f.src.toNat + (8 + ((subframesBits (depths f.ca.toNat b) f.subframes).length +
        (f.padding.length + 16))))))) := by
    simp [Frame.bits, fixedBits_length, Frame.variableBits, Frame.channelBits]
  simp only [← List.append_assoc] at ha
  rw [List.append_assoc _ f.padding] at ha
  simp only [ahead_append _ (natBits _ _), ahead_append _ (byteBits _), ahead_append _ (bytesBits _),
    ahead_append _ (subframesBits (depths f.ca.toNat b) f.subframes), ahead_append _ (f.padding ++ _), List.length_append,
    fixedBits_length, natBits_length, byteBits_length, bytesBits_length] at ha
  obtain ⟨⟨⟨⟨⟨⟨⟨a1, a2⟩, a3⟩, a4⟩, a5⟩, a6⟩, a7⟩, a8⟩ := ha
  have o1 : (s.skip 32).ReaderOk := by simpa [fixedBits_length] using h.after a1
  have o2 : (s.skip (32 + 8)).ReaderOk := by simpa using o1.after a2
  have o3 : (s.skip (32 + 8 + 8 * f.continuation.length)).ReaderOk := by simpa using o2.after a3
  have o4 := o3.after a4
  simp only [State.skip_skip, natBits_length] at o4
  have o5 := o4.after a5
  simp only [State.skip_skip, natBits_length] at o5
  have o6 := o5.after a6
  simp only [State.skip_skip, byteBits_length] at o6
  have o7 := o6.after a7
  simp only [State.skip_skip] at o7
  rw [decodeFrameBody, bind_ok (frameSync_code h a1)]
  rw [bind_ok (a := ()) (t := (s.skip (32 + 8 + 8 * f.continuation.length)).setF
    { s.f with bsc := f.bsc, src := f.src, ca := f.ca, ssc := f.ssc }) (by
      rw [skipFrameNumber, bind_ok (readUint_field (n := 8) (v := f.number.toNat) (by simpa using o1)
        f.number.isLt (by simpa [byteBits] using a2)),
        numberTail_code (by simpa using o2) h3 (by simpa using a3)]
      simp)]
  simp only [reads_bind_run, State.setF_f]
  rw [bind_ok (blockSizeElement_code (x := f.bsx) (by simpa using o3) h1 h4 (by simpa using a4))]
  simp only [reads_bind_run, State.setF_f, State.setF_skip, State.skip_skip, State.setF_setF]
  rw [bind_ok (skipSampleRate_code (x := f.srx) (by simpa using o4) h5 (by simpa using a5))]
  simp only [State.setF_skip, State.skip_skip]
  rw [bind_ok (a := ()) (t := ((s.skip (32 + 8 + 8 * f.continuation.length + bsxWidth f.bsc.toNat +
    srxWidth f.src.toNat + 8)).setF ⟨f.bsc, f.src, f.ca, f.ssc, f.n, s.f.nch⟩)) (by
      rw [headerChecksum, bind_ok (readUint_field (v := f.crc8.toNat) (by simpa using o5) f.crc8.isLt
        (by simpa [byteBits] using a6))]
      simp [Frame.n])]
  rw [bind_ok (a := b) (t := ((s.skip (32 + 8 + 8 * f.continuation.length + bsxWidth f.bsc.toNat +
    srxWidth f.src.toNat + 8)).setF ⟨f.bsc, f.src, f.ca, f.ssc, f.n, s.f.nch⟩)) (by
      simp [readBps, hv, hb])]
  simp only [reads_bind_run, State.setF_f]
  rw [bind_ok (decodeChannels_code (fs := f.subframes) (by simpa using o6) h2 h6 (by simpa using a7))]
  unfold State.withChannels
  simp only [State.setF_skip, State.skip_skip, State.setF_setF, State.setF_sub, State.skip_sub,
    State.skip_rs, State.setF_rs, State.setF_f, State.setF_cfg, State.skip_cfg]
  rw [bind_ok (frameFooter_code (c := f.crc16) (by simpa using o7) h7 (by simp; omega)
    (by
      rw [← ahead_append] at a8
      simpa using a8))]
  have hs := subframesOk_length h6
  simp only [commitFrame, writes_run, State.setCh_skip, State.setRs_skip, State.setSub_skip,
    State.setF_skip, State.skip_skip, State.setCh_f, State.setRs_f, State.setSub_f, State.setF_f,
    State.setCh_ch]
  rw [commit_whole (n := f.n) (xs := channelsOf s.cfg.fixedCoef f.n f.ca.toNat f.subframes)
    (by simp [channelsOf, outputs_length]) (outputs_samples (subframes_samples_length _ h6))]
  rw [hbl]
  simp only [Frame.out, Nat.add_assoc]

end Sys2Proof.Machine
end

