-- ==== Sys2Proof/Laws/Metadata.lean ====
section
/-! SUPPORT. The metadata parser on the bits of its blocks (R150 to R165). -/

namespace Sys2Proof.Machine

open Sys2Proof

/-! ### Bounded reads -/

theorem pos_of_aligned {s : State} (h : s.ReaderOk) (ha : s.bp % 8 = 0) : 8 * s.br.pos = s.bp := by
  have := h.pos_eq; omega

/-- TAKE(n, end) inside the block (R154). -/
theorem take_ok {s : State} (h : s.ReaderOk) (ha : s.bp % 8 = 0) {type fin : Nat} {bs : List Byte}
    (hf : s.bp + 8 * bs.length ≤ 8 * fin) (hb : bytesBits bs <+: s.ahead) :
    take type bs.length fin s = .ok bs (s.skip (8 * bs.length)) := by
  have := pos_of_aligned h ha
  simp only [take, reads_bind_run]
  rw [if_pos (by omega), readBytes_aligned h ha hb]

/-- TAKE(n, end) beyond the block (R154): MalformedBlock, before anything is read. -/
theorem take_over {s : State} {type n fin : Nat} (hf : fin < s.br.pos + n) :
    take type n fin s =
      .error (.raise (.malformedBlock s.mdIndex type (.innerOverrun n (fin - s.br.pos)))) s := by
  simp only [take, reads_bind_run]
  rw [if_neg (by omega)]
  rfl

theorem takeLe32_ok {s : State} (h : s.ReaderOk) (ha : s.bp % 8 = 0) {type fin n : Nat}
    (hn : n < 2 ^ 32) (hf : s.bp + 32 ≤ 8 * fin) (hb : bytesBits (le4 n) <+: s.ahead) :
    takeLe32 type fin s = .ok n (s.skip 32) := by
  have ht : take type 4 fin s = .ok (le4 n) (s.skip 32) := take_ok h ha (by simpa using hf) hb
  rw [takeLe32, bind_ok ht, leBytes_le4 n hn]; rfl

theorem takeBe32_ok {s : State} (h : s.ReaderOk) (ha : s.bp % 8 = 0) {type fin n : Nat}
    (hn : n < 2 ^ 32) (hf : s.bp + 32 ≤ 8 * fin) (hb : bytesBits (be4 n) <+: s.ahead) :
    takeBe32 type fin s = .ok n (s.skip 32) := by
  have ht : take type 4 fin s = .ok (be4 n) (s.skip 32) := take_ok h ha (by simpa using hf) hb
  rw [takeBe32, bind_ok ht, beBytes_be4 n hn]; rfl

theorem takeString_ok {s : State} (h : s.ReaderOk) (ha : s.bp % 8 = 0) {type fin : Nat} {bs : List Byte}
    {field : StringField} (hu : stringOk s.cfg.utf8 bs = true) (hf : s.bp + 8 * bs.length ≤ 8 * fin) (hb : bytesBits bs <+: s.ahead) :
    takeString type bs.length fin field s = .ok bs (s.skip (8 * bs.length)) := by
  rw [takeString, bind_ok (take_ok h ha hf hb), reads_bind_run, if_pos (by simpa using hu)]; rfl

/-- A string field that is not UTF-8 (R156, R158): the fault names the field. -/
theorem takeString_bad {s : State} (h : s.ReaderOk) (ha : s.bp % 8 = 0) {type fin : Nat} {bs : List Byte}
    {field : StringField} (hu : stringOk s.cfg.utf8 bs = false) (hf : s.bp + 8 * bs.length ≤ 8 * fin)
    (hb : bytesBits bs <+: s.ahead) :
    takeString type bs.length fin field s =
      .error (.raise (.malformedBlock s.mdIndex type (.notUtf8 field))) (s.skip (8 * bs.length)) := by
  rw [takeString, bind_ok (take_ok h ha hf hb), reads_bind_run, if_neg (by simpa using hu)]; rfl

theorem endAt_ok {s : State} (h : s.ReaderOk) (ha : s.bp % 8 = 0) {type length fin : Nat}
    (hf : s.bp = 8 * fin) : endAt type length fin s = .ok () s := by
  have := pos_of_aligned h ha
  simp only [endAt, reads_bind_run]
  rw [if_pos (by omega)]; rfl

theorem skip_bytes_aligned {s : State} (ha : s.bp % 8 = 0) (n : Nat) : (s.skip (8 * n)).bp % 8 = 0 := by
  rw [State.skip_bp]; omega

/-- Inside a block body: the bytes `bs` come next, and `left` bytes of the declared length remain. -/
structure InBody (s : State) (fin left : Nat) (bs : List Byte) : Prop where
  ready : s.ReaderOk
  aligned : s.bp % 8 = 0
  remain : s.bp + 8 * left = 8 * fin
  next : bytesBits bs <+: s.ahead

/-- What is left of a body after the first of its bytes. -/
theorem InBody.drop {s : State} {fin left : Nat} {a bs : List Byte} (h : InBody s fin left (a ++ bs))
    (hl : a.length ≤ left) : InBody (s.skip (8 * a.length)) fin (left - a.length) bs := by
  have hn := h.next
  rw [bytesBits_append, ahead_append, bytesBits_length] at hn
  have := h.remain
  exact ⟨by simpa using h.ready.after hn.1, skip_bytes_aligned h.aligned _, by simp; omega, hn.2⟩

theorem InBody.first {s : State} {fin left : Nat} {a bs : List Byte} (h : InBody s fin left (a ++ bs)) :
    bytesBits a <+: s.ahead := by
  have hn := h.next
  rw [bytesBits_append, ahead_append] at hn
  exact hn.1

theorem InBody.le32 {s : State} {fin left n : Nat} {bs : List Byte} (h : InBody s fin left (le4 n ++ bs))
    (hn : n < 2 ^ 32) (hl : 4 ≤ left) (type : Nat) :
    takeLe32 type fin s = .ok n (s.skip 32) ∧ InBody (s.skip 32) fin (left - 4) bs := by
  have := h.remain
  exact ⟨takeLe32_ok h.ready h.aligned hn (by omega) h.first, by simpa using h.drop (by simpa using hl)⟩

theorem InBody.be32 {s : State} {fin left n : Nat} {bs : List Byte} (h : InBody s fin left (be4 n ++ bs))
    (hn : n < 2 ^ 32) (hl : 4 ≤ left) (type : Nat) :
    takeBe32 type fin s = .ok n (s.skip 32) ∧ InBody (s.skip 32) fin (left - 4) bs := by
  have := h.remain
  exact ⟨takeBe32_ok h.ready h.aligned hn (by omega) h.first, by simpa using h.drop (by simpa using hl)⟩

theorem InBody.bytes {s : State} {fin left : Nat} {a bs : List Byte} (h : InBody s fin left (a ++ bs))
    (hl : a.length ≤ left) (type : Nat) :
    take type a.length fin s = .ok a (s.skip (8 * a.length)) ∧
      InBody (s.skip (8 * a.length)) fin (left - a.length) bs := by
  have := h.remain
  exact ⟨take_ok h.ready h.aligned (by omega) h.first, h.drop hl⟩

theorem InBody.string {s : State} {fin left : Nat} {a bs : List Byte} (h : InBody s fin left (a ++ bs))
    (hu : stringOk s.cfg.utf8 a = true) (hl : a.length ≤ left) (type : Nat) (field : StringField) :
    takeString type a.length fin field s = .ok a (s.skip (8 * a.length)) ∧
      InBody (s.skip (8 * a.length)) fin (left - a.length) bs := by
  have := h.remain
  exact ⟨takeString_ok h.ready h.aligned hu (by omega) h.first, h.drop hl⟩

theorem InBody.string_bad {s : State} {fin left : Nat} {a bs : List Byte} (h : InBody s fin left (a ++ bs))
    (hu : stringOk s.cfg.utf8 a = false) (hl : a.length ≤ left) (type : Nat) (field : StringField) :
    takeString type a.length fin field s =
      .error (.raise (.malformedBlock s.mdIndex type (.notUtf8 field))) (s.skip (8 * a.length)) := by
  have := h.remain
  exact takeString_bad h.ready h.aligned hu (by omega) h.first

/-- A read of more bytes than the body has left (R154). -/
theorem InBody.over {s : State} {fin left : Nat} {bs : List Byte} (h : InBody s fin left bs) {n : Nat}
    (hl : left < n) (type : Nat) :
    take type n fin s = .error (.raise (.malformedBlock s.mdIndex type (.innerOverrun n left))) s := by
  have h1 := pos_of_aligned h.ready h.aligned
  have h2 := h.remain
  rw [take_over (by omega), show fin - s.br.pos = left by omega]

theorem InBody.over_le32 {s : State} {fin left : Nat} {bs : List Byte} (h : InBody s fin left bs)
    (hl : left < 4) (type : Nat) :
    takeLe32 type fin s = .error (.raise (.malformedBlock s.mdIndex type (.innerOverrun 4 left))) s :=
  bind_error (h.over hl type)

theorem InBody.over_be32 {s : State} {fin left : Nat} {bs : List Byte} (h : InBody s fin left bs)
    (hl : left < 4) (type : Nat) :
    takeBe32 type fin s = .error (.raise (.malformedBlock s.mdIndex type (.innerOverrun 4 left))) s :=
  bind_error (h.over hl type)

theorem InBody.over_string {s : State} {fin left : Nat} {bs : List Byte} (h : InBody s fin left bs)
    {n : Nat} (hl : left < n) (type : Nat) (field : StringField) :
    takeString type n fin field s =
      .error (.raise (.malformedBlock s.mdIndex type (.innerOverrun n left))) s :=
  bind_error (h.over hl type)

/-- Bytes of the body left over (R156, R158). -/
theorem InBody.over_end {s : State} {fin left : Nat} {bs : List Byte} (h : InBody s fin left bs)
    (hl : 0 < left) (type length : Nat) :
    endAt type length fin s = .error (.raise (.malformedBlock s.mdIndex type
      (.leftOver length (s.br.pos - (fin - length))))) s := by
  have h1 := pos_of_aligned h.ready h.aligned
  have h2 := h.remain
  simp only [endAt, reads_bind_run]
  rw [if_neg (by omega)]
  rfl

/-! ### The entries of a VorbisComment -/

theorem splitEntry_join (name value : List Byte) (h : name.contains 0x3D#8 = false) :
    splitEntry (entryBytes (name, value)) = some (name, value) := by
  induction name with
  | nil => rfl
  | cons b name ih =>
    simp only [List.contains_cons, Bool.or_eq_false_iff, beq_eq_false_iff_ne] at h
    have hb : b ≠ 0x3D#8 := fun e => h.1 e.symm
    have := ih (by simpa using h.2)
    simp only [entryBytes, List.cons_append, splitEntry] at this ⊢
    rw [if_neg hb, this]

theorem splitEntry_none (e : List Byte) : splitEntry e = none ↔ e.contains 0x3D#8 = false := by
  induction e with
  | nil => simp [splitEntry]
  | cons b e ih =>
    simp only [splitEntry, List.contains_cons, Bool.or_eq_false_iff, beq_eq_false_iff_ne]
    by_cases hb : b = 0x3D#8
    · simp [hb]
    · rw [if_neg hb, ← ih]
      cases splitEntry e with
      | none => simp; exact fun h => hb h.symm
      | some p => simp

theorem entriesBytes_cons (e : List Byte × List Byte) (es : List (List Byte × List Byte)) :
    entriesBytes (e :: es) = le4 (entryBytes e).length ++ entryBytes e ++ entriesBytes es := rfl

theorem parseEntries_ok {type fin : Nat} (es : List (List Byte × List Byte)) :
    ∀ {s : State} {i : Nat} (_ : s.ReaderOk) (_ : s.bp % 8 = 0)
    (_ : es.all (fun e => !e.1.contains 0x3D#8 && stringOk s.cfg.utf8 (entryBytes e)) = true)
    (_ : (entriesBytes es).length < 2 ^ 24)
    (_ : s.bp + 8 * (entriesBytes es).length ≤ 8 * fin)
    (_ : bytesBits (entriesBytes es) <+: s.ahead),
    parseEntries type fin es.length i s = .ok es (s.skip (8 * (entriesBytes es).length)) := by
  induction es with
  | nil =>
    intro s i h _ _ _ _ _
    simp [parseEntries, entriesBytes, State.skip_zero h]
  | cons e es ih =>
    intro s i h ha hok hlen hf hb
    obtain ⟨name, value⟩ := e
    simp only [List.all_cons, Bool.and_eq_true, Bool.not_eq_true'] at hok
    rw [entriesBytes_cons] at hb hf hlen ⊢
    simp only [List.length_append, le4_length] at hf hlen ⊢
    simp only [bytesBits_append, ahead_append, bytesBits_length, List.length_append, le4_length] at hb
    obtain ⟨⟨b1, b2⟩, b3⟩ := hb
    set L := (entryBytes (name, value)).length with hL
    have o1 : (s.skip 32).ReaderOk := by simpa using h.after b1
    have o2 : ((s.skip 32).skip (8 * L)).ReaderOk := by simpa [hL] using o1.after b2
    have r1 := takeLe32_ok (type := type) (fin := fin) h ha (n := L) (by omega) (by omega) b1
    have r2 := takeString_ok (type := type) (fin := fin) (field := .entry i) o1 (by simp; omega) hok.1.2
      (by simp; omega) b2
    rw [← hL] at r2
    rw [List.length_cons, parseEntries, bind_ok r1, bind_ok r2]
    simp only [splitEntry_join name value hok.1.1]
    have r3 := ih (i := i + 1) o2 (by simp; omega) hok.2 (by omega) (by simp; omega)
      (by simpa [Nat.mul_add] using b3)
    rw [bind_ok r3]
    simp only [pure_run, State.skip_skip]
    congr 2; ring

/-- The first entries of a VorbisComment decode; what the rest does is what all of them do. -/
theorem InBody.entries {type fin : Nat} {bs : List Byte} (es : List (List Byte × List Byte)) :
    ∀ {s : State} {left : Nat} (i count : Nat) (_ : InBody s fin left (entriesBytes es ++ bs))
    (_ : es.all (fun e => !e.1.contains 0x3D#8 && stringOk s.cfg.utf8 (entryBytes e)) = true)
    (_ : (entriesBytes es).length ≤ left) (_ : left < 2 ^ 24),
    InBody (s.skip (8 * (entriesBytes es).length)) fin (left - (entriesBytes es).length) bs ∧
    ∀ {e : Trap} {u : State},
      parseEntries type fin count (i + es.length) (s.skip (8 * (entriesBytes es).length)) = .error e u →
      parseEntries type fin (es.length + count) i s = .error e u := by
  induction es with
  | nil =>
    intro s left i count h _ _ _
    exact ⟨h.drop (a := []) (Nat.zero_le _), fun he => by
      simpa [entriesBytes, State.skip_zero h.ready] using he⟩
  | cons x es ih =>
    intro s left i count h hok hl h24
    obtain ⟨name, value⟩ := x
    simp only [List.all_cons, Bool.and_eq_true, Bool.not_eq_true'] at hok
    rw [entriesBytes_cons] at h hl ⊢
    simp only [List.length_append, le4_length] at hl ⊢
    simp only [List.append_assoc] at h
    obtain ⟨r1, h1⟩ := h.le32 (by omega) (by omega) type
    obtain ⟨r2, h2⟩ := h1.string hok.1.2 (by omega) type (.entry i)
    obtain ⟨h3, r3⟩ := ih (i + 1) count h2 hok.2 (by omega) (by omega)
    have hs : (s.skip 32).skip (8 * (entryBytes (name, value)).length) =
        s.skip (8 * (4 + (entryBytes (name, value)).length)) := by rw [State.skip_skip]; congr 1; omega
    rw [hs, State.skip_skip, ← Nat.mul_add] at h3 r3
    refine ⟨by convert h3 using 1; omega, fun he => ?_⟩
    rw [List.length_cons, Nat.add_right_comm, parseEntries, bind_ok r1, bind_ok r2]
    simp only [splitEntry_join name value hok.1.1]
    rw [hs]
    refine bind_error (r3 ?_)
    rw [← he, List.length_cons]
    congr 1; omega

/-! ### The five variants -/

theorem parseStreaminfo_ok {s : State} (h : s.ReaderOk) (ha : s.bp % 8 = 0) {type : Nat} {last : Bool}
    {si : StreamInfo} (hok : streaminfoOk si = true) (hb : streaminfoBits si <+: s.ahead) :
    parseStreaminfo type 34 last s = .ok (.streamInfo 34 last si) ((s.skip 272).setSi si) := by
  simp only [streaminfoOk, Bool.and_eq_true, decide_eq_true_eq, beq_iff_eq] at hok
  obtain ⟨⟨⟨⟨⟨v1, v2⟩, v3⟩, v4⟩, v5⟩, v6⟩ := hok
  unfold streaminfoBits at hb
  simp only [ahead_append, List.length_append, natBits_length] at hb
  obtain ⟨⟨⟨⟨⟨⟨⟨⟨b1, b2⟩, b3⟩, b4⟩, b5⟩, b6⟩, b7⟩, b8⟩, b9⟩ := hb
  have o1 : (s.skip 16).ReaderOk := by simpa using h.after b1
  have o2 : (s.skip 32).ReaderOk := by simpa using o1.after b2
  have o3 : (s.skip 56).ReaderOk := by simpa using o2.after b3
  have o4 : (s.skip 80).ReaderOk := by simpa using o3.after b4
  have o5 : (s.skip 100).ReaderOk := by simpa using o4.after b5
  have o6 : (s.skip 103).ReaderOk := by simpa using o5.after b6
  have o7 : (s.skip 108).ReaderOk := by simpa using o6.after b7
  have o8 : (s.skip 144).ReaderOk := by simpa using o7.after b8
  have r1 := readUint_field h si.minBlock.isLt b1
  have r2 := readUint_field o1 si.maxBlock.isLt b2
  have r3 := readUint_field o2 si.minFrame.isLt b3
  have r4 := readUint_field o3 si.maxFrame.isLt b4
  have r5 := readUint_field o4 si.sampleRate.isLt b5
  have r6 := readUint_field o5 (n := 3) (v := si.channels - 1) (by omega) b6
  have r7 := readUint_field o6 (n := 5) (v := si.bps - 1) (by omega) b7
  have r8 := readUint_field o7 si.totalSamples.isLt b8
  have r9 : readBytes 16 (s.skip 144) = _ := v6 ▸ readBytes_aligned o8 (by simp; omega) b9
  simp only [State.skip_skip] at r2 r3 r4 r5 r6 r7 r8 r9
  rw [parseStreaminfo, if_pos (show 34 = streaminfoLen from rfl), bind_ok r1, bind_ok r2, bind_ok r3, bind_ok r4, bind_ok r5,
    bind_ok r6, bind_ok r7, bind_ok r8, bind_ok r9]
  have e1 : si.channels - 1 + 1 = si.channels := by omega
  have e2 : si.bps - 1 + 1 = si.bps := by omega
  simp only [e1, e2, writes_bind_run, pure_run, BitVec.ofNat_toNat, BitVec.setWidth_eq]
  rw [← v1]

theorem parseApplication_ok {s : State} (h : s.ReaderOk) (ha : s.bp % 8 = 0) {type : Nat} {last : Bool}
    {id payload : List Byte} (hid : id.length = 4) (hb : bytesBits (id ++ payload) <+: s.ahead) :
    parseApplication type (id.length + payload.length) last s =
      .ok (.application (id.length + payload.length) last id payload)
        (s.skip (8 * (id.length + payload.length))) := by
  rw [bytesBits_append, ahead_append, bytesBits_length] at hb
  have o1 : (s.skip (8 * id.length)).ReaderOk := by simpa using h.after hb.1
  have r1 : readBytes 4 s = _ := hid ▸ readBytes_aligned h ha hb.1
  have r2 := readBytes_aligned o1 (by simp; omega) hb.2
  rw [parseApplication, if_pos (by omega), bind_ok r1,
    show id.length + payload.length - 4 = payload.length by omega, ← hid, bind_ok r2]
  simp [Nat.mul_add]

theorem parseVorbisComment_ok {s : State} (h : s.ReaderOk) (ha : s.bp % 8 = 0) {type fin : Nat}
    {last : Bool} {vendor : List Byte} {entries : List (List Byte × List Byte)}
    (hv : stringOk s.cfg.utf8 vendor = true)
    (he : entries.all (fun e => !e.1.contains 0x3D#8 && stringOk s.cfg.utf8 (entryBytes e)) = true)
    (hl : (vorbisBytes vendor entries).length < 2 ^ 24)
    (hf : s.bp + 8 * (vorbisBytes vendor entries).length = 8 * fin)
    (hb : bytesBits (vorbisBytes vendor entries) <+: s.ahead) :
    parseVorbisComment type (vorbisBytes vendor entries).length fin last s =
      .ok (.vorbisComment (vorbisBytes vendor entries).length last vendor entries)
        (s.skip (8 * (vorbisBytes vendor entries).length)) := by
  have hlen : (vorbisBytes vendor entries).length = 8 + vendor.length + (entriesBytes entries).length := by
    simp [vorbisBytes]; omega
  have hcount : 4 * entries.length ≤ (entriesBytes entries).length := by
    clear he hl hf hb hlen
    induction entries with
    | nil => simp
    | cons e es ih => rw [entriesBytes_cons]; simp; omega
  rw [parseVorbisComment]
  generalize hX : (vorbisBytes vendor entries).length = X at *
  unfold vorbisBytes at hb
  simp only [bytesBits_append, ahead_append, bytesBits_length, List.length_append, le4_length] at hb
  obtain ⟨⟨⟨b1, b2⟩, b3⟩, b4⟩ := hb
  have o1 : (s.skip 32).ReaderOk := by simpa using h.after b1
  have o2 : ((s.skip 32).skip (8 * vendor.length)).ReaderOk := by simpa using o1.after b2
  have r1 := takeLe32_ok (type := type) (fin := fin) h ha (n := vendor.length) (by omega) (by omega) b1
  have r2 := takeString_ok (type := type) (fin := fin) (field := .vendor) o1 (by simp; omega) hv
    (by simp; omega) b2
  have b3' : bytesBits (le4 entries.length) <+: ((s.skip 32).skip (8 * vendor.length)).ahead := by
    simpa [Nat.mul_add] using b3
  have o3 : (((s.skip 32).skip (8 * vendor.length)).skip 32).ReaderOk := by simpa using o2.after b3'
  have r3 := takeLe32_ok (type := type) (fin := fin) o2 (by simp; omega) (n := entries.length)
    (by omega) (by simp; omega) b3'
  have r4 := parseEntries_ok (type := type) (fin := fin) entries (i := 0) o3 (by simp; omega) he
    (by omega) (by simp; omega) (by
      have : 32 + 8 * vendor.length + 32 = 8 * (4 + vendor.length + 4) := by ring
      simpa [this] using b4)
  have b4' : bytesBits (entriesBytes entries) <+: (((s.skip 32).skip (8 * vendor.length)).skip 32).ahead := by
    have : 32 + 8 * vendor.length + 32 = 8 * (4 + vendor.length + 4) := by ring
    simpa [this] using b4
  have o4 := o3.after b4'
  rw [bytesBits_length] at o4
  rw [bind_ok r1, bind_ok r2, bind_ok r3, bind_ok r4,
    bind_ok (endAt_ok o4 (by simp; omega) (by simp; omega))]
  simp only [pure_run, State.skip_skip]
  congr 2; omega

theorem parsePicture_ok {s : State} (h : s.ReaderOk) (ha : s.bp % 8 = 0) {type fin : Nat} {last : Bool}
    {t w hh d c : Nat} {m ds data : List Byte} (ht : t ≤ picTypeMax)
    (hm : stringOk s.cfg.utf8 m = true) (hd : stringOk s.cfg.utf8 ds = true) (h1 : w < 2 ^ 32) (h2 : hh < 2 ^ 32)
    (h3 : d < 2 ^ 32) (h4 : c < 2 ^ 32)
    (hl : (pictureBytes t m ds w hh d c data).length < 2 ^ 24)
    (hf : s.bp + 8 * (pictureBytes t m ds w hh d c data).length = 8 * fin)
    (hb : bytesBits (pictureBytes t m ds w hh d c data) <+: s.ahead) :
    parsePicture type (pictureBytes t m ds w hh d c data).length fin last s =
      .ok (.picture (pictureBytes t m ds w hh d c data).length last t m ds w hh d c data)
        (s.skip (8 * (pictureBytes t m ds w hh d c data).length)) := by
  have hlen : (pictureBytes t m ds w hh d c data).length = 32 + m.length + ds.length + data.length := by
    simp [pictureBytes]; omega
  have htt : t < 2 ^ 32 := by have : picTypeMax = 20 := rfl; omega
  rw [parsePicture]
  generalize hX : (pictureBytes t m ds w hh d c data).length = X at *
  unfold pictureBytes at hb
  simp only [bytesBits_append, ahead_append, bytesBits_length, List.length_append, be4_length] at hb
  obtain ⟨⟨⟨⟨⟨⟨⟨⟨⟨⟨b1, b2⟩, b3⟩, b4⟩, b5⟩, b6⟩, b7⟩, b8⟩, b9⟩, b10⟩, b11⟩ := hb
  have o1 := h.after b1
  have r1 := takeBe32_ok (type := type) (fin := fin) h ha htt (by omega) b1
  have r2 := takeBe32_ok (type := type) (fin := fin) (n := m.length) (by simpa using o1) (by simp; omega)
    (by omega) (by simp; omega) b2
  have o2 := (by simpa using o1 : (s.skip (8 * 4)).ReaderOk).after b2
  simp only [State.skip_skip, bytesBits_length, be4_length] at o2
  have r3 := takeString_ok (type := type) (fin := fin) (field := .mime) o2 (by simp; omega) hm
    (by simp; omega)
    (by simpa [Nat.mul_add] using b3)
  have o3 := o2.after (by simpa [Nat.mul_add] using b3)
  simp only [State.skip_skip, bytesBits_length] at o3
  have r4 := takeBe32_ok (type := type) (fin := fin) (n := ds.length) o3 (by simp; omega) (by omega)
    (by simp; omega) (by simpa [Nat.mul_add] using b4)
  have o4 := o3.after (by simpa [Nat.mul_add] using b4)
  simp only [State.skip_skip, bytesBits_length, be4_length] at o4
  have r5 := takeString_ok (type := type) (fin := fin) (field := .description) o4 (by simp; omega) hd
    (by simp; omega)
    (by simpa [Nat.mul_add] using b5)
  have o5 := o4.after (by simpa [Nat.mul_add] using b5)
  simp only [State.skip_skip, bytesBits_length] at o5
  have r6 := takeBe32_ok (type := type) (fin := fin) o5 (by simp; omega) h1 (by simp; omega)
    (by simpa [Nat.mul_add] using b6)
  have o6 := o5.after (by simpa [Nat.mul_add] using b6)
  simp only [State.skip_skip, bytesBits_length, be4_length] at o6
  have r7 := takeBe32_ok (type := type) (fin := fin) o6 (by simp; omega) h2 (by simp; omega)
    (by simpa [Nat.mul_add] using b7)
  have o7 := o6.after (by simpa [Nat.mul_add] using b7)
  simp only [State.skip_skip, bytesBits_length, be4_length] at o7
  have r8 := takeBe32_ok (type := type) (fin := fin) o7 (by simp; omega) h3 (by simp; omega)
    (by simpa [Nat.mul_add] using b8)
  have o8 := o7.after (by simpa [Nat.mul_add] using b8)
  simp only [State.skip_skip, bytesBits_length, be4_length] at o8
  have r9 := takeBe32_ok (type := type) (fin := fin) o8 (by simp; omega) h4 (by simp; omega)
    (by simpa [Nat.mul_add] using b9)
  have o9 := o8.after (by simpa [Nat.mul_add] using b9)
  simp only [State.skip_skip, bytesBits_length, be4_length] at o9
  have r10 := takeBe32_ok (type := type) (fin := fin) (n := data.length) o9 (by simp; omega) (by omega)
    (by simp; omega) (by simpa [Nat.mul_add] using b10)
  have o10 := o9.after (by simpa [Nat.mul_add] using b10)
  simp only [State.skip_skip, bytesBits_length, be4_length] at o10
  have r11 := take_ok (type := type) (fin := fin) (bs := data) o10 (by simp; omega) (by simp; omega)
    (by simpa [Nat.mul_add] using b11)
  have o11 := o10.after (by simpa [Nat.mul_add] using b11)
  simp only [State.skip_skip, bytesBits_length] at o11
  rw [bind_ok r1, if_pos ht]
  simp only [State.skip_skip] at *
  rw [bind_ok r2, bind_ok r3, bind_ok r4, bind_ok r5, bind_ok r6, bind_ok r7, bind_ok r8, bind_ok r9,
    bind_ok r10, bind_ok r11, bind_ok (endAt_ok o11 (by simp; omega) (by simp; omega))]
  simp only [pure_run]
  congr 2; omega

theorem parseUnknown_ok {s : State} (h : s.ReaderOk) (ha : s.bp % 8 = 0) {last : Bool} {data : List Byte}
    (hb : bytesBits data <+: s.ahead) :
    parseUnknown data.length last s = .ok (.unknown data.length last) (s.skip (8 * data.length)) := by
  rw [parseUnknown, bind_ok (readBytes_aligned h ha hb)]; rfl

/-! ### A block -/

theorem Content.bits_length {rule : Utf8Rule} {c : Content} (h : c.fits rule = true) : c.bits.length = 8 * c.length := by
  cases c with
  | streaminfo si =>
    simp only [Content.fits, streaminfoOk, Bool.and_eq_true, decide_eq_true_eq, beq_iff_eq] at h
    simp [Content.bits, streaminfoBits, Content.length, h.2.2]
  | application id payload => simp [Content.bits, Content.length]; ring
  | vorbisComment v e => simp only [Content.bits, Content.length, bytesBits_length]
  | picture => simp only [Content.bits, Content.length, bytesBits_length]
  | unknown => simp only [Content.bits, Content.length, bytesBits_length]

/-- Whether a block may stand at an index (R153). -/
theorem firstBlockTest_ok {s : State} {c : Content} {type : Nat}
    (hi : c.isStreaminfo = decide (s.mdIndex = 0)) : firstBlockTest c.kind type s = .ok () s := by
  simp only [firstBlockTest, reads_bind_run]
  rw [if_neg, if_neg]
  · rfl
  · rintro ⟨h1, h2⟩
    cases c <;> simp [Content.kind, Content.isStreaminfo] at h2 hi
    omega
  · rintro ⟨h1, h2⟩
    cases c <;> simp [Content.kind, Content.isStreaminfo, h1] at h2 hi

/-- A block after its header word, on the bits of its body (R151). -/
theorem blockElement_ok {s : State} (h : s.ReaderOk) (ha : s.bp % 8 = 0) {b : Block} {type : Nat}
    (hc : b.content.fits s.cfg.utf8 = true) (hi : b.content.isStreaminfo = decide (s.mdIndex = 0))
    (hb : b.content.bits <+: s.ahead) :
    blockElement b.content.kind type b.last b.content.length s =
      .ok () (b.effect (s.skip b.content.bits.length)) := by
  have hp := pos_of_aligned h ha
  rw [Content.bits_length hc]
  simp only [blockElement]
  rw [bind_ok (firstBlockTest_ok hi)]
  simp only [reads_bind_run]
  obtain ⟨last, content⟩ := b
  simp only [Content.fits, Bool.and_eq_true, decide_eq_true_eq] at hc
  obtain ⟨hl, hc⟩ := hc
  cases content with
  | streaminfo si =>
    simp only [Content.kind, Content.length, blockBody]
    rw [bind_ok (parseStreaminfo_ok h ha hc hb)]
    cases last <;> simp [Block.effect, Block.record]
  | application id payload =>
    simp only [beq_iff_eq] at hc
    simp only [Content.kind, Content.length, blockBody]
    rw [bind_ok (parseApplication_ok h ha hc hb)]
    cases last <;> simp [Block.effect, Block.record, Content.length]
  | vorbisComment vendor entries =>
    simp only [Bool.and_eq_true] at hc
    simp only [Content.kind, Content.length, blockBody]
    simp only [Content.length] at hl
    rw [bind_ok (parseVorbisComment_ok h ha hc.1 hc.2 hl (by omega) hb)]
    cases last <;> simp [Block.effect, Block.record, Content.length]
  | picture t m d w hh dp cl data =>
    simp only [Bool.and_eq_true, decide_eq_true_eq] at hc
    obtain ⟨⟨⟨⟨⟨⟨c1, c2⟩, c3⟩, c4⟩, c5⟩, c6⟩, c7⟩ := hc
    simp only [Content.kind, Content.length, blockBody]
    simp only [Content.length] at hl
    rw [bind_ok (parsePicture_ok h ha c1 c2 c3 c4 c5 c6 c7 hl (by omega) hb)]
    cases last <;> simp [Block.effect, Block.record, Content.length]
  | unknown t data =>
    simp only [Content.kind, Content.length, blockBody]
    rw [bind_ok (parseUnknown_ok h ha hb)]
    cases last <;> simp [Block.effect, Block.record, Content.length]

/-- A fault inside the body of a later block ends the block (R151, R154). -/
theorem blockElement_error {s u : State} {kind : BlockKind} {type length : Nat} {last : Bool} {e : Trap}
    (hk : kind ≠ .streaminfo) (hi : 0 < s.mdIndex)
    (h : blockBody kind type length (s.br.pos + length) last s = .error e u) :
    blockElement kind type last length s = .error e u := by
  have hf : firstBlockTest kind type s = .ok () s := by
    simp only [firstBlockTest, reads_bind_run]
    rw [if_neg (by omega), if_neg (fun h => hk h.2)]; rfl
  simp only [blockElement]
  rw [bind_ok hf]
  simp only [reads_bind_run]
  rw [bind_error h]

theorem blockKind_type {cfg : Config} {c : Content} (hc : c.ok cfg = true) :
    blockKind cfg (c.type cfg) = c.kind := by
  simp only [Content.ok, Bool.and_eq_true, beq_iff_eq] at hc
  exact hc.1

theorem Content.ok_fits {cfg : Config} {c : Content} (hc : c.ok cfg = true) : c.fits cfg.utf8 = true := by
  simp only [Content.ok, Bool.and_eq_true] at hc
  exact hc.2

theorem Block.bits_length {cfg : Config} {b : Block} (hc : b.content.ok cfg = true) :
    (b.bits cfg).length = 32 + 8 * b.content.length := by
  simp [Block.bits, Content.bits_length (Content.ok_fits hc)]; omega

theorem Block.effect_skip (b : Block) (s : State) (n : Nat) :
    (b.effect s).skip n = b.effect (s.skip n) := by
  obtain ⟨last, c⟩ := b
  cases last <;> cases c <;> rfl

theorem Block.effect_src (b : Block) (s : State) : (b.effect s).src = s.src := by
  obtain ⟨last, c⟩ := b
  cases last <;> cases c <;> rfl

theorem Block.effect_br (b : Block) (s : State) : (b.effect s).br = s.br := by
  obtain ⟨last, c⟩ := b
  cases last <;> cases c <;> rfl

theorem Block.effect_cfg (b : Block) (s : State) : (b.effect s).cfg = s.cfg := by
  obtain ⟨last, c⟩ := b
  cases last <;> cases c <;> rfl

theorem Block.effect_mdIndex (b : Block) (s : State) : (b.effect s).mdIndex = s.mdIndex + 1 := by
  obtain ⟨last, c⟩ := b
  cases last <;> cases c <;> rfl

/-- One pass of PARSE_METADATA on the bits of a block (R151). -/
theorem parseBlock_ok {s : State} (h : s.ReaderOk) (ha : s.bp % 8 = 0) {b : Block}
    (hc : b.content.ok s.cfg = true) (hi : b.content.isStreaminfo = decide (s.mdIndex = 0))
    (hb : b.bits s.cfg <+: s.ahead) :
    parseBlock s = .ok b.last (b.effect (s.skip (b.bits s.cfg).length)) := by
  have hl : b.content.length < 2 ^ 24 := by
    have := Content.ok_fits hc
    simp only [Content.fits, Bool.and_eq_true, decide_eq_true_eq] at this; exact this.1
  have hb' : [b.last] ++ natBits 7 (b.content.type s.cfg).toNat ++ natBits 24 b.content.length ++
      b.content.bits <+: s.ahead := by simpa [Block.bits] using hb
  simp only [ahead_append, List.length_append, natBits_length, List.length_singleton] at hb'
  obtain ⟨⟨⟨b1, b2⟩, b3⟩, b4⟩ := hb'
  have o1 : (s.skip 1).ReaderOk := h.after b1
  have o2 : (s.skip 8).ReaderOk := by simpa using o1.after b2
  have o3 : (s.skip 32).ReaderOk := by simpa using o2.after b3
  have r1 := readUint_bit h b1
  have r2 := readUint_field o1 (b.content.type s.cfg).isLt b2
  have r3 := readUint_field o2 hl b3
  simp only [State.skip_skip] at r2 r3
  have hlast : (b.last.toNat == 1) = b.last := by cases b.last <;> rfl
  rw [parseBlock, bind_ok r1, bind_ok r2, bind_ok r3]
  simp only [reads_bind_run, State.skip_cfg, BitVec.ofNat_toNat, BitVec.setWidth_eq, hlast, blockKind_type hc]
  rw [bind_ok (blockElement_ok o3 (by simp; omega) (Content.ok_fits hc) hi b4)]
  simp only [pure_run, State.skip_skip, Block.bits_length hc, Content.bits_length (Content.ok_fits hc)]

/-- PARSE_METADATA on the bits of its blocks (R151). -/
theorem parseMetadata_ok (bs : List Block) : ∀ {s : State} {fuel : Nat} (_ : s.ReaderOk)
    (_ : s.bp % 8 = 0) (_ : bs.all (fun x => x.content.ok s.cfg) = true) (_ : bs.length ≤ fuel) (_ : bs ≠ [])
    (_ : bs.map (fun x => x.last) = List.replicate (bs.length - 1) false ++ [true])
    (_ : bs.map (fun x => x.content.isStreaminfo) = (decide (s.mdIndex = 0)) ::
      List.replicate (bs.length - 1) false)
    (_ : bs.flatMap (Block.bits s.cfg) <+: s.ahead),
    parseMetadata fuel s = .ok () (bs.foldl (fun t b => b.effect t) (s.skip (bs.flatMap (Block.bits s.cfg)).length)) := by
  induction bs with
  | nil => intro s fuel _ _ _ _ hne; exact absurd rfl hne
  | cons b bs ih =>
    intro s fuel h ha hok hf _ hlast hsi hb
    simp only [List.all_cons, Bool.and_eq_true] at hok
    rw [List.flatMap_cons, ahead_append] at hb
    simp only [List.map_cons, List.cons.injEq] at hsi
    obtain ⟨f, rfl⟩ := Nat.exists_eq_succ_of_ne_zero (by simp at hf; omega : fuel ≠ 0)
    have r := parseBlock_ok h ha hok.1 hsi.1 hb.1
    have o := h.after hb.1
    rw [parseMetadata, bind_ok r]
    cases bs with
    | nil =>
      simp at hlast
      simp [hlast]
    | cons b2 bs =>
      have hl : b.last = false := by
        simp [List.replicate_succ] at hlast; exact hlast.1
      rw [hl]
      have hidx := Block.effect_mdIndex b (s.skip (b.bits s.cfg).length)
      have o' : (b.effect (s.skip (b.bits s.cfg).length)).ReaderOk :=
        ReaderOk_congr (Block.effect_src _ _) (Block.effect_br _ _) o
      have hcf : (b.effect (s.skip (b.bits s.cfg).length)).cfg = s.cfg := Block.effect_cfg _ _
      have hah : (b.effect (s.skip (b.bits s.cfg).length)).ahead = (s.skip (b.bits s.cfg).length).ahead :=
        ahead_congr (Block.effect_src _ _) (Block.effect_br _ _)
      have hbp : (b.effect (s.skip (b.bits s.cfg).length)).bp = s.bp + (b.bits s.cfg).length := by
        rw [← State.skip_bp]; unfold State.bp; rw [Block.effect_br]
      rw [if_neg (by simp), ih o' (by rw [hbp, Block.bits_length hok.1]; omega) (by rw [hcf]; exact hok.2)
        (by simp at hf ⊢; omega) (by simp)
        (by simpa [List.replicate_succ, hl] using hlast)
        (by
          rw [hidx]
          have h2 := hsi.2
          simp only [List.length_cons, Nat.add_one_sub_one, List.replicate_succ] at h2 ⊢
          simpa using h2)
        (by rw [hah, hcf]; exact hb.2), hcf]
      rw [Block.effect_skip, State.skip_skip]
      simp

end Sys2Proof.Machine
end

