-- ==== Sys2Proof/Laws/Stream.lean ====
section
/-! SUPPORT. The three commands on the bits of a stream (R286 to R290, R294). -/

namespace Sys2Proof.Machine

open Sys2Proof

/-! ### OPEN -/

theorem checkMagic_ok {s : State} (h : s.ReaderOk) (ha : s.bp % 8 = 0)
    (hb : bytesBits [0x66#8, 0x4C#8, 0x61#8, 0x43#8] <+: s.ahead) :
    checkMagic s = .ok () (s.skip 32) := by
  have r : readBytes 4 s = _ := readBytes_aligned h ha hb
  rw [checkMagic, bind_ok r, if_pos rfl]; rfl

theorem checkMagic_bad {s : State} (h : s.ReaderOk) (ha : s.bp % 8 = 0) {m : List Byte}
    (hm : m.length = 4) (hne : m ≠ [0x66#8, 0x4C#8, 0x61#8, 0x43#8]) (hb : bytesBits m <+: s.ahead) :
    checkMagic s = .error (.raise (.notAFlacStream m)) (s.skip 32) := by
  have r : readBytes 4 s = _ := hm ▸ readBytes_aligned h ha hb
  rw [checkMagic, bind_ok r, if_neg hne]; rfl

theorem checkMagic_short {s : State} (hs : s.srcLen < s.br.pos + 4) :
    checkMagic s = .error (.raise (.unexpectedEnd s.br.pos 4)) s.dropBits := by
  rw [checkMagic, bind_error (readBytes_end hs)]

/-- A state in which OPEN finds the reader at the start of the source (R50, R287). -/
theorem openStart_ok {s : State} (hbr : s.br = ⟨0, 0, 0⟩) (src : List Byte) :
    ((s.setSrc (Memory.ofBytes src)).setPhase .metadata).ReaderOk := by
  refine ⟨by simp, ?_, by simp [State.bp, hbr]⟩
  have : ((s.setSrc (Memory.ofBytes src)).setPhase .metadata).bp = 8 * 0 := by simp [State.bp, hbr]
  rw [this, readerAt_aligned]; simpa using hbr

theorem openStart_ahead {s : State} (hbr : s.br = ⟨0, 0, 0⟩) (src : List Byte) :
    ((s.setSrc (Memory.ofBytes src)).setPhase .metadata).ahead = bytesBits src := by
  simp [State.ahead, State.bp, hbr]

theorem openStream_ok {s : State} (hbr : s.br = ⟨0, 0, 0⟩) (hi : s.mdIndex = 0) {src : List Byte}
    {bs : List Block} (hm : metadataOk s.cfg bs = true) (hb : headBits s.cfg bs <+: bytesBits src) :
    openStream src s = .ok () (bs.foldl (fun t b => b.effect t)
      (((s.setSrc (Memory.ofBytes src)).setPhase .metadata).skip (headBits s.cfg bs).length)) := by
  have h := openStart_ok hbr src
  have hah := openStart_ahead hbr src
  simp only [openStream, writes_bind_run]
  set u := (s.setSrc (Memory.ofBytes src)).setPhase .metadata with hu
  have hbp : u.bp = 0 := by simp [hu, State.bp, hbr]
  have hui : u.mdIndex = 0 := by simp [hu, hi]
  have hcf : u.cfg = s.cfg := rfl
  rw [← hah] at hb
  unfold headBits at hb
  rw [ahead_append] at hb
  rw [bind_ok (checkMagic_ok h (by simp [hbp]) hb.1)]
  simp only [reads_bind_run]
  have o := h.after hb.1
  have b2 := hb.2
  cases bs with
  | nil => simp [metadataOk] at hm
  | cons b rest =>
    simp only [metadataOk, Bool.and_eq_true, beq_iff_eq] at hm
    obtain ⟨⟨⟨m1, m2⟩, m3⟩, m4⟩ := hm
    have hlen : ((b :: rest).flatMap (Block.bits s.cfg)).length ≤ 8 * u.srcLen := by
      have := b2.length_le
      rw [State.ahead_length] at this; simp at this ⊢; omega
    have h4 : ∀ l : List Block, l.all (fun x => x.content.ok s.cfg) = true →
        32 * l.length ≤ (l.flatMap (Block.bits s.cfg)).length := by
      intro l hl
      induction l with
      | nil => simp
      | cons x xs ih =>
        simp only [List.all_cons, Bool.and_eq_true] at hl
        have := ih hl.2
        simp only [List.flatMap_cons, List.length_append, List.length_cons, Block.bits_length hl.1]
        omega
    have := h4 _ m2
    have r := parseMetadata_ok (b :: rest) (s := u.skip 32) (fuel := u.srcLen + 1)
      (by simpa using o) (by simp [hbp]) m2 (by omega) (by simp)
      (by simpa using m4)
      (by
        simp only [State.skip_mdIndex, hui, decide_true, List.map_cons, List.length_cons,
          Nat.add_one_sub_one, List.cons.injEq]
        refine ⟨m1, ?_⟩
        clear m4 hlen this m2 h4 b2 hb
        induction rest with
        | nil => rfl
        | cons x xs ih =>
          simp only [List.all_cons, Bool.and_eq_true, Bool.not_eq_true'] at m3
          simp [List.replicate_succ, m3.1, ih m3.2])
      (by simpa [hcf] using b2)
    simp only [State.skip_srcLen]
    rw [r, State.skip_skip, headBits, List.length_append, bytesBits_length]
    rfl

/-! ### What the blocks leave -/

theorem effects_frame (bs : List Block) (s : State) :
    (bs.foldl (fun t b => b.effect t) s).src = s.src ∧ (bs.foldl (fun t b => b.effect t) s).br = s.br ∧
    (bs.foldl (fun t b => b.effect t) s).metas = s.metas ++ bs.map Block.record ∧
    (bs.foldl (fun t b => b.effect t) s).mdIndex = s.mdIndex + bs.length := by
  induction bs generalizing s with
  | nil => simp
  | cons b bs ih =>
    obtain ⟨h1, h2, h3, h4⟩ := ih (b.effect s)
    simp only [List.foldl_cons, h1, h2, h3, h4, Block.effect_src, Block.effect_br,
      Block.effect_mdIndex]
    refine ⟨trivial, trivial, ?_, by simp; omega⟩
    have : (b.effect s).metas = s.metas ++ [b.record] := by
      obtain ⟨last, c⟩ := b
      cases last <;> cases c <;> rfl
    simp [this]

theorem effect_si (b : Block) (s : State) (h : b.content.isStreaminfo = false) :
    (b.effect s).si = s.si := by
  obtain ⟨last, c⟩ := b
  cases c <;> cases last <;> simp_all [Content.isStreaminfo, Block.effect, State.addRecord]

theorem effects_si (bs : List Block) (s : State)
    (h : bs.all (fun x => !x.content.isStreaminfo) = true) :
    (bs.foldl (fun t b => b.effect t) s).si = s.si := by
  induction bs generalizing s with
  | nil => rfl
  | cons b bs ih =>
    simp only [List.all_cons, Bool.and_eq_true, Bool.not_eq_true'] at h
    rw [List.foldl_cons, ih _ h.2, effect_si b s h.1]

theorem effect_phase (b : Block) (s : State) :
    (b.effect s).phase = if b.last then .frames else s.phase := by
  obtain ⟨last, c⟩ := b
  cases last <;> cases c <;> rfl

theorem effects_phase (bs : List Block) (s : State)
    (h : bs.map (fun x => x.last) = List.replicate (bs.length - 1) false ++ [true]) :
    (bs.foldl (fun t b => b.effect t) s).phase = .frames := by
  induction bs generalizing s with
  | nil => simp at h
  | cons b bs ih =>
    cases bs with
    | nil => simp at h; simp [effect_phase, h]
    | cons b2 bs =>
      rw [List.foldl_cons]
      apply ih
      simp [List.replicate_succ] at h
      simpa using h.2

/-! ### PULL -/

theorem pullFrame_frame {s : State} (h : s.ReaderOk) {f : Frame} (hp : s.phase = .frames)
    (hal : s.bp % 8 = 0) (hv : s.si.valid = true) (hf : f.ok s.si.bps = true)
    (ha : f.bits s.si.bps <+: s.ahead) :
    pullFrame s = .ok .frame ((s.withFrame f s.si.bps).setOut (f.out s.cfg.fixedCoef)) := by
  have hlen := ha.length_le
  have hpos : 0 < (f.bits s.si.bps).length := by simp [Frame.bits, Frame.fixedBits]
  rw [State.ahead_length] at hlen
  have hne : (s.setOut .none).atEnd = false := by
    have := h.pos_eq
    simp [State.atEnd]
    intro _
    omega
  simp only [pullFrame, reads_bind_run, hp, writes_bind_run, decodeFrame]
  simp only [bind_assoc, reads_bind_run, hne]
  simp only [Bool.false_eq_true, if_false, bind_assoc]
  rw [bind_ok (decodeFrameBody_code (f := f) (s := s.setOut .none) (by simpa using h) (by simpa using hal)
    (by simpa using hv) (by simpa using hf) (by simpa using ha))]
  simp [State.withFrame]

theorem withFrame_next {s : State} (h : s.ReaderOk) {f : Frame} {b : Nat}
    (ha : f.bits b <+: s.ahead) :
    (s.withFrame f b).ReaderOk ∧ (s.withFrame f b).ahead = s.ahead.drop (f.bits b).length ∧
    (s.withFrame f b).bp = s.bp + (f.bits b).length := by
  refine ⟨?_, ?_, ?_⟩
  · simpa [State.withFrame] using h.after ha
  · simp [State.withFrame]
  · simp [State.withFrame]

theorem Frame.bits_aligned {f : Frame} {b : Nat} (hf : f.ok b = true) : (f.bits b).length % 8 = 0 := by
  simp only [Frame.ok, Bool.and_eq_true, decide_eq_true_eq, beq_iff_eq, bne_iff_ne] at hf
  obtain ⟨⟨⟨⟨⟨⟨⟨h1, h2⟩, h3⟩, h4⟩, h5⟩, h6⟩, h7⟩, h8⟩ := hf
  have w1 : bsxWidth f.bsc.toNat % 8 = 0 := by unfold bsxWidth; split_ifs <;> rfl
  have w2 : ∀ c < 16, srxWidth c % 8 = 0 := by decide
  have w2 := w2 f.src.toNat f.src.isLt
  simp [Frame.bits, fixedBits_length, Frame.variableBits]
  omega

theorem pullFrame_end {s : State} (hp : s.phase = .frames) (he : s.atEnd = true) :
    pullFrame s = .ok .endOfStream ((s.setPhase .endOfStream).setOut .endOfStream) := by
  have he' : (s.setOut .none).atEnd = true := by simpa [State.atEnd, State.aligned, State.srcLen] using he
  simp only [pullFrame, reads_bind_run, hp, writes_bind_run, decodeFrame]
  simp only [bind_assoc, reads_bind_run, he', if_true, pure_bind, Bool.false_eq_true, if_false,
    writes_bind_run]
  rfl

end Sys2Proof.Machine
end

