-- ==== Sys2Proof/Laws/Fetch.lean ====
section
/-! SUPPORT. What fetching a request keeps, what it reads, and one step as fetch and run. -/

namespace Sys2Proof.Machine

open Sys2Proof

variable {V : State → State} {P : State → Prop}

theorem peek_keeps {α : Type} {m : M α} (hm : Keeps V P m Any2) : Keeps V P (peek m) Any2 := by
  intro s h hp
  unfold peek
  rcases hm s h hp with ⟨a, t, e, _⟩ | ⟨d, t, e, hpos, hv⟩
  · rw [e]; exact .inl ⟨a, s, rfl, h, le_rfl, le_rfl, rfl, trivial⟩
  · rw [e]; exact .inr ⟨d, t, rfl, hpos, hv⟩

theorem headerWord_keeps (hV : HidesBr V) : Keeps V P headerWord Any2 :=
  (readUint_keeps hV _).bind fun _ => (readUint_keeps hV _).bind fun _ =>
    (readUint_keeps hV _).bind fun _ => .pure fun _ _ => trivial

/-- A read that succeeds, without its effect. -/
theorem peek_ok {α : Type} {m : M α} {s t : State} {a : α} (h : m s = .ok a t) : peek m s = .ok a s := by
  unfold peek; rw [h]

/-- The MBH word is the next 32 bits. -/
theorem headerWord_run {s : State} (h : s.ReaderOk) (hn : 32 ≤ s.ahead.length) :
    headerWord s = .ok (bitsNat (s.ahead.take 32)) (s.skip 32) := by
  have split : ∀ a b, a + b ≤ s.ahead.length → bitsNat (s.ahead.take (a + b)) =
      bitsNat (s.ahead.take a) * 2 ^ b + bitsNat ((s.ahead.drop a).take b) := by
    intro a b hl
    rw [List.take_add, bitsNat_append]; congr 3; simp; omega
  have e1 := split 8 24 (by omega)
  have e2 := split 1 7 (by omega)
  rw [headerWord, bind_ok (readUint_run h (n := 1) (by omega)),
    bind_ok (readUint_run (h.skip (by omega)) (n := 7) (by simp; omega)), State.skip_skip,
    bind_ok (readUint_run (h.skip (by omega)) (n := 24) (by simp; omega)), State.skip_skip, pure_run]
  simp only [State.skip_ahead]
  congr 1
  simp only [show (8 : Nat) + 24 = 32 from rfl, show (1 : Nat) + 7 = 8 from rfl] at e1 e2 ⊢
  rw [e1, e2]; ring

theorem fetchWord_keeps (hV : HidesBr V) (c : Ctx) : Keeps V P (fetchWord c) Any2 := by
  have p : ∀ {R : State → Prop} (n : Nat), Keeps V R (pure n : M Nat) Any2 := fun _ => .pure fun _ _ => trivial
  cases c with
  | magic => exact peek_keeps (readUint_keeps hV 32)
  | blockHeader => exact p 0
  | block =>
    refine (peek_keeps (headerWord_keeps hV)).bind fun w => (reads_any _).bind fun cfg => ?_
    cases blockRow cfg w with
    | some _ => exact headerWord_keeps hV
    | none => exact p w
  | frameHeader => exact (peek_keeps (readUint_keeps hV 14)).bind fun _ => p _
  | number => exact readUint_keeps hV 8
  | blockSize => exact (reads_any _).bind fun _ => p _
  | sampleRate => exact (reads_any _).bind fun _ => p _
  | headerCrc => exact p 0
  | channels => exact (reads_any _).bind fun _ => p _
  | footer => exact p 0
  | subframe => exact (readUint_keeps hV _).bind fun _ => (readUint_keeps hV _).bind fun _ => p _
  | wasted => exact p 1
  | method => exact (readUint_keeps hV _).bind fun _ => p _
  | porder => exact p 0
  | param4 => exact (readUint_keeps hV _).bind fun _ => p _
  | param5 => exact (readUint_keeps hV _).bind fun _ => p _
  | rice => exact p 1

theorem fetchElement_keeps (hV : HidesBr V) (c : Ctx) : Keeps V P (fetchElement c) Any2 := by
  refine (fetchWord_keeps hV c).bind fun w => (reads_any _).bind fun cfg => ?_
  show Keeps V _ (match decode cfg c w with
    | .ok i => (pure i : M Instr)
    | .error r => trap (rejectTrap r)) Any2
  cases hd : decode cfg c w with
  | ok i => exact .pure fun _ _ => trivial
  | error r =>
    cases r with
    | notTheMarker x => exact .raise
    | badSync x => exact .raise

theorem fetch_live {s : State} (hh : s.halted = false) (c : Ctx) : fetch (.element c) s = fetchElement c s := by
  simp only [fetch, reads_bind_run, hh, Bool.false_eq_true, if_false]

theorem fetch_halted {s : State} (hh : s.halted = true) (c : Ctx) :
    fetch (.element c) s = .error .notAccepted s := by
  simp only [fetch, reads_bind_run, hh, if_true, trap_run]

/-- With no fault latched a request is fetched or faults; only the reader moves. -/
theorem fetch_keeps (hV : HidesBr V) (r : Request) :
    Keeps V (fun s => s.halted = false) (fetch r) Any2 := by
  cases r with
  | call i => exact .pure fun _ _ => trivial
  | element c =>
    intro s hs hh
    rw [fetch_live hh]
    exact fetchElement_keeps (P := Any) hV c s hs trivial

theorem step_nil {s : State} (h : s.port = []) : step s = .next s := by rw [step, h]

theorem step_cons {s : State} {r : Request} {rest : List Request} (h : s.port = r :: rest) :
    step s = match fetch r (s.setPort rest) with
      | .ok i t => exec i t
      | .error e t => finishTrap e t := by
  cases s
  dsimp only at h
  subst h
  rfl

theorem fetchElement_ok {c : Ctx} {s t : State} {w : Nat} {i : Instr} (h : fetchWord c s = .ok w t)
    (hd : decode t.cfg c w = .ok i) : fetchElement c s = .ok i t := by
  rw [fetchElement, bind_ok h, reads_bind_run, hd]; rfl

theorem fetchWord_cfg {c : Ctx} {s t : State} {w : Nat} (hs : s.ReaderOk) (h : fetchWord c s = .ok w t) :
    t.cfg = s.cfg := by
  have := fetchWord_keeps (V := fun s => s.setBr ⟨0, 0, 0⟩) (P := Any) (fun _ _ => rfl) c s hs trivial
  rcases this with ⟨_, u, e, _, _, _, hv, _⟩ | ⟨_, u, e, _, hv⟩
  · rw [h] at e; cases e
    exact congrArg (fun u => u.cfg) (show t.setBr ⟨0, 0, 0⟩ = s.setBr ⟨0, 0, 0⟩ from hv)
  · rw [h] at e; cases e

/-- A step at a grammar position, once its word is fetched and decodes. -/
theorem step_element {s t : State} {c : Ctx} {rest : List Request} {w : Nat} {i : Instr}
    (hh : s.halted = false) (hp : s.port = .element c :: rest) (h : fetchWord c (s.setPort rest) = .ok w t)
    (hd : decode t.cfg c w = .ok i) : step s = exec i t := by
  rw [step_cons hp]
  have : fetch (.element c) (s.setPort rest) = .ok i t :=
    (fetch_live (s := s.setPort rest) hh c).trans (fetchElement_ok h hd)
  rw [this]

/-- After a fault an element is not accepted (R323, R348). -/
theorem step_element_halted {s : State} {c : Ctx} {rest : List Request} (hh : s.halted = true)
    (hp : s.port = .element c :: rest) : step s = .next ((s.setPort rest).setRet .refused) := by
  rw [step_cons hp]
  have : fetch (.element c) (s.setPort rest) = .error .notAccepted (s.setPort rest) :=
    fetch_halted (s := s.setPort rest) hh c
  rw [this]; rfl

end Sys2Proof.Machine
end

