-- ==== Sys2Proof/Laws/PerInstr.lean ====
section
/-! SUPPORT. One lemma per constructor for each family of LAWS.json. -/

namespace Sys2Proof

/-- The width of a block word, whatever its fields (R92). -/
theorem blockWord_lt (l : Bool) (t : Nat) (ht : t < 128) (n : BitVec 24) : blockWord l t n < 2 ^ 32 := by
  have := n.isLt
  unfold blockWord
  cases l <;> simp <;> omega

end Sys2Proof

/-- The word of a well-formed instruction has no bit above its position's width, whatever the parameters (the
table's widths; R102, R111 and R112 for the rows without one). -/
def Sys2Proof.Laws.EncodeFits.Statement (i : Sys2Proof.Instr) : Prop :=
  Sys2Proof.WellFormed i = true → ∀ (cfg : Sys2Proof.Config) c w, Sys2Proof.encode cfg i = some (c, w) →
    w < 2 ^ Sys2Proof.wordWidth c

namespace Sys2Proof.Laws.EncodeFits

open Sys2Proof

/-- Every lemma below for a row that no operand selects among. -/
theorem of_encode {i : Instr} {c : Ctx} {w : Nat} (h : ∀ cfg, encode cfg i = some (c, w)) (hw : w < 2 ^ wordWidth c) :
    Statement i := by
  intro _ cfg c' w' h'
  rw [h] at h'
  cases h'
  exact hw

theorem of_none {i : Instr} (h : ∀ cfg, encode cfg i = none) : Statement i := by
  intro _ cfg c w h'
  rw [h] at h'
  cases h'

/-- For a block row: its word exists where the configuration gives its type number to its variant. -/
theorem of_block {i : Instr} {kind : BlockKind} {l : Bool} {n : BitVec 24} {type : Config → Nat}
    (h : ∀ cfg, encode cfg i = blockWordOf cfg kind l (type cfg) n) (ht : ∀ cfg, type cfg < 128) :
    Statement i := by
  intro _ cfg c w h'
  rw [h, blockWordOf] at h'
  split at h'
  · cases h'; exact blockWord_lt l _ (ht cfg) n
  · cases h'

theorem magic : Statement .magic := of_encode (fun _ => rfl) (by decide)

theorem mbh : Statement .mbh := of_encode (fun _ => rfl) (by decide)

theorem mbStreaminfo (last : Bool) (length : BitVec 24) : Statement (.mbStreaminfo last length) :=
  of_block (type := fun cfg => cfg.btStreaminfo.toNat) (fun _ => rfl) fun cfg => cfg.btStreaminfo.isLt

theorem mbApplication (last : Bool) (length : BitVec 24) : Statement (.mbApplication last length) :=
  of_block (type := fun cfg => cfg.btApplication.toNat) (fun _ => rfl) fun cfg => cfg.btApplication.isLt

theorem mbVorbisComment (last : Bool) (length : BitVec 24) : Statement (.mbVorbisComment last length) :=
  of_block (type := fun cfg => cfg.btVorbisComment.toNat) (fun _ => rfl) fun cfg => cfg.btVorbisComment.isLt

theorem mbPicture (last : Bool) (length : BitVec 24) : Statement (.mbPicture last length) :=
  of_block (type := fun cfg => cfg.btPicture.toNat) (fun _ => rfl) fun cfg => cfg.btPicture.isLt

theorem mbUnknownOdd (last : Bool) (x : BitVec 6) (length : BitVec 24) : Statement (.mbUnknownOdd last x length) :=
  of_block (type := fun _ => 2 * x.toNat + 1) (fun _ => rfl) fun _ => by have := x.isLt; omega

theorem mbUnknown64 (last : Bool) (x : BitVec 5) (length : BitVec 24) : Statement (.mbUnknown64 last x length) :=
  of_block (type := fun _ => 64 + 2 * x.toNat) (fun _ => rfl) fun _ => by have := x.isLt; omega

theorem mbUnknown32 (last : Bool) (x : BitVec 4) (length : BitVec 24) : Statement (.mbUnknown32 last x length) :=
  of_block (type := fun _ => 32 + 2 * x.toNat) (fun _ => rfl) fun _ => by have := x.isLt; omega

theorem mbUnknown16 (last : Bool) (x : BitVec 3) (length : BitVec 24) : Statement (.mbUnknown16 last x length) :=
  of_block (type := fun _ => 16 + 2 * x.toNat) (fun _ => rfl) fun _ => by have := x.isLt; omega

theorem mbUnknown8 (last : Bool) (x : BitVec 2) (length : BitVec 24) : Statement (.mbUnknown8 last x length) :=
  of_block (type := fun _ => 8 + 2 * x.toNat) (fun _ => rfl) fun _ => by have := x.isLt; omega

theorem fhSync : Statement .fhSync := of_encode (fun _ => rfl) (by decide)

theorem fhBlocksize0 : Statement .fhBlocksize0 := of_encode (fun _ => rfl) (by decide)

theorem fhBlocksize1 : Statement .fhBlocksize1 := of_encode (fun _ => rfl) (by decide)

theorem fhBlocksize2 : Statement .fhBlocksize2 := of_encode (fun _ => rfl) (by decide)

theorem fhBlocksize3 : Statement .fhBlocksize3 := of_encode (fun _ => rfl) (by decide)

theorem fhBlocksize4 : Statement .fhBlocksize4 := of_encode (fun _ => rfl) (by decide)

theorem fhBlocksize5 : Statement .fhBlocksize5 := of_encode (fun _ => rfl) (by decide)

theorem fhBlocksize6 : Statement .fhBlocksize6 := of_encode (fun _ => rfl) (by decide)

theorem fhBlocksize7 : Statement .fhBlocksize7 := of_encode (fun _ => rfl) (by decide)

theorem fhBlocksize8 : Statement .fhBlocksize8 := of_encode (fun _ => rfl) (by decide)

theorem fhBlocksize9 : Statement .fhBlocksize9 := of_encode (fun _ => rfl) (by decide)

theorem fhBlocksize10 : Statement .fhBlocksize10 := of_encode (fun _ => rfl) (by decide)

theorem fhBlocksize11 : Statement .fhBlocksize11 := of_encode (fun _ => rfl) (by decide)

theorem fhBlocksize12 : Statement .fhBlocksize12 := of_encode (fun _ => rfl) (by decide)

theorem fhBlocksize13 : Statement .fhBlocksize13 := of_encode (fun _ => rfl) (by decide)

theorem fhBlocksize14 : Statement .fhBlocksize14 := of_encode (fun _ => rfl) (by decide)

theorem fhBlocksize15 : Statement .fhBlocksize15 := of_encode (fun _ => rfl) (by decide)

theorem fhSamplerate0 : Statement .fhSamplerate0 := of_encode (fun _ => rfl) (by decide)

theorem fhSamplerate1 : Statement .fhSamplerate1 := of_encode (fun _ => rfl) (by decide)

theorem fhSamplerate2 : Statement .fhSamplerate2 := of_encode (fun _ => rfl) (by decide)

theorem fhSamplerate3 : Statement .fhSamplerate3 := of_encode (fun _ => rfl) (by decide)

theorem fhSamplerate4 : Statement .fhSamplerate4 := of_encode (fun _ => rfl) (by decide)

theorem fhSamplerate5 : Statement .fhSamplerate5 := of_encode (fun _ => rfl) (by decide)

theorem fhSamplerate6 : Statement .fhSamplerate6 := of_encode (fun _ => rfl) (by decide)

theorem fhSamplerate7 : Statement .fhSamplerate7 := of_encode (fun _ => rfl) (by decide)

theorem fhSamplerate8 : Statement .fhSamplerate8 := of_encode (fun _ => rfl) (by decide)

theorem fhSamplerate9 : Statement .fhSamplerate9 := of_encode (fun _ => rfl) (by decide)

theorem fhSamplerate10 : Statement .fhSamplerate10 := of_encode (fun _ => rfl) (by decide)

theorem fhSamplerate11 : Statement .fhSamplerate11 := of_encode (fun _ => rfl) (by decide)

theorem fhSamplerate12 : Statement .fhSamplerate12 := of_encode (fun _ => rfl) (by decide)

theorem fhSamplerate13 : Statement .fhSamplerate13 := of_encode (fun _ => rfl) (by decide)

theorem fhSamplerate14 : Statement .fhSamplerate14 := of_encode (fun _ => rfl) (by decide)

theorem fhSamplerate15 : Statement .fhSamplerate15 := of_encode (fun _ => rfl) (by decide)

theorem caIndep0 : Statement .caIndep0 := of_encode (fun _ => rfl) (by decide)

theorem caIndep1 : Statement .caIndep1 := of_encode (fun _ => rfl) (by decide)

theorem caIndep2 : Statement .caIndep2 := of_encode (fun _ => rfl) (by decide)

theorem caIndep3 : Statement .caIndep3 := of_encode (fun _ => rfl) (by decide)

theorem caIndep4 : Statement .caIndep4 := of_encode (fun _ => rfl) (by decide)

theorem caIndep5 : Statement .caIndep5 := of_encode (fun _ => rfl) (by decide)

theorem caIndep6 : Statement .caIndep6 := of_encode (fun _ => rfl) (by decide)

theorem caIndep7 : Statement .caIndep7 := of_encode (fun _ => rfl) (by decide)

theorem caLeftSide : Statement .caLeftSide := of_encode (fun _ => rfl) (by decide)

theorem caRightSide : Statement .caRightSide := of_encode (fun _ => rfl) (by decide)

theorem caMidSide : Statement .caMidSide := of_encode (fun _ => rfl) (by decide)

theorem caInvalid11 : Statement .caInvalid11 := of_encode (fun _ => rfl) (by decide)

theorem caInvalid12 : Statement .caInvalid12 := of_encode (fun _ => rfl) (by decide)

theorem caInvalid13 : Statement .caInvalid13 := of_encode (fun _ => rfl) (by decide)

theorem caInvalid14 : Statement .caInvalid14 := of_encode (fun _ => rfl) (by decide)

theorem caInvalid15 : Statement .caInvalid15 := of_encode (fun _ => rfl) (by decide)

theorem fhNumber00 (x : BitVec 7) : Statement (.fhNumber00 x) := of_encode (fun _ => rfl) (by have := x.isLt; show _ < 2 ^ 8; omega)

theorem fhNumber80 (x : BitVec 6) : Statement (.fhNumber80 x) := of_encode (fun _ => rfl) (by have := x.isLt; show _ < 2 ^ 8; omega)

theorem fhNumberC0 (x : BitVec 5) : Statement (.fhNumberC0 x) := of_encode (fun _ => rfl) (by have := x.isLt; show _ < 2 ^ 8; omega)

theorem fhNumberE0 (x : BitVec 4) : Statement (.fhNumberE0 x) := of_encode (fun _ => rfl) (by have := x.isLt; show _ < 2 ^ 8; omega)

theorem fhNumberF0 (x : BitVec 3) : Statement (.fhNumberF0 x) := of_encode (fun _ => rfl) (by have := x.isLt; show _ < 2 ^ 8; omega)

theorem fhNumberF8 (x : BitVec 2) : Statement (.fhNumberF8 x) := of_encode (fun _ => rfl) (by have := x.isLt; show _ < 2 ^ 8; omega)

theorem fhNumberFC (x : BitVec 1) : Statement (.fhNumberFC x) := of_encode (fun _ => rfl) (by have := x.isLt; show _ < 2 ^ 8; omega)

theorem fhNumberFE : Statement .fhNumberFE := of_encode (fun _ => rfl) (by decide)

theorem fhNumberFF : Statement .fhNumberFF := of_encode (fun _ => rfl) (by decide)

theorem fhCrc8 : Statement .fhCrc8 := of_encode (fun _ => rfl) (by decide)

theorem fhFooter : Statement .fhFooter := of_encode (fun _ => rfl) (by decide)

theorem sfConstant : Statement .sfConstant := of_encode (fun _ => rfl) (by decide)

theorem sfVerbatim : Statement .sfVerbatim := of_encode (fun _ => rfl) (by decide)

theorem sfFixed0 : Statement .sfFixed0 := of_encode (fun _ => rfl) (by decide)

theorem sfFixed1 : Statement .sfFixed1 := of_encode (fun _ => rfl) (by decide)

theorem sfFixed2 : Statement .sfFixed2 := of_encode (fun _ => rfl) (by decide)

theorem sfFixed3 : Statement .sfFixed3 := of_encode (fun _ => rfl) (by decide)

theorem sfFixed4 : Statement .sfFixed4 := of_encode (fun _ => rfl) (by decide)

theorem sfLpc (x : BitVec 5) : Statement (.sfLpc x) := of_encode (fun _ => rfl) (by have := x.isLt; show _ < 2 ^ 8; omega)

theorem sfUnsupported2 (x : BitVec 1) : Statement (.sfUnsupported2 x) := of_encode (fun _ => rfl) (by have := x.isLt; show _ < 2 ^ 8; omega)

theorem sfUnsupported4 (x : BitVec 2) : Statement (.sfUnsupported4 x) := of_encode (fun _ => rfl) (by have := x.isLt; show _ < 2 ^ 8; omega)

theorem sfUnsupported13 : Statement .sfUnsupported13 := of_encode (fun _ => rfl) (by decide)

theorem sfUnsupported14 (x : BitVec 1) : Statement (.sfUnsupported14 x) := of_encode (fun _ => rfl) (by have := x.isLt; show _ < 2 ^ 8; omega)

theorem sfUnsupported16 (x : BitVec 4) : Statement (.sfUnsupported16 x) := of_encode (fun _ => rfl) (by have := x.isLt; show _ < 2 ^ 8; omega)

theorem readWasted : Statement .readWasted := of_encode (fun _ => rfl) (by decide)

theorem predict (n o : Nat) (warm coef : List Int) (shift : Nat) (res : List Int) : Statement (.predict n o warm coef shift res) := of_none fun _ => rfl

theorem resRice4 : Statement .resRice4 := of_encode (fun _ => rfl) (by decide)

theorem resRice5 : Statement .resRice5 := of_encode (fun _ => rfl) (by decide)

theorem resInvalidMethod (x : BitVec 1) : Statement (.resInvalidMethod x) := of_encode (fun _ => rfl) (by have := x.isLt; show _ < 2 ^ 6; omega)

theorem resPorder : Statement .resPorder := of_encode (fun _ => rfl) (by decide)

theorem resParam (wide : Bool) (k : BitVec 5) : Statement (.resParam wide k) := by
  have := k.isLt
  cases wide
  · intro hw
    have hk : k.toNat < 15 := of_decide_eq_true hw
    exact of_encode (c := .param4) (fun _ => rfl) (by show 32 * k.toNat < 2 ^ 9; omega) hw
  · exact of_encode (c := .param5) (fun _ => rfl) (by show 32 * k.toNat < 2 ^ 10; omega)

theorem resEscape4 : Statement .resEscape4 := of_encode (fun _ => rfl) (by decide)

theorem resEscape5 : Statement .resEscape5 := of_encode (fun _ => rfl) (by decide)

theorem resValues (cnt : Nat) : Statement (.resValues cnt) := of_none fun _ => rfl

theorem rice : Statement .rice := of_encode (fun _ => rfl) (by decide)

theorem readUint (n : Nat) : Statement (.readUint n) := of_none fun _ => rfl

theorem readSint (n : Nat) : Statement (.readSint n) := of_none fun _ => rfl

theorem readBytes (n : Nat) : Statement (.readBytes n) := of_none fun _ => rfl

theorem readByteOrEos : Statement .readByteOrEos := of_none fun _ => rfl

theorem align : Statement .align := of_none fun _ => rfl

theorem readRice (k : Nat) : Statement (.readRice k) := of_none fun _ => rfl

theorem atEnd : Statement .atEnd := of_none fun _ => rfl

theorem readLe32 : Statement .readLe32 := of_none fun _ => rfl

theorem readBe32 : Statement .readBe32 := of_none fun _ => rfl

theorem resetCmd : Statement .resetCmd := of_none fun _ => rfl

theorem openCmd (src : List Byte) : Statement (.openCmd src) := of_none fun _ => rfl

theorem pullCmd : Statement .pullCmd := of_none fun _ => rfl

end Sys2Proof.Laws.EncodeFits
end

