-- ==== Sys2Proof/Laws/Words.lean ====
section
/-! SUPPORT. The fields of an MBH word and the row they select, and the UTF-8 test by first byte. -/

namespace Sys2Proof

/-- The three fields of an MBH word (R92). -/
theorem bits_blockWord (l t n : Nat) (hl : l ≤ 1) (ht : t < 128) (hn : n < 2 ^ 24) :
    bits (l * 2 ^ 31 + t * 2 ^ 24 + n) 31 31 = l ∧
    bits (l * 2 ^ 31 + t * 2 ^ 24 + n) 30 24 = t ∧
    bits (l * 2 ^ 31 + t * 2 ^ 24 + n) 23 0 = n := by
  unfold bits
  refine ⟨?_, ?_, ?_⟩
  · rw [show 31 - 31 + 1 = 1 by rfl, show (2:Nat)^31 = 2147483648 by norm_num,
      show (2:Nat)^24 = 16777216 by norm_num] at *; omega
  · rw [show 30 - 24 + 1 = 7 by rfl, show (2:Nat)^31 = 2147483648 by norm_num,
      show (2:Nat)^24 = 16777216 by norm_num] at *; omega
  · rw [show 23 - 0 + 1 = 24 by rfl, show (2:Nat)^31 = 2147483648 by norm_num,
      show (2:Nat)^24 = 16777216 by norm_num] at *; omega

/-- Only at the position of a block do the parameters matter to the decoder. -/
theorem decode_cfg (cfg cfg' : Config) {c : Ctx} (hc : c ≠ .block) (w : Nat) : decode cfg c w = decode cfg' c w := by
  cases c <;> first | rfl | exact absurd rfl hc

/-- The row of an MBH word, without its local names. -/
theorem blockRow_eq (cfg : Config) (w : Nat) : blockRow cfg w = match blockKind cfg (BitVec.ofNat 7 (bits w 30 24)) with
  | .streaminfo => some (.mbStreaminfo (bits w 31 31 == 1) (BitVec.ofNat 24 (bits w 23 0)))
  | .application => some (.mbApplication (bits w 31 31 == 1) (BitVec.ofNat 24 (bits w 23 0)))
  | .vorbisComment => some (.mbVorbisComment (bits w 31 31 == 1) (BitVec.ofNat 24 (bits w 23 0)))
  | .picture => some (.mbPicture (bits w 31 31 == 1) (BitVec.ofNat 24 (bits w 23 0)))
  | .unknown => unknownRow (bits w 31 31 == 1) (bits w 30 24) (BitVec.ofNat 24 (bits w 23 0)) := by
  unfold blockRow; rfl

/-- The row of a word with given fields (R92, R114). -/
theorem blockRow_fields {cfg : Config} {w t : Nat} {l : Bool} {n : BitVec 24} (h1 : (bits w 31 31 == 1) = l) (h2 : bits w 30 24 = t)
    (h3 : BitVec.ofNat 24 (bits w 23 0) = n) :
    blockRow cfg w = match blockKind cfg (BitVec.ofNat 7 t) with
  | .streaminfo => some (.mbStreaminfo l n)
  | .application => some (.mbApplication l n)
  | .vorbisComment => some (.mbVorbisComment l n)
  | .picture => some (.mbPicture l n)
  | .unknown => unknownRow l t n := by
  subst h1 h2 h3
  exact blockRow_eq cfg w

/-- The row of a word the encoder writes (R92, R114). -/
theorem blockRow_blockWord (cfg : Config) (l : Bool) (t : Nat) (ht : t < 128) (n : BitVec 24) :
    blockRow cfg (blockWord l t n) = match blockKind cfg (BitVec.ofNat 7 t) with
  | .streaminfo => some (.mbStreaminfo l n)
  | .application => some (.mbApplication l n)
  | .vorbisComment => some (.mbVorbisComment l n)
  | .picture => some (.mbPicture l n)
  | .unknown => unknownRow l t n := by
  have hb : bits (blockWord l t n) 31 31 = l.toNat ∧
      bits (blockWord l t n) 30 24 = t ∧
      bits (blockWord l t n) 23 0 = n.toNat := by
    unfold blockWord
    exact bits_blockWord l.toNat t n.toNat (by cases l <;> decide) ht n.isLt
  obtain ⟨h1, h2, h3⟩ := hb
  refine blockRow_fields ?_ h2 ?_
  · rw [h1]; cases l <;> rfl
  · rw [h3]; simp

end Sys2Proof

namespace Sys2Proof.Machine

open Sys2Proof

/-- A byte range as a condition. -/
theorem inRange_eq (lo hi : Nat) (b : Byte) : inRange lo hi b = (decide (lo ≤ b.toNat ∧ b.toNat ≤ hi)) := by
  unfold inRange
  rw [Bool.eq_iff_iff]; simp


theorem utf8Valid_one (a : Byte) (t0 : List Byte) (h : a.toNat ≤ 0x7F) : utf8Valid (a :: t0) = utf8Valid t0 := by
  rw [utf8Valid.eq_def]; simp [inRange_eq, h]

theorem utf8Valid_two (a b : Byte) (t1 : List Byte) (h : 0xC2 ≤ a.toNat ∧ a.toNat ≤ 0xDF) :
    utf8Valid (a :: b :: t1) = (inRange 0x80 0xBF b && utf8Valid t1) := by
  rw [utf8Valid.eq_def]; simp only; rw [if_neg (by rw [inRange_eq]; simp; omega),
    if_pos (by rw [inRange_eq]; simp; omega)]

theorem utf8Valid_three (a b c : Byte) (t2 : List Byte) (h : 0xE0 ≤ a.toNat ∧ a.toNat ≤ 0xEF) :
    utf8Valid (a :: b :: c :: t2) = (inRange (if inRange 0xE0 0xE0 a then 0xA0 else 0x80)
            (if inRange 0xED 0xED a then 0x9F else 0xBF) b && inRange 0x80 0xBF c && utf8Valid t2) := by
  rw [utf8Valid.eq_def]; simp only; rw [if_neg (by rw [inRange_eq]; simp; omega),
    if_neg (by rw [inRange_eq]; simp; omega),
    if_pos (by rw [inRange_eq]; simp; omega)]

theorem utf8Valid_four (a b c d : Byte) (t3 : List Byte) (h : 0xF0 ≤ a.toNat) :
    utf8Valid (a :: b :: c :: d :: t3) = (inRange 0xF0 0xF4 a &&
            inRange (if inRange 0xF0 0xF0 a then 0x90 else 0x80)
              (if inRange 0xF4 0xF4 a then 0x8F else 0xBF) b &&
            inRange 0x80 0xBF c && inRange 0x80 0xBF d && utf8Valid t3) := by
  rw [utf8Valid.eq_def]; simp only; rw [if_neg (by rw [inRange_eq]; simp; omega),
    if_neg (by rw [inRange_eq]; simp; omega),
    if_neg (by rw [inRange_eq]; simp; omega)]

end Sys2Proof.Machine
end

