-- ==== Sys2Proof/Tests/Slice0.lean ====
section
/-! SUPPORT. Tests: ill-formed terms refused, words written out from spec/30_encoding.md decoded, one
step of each shape of instruction against the worked examples of spec/95_test_vectors.md, and for
every statement of Obligations.lean that has hypotheses a state and operands that meet them. -/

set_option Elab.async false

namespace Sys2Proof.Tests

open Sys2Proof Sys2Proof.Machine

/-! ### Helpers -/

/-- Bytes from numbers. -/
def bytes (l : List Nat) : List Byte := l.map (BitVec.ofNat 8)

/-- A state in `Frames` for an 8-bit stream, its reader at bit 0 of the given source. -/
def source (l : List Nat) : State :=
  ((State.reset.setSrc (Memory.ofBytes (bytes l))).setPhase .frames).setSi
    { State.reset.si with valid := true, bps := 8 }

/-- The same with `F.N = n`. -/
def frameOf (n : Nat) (l : List Nat) : State := (source l).setF { State.reset.f with n := n }

/-- The same just after the seven bits that select a subframe, with `S.d = d`. -/
def subframeAt (n d : Nat) (l : List Nat) : State :=
  ((frameOf n l).setSub { State.reset.sub with d := d }).skip 7

/-- The same inside the metadata, after a STREAMINFO block. -/
def blockAt (l : List Nat) : State :=
  (((source l).setPhase .metadata).setMdIndex 1).setMetas [.unknown 0 false]

/-- What a next state shows; no other outcome passes. -/
def shows (o : Host.Outcome State Fault Refusal) (p : State → Bool) : Bool :=
  match o with
  | .next t => p t
  | .fault _ => false
  | .refused _ => false

/-- Fault entry with a fault of this code. -/
def faults (o : Host.Outcome State Fault Refusal) (code : Nat) : Bool :=
  shows o (fun t => t.phase == .faulted && t.out == .none && t.fault.map DecodeFault.code == some code)

/-- The reader's invariant as a computation. -/
def readerOk (s : State) : Bool := s.src.wf && s.br == readerAt s.src s.bp && decide (s.bp ≤ 8 * s.srcLen)

theorem readerOk_iff {s : State} : readerOk s = true ↔ s.ReaderOk := by
  simp [readerOk, State.ReaderOk, and_assoc]

/-- An element can run, as a computation. -/
def ready (s : State) : Bool := readerOk s && !s.halted

theorem ready_iff {s : State} : ready s = true ↔ s.Ready := by
  simp [ready, State.Ready, readerOk_iff]

/-- What a word decodes to under the default parameters. -/
def row (c : Ctx) (w : Nat) : Option Instr := (decode config c w).toOption

/-! ### Ill-formed terms -/

theorem test_wf_param4 : WellFormed (.resParam false 15) = false := by decide
theorem test_wf_param5 : WellFormed (.resParam true 31) = false := by decide
theorem test_wf_predict_warm : WellFormed (.predict 2 1 [] [1] 0 [0]) = false := by decide
theorem test_wf_predict_count : WellFormed (.predict 3 1 [1] [1] 0 [0]) = false := by decide
theorem test_wf_predict_order :
    WellFormed (.predict 33 33 (List.replicate 33 1) (List.replicate 33 1) 0 []) = false := by decide
theorem test_wf_predict_block : WellFormed (.predict 65537 0 [] [] 0 []) = false := by decide
theorem test_wf_uint : WellFormed (.readUint 65) = false := by decide
theorem test_wf_sint : WellFormed (.readSint 0) = false ∧ WellFormed (.readSint 65) = false := by decide
theorem test_wf_rice : WellFormed (.readRice 32) = false := by decide
theorem test_wf_values : WellFormed (.resValues 65537) = false := by decide
theorem test_wf_admitted : WellFormed (.resParam false 14) = true ∧ WellFormed (.resParam true 30) = true ∧
    WellFormed (.readUint 64) = true ∧ WellFormed (.readSint 1) = true ∧ WellFormed (.readRice 31) = true ∧
    WellFormed (.predict 3 1 [1] [1] 0 [0, 0]) = true := by decide

/-! ### Words, bit by bit -/

/-- R91: `66 4C 61 43`. -/
theorem test_decode_magic :
    row .magic 0b01100110_01001100_01100001_01000011 = some .magic ∧
    row .magic 0b01100110_01001100_01100001_01011000 = none := by decide

/-- R92 (generic row), R102, R104, R109, R111, R112: rows that every word at their position is. -/
theorem test_decode_positions :
    row .blockHeader 0b1_0000100_000000000000000000100101 = some .mbh ∧
    row .headerCrc 0b10101010 = some .fhCrc8 ∧
    row .footer 0b10111011_11001100 = some .fhFooter ∧
    row .wasted 0b0_000001_1 = some .readWasted ∧
    row .porder 0b01_0010 = some .resPorder ∧
    row .rice 0b1 = some .rice := by decide

/-- R92, R114: last, type, length. -/
theorem test_decode_block :
    row .block 0b1_0000000_000000000000000000100010 = some (.mbStreaminfo true 34) ∧
    row .block 0b1_0000010_000000000000000000000110 = some (.mbApplication true 6) ∧
    row .block 0b1_0000100_000000000000000000100101 = some (.mbVorbisComment true 37) ∧
    row .block 0b0_0000110_000000000000000000110111 = some (.mbPicture false 55) ∧
    row .block 0b0_0000001_000000000000000000000011 = some (.mbUnknownOdd false 0 3) ∧
    row .block 0b1_1111111_111111111111111111111111 = some (.mbUnknownOdd true 63 16777215) ∧
    row .block 0b0_1000010_000000000000000000000001 = some (.mbUnknown64 false 1 1) ∧
    row .block 0b0_0111110_000000000000000000000010 = some (.mbUnknown32 false 15 2) ∧
    row .block 0b1_0010100_000000000000000000000000 = some (.mbUnknown16 true 2 0) ∧
    row .block 0b0_0001110_000000000000000000000100 = some (.mbUnknown8 false 3 4) := by decide

/-- R98: sync, two ignored bits, bsc, src, ca, ssc, an ignored bit. -/
theorem test_decode_sync :
    row .frameHeader 0b11111111111110_0_0_0110_1100_1010_001_0 = some .fhSync ∧
    row .frameHeader 0b11111111111110_1_1_0111_1101_0000_000_1 = some .fhSync ∧
    row .frameHeader 0b11111111111100_0_0_0110_0000_0000_001_0 = none := by decide

/-- R98, R115: bits 15:12. -/
theorem test_decode_blocksize :
    (List.range 16).map (fun c => row .blockSize (0xFFF80CA2 + c * 0x1000)) =
    [.fhBlocksize0, .fhBlocksize1, .fhBlocksize2, .fhBlocksize3, .fhBlocksize4, .fhBlocksize5, .fhBlocksize6,
      .fhBlocksize7, .fhBlocksize8, .fhBlocksize9, .fhBlocksize10, .fhBlocksize11, .fhBlocksize12,
      .fhBlocksize13, .fhBlocksize14, .fhBlocksize15].map some := by decide +kernel

/-- R98, R116: bits 11:8. -/
theorem test_decode_samplerate :
    (List.range 16).map (fun c => row .sampleRate (0xFFF860A2 + c * 0x100)) =
    [.fhSamplerate0, .fhSamplerate1, .fhSamplerate2, .fhSamplerate3, .fhSamplerate4, .fhSamplerate5,
      .fhSamplerate6, .fhSamplerate7, .fhSamplerate8, .fhSamplerate9, .fhSamplerate10, .fhSamplerate11,
      .fhSamplerate12, .fhSamplerate13, .fhSamplerate14, .fhSamplerate15].map some := by decide +kernel

/-- R98, R117: bits 7:4. -/
theorem test_decode_channels :
    (List.range 16).map (fun c => row .channels (0xFFF86C02 + c * 0x10)) =
    [.caIndep0, .caIndep1, .caIndep2, .caIndep3, .caIndep4, .caIndep5, .caIndep6, .caIndep7, .caLeftSide,
      .caRightSide, .caMidSide, .caInvalid11, .caInvalid12, .caInvalid13, .caInvalid14,
      .caInvalid15].map some := by decide +kernel

/-- R99: the leading 1 bits of the first byte. -/
theorem test_decode_number :
    row .number 0b0_1111111 = some (.fhNumber00 127) ∧ row .number 0b10_000001 = some (.fhNumber80 1) ∧
    row .number 0b110_00010 = some (.fhNumberC0 2) ∧ row .number 0b1110_1111 = some (.fhNumberE0 15) ∧
    row .number 0b11110_111 = some (.fhNumberF0 7) ∧ row .number 0b111110_11 = some (.fhNumberF8 3) ∧
    row .number 0b1111110_1 = some (.fhNumberFC 1) ∧ row .number 0b11111110 = some .fhNumberFE ∧
    row .number 0b11111111 = some .fhNumberFF := by decide

/-- R103, R119: an ignored bit, the type, the wasted flag. -/
theorem test_decode_subframe :
    row .subframe 0b0_000000_1 = some .sfConstant ∧ row .subframe 0b1_000001_0 = some .sfVerbatim ∧
    row .subframe 0b0_001000_0 = some .sfFixed0 ∧ row .subframe 0b0_001001_0 = some .sfFixed1 ∧
    row .subframe 0b0_001010_0 = some .sfFixed2 ∧ row .subframe 0b0_001011_0 = some .sfFixed3 ∧
    row .subframe 0b0_001100_1 = some .sfFixed4 ∧ row .subframe 0b0_100001_0 = some (.sfLpc 1) ∧
    row .subframe 0b0_111111_0 = some (.sfLpc 31) ∧ row .subframe 0b0_000011_0 = some (.sfUnsupported2 1) ∧
    row .subframe 0b0_000111_0 = some (.sfUnsupported4 3) ∧ row .subframe 0b0_001101_0 = some .sfUnsupported13 ∧
    row .subframe 0b0_001111_0 = some (.sfUnsupported14 1) ∧
    row .subframe 0b0_011111_0 = some (.sfUnsupported16 15) := by decide

/-- R109, R110, R120: the method, and a parameter field with the five bits after it. -/
theorem test_decode_residual :
    row .method 0b00_0001 = some .resRice4 ∧ row .method 0b01_0000 = some .resRice5 ∧
    row .method 0b10_0000 = some (.resInvalidMethod 0) ∧ row .method 0b11_0000 = some (.resInvalidMethod 1) ∧
    row .param4 0b0010_00000 = some (.resParam false 2) ∧ row .param4 0b1111_00011 = some .resEscape4 ∧
    row .param5 0b01111_00000 = some (.resParam true 15) ∧ row .param5 0b11111_01001 = some .resEscape5 := by
  decide

/-- A bare word of the table at the position `tableCtx` gives it (log entry 9). -/
theorem test_decode_table_word :
    decodeTableWord 32 0x664C6143 = some .magic ∧ decodeTableWord 32 0xFFF80000 = some .fhSync ∧
    decodeTableWord 32 0x06000000 = some (.mbPicture false 0) ∧ decodeTableWord 32 0xA000 = some .fhBlocksize10 ∧
    decodeTableWord 32 0xC00 = some .fhSamplerate12 ∧ decodeTableWord 32 0xA0 = some .caMidSide ∧
    decodeTableWord 8 0xFE = some .fhNumberFE ∧ decodeTableWord 8 0x7E = some (.sfLpc 31) ∧
    decodeTableWord 6 0x10 = some .resRice5 ∧ decodeTableWord 16 0x1E0 = some .resEscape4 ∧
    decodeTableWord 10 0x3E0 = some .resEscape5 := by decide

/-! ### One step: the bit reader -/

/-- T-BR1, steps 1 and 2. -/
theorem test_read_uint : shows (exec (.readUint 3) (source [0xA5, 0xC3]))
    (fun t => t.ret == .nat 5 && t.br == ⟨1, 5, 5⟩) = true := by decide +kernel
/-- T-BR4. -/
theorem test_read_uint_36 : shows (exec (.readUint 36) ((source [0x03, 0xA6, 0x98, 0x00, 0x3A]).skip 4))
    (fun t => t.ret == .nat 15679881274) = true := by decide +kernel
/-- T-BR3. -/
theorem test_read_sint_9 : shows (exec (.readSint 9) (source [0x80, 0x80])) (fun t => t.ret == .int (-255)) = true := by
  decide +kernel
theorem test_read_sint_16 : shows (exec (.readSint 16) (source [0xFF, 0xFB])) (fun t => t.ret == .int (-5)) = true := by
  decide +kernel
/-- T-BR2. -/
theorem test_read_bytes : shows (exec (.readBytes 1) ((source [0xA5, 0xC3, 0xFF]).skip 3))
    (fun t => t.ret == .bytes (bytes [0xC3]) && t.br == ⟨2, 0, 0⟩) = true := by decide +kernel
theorem test_read_bytes_end : faults (exec (.readBytes 2) ((source [0xA5, 0xC3, 0xFF]).skip 16)) 3 = true := by
  decide +kernel
theorem test_read_byte_or_eos : shows (exec .readByteOrEos (source [0x42])) (fun t => t.ret == .bytes (bytes [0x42])) &&
    shows (exec .readByteOrEos (source [])) (fun t => t.ret == .eos) = true := by decide +kernel
theorem test_align : shows (exec .align ((source [0xA5, 0xC3]).skip 3)) (fun t => t.br == ⟨1, 0, 0⟩) = true := by
  decide +kernel
/-- T-BR5: `001001` with `k = 3` is -9; `80` with `k = 8` ends early. -/
theorem test_read_rice : shows (exec (.readRice 3) (source [0b001001_00])) (fun t => t.ret == .int (-9) && t.bp == 6) = true := by
  decide +kernel
theorem test_read_rice_end : faults (exec (.readRice 8) (source [0x80])) 3 = true := by decide +kernel
/-- T-BR5: `00111` with `k = 2` is -6. -/
theorem test_rice : shows (exec .rice ((source [0b00111_000]).setRs { State.reset.rs with k := 2 }))
    (fun t => t.ret == .int (-6)) = true := by decide +kernel
/-- T-BR1, step 9: seven bits are buffered. -/
theorem test_at_end : shows (exec .atEnd ((source [0x80]).skip 1)) (fun t => t.ret == .bool false) &&
    shows (exec .atEnd ((source [0x80]).skip 8)) (fun t => t.ret == .bool true) = true := by decide +kernel
/-- W3 and W2. -/
theorem test_read_le32 : shows (exec .readLe32 (source [0x20, 1, 0, 0])) (fun t => t.ret == .nat 288) = true := by
  decide +kernel
theorem test_read_be32 : shows (exec .readBe32 (source [0, 0, 0x04, 0xB0])) (fun t => t.ret == .nat 1200) = true := by
  decide +kernel

/-! ### One step: metadata -/

/-- F1. -/
theorem test_magic : shows (exec .magic (source [0x66, 0x4C, 0x61, 0x43])) (fun t => t.br == ⟨4, 0, 0⟩) &&
    faults (exec .magic (source [0x66, 0x4C, 0x61, 0x58])) 1 = true := by decide +kernel
/-- P2's second block. -/
theorem test_mbh : shows (exec .mbh (blockAt [1, 0, 0, 3, 9, 9, 9]))
    (fun t => t.metas == [.unknown 0 false, .unknown 3 false] && t.br == ⟨7, 0, 0⟩ && t.phase == .metadata) = true := by
  decide +kernel
/-- R7, log entry 21: with VorbisComment numbered 8, type 4 is unknown, and MBH's row is the one left for its word. -/
theorem test_mbh_other_numbers : shows (exec .mbh ((blockAt [0x84, 0, 0, 1, 9]).setCfg { config with btVorbisComment := 8 }))
    (fun t => t.metas.drop 1 == [.unknown 1 true] && t.br == ⟨5, 0, 0⟩ && t.phase == .frames) &&
    ((decode { config with btVorbisComment := 8 } .block 0x84000001).toOption == some .mbh) = true := by decide +kernel
/-- W1, the source's own bytes. -/
theorem test_streaminfo : shows (exec (.mbStreaminfo true 34) ((source
    [0x04, 0x80, 0x04, 0x80, 0x00, 0x06, 0x72, 0x00, 0x17, 0xF2, 0x17, 0x70, 0x03, 0x70, 0x00, 0x3A, 0x69, 0x80,
      0xE5, 0xD1, 0x00, 0xC6, 0x3F, 0x51, 0x88, 0x90, 0x0C, 0x66, 0xB6, 0xA6, 0xA0, 0x8C, 0xE2, 0xEB]).setPhase .metadata))
    (fun t => t.si == ⟨true, 1152, 1152, 1650, 6130, 96000, 2, 24, 3828096,
      bytes [0xE5, 0xD1, 0x00, 0xC6, 0x3F, 0x51, 0x88, 0x90, 0x0C, 0x66, 0xB6, 0xA6, 0xA0, 0x8C, 0xE2, 0xEB]⟩ &&
      t.phase == .frames) = true := by decide +kernel
/-- F3b, M7. -/
theorem test_streaminfo_faults : faults (exec (.mbStreaminfo true 33) (source [])) 2 &&
    faults (exec (.mbStreaminfo true 34) (blockAt [])) 2 = true := by decide +kernel
/-- M9. -/
theorem test_application : shows (exec (.mbApplication true 6) (blockAt [0x74, 0x65, 0x73, 0x74, 1, 2]))
    (fun t => t.metas.drop 1 == [.application 6 true (bytes [0x74, 0x65, 0x73, 0x74]) (bytes [1, 2])]) = true := by
  decide +kernel
/-- M6. -/
theorem test_application_short : faults (exec (.mbApplication true 3) (blockAt [0x61, 0x62, 0x63])) 2 = true := by
  decide +kernel
/-- M15: split at the first `=` only. -/
theorem test_vorbis_comment : shows (exec (.mbVorbisComment true 29) (blockAt
    [0, 0, 0, 0, 3, 0, 0, 0, 5, 0, 0, 0, 0x41, 0x3D, 0x62, 0x3D, 0x63, 2, 0, 0, 0, 0x3D, 0x78, 2, 0, 0, 0, 0x4B, 0x3D]))
    (fun t => t.metas.drop 1 == [.vorbisComment 29 true [] [(bytes [0x41], bytes [0x62, 0x3D, 0x63]),
      ([], bytes [0x78]), (bytes [0x4B], [])]]) = true := by decide +kernel
/-- M10: the block's end is tested before the source's. -/
theorem test_vorbis_overrun : faults (exec (.mbVorbisComment true 8) (blockAt [0x64, 0, 0, 0])) 2 = true := by
  decide +kernel
/-- R156: the fault names the entry that is not UTF-8 (after one that is `K=`). -/
theorem test_vorbis_entry_utf8 : shows (exec (.mbVorbisComment true 19) (blockAt
    [0, 0, 0, 0, 2, 0, 0, 0, 2, 0, 0, 0, 0x4B, 0x3D, 1, 0, 0, 0, 0xFF]))
    (fun t => t.fault == some (.malformedBlock 1 4 (.notUtf8 (.entry 1)))) = true := by decide +kernel
/-- W2, cut to one byte of text. -/
theorem test_picture : shows (exec (.mbPicture false 36) (blockAt ([0, 0, 0, 3, 0, 0, 0, 1, 0x69, 0, 0, 0, 1, 0x46] ++
    [0, 0, 4, 0xB0, 0, 0, 4, 0xB1, 0, 0, 0, 0x18, 0, 0, 0, 0, 0, 0, 0, 2, 0xFF, 0xD8])))
    (fun t => t.metas.drop 1 == [.picture 36 false 3 (bytes [0x69]) (bytes [0x46]) 1200 1201 24 0 (bytes [0xFF, 0xD8])]) = true := by
  decide +kernel
/-- M3. -/
theorem test_picture_type : faults (exec (.mbPicture true 55) (blockAt [0, 0, 0, 0x15])) 2 = true := by decide +kernel
/-- M8. -/
theorem test_unknown_odd : faults (exec (.mbUnknownOdd true 0 5) (blockAt [0, 0])) 3 = true := by decide +kernel
theorem test_unknown_even : [Instr.mbUnknown64 true 1 2, .mbUnknown32 true 1 2, .mbUnknown16 true 1 2, .mbUnknown8 true 1 2].all
    (fun i => shows (exec i (blockAt [7, 7])) (fun t => t.metas.drop 1 == [.unknown 2 true] && t.br == ⟨2, 0, 0⟩)) = true := by
  decide +kernel

/-! ### One step: frame header and footer -/

/-- P2's first frame; F4. -/
theorem test_sync : shows (exec .fhSync (source [0xFF, 0xF8, 0x6C, 0xA2]))
    (fun t => t.f == { State.reset.f with bsc := 6, src := 12, ca := 10, ssc := 1 }) = true := by decide +kernel
/-- R193: the source ends after the sync code. -/
theorem test_sync_bad : faults (exec .fhSync (source [0xFF, 0xF8, 0x6C])) 3 && shows (exec .fhSync (source [0xFF, 0xF0, 0x60, 0x02]))
    (fun t => t.fault == some (.invalidSync 0x3FFC)) = true := by decide +kernel
/-- T-FH2. -/
theorem test_blocksize : ([(Instr.fhBlocksize1, 192), (.fhBlocksize2, 576), (.fhBlocksize3, 1152), (.fhBlocksize4, 2304),
    (.fhBlocksize5, 4608), (.fhBlocksize8, 256), (.fhBlocksize9, 512), (.fhBlocksize10, 1024), (.fhBlocksize11, 2048),
    (.fhBlocksize12, 4096), (.fhBlocksize13, 8192), (.fhBlocksize14, 16384), (.fhBlocksize15, 32768)] : List (Instr × Nat)).all
    (fun p => shows (exec p.1 (source [])) (fun t => t.f.n == p.2)) = true := by decide +kernel
theorem test_blocksize_read : shows (exec .fhBlocksize6 (source [0xFF])) (fun t => t.f.n == 256) &&
    shows (exec .fhBlocksize7 (source [0xFF, 0xFF])) (fun t => t.f.n == 65536) &&
    faults (exec .fhBlocksize0 (source [0xFF])) 5 = true := by decide +kernel
theorem test_samplerate : ([(Instr.fhSamplerate0, 0), (.fhSamplerate11, 0), (.fhSamplerate12, 1), (.fhSamplerate13, 2),
    (.fhSamplerate14, 2), (.fhSamplerate15, 0)] : List (Instr × Nat)).all
    (fun p => shows (exec p.1 (source [1, 2])) (fun t => t.br.pos == p.2)) = true := by decide +kernel
/-- T-FH1. -/
theorem test_number : ([(Instr.fhNumber00 127, 0), (.fhNumber80 63, 0), (.fhNumberC0 31, 1), (.fhNumberE0 15, 2),
    (.fhNumberF0 7, 3), (.fhNumberF8 3, 4), (.fhNumberFC 1, 5), (.fhNumberFE, 6), (.fhNumberFF, 7)] : List (Instr × Nat)).all
    (fun p => shows (exec p.1 (source [0xFF, 0, 0xFF, 0, 0xFF, 0, 0xFF])) (fun t => t.br.pos == p.2)) = true := by
  decide +kernel
theorem test_crc8 : shows (exec .fhCrc8 (source [0xAA, 1])) (fun t => t.br == ⟨1, 0, 0⟩) = true := by decide +kernel
/-- T-FH5: four padding bits dropped. -/
theorem test_footer : shows (exec .fhFooter ((source [0x10, 0x22, 0x22, 0xFF]).skip 4)) (fun t => t.br == ⟨3, 0, 0⟩) = true := by
  decide +kernel

/-! ### One step: channels -/

/-- T-FH4. -/
theorem test_indep : shows (exec .caIndep7 (frameOf 1 [0, 0xFC, 0, 0xFD, 0, 0xFE, 0, 0xFF, 0, 0, 0, 1, 0, 2, 0, 3]))
    (fun t => t.ch == [[-4], [-3], [-2], [-1], [0], [1], [2], [3]] && t.f.nch == 8) = true := by decide +kernel
theorem test_indep_mono : shows (exec .caIndep0 (frameOf 4 [2, 1, 0xFF, 0x7F, 0x80]))
    (fun t => t.ch == [[1, -1, 127, -128]] && t.f.nch == 1) = true := by decide +kernel
/-- P2's second and third frames. -/
theorem test_left_side : shows (exec .caLeftSide (frameOf 2 [0x02, 0x64, 0x80, 0x02, 0xF2, 0x9F, 0xC0]))
    (fun t => t.ch == [[100, -128], [127, -255]]) = true := by decide +kernel
theorem test_right_side : shows (exec .caRightSide (frameOf 2 [0x02, 0x7F, 0xC0, 0x00, 0xA0, 0x1F, 0xC0]))
    (fun t => t.ch == [[127, -129], [-128, 127]]) = true := by decide +kernel
/-- T-CA2. -/
theorem test_mid_side : shows (exec .caMidSide (frameOf 2 [0x02, 0x03, 0xFF, 0x02, 0x00, 0xFF, 0x40]))
    (fun t => t.ch == [[4, -2], [3, 1]]) = true := by decide +kernel
theorem test_ca_invalid : [Instr.caInvalid11, .caInvalid12, .caInvalid13, .caInvalid14, .caInvalid15].all
    (fun i => faults (exec i (source [2])) 6) = true := by decide +kernel

/-! ### One step: subframes -/

/-- P2's first subframe: `01 B9`. -/
theorem test_constant : shows (exec .sfConstant (subframeAt 4 8 [0x01, 0xB9])) (fun t => t.sub.buf == [-28, -28, -28, -28] &&
    t.sub.w == 2 && t.sub.e == 6) = true := by decide +kernel
/-- T-SF1. -/
theorem test_verbatim : shows (exec .sfVerbatim (subframeAt 2 8 [0x03, 0xD0, 0x78])) (fun t => t.sub.buf == [-128, 120]) = true := by
  decide +kernel
/-- T-RS3: the residual itself. -/
theorem test_fixed0 : shows (exec .sfFixed0 (subframeAt 2 8 [0x10, 0x43, 0xE9, 0x4B, 0x09, 0x5C]))
    (fun t => t.sub.buf == [300, -300]) = true := by decide +kernel
/-- T-RS6: a partition of no values. -/
theorem test_fixed1 : shows (exec .sfFixed1 (subframeAt 2 8 [0x12, 0x0A, 0x04, 0xC0, 0x40]))
    (fun t => t.sub.buf == [10, 8]) = true := by decide +kernel
/-- P3's second frame. -/
theorem test_fixed2 : shows (exec .sfFixed2 (subframeAt 6 16 [0x14, 0xFF, 0xFB, 0xFF, 0xFD, 0x40, 0x32, 0xC8]))
    (fun t => t.sub.buf == [-5, -3, -1, 2, 4, 8]) = true := by decide +kernel
/-- T-SF3. -/
theorem test_fixed3 : shows (exec .sfFixed3 (subframeAt 5 8 [0x16, 0x01, 0x03, 0x06, 0x00, 0x28]))
    (fun t => t.sub.buf == [1, 3, 6, 10, 14]) = true := by decide +kernel
/-- F9b: a first count of `1 - 2`. -/
theorem test_fixed2_short : shows (exec .sfFixed2 (subframeAt 4 8 [0x14, 0x01, 0x02, 0x08, 0x00]))
    (fun t => t.fault == some (.partitionMismatch 4 2 2)) = true := by decide +kernel
/-- P3's third frame. -/
theorem test_fixed4 : shows (exec .sfFixed4 (subframeAt 8 16 [0x19, 0x00, 0x01, 0x00, 0x04, 0x00, 0x10, 0x00, 0x40, 0x01, 0x2C]))
    (fun t => t.sub.buf == [2, 4, 8, 16, 34, 78, 178, 396]) = true := by decide +kernel
/-- The same with GK4's other last coefficient, `-1`, as the parameter. -/
theorem test_fixed4_other_table : shows (exec .sfFixed4
    ((subframeAt 8 16 [0x19, 0x00, 0x01, 0x00, 0x04, 0x00, 0x10, 0x00, 0x40, 0x01, 0x2C]).setCfg
      { config with fixedCoef := { config.fixedCoef with order4 := #v[4, -6, 4, -1] } }))
    (fun t => t.sub.buf == [2, 4, 8, 16, 30, 54, 90, 140]) = true := by decide +kernel
/-- T-SF2: the shift is a floor. -/
theorem test_lpc : shows (exec (.sfLpc 0) (subframeAt 3 8 [0x40, 0x05, 0x10, 0xE0, 0x06]))
    (fun t => t.sub.buf == [5, -3, 1] && t.sub.prec == 2 && t.sub.shift == 1 && t.sub.coef == [-1]) = true := by decide +kernel
/-- F12. -/
theorem test_lpc_shift : shows (exec (.sfLpc 0) (subframeAt 4 8 [0x40, 0x01, 0x3F, 0x88]))
    (fun t => t.fault == some (.invalidLpcShift (-1))) = true := by decide +kernel
/-- T-SF7. -/
theorem test_unsupported : ([(Instr.sfUnsupported2 0, 2), (.sfUnsupported4 3, 7), (.sfUnsupported13, 13), (.sfUnsupported14 1, 15),
    (.sfUnsupported16 15, 31)] : List (Instr × Nat)).all (fun p => shows (exec p.1 (subframeAt 4 8 [0x04]))
      (fun t => t.fault == some (.unsupportedSubframeType p.2))) = true := by decide +kernel
/-- F11. -/
theorem test_wasted_too_many : shows (exec .sfConstant (subframeAt 4 8 [0x01, 0xFE]))
    (fun t => t.fault == some (.invalidWastedBits 8 8)) = true := by decide +kernel
theorem test_read_wasted : shows (exec .readWasted (subframeAt 2 8 [0x03, 0xD0, 0x78])) (fun t => t.ret == .nat 3) = true := by
  decide +kernel
/-- P3's first frame. -/
theorem test_predict : shows (exec (.predict 8 2 [100, 110] [7, -3] 2 [3, -2, 0, -9, 20, -1]) (source []))
    (fun t => t.sub.buf == [100, 110, 120, 125, 128, 121, 135, 144]) = true := by decide +kernel

/-! ### One step: residuals -/

theorem test_methods : shows (exec .resRice4 (source [])) (fun t => t.rs.method == 0 && t.rs.pbits == 4) &&
    shows (exec .resRice5 (source [])) (fun t => t.rs.method == 1 && t.rs.pbits == 5) &&
    faults (exec (.resInvalidMethod 0) (source [])) 10 = true := by decide +kernel
/-- T-RS1's header; F9. -/
theorem test_porder : shows (exec .resPorder ((frameOf 8 [0b000001_00]).skip 2)) (fun t => t.rs.p == 1) = true := by
  decide +kernel
theorem test_porder_mismatch : shows (exec .resPorder ((frameOf 6 [0x08]).skip 2))
    (fun t => t.fault == some (.partitionMismatch 6 2 0)) = true := by decide +kernel
theorem test_param : shows (exec (.resParam true 15) (source [])) (fun t => t.rs.k == 15) = true := by decide +kernel
/-- T-RS1 and T-RS3. -/
theorem test_escape : shows (exec .resEscape4 ((source [0b1111_0001, 0b1_0000000]).skip 4)) (fun t => t.rs.k == 3) &&
    shows (exec .resEscape5 ((source [0b11111_010, 0b01_000000]).skip 5)) (fun t => t.rs.k == 9) = true := by decide +kernel
/-- T-RS1's second partition: `1000 001001 000001000 1001` with `k = 3`. -/
theorem test_values : shows (exec (.resValues 4) ((source [0b10000010, 0b01000001, 0b00010010]).setRs { State.reset.rs with k := 3 }))
    (fun t => t.rs.res == [0, -9, 20, -1]) = true := by decide +kernel

/-! ### One step: commands and the port -/

/-- P1, T-SC1. -/
def p1 : List Nat :=
  [0x66, 0x4C, 0x61, 0x43, 0x80, 0x00, 0x00, 0x22, 0x00, 0x04, 0x00, 0x04, 0x00, 0x00, 0x00, 0x00,
    0x00, 0x00, 0x01, 0xF4, 0x00, 0x70, 0x00, 0x00, 0x00, 0x04, 0x00, 0x00, 0x00, 0x00, 0x00, 0x00,
    0x00, 0x00, 0x00, 0x00, 0x00, 0x00, 0x00, 0x00, 0x00, 0x00] ++
  [0xFF, 0xF8, 0x60, 0x02, 0x00, 0x03, 0xAA, 0x02, 0x01, 0xFF, 0x7F, 0x80, 0xBB, 0xCC]

/-- P1's STREAMINFO. -/
def p1Si : StreamInfo := ⟨true, 4, 4, 0, 0, 8000, 1, 8, 4, List.replicate 16 0⟩

/-- P1's frame. -/
def p1Frame : Frame :=
  ⟨false, false, 6, 0, 0, 1, false, 0, [], 3, 0, 0xAA, [⟨false, 0, .verbatim [1, -1, 127, -128]⟩], [], 0xBBCC⟩

theorem test_open : shows (exec (.openCmd (bytes p1)) State.reset) (fun t => t.phase == .frames && t.br == ⟨42, 0, 0⟩ &&
    t.si == p1Si && t.metas == [.streamInfo 34 true p1Si] && t.ret == .ok) = true := by decide +kernel
theorem test_open_refused : shows (exec (.openCmd []) (source [])) (fun t => t.ret == .refused && t.phase == .frames) = true := by
  decide +kernel
theorem test_pull : shows (exec .pullCmd (source (p1.drop 42)))
    (fun t => t.out == .frame 4 1 [[1, -1, 127, -128]] && t.br == ⟨14, 0, 0⟩ && t.phase == .frames) = true := by decide +kernel
/-- F16: no sample delivered. -/
theorem test_pull_cut : faults (exec .pullCmd (source ((p1.drop 42).take 13))) 3 = true := by decide +kernel
theorem test_reset : shows (exec .resetCmd ((source [1]).takeFault (.invalidSync 0)))
    (fun t => t.phase == .idle && t.fault == none && t.src == [(0, 1)]) = true := by decide +kernel
/-- After a fault nothing but RESET runs (R323, log entry 20): the fault stands. -/
theorem test_refused_after_fault : [Instr.readUint 3, .fhBlocksize0, .caInvalid11, .pullCmd, .openCmd []].all
    (fun i => shows (exec i ((source [1]).takeFault (.invalidSync 0)))
      (fun t => t.ret == .refused && t.fault == some (.invalidSync 0) && t.phase == .faulted)) = true := by decide +kernel
theorem test_step_element : shows (step ((source [0x42]).setPort [.element .number])) (fun t => t.br == ⟨1, 0, 0⟩ && t.port == []) = true := by
  decide +kernel
theorem test_with_fetch_word : shows (step (State.reset.withFetchWord 32 0xA000)) (fun t => t.f.n == 1024) = true := by
  decide +kernel

/-! ### Witnesses: states and operands that meet the hypotheses of each statement

A statement with several clauses has a source for each. The premises the clauses share are given for every
source first, so each clause has one state that meets them all. -/

theorem source_ready (l : List Nat) : (source l).Ready :=
  ⟨⟨Memory.ofBytes_wf _, by simp [source, readerAt, State.bp, State.reset, Nat.mod_one], Nat.zero_le _⟩, rfl⟩
theorem frameOf_ready (n : Nat) (l : List Nat) : (frameOf n l).Ready ∧ (frameOf n l).si.valid = true ∧
    (frameOf n l).si.bps = 8 ∧ (frameOf n l).f.n = n := ⟨source_ready l, rfl, rfl, rfl⟩
theorem blockAt_ready (l : List Nat) : (blockAt l).Ready ∧ (blockAt l).br.nbits = 0 ∧ 0 < (blockAt l).mdIndex ∧
    (blockAt l).cfg = config := ⟨source_ready l, rfl, Nat.one_pos, rfl⟩
theorem source_srcLen (l : List Nat) : (source l).srcLen = l.length := by
  rw [State.srcLen, ← Memory.bytes_length]; simp [source, bytes]
theorem subframeAt_ready (n d : Nat) (l : List Nat) (h : 0 < l.length) : (subframeAt n d l).Ready ∧
    (subframeAt n d l).sub.d = d ∧ (subframeAt n d l).f.n = n := by
  refine ⟨⟨State.ReaderOk.skip (source_ready l).1 ?_, rfl⟩, rfl, rfl⟩
  rw [State.ahead_length, show (State.srcLen _) = l.length from source_srcLen l]
  show 7 ≤ 8 * l.length - 0
  omega

/-- A state in `Faulted`. -/
def faulted : State := (source [1]).takeFault (.invalidSync 0)

/-- P2's head: STREAMINFO, an unknown block, a VorbisComment. -/
def p2Blocks : List Block :=
  [⟨false, .unknown 1 (bytes [0, 0, 0])⟩, ⟨true, .vorbisComment (bytes [0x68, 0x78]) [(bytes [0x47], bytes [0x52])]⟩]

theorem witness_CommandsInTheWrongPhaseAreRefused : (source []).phase ≠ .idle ∧ State.reset.phase = .idle ∧
    (blockAt []).phase = .metadata ∧ faulted.phase = .faulted := by decide
theorem witness_OnlyResetLeavesFaulted : faulted.phase = .faulted ∧ ((source []).setFault (some (.invalidSync 0))).fault ≠ none ∧
    (∀ i ∈ [Instr.openCmd [], .pullCmd, .readUint 3, .caIndep0], i ≠ .resetCmd) ∧
    (faulted.setPort [.element .number]).phase = .faulted ∧
    (faulted.setPort [.element .number]).port = .element .number :: [] := by decide
theorem witness_EndOfStreamIsAbsorbing : ((source []).phase = .frames ∧ (source []).fault = none ∧ (source []).atEnd = true) ∧
    (((source []).setPhase .endOfStream).phase = .endOfStream ∧ ((source []).setPhase .endOfStream).fault = none) ∧
    (isCommand .pullCmd = true ∧ Instr.pullCmd ≠ .resetCmd ∧
      shows (exec .pullCmd ((source []).setPhase .endOfStream)) (fun _ => true) = true) ∧
    ((source []).setPhase .endOfStream).si.valid = true := by decide +kernel
/-- Exactly four bytes left; four other bytes; three; sources of three and of four bytes. -/
theorem witness_MarkerIsChecked :
    ((source [0x66, 0x4C, 0x61, 0x43]).halted = false ∧ (source [0x66, 0x4C, 0x61, 0x43]).src.wf = true ∧ (source [0x66, 0x4C, 0x61, 0x43]).br.pos + 4 ≤
      (source [0x66, 0x4C, 0x61, 0x43]).srcLen) ∧
    bytes [0x66, 0x4C, 0x61, 0x58] ≠ [0x66#8, 0x4C#8, 0x61#8, 0x43#8] ∧
    ((source [0x66, 0x4C, 0x61]).halted = false ∧ (source [0x66, 0x4C, 0x61]).srcLen < (source [0x66, 0x4C, 0x61]).br.pos + 4) ∧
    (State.reset.phase = .idle ∧ State.reset.fault = none ∧ State.reset.br = ⟨0, 0, 0⟩ ∧ (bytes [0x66, 0x4C, 0x61]).length < 4) ∧
    4 ≤ (bytes [0x66, 0x4C, 0x61, 0x58]).length ∧
    (bytes [0x66, 0x4C, 0x61, 0x58]).take 4 ≠ [0x66#8, 0x4C#8, 0x61#8, 0x43#8] := by decide
/-- One block, and three. -/
theorem witness_OpenParsesTheWholeHead : (State.reset.setPort [.call .pullCmd]).HostInv ∧
    State.reset.phase = .idle ∧
    (metadataOk config [⟨true, .streaminfo p1Si⟩] = true ∧ headBits config [⟨true, .streaminfo p1Si⟩] <+: bytesBits (bytes p1)) ∧
    metadataOk config (⟨false, .streaminfo p1Si⟩ :: p2Blocks) = true := by
  refine ⟨⟨rfl, rfl, rfl, rfl, rfl, rfl, rfl, rfl⟩, rfl, by decide +kernel, by decide +kernel⟩
theorem witness_PullDeliversTheFrame : (source (p1.drop 42)).Ready ∧ (source (p1.drop 42)).phase = .frames ∧
    (source (p1.drop 42)).br.nbits = 0 ∧ (source (p1.drop 42)).si.valid = true ∧ p1Frame.ok 8 = true ∧
    p1Frame.bits 8 <+: (source (p1.drop 42)).ahead :=
  ⟨ready_iff.1 (by decide +kernel), rfl, rfl, rfl, by decide +kernel, by decide +kernel⟩
theorem witness_StreamDecodesToItsFrames : metadataOk config [⟨true, .streaminfo p1Si⟩] = true ∧
    [p1Frame].all (Frame.ok p1Si.bps) = true ∧
    bytesBits (bytes p1) = headBits config [⟨true, .streaminfo p1Si⟩] ++ [p1Frame].flatMap (Frame.bits p1Si.bps) ∧
    1 ≤ [p1Frame].length := by decide +kernel
/-- All the bits that are left, and one more. -/
theorem witness_ReadUintReadsTheNextBits : ((source [0xA5, 0xC3]).skip 3).Ready ∧
    ((source [0xA5, 0xC3]).skip 3).bp + 13 ≤ 8 * ((source [0xA5, 0xC3]).skip 3).srcLen ∧
    8 * ((source [0xA5, 0xC3]).skip 3).srcLen < ((source [0xA5, 0xC3]).skip 3).bp + 14 :=
  ⟨ready_iff.1 (by decide +kernel), by decide +kernel, by decide +kernel⟩
theorem witness_ReadSintReadsTwosComplement : 1 ≤ 1 ∧ (source [0x80]).Ready ∧
    (source [0x80]).bp + 1 ≤ 8 * (source [0x80]).srcLen ∧ 8 * (source [0x80]).srcLen < (source [0x80]).bp + 9 :=
  ⟨le_rfl, ready_iff.1 (by decide +kernel), by decide, by decide⟩
theorem witness_TheTwoStops : State.reset.halted = false ∧ State.reset.si.valid = false ∧ Instr.caMidSide ∈ [Instr.caIndep0, .caIndep1, .caIndep2,
    .caIndep3, .caIndep4, .caIndep5, .caIndep6, .caIndep7, .caLeftSide, .caRightSide, .caMidSide] := by decide
theorem witness_ReadBytesReturnsTheNextBytes : (source [1, 2]).halted = false ∧ (source [1, 2]).src.wf = true ∧
    (source [1, 2]).br.pos + 2 ≤ (source [1, 2]).srcLen ∧ (source [1, 2]).srcLen < (source [1, 2]).br.pos + 3 := by decide
theorem witness_AlignmentAndTheEndTest : (source [1]).Ready ∧ (source [1]).br.nbits = 0 ∧
    ((source []).halted = false ∧ (source []).src.read (source []).br.pos = none) ∧ (source [7]).halted = false ∧ (source [7]).src.read (source [7]).br.pos = some 7 :=
  ⟨ready_iff.1 (by decide +kernel), rfl, ⟨rfl, rfl⟩, rfl, rfl⟩
/-- `001001` with `k = 3`; zeros to the end; a cut remainder. -/
theorem witness_RiceCodewordsDecode : (∀ l, (source l).Ready) ∧ (1 < 2 ^ 3 ∧
    List.replicate 2 false ++ [true] ++ natBits 3 1 <+: (source [0b001001_00]).ahead) ∧
    (((source [0b001001_00]).setRs { State.reset.rs with k := 3 }).Ready ∧
      ((source [0b001001_00]).setRs { State.reset.rs with k := 3 }).rs.k = 3 ∧
      List.replicate 2 false ++ [true] ++ natBits 3 1 <+:
        ((source [0b001001_00]).setRs { State.reset.rs with k := 3 }).ahead) ∧
    (source [0, 0]).ahead = List.replicate 16 false ∧
    (source [0x80]).ahead = List.replicate 0 false ++ [true] ++ List.replicate 7 false ∧
    (List.replicate 7 false).length < 8 := by
  refine ⟨source_ready, by decide +kernel, ⟨source_ready _, rfl, by decide +kernel⟩, by decide +kernel, by decide +kernel, by decide⟩
theorem witness_RiceRoundTrip : (source [0, 0b00001100, 0]).Ready ∧
    riceBits 4 100 <+: (source [0, 0b00001100, 0]).ahead :=
  ⟨source_ready _, by decide +kernel⟩
theorem witness_FourByteNumbers : (source [1, 2, 3, 4]).Ready ∧ (source [1, 2, 3, 4]).br.pos = 0 ∧
    (source [1, 2, 3, 4]).src.read 0 = some 1 ∧ (source [1, 2, 3, 4]).src.read 1 = some 2 ∧
    (source [1, 2, 3, 4]).src.read 2 = some 3 ∧
    (source [1, 2, 3, 4]).src.read 3 = some 4 ∧ (source [1, 2, 3, 4]).br.nbits = 0 ∧
    (source [1, 2, 3]).halted = false ∧ (source [1, 2, 3]).srcLen < (source [1, 2, 3]).br.pos + 4 :=
  ⟨source_ready _, rfl, rfl, rfl, rfl, rfl, rfl, rfl, by decide⟩
theorem witness_FrameWordIsLatched : (∀ l, (source l).Ready) ∧
    natBits 14 0x3FFE ++ [true, true] ++ natBits 4 7 ++ natBits 4 13 ++ natBits 4 0 ++ natBits 3 0 ++ [true] <+:
      (source [0xFF, 0xFB, 0x7D, 0x01]).ahead ∧
    (0x3FFF < 2 ^ 14 ∧ 0x3FFF ≠ 0x3FFE ∧ natBits 14 0x3FFF <+: (source [0xFF, 0xFF]).ahead) ∧
    8 * (source [0xFF]).srcLen < (source [0xFF]).bp + 14 ∧
    (natBits 14 0x3FFE <+: (source [0xFF, 0xFB, 0x7D]).ahead ∧
      8 * (source [0xFF, 0xFB, 0x7D]).srcLen < (source [0xFF, 0xFB, 0x7D]).bp + 32) :=
  ⟨source_ready, by decide +kernel, by decide +kernel, by decide,
    by decide +kernel, by decide⟩
theorem witness_BlockSizeOfEveryCode : (source []).halted = false ∧ (∀ l, (source l).Ready) ∧
    (255 < 2 ^ 8 ∧ natBits 8 255 <+: (source [0xFF, 0xFF]).ahead) ∧
    (65535 < 2 ^ 16 ∧ natBits 16 65535 <+: (source [0xFF, 0xFF]).ahead) ∧
    8 * (source []).srcLen < (source []).bp + 8 ∧ 8 * (source [0]).srcLen < (source [0]).bp + 16 :=
  ⟨rfl, source_ready, by decide +kernel, by decide +kernel, by decide, by decide⟩
theorem witness_SampleRateCodesSkip : (∀ l, (source l).Ready) ∧
    (source [1, 2]).bp + 16 ≤ 8 * (source [1, 2]).srcLen ∧ 8 * (source [1]).srcLen < (source [1]).bp + 16 ∧
    8 * (source []).srcLen < (source []).bp + 8 :=
  ⟨source_ready, by decide, by decide, by decide⟩
theorem witness_FrameNumberLength : (∀ l, (source l).Ready) ∧
    (∃ x, Instr.fhNumber80 63 = .fhNumber80 x ∧ 0 = 0) ∧ (∃ x, Instr.fhNumberC0 0 = .fhNumberC0 x ∧ 1 = 1) ∧
    (Instr.fhNumberFF = .fhNumberFF ∧ 7 = 7) ∧
    (source [0, 0, 0, 0, 0, 0, 0]).bp + 8 * 7 ≤ 8 * (source [0, 0, 0, 0, 0, 0, 0]).srcLen ∧
    8 * (source [0, 0, 0, 0, 0, 0]).srcLen < (source [0, 0, 0, 0, 0, 0]).bp + 8 * 7 :=
  ⟨source_ready, ⟨63, rfl, rfl⟩, ⟨0, rfl, rfl⟩, ⟨rfl, rfl⟩, by decide, by decide⟩
/-- First bytes with no, two and eight leading 1 bits. -/
theorem witness_FirstByteGivesTheNumberLength : (source [1, 2, 3, 4, 5, 6, 7]).Ready ∧
    ∀ b ∈ [(0x7F#8 : Byte), 0xC2#8, 0xFF#8], (source [1, 2, 3, 4, 5, 6, 7]).bp +
      8 * (((natBits 8 b.toNat).takeWhile id).length - 1) ≤ 8 * (source [1, 2, 3, 4, 5, 6, 7]).srcLen :=
  ⟨ready_iff.1 (by decide +kernel), by decide +kernel⟩
theorem witness_ChecksumsAreSkipped : (∀ l, (source l).Ready) ∧ ((source [0, 1, 2]).skip 4).Ready ∧ ((source [0, 1]).skip 4).Ready ∧ (source [0xAA]).bp + 8 ≤ 8 * (source [0xAA]).srcLen ∧
    8 * (source []).srcLen < (source []).bp + 8 ∧
    ((source [0, 1, 2]).skip 4).br.pos + 2 ≤ ((source [0, 1, 2]).skip 4).srcLen ∧
    ((source [0, 1]).skip 4).srcLen < ((source [0, 1]).skip 4).br.pos + 2 :=
  ⟨source_ready, ready_iff.1 (by decide +kernel), ready_iff.1 (by decide +kernel), by decide, by decide, by decide +kernel, by decide +kernel⟩

/-- A CONSTANT subframe. -/
def const (v : Int) : Subframe := ⟨false, 0, .constant v⟩

/-- A VERBATIM subframe. -/
def verb (xs : List Int) : Subframe := ⟨false, 0, .verbatim xs⟩

/-- T-FH4's eight subframes, and P1's one. -/
theorem witness_IndependentChannels :
    (∀ n l, (frameOf n l).Ready ∧ (frameOf n l).si.valid = true ∧ (frameOf n l).si.bps = 8 ∧ (frameOf n l).f.n = n) ∧ [const (-4), const (-3), const (-2), const (-1), const 0, const 1, const 2, const 3].length = 8 ∧
    subframesOk 1 (List.replicate 8 8) [const (-4), const (-3), const (-2), const (-1), const 0, const 1, const 2, const 3] = true ∧
    subframesBits (List.replicate 8 8) [const (-4), const (-3), const (-2), const (-1), const 0, const 1, const 2, const 3] <+:
      (frameOf 1 [0, 0xFC, 0, 0xFD, 0, 0xFE, 0, 0xFF, 0, 0, 0, 1, 0, 2, 0, 3]).ahead ∧
    subframesOk 4 (List.replicate 1 8) [verb [1, -1, 127, -128]] = true ∧
    subframesBits (List.replicate 1 8) [verb [1, -1, 127, -128]] <+: (frameOf 4 [2, 1, 0xFF, 0x7F, 0x80]).ahead := by
  refine ⟨frameOf_ready, rfl, by decide +kernel, by decide +kernel, by decide +kernel, by decide +kernel⟩
/-- P2's second frame. -/
theorem witness_LeftSideChannels : (∀ n l, (frameOf n l).Ready ∧ (frameOf n l).si.valid = true ∧ (frameOf n l).si.bps = 8 ∧ (frameOf n l).f.n = n) ∧ (verb [100, -128]).ok 2 8 = true ∧ (verb [-27, 127]).ok 2 9 = true ∧
    (verb [100, -128]).bits 8 ++ (verb [-27, 127]).bits 9 <+: (frameOf 2 [0x02, 0x64, 0x80, 0x02, 0xF2, 0x9F, 0xC0]).ahead :=
  ⟨frameOf_ready, by decide +kernel, by decide +kernel, by decide +kernel⟩
/-- P2's third frame: a side sample of -256, the least at 9 bits. -/
theorem witness_RightSideChannels : (∀ n l, (frameOf n l).Ready ∧ (frameOf n l).si.valid = true ∧ (frameOf n l).si.bps = 8 ∧ (frameOf n l).f.n = n) ∧ (verb [255, -256]).ok 2 9 = true ∧ (verb [-128, 127]).ok 2 8 = true ∧
    (verb [255, -256]).bits 9 ++ (verb [-128, 127]).bits 8 <+: (frameOf 2 [0x02, 0x7F, 0xC0, 0x00, 0xA0, 0x1F, 0xC0]).ahead :=
  ⟨frameOf_ready, by decide +kernel, by decide +kernel, by decide +kernel⟩
/-- T-CA2. -/
theorem witness_MidSideChannels : (∀ n l, (frameOf n l).Ready ∧ (frameOf n l).si.valid = true ∧ (frameOf n l).si.bps = 8 ∧ (frameOf n l).f.n = n) ∧ (verb [3, -1]).ok 2 8 = true ∧ (verb [1, -3]).ok 2 9 = true ∧
    (verb [3, -1]).bits 8 ++ (verb [1, -3]).bits 9 <+: (frameOf 2 [0x02, 0x03, 0xFF, 0x02, 0x00, 0xFF, 0x40]).ahead :=
  ⟨frameOf_ready, by decide +kernel, by decide +kernel, by decide +kernel⟩
/-- T-CA2 with the subframes in the order of codes 8 and 10, and P2's third frame in that of code 9. -/
theorem witness_StereoIdentities :
    (∀ n l, (frameOf n l).Ready ∧ (frameOf n l).si.valid = true ∧ (frameOf n l).si.bps = 8 ∧ (frameOf n l).f.n = n) ∧
    (
      (verb [3, -1]).ok 2 8 = true ∧ (verb [1, -3]).ok 2 9 = true ∧
      (if true then (verb [3, -1]).bits 8 ++ (verb [1, -3]).bits 9 else (verb [1, -3]).bits 9 ++ (verb [3, -1]).bits 8)
        <+: (frameOf 2 [0x02, 0x03, 0xFF, 0x02, 0x00, 0xFF, 0x40]).ahead) ∧
    (if false then (verb [-128, 127]).bits 8 ++ (verb [255, -256]).bits 9
      else (verb [255, -256]).bits 9 ++ (verb [-128, 127]).bits 8)
        <+: (frameOf 2 [0x02, 0x7F, 0xC0, 0x00, 0xA0, 0x1F, 0xC0]).ahead ∧ (verb [-128, 127]).ok 2 8 = true ∧
      (verb [255, -256]).ok 2 9 = true ∧ 1 < 2 :=
  ⟨frameOf_ready, ⟨by decide +kernel, by decide +kernel, by decide +kernel⟩, by decide +kernel, by decide +kernel,
    by decide +kernel, by decide⟩
theorem witness_WastedBitsAreCounted : (∀ l, (source l).Ready) ∧
    List.replicate 3 true ++ [false] <+: (source [0b1110_0000]).ahead ∧
    List.replicate 0 true ++ [false] <+: (source [0]).ahead ∧
    (source [0xFF]).ahead = List.replicate 8 true ∧ (source []).ahead = List.replicate 0 true :=
  ⟨source_ready, by decide +kernel, by decide +kernel, by decide +kernel, by decide +kernel⟩
/-- P2's first subframe; one bit left of eight. -/
theorem witness_ConstantSubframe : (∀ n d l, 0 < l.length → (subframeAt n d l).Ready ∧ (subframeAt n d l).sub.d = d ∧ (subframeAt n d l).f.n = n) ∧ 2 < 8 ∧ 7 < 8 ∧
    fitsInt 6 (-7) = true ∧ wastedBits 2 ++ intBits 6 (-7) <+: (subframeAt 4 8 [0x01, 0xB9]).ahead ∧
    fitsInt 1 (-1) = true ∧ wastedBits 7 ++ intBits 1 (-1) <+: (subframeAt 4 8 [0x01, 0xFD]).ahead :=
  ⟨subframeAt_ready, by decide, by decide, by decide, by decide +kernel, by decide, by decide +kernel⟩
/-- No fault latched, on a state in `Frames`. -/
theorem witness_InvalidChannelCodesFault : (source [2]).halted = false := rfl
/-- T-SF1; P1's. -/
theorem witness_VerbatimSubframe : (∀ n d l, 0 < l.length → (subframeAt n d l).Ready ∧ (subframeAt n d l).sub.d = d ∧ (subframeAt n d l).f.n = n) ∧ 3 < 8 ∧
    [-16, 15].length = 2 ∧ [-16, 15].all (fitsInt 5) = true ∧
    wastedBits 3 ++ [-16, 15].flatMap (intBits 5) <+: (subframeAt 2 8 [0x03, 0xD0, 0x78]).ahead ∧
    [1, -1, 127, -128].length = 4 ∧ [1, -1, 127, -128].all (fitsInt 8) = true ∧
    wastedBits 0 ++ [1, -1, 127, -128].flatMap (intBits 8) <+: (subframeAt 4 8 [2, 1, 0xFF, 0x7F, 0x80]).ahead :=
  ⟨subframeAt_ready, by decide, rfl, by decide, by decide +kernel, rfl, by decide, by decide +kernel⟩

/-- A residual of one partition. -/
def residual (wide escaped : Bool) (k : Nat) (xs : List Int) : Residual := ⟨wide, 0, [⟨k, escaped, xs⟩]⟩

/-- T-RS3 (order 0), T-RS6 (order 1, an empty partition), P3's frames 2 and 3 (orders 2 and 4, a wasted
bit), T-SF3 (order 3). -/
theorem witness_FixedSubframe :
    (∀ n d l, 0 < l.length → (subframeAt n d l).Ready ∧ (subframeAt n d l).sub.d = d ∧ (subframeAt n d l).f.n = n) ∧ (0 < 8 ∧ 0 < 16 ∧ 1 < 16) ∧
    ((residual true true 9 [300, -300]).ok 2 0 = true ∧
      wastedBits 0 ++ [].flatMap (intBits 8) ++ (residual true true 9 [300, -300]).bits <+:
        (subframeAt 2 8 [0x10, 0x43, 0xE9, 0x4B, 0x09, 0x5C]).ahead) ∧
    ([10].all (fitsInt 8) = true ∧ Residual.ok 2 1 ⟨false, 1, [⟨3, false, []⟩, ⟨0, false, [-2]⟩]⟩ = true ∧
      wastedBits 0 ++ [10].flatMap (intBits 8) ++ Residual.bits ⟨false, 1, [⟨3, false, []⟩, ⟨0, false, [-2]⟩]⟩ <+:
        (subframeAt 2 8 [0x12, 0x0A, 0x04, 0xC0, 0x40]).ahead) ∧
    ([-5, -3].all (fitsInt 16) = true ∧ (residual true false 1 [0, 1, -1, 2]).ok 6 2 = true ∧
      wastedBits 0 ++ [-5, -3].flatMap (intBits 16) ++ (residual true false 1 [0, 1, -1, 2]).bits <+:
        (subframeAt 6 16 [0x14, 0xFF, 0xFB, 0xFF, 0xFD, 0x40, 0x32, 0xC8]).ahead) ∧
    ([1, 3, 6].all (fitsInt 8) = true ∧ (residual false false 0 [0, -1]).ok 5 3 = true ∧
      wastedBits 0 ++ [1, 3, 6].flatMap (intBits 8) ++ (residual false false 0 [0, -1]).bits <+:
        (subframeAt 5 8 [0x16, 0x01, 0x03, 0x06, 0x00, 0x28]).ahead) ∧
    (residual false false 0 [0, 1, -1, 0]).ok 8 4 = true ∧ [1, 2, 4, 8].all (fitsInt 15) = true ∧
      wastedBits 1 ++ [1, 2, 4, 8].flatMap (intBits 15) ++ (residual false false 0 [0, 1, -1, 0]).bits <+:
        (subframeAt 8 16 [0x19, 0x00, 0x01, 0x00, 0x04, 0x00, 0x10, 0x00, 0x40, 0x01, 0x2C]).ahead := by
  exact ⟨subframeAt_ready, by decide +kernel⟩
/-- T-SF2 (order 1), T-SF4 (order 32). -/
theorem witness_LpcSubframe :
    (∀ n d l, 0 < l.length → (subframeAt n d l).Ready ∧ (subframeAt n d l).sub.d = d ∧ (subframeAt n d l).f.n = n) ∧ 0 < 8 ∧
    ([5].length = (0 : BitVec 5).toNat + 1 ∧ [5].all (fitsInt 8) = true ∧ [-1].all (fitsInt 2) = true ∧
      (residual false false 0 [0, 0]).ok 3 1 = true ∧
      wastedBits 0 ++ [5].flatMap (intBits 8) ++ natBits 4 (2 - 1) ++ intBits 5 (1 : Nat) ++ [-1].flatMap (intBits 2) ++
        (residual false false 0 [0, 0]).bits <+: (subframeAt 3 8 [0x40, 0x05, 0x10, 0xE0, 0x06]).ahead) ∧
    (List.replicate 32 (1 : Int)).length = (31 : BitVec 5).toNat + 1 ∧ (List.replicate 32 (1 : Int)).all (fitsInt 8) = true ∧
      (-1 :: List.replicate 31 0 : List Int).length = (31 : BitVec 5).toNat + 1 ∧
      (-1 :: List.replicate 31 0).all (fitsInt 1) = true ∧ (residual false false 0 [0]).ok 33 32 = true ∧
      wastedBits 0 ++ (List.replicate 32 1).flatMap (intBits 8) ++ natBits 4 (1 - 1) ++ intBits 5 (0 : Nat) ++
        (-1 :: List.replicate 31 0).flatMap (intBits 1) ++ (residual false false 0 [0]).bits <+:
        (subframeAt 33 8 ([0x7E] ++ List.replicate 32 1 ++ [0, 0x40, 0, 0, 0, 0, 0x10])).ahead := by
  exact ⟨subframeAt_ready, by decide +kernel⟩
/-- F11; T-SF7's first and last types; F12. -/
theorem witness_SubframeFaultsInOrder :
    (∀ n d l, 0 < l.length → (subframeAt n d l).Ready ∧ (subframeAt n d l).sub.d = d ∧ (subframeAt n d l).f.n = n) ∧ (owner .sfConstant = .subframe ∧ Instr.sfConstant ≠ .readWasted ∧
      8 ≤ 8 ∧ wastedBits 8 <+: (subframeAt 4 8 [0x01, 0xFE, 0]).ahead) ∧
    ((∃ x, Instr.sfUnsupported2 0 = .sfUnsupported2 x ∧ 2 = 2 + x.toNat) ∧
      (∃ x, Instr.sfUnsupported16 15 = .sfUnsupported16 x ∧ 31 = 16 + x.toNat) ∧
      7 < 8 ∧ wastedBits 7 <+: (subframeAt 4 8 [0x05, 0xFC]).ahead) ∧
    (0 < 8 ∧ [1].length = (0 : BitVec 5).toNat + 1 ∧ [1].all (fitsInt 8) = true ∧
      wastedBits 0 ++ [1].flatMap (intBits 8) ++ natBits 4 (4 - 1) ++ intBits 5 (-1) <+:
        (subframeAt 4 8 [0x40, 0x01, 0x3F, 0x88]).ahead) := by
  refine ⟨subframeAt_ready, ?_, ⟨⟨0, by decide⟩, ⟨15, by decide⟩, ?_⟩, ?_⟩ <;> decide +kernel
/-- P3's first frame; order 0; nothing to predict. -/
theorem witness_PredictFollowsTheRecurrence : State.reset.halted = false ∧
    ([100, 110].length = 2 ∧ [7, -3].length = 2 ∧ 2 + [3, -2, 0, -9, 20, -1].length = 8) ∧
    (([] : List Int).length = 0 ∧ 0 + [300, -300].length = 2) ∧ ([5].length = 1 ∧ 1 + ([] : List Int).length = 1) := by decide
theorem witness_CodingMethods : (source []).halted = false := rfl
/-- T-RS1's header; the largest order; F9; T-RS7's two cases, an order above the first partition's
count (FIXED) and above the block itself (LPC). -/
theorem witness_PartitionOrder : (∀ n d l, 0 < l.length → (subframeAt n d l).Ready ∧ (subframeAt n d l).sub.d = d ∧ (subframeAt n d l).f.n = n) ∧
    (∀ p ∈ [((8 : Nat), (0b000001_00 : Nat)), (32768, 0b001111_00), (6, 0x08)], ready ((frameOf p.1 [p.2]).skip 2) = true) ∧
    (1 < 16 ∧ 8 % 2 ^ 1 = 0 ∧
    natBits 4 1 <+: ((frameOf 8 [0b000001_00]).skip 2).ahead) ∧ (15 < 16 ∧ 32768 % 2 ^ 15 = 0 ∧
    natBits 4 15 <+: ((frameOf 32768 [0b001111_00]).skip 2).ahead) ∧
    (2 < 16 ∧ 6 % 2 ^ 2 ≠ 0 ∧ natBits 4 2 <+: ((frameOf 6 [0x08]).skip 2).ahead) ∧
    (0 < 8 ∧ [1, 2].length = 2 ∧
      [1, 2].all (fitsInt 8) = true ∧ 2 < 16 ∧ 4 % 2 ^ 2 = 0 ∧ 4 / 2 ^ 2 < 2 ∧
      wastedBits 0 ++ [1, 2].flatMap (intBits 8) ++ natBits 2 false.toNat ++ natBits 4 2 <+:
        (subframeAt 4 8 [0x14, 1, 2, 8, 0]).ahead) ∧
    (0 < 8 ∧
      [1, 2, 3].length = (2 : BitVec 5).toNat + 1 ∧ [1, 2, 3].all (fitsInt 8) = true ∧
      [0, 0, 0].length = (2 : BitVec 5).toNat + 1 ∧ [0, 0, 0].all (fitsInt 1) = true ∧ 0 < 16 ∧ 2 % 2 ^ 0 = 0 ∧
      2 / 2 ^ 0 < (2 : BitVec 5).toNat + 1 ∧
      wastedBits 0 ++ [1, 2, 3].flatMap (intBits 8) ++ natBits 4 (1 - 1) ++ intBits 5 (0 : Nat) ++
        [0, 0, 0].flatMap (intBits 1) ++ natBits 2 false.toNat ++ natBits 4 0 <+:
        (subframeAt 2 8 [0x44, 1, 2, 3, 0, 0, 0]).ahead) := by
  refine ⟨subframeAt_ready, ?_, ?_, ?_, ?_, ?_, ?_⟩ <;> decide +kernel
theorem witness_RiceParameters : (source []).halted = false ∧ WellFormed (.resParam false 14) = true ∧ WellFormed (.resParam true 30) = true ∧
    (∀ l, (source l).Ready) ∧ ((source [0]).skip 4).Ready ∧ (31 < 2 ^ 5 ∧ natBits 5 31 <+: (source [0b11111_000]).ahead) ∧
    8 * ((source [0]).skip 4).srcLen < ((source [0]).skip 4).bp + 5 :=
  ⟨rfl, by decide, by decide, source_ready, ready_iff.1 (by decide +kernel), by decide +kernel, by decide +kernel⟩
/-- The reader at T-RS1's second partition, with its parameter. -/
def partitionAt (l : List Nat) : State := (source l).setRs { State.reset.rs with k := 3 }

/-- T-RS1's second partition; no values. -/
theorem witness_PartitionValues : (∀ l, (partitionAt l).Ready ∧ (partitionAt l).rs.k = 3) ∧
    [0, -9, 20, -1].flatMap (riceBits 3) <+: (partitionAt [0b10000010, 0b01000001, 0b00010010]).ahead ∧
    ([] : List Int).flatMap (riceBits 3) <+: (partitionAt []).ahead :=
  ⟨fun l => ⟨source_ready l, rfl⟩, by decide +kernel, by decide +kernel⟩
/-- P1's body. -/
theorem witness_StreaminfoBlock : (source ((p1.drop 8).take 34)).Ready ∧ (source ((p1.drop 8).take 34)).br.nbits = 0 ∧
    (source ((p1.drop 8).take 34)).mdIndex = 0 ∧ streaminfoOk p1Si = true ∧
    streaminfoBits p1Si <+: (source ((p1.drop 8).take 34)).ahead :=
  ⟨source_ready _, rfl, rfl, by decide, by decide +kernel⟩
/-- M9; an id alone. -/
theorem witness_ApplicationBlock : (∀ l, (blockAt l).Ready ∧ (blockAt l).br.nbits = 0 ∧ 0 < (blockAt l).mdIndex ∧ (blockAt l).cfg = config) ∧ (bytes [0x74, 0x65, 0x73, 0x74]).length = 4 ∧
    (6 : BitVec 24).toNat = 4 + (bytes [1, 2]).length ∧ (4 : BitVec 24).toNat = 4 + (bytes []).length ∧
    bytesBits (bytes [0x74, 0x65, 0x73, 0x74] ++ bytes [1, 2]) <+: (blockAt [0x74, 0x65, 0x73, 0x74, 1, 2]).ahead ∧
    bytesBits (bytes [0x74, 0x65, 0x73, 0x74] ++ bytes []) <+: (blockAt [0x74, 0x65, 0x73, 0x74]).ahead :=
  ⟨blockAt_ready, by decide, by decide, by decide, by decide +kernel, by decide +kernel⟩

/-- M15's bytes and entries. -/
def m15 : List Nat :=
  [0, 0, 0, 0, 3, 0, 0, 0, 5, 0, 0, 0, 0x41, 0x3D, 0x62, 0x3D, 0x63, 2, 0, 0, 0, 0x3D, 0x78, 2, 0, 0, 0, 0x4B, 0x3D]

/-- M15's entries. -/
def m15Entries : List (List Byte × List Byte) :=
  [(bytes [0x41], bytes [0x62, 0x3D, 0x63]), ([], bytes [0x78]), (bytes [0x4B], [])]

theorem witness_VorbisCommentBlock : (∀ l, (blockAt l).Ready ∧ (blockAt l).br.nbits = 0 ∧ 0 < (blockAt l).mdIndex ∧ (blockAt l).cfg = config) ∧
    stringOk config.utf8 [] = true ∧
    (∀ e ∈ m15Entries, e.1.contains 0x3D#8 = false ∧ stringOk config.utf8 (e.1 ++ [0x3D#8] ++ e.2) = true) ∧
    (29 : BitVec 24).toNat = (vorbisBytes [] m15Entries).length ∧
    bytesBits (vorbisBytes [] m15Entries) <+: (blockAt m15).ahead := by
  refine ⟨blockAt_ready, by decide +kernel, by decide +kernel, by decide +kernel, by decide +kernel⟩
/-- The largest type, the largest numbers. -/
theorem witness_PictureBlock : (∀ l, (blockAt l).Ready ∧ (blockAt l).br.nbits = 0 ∧ 0 < (blockAt l).mdIndex ∧ (blockAt l).cfg = config) ∧ 20 ≤ 20 ∧ stringOk config.utf8 [] = true ∧ 2 ^ 32 - 1 < 2 ^ 32 ∧
    (33 : BitVec 24).toNat = (pictureBytes 20 [] [] (2 ^ 32 - 1) (2 ^ 32 - 1) (2 ^ 32 - 1) (2 ^ 32 - 1) [7]).length ∧
    bytesBits (pictureBytes 20 [] [] (2 ^ 32 - 1) (2 ^ 32 - 1) (2 ^ 32 - 1) (2 ^ 32 - 1) [7]) <+:
      (blockAt ([0, 0, 0, 20, 0, 0, 0, 0, 0, 0, 0, 0] ++ List.replicate 16 255 ++ [0, 0, 0, 1, 7])).ahead := by
  refine ⟨blockAt_ready, by decide, by decide +kernel, by decide, by decide +kernel, by decide +kernel⟩
theorem witness_UnknownBlock : (blockAt [7, 7]).halted = false ∧ (blockAt [7, 7]).src.wf = true ∧ 0 < (blockAt [7, 7]).mdIndex ∧
    (∃ x, Instr.mbUnknownOdd true 63 2 = .mbUnknownOdd true x 2) ∧ (∃ x, Instr.mbUnknown8 true 3 2 = .mbUnknown8 true x 2) ∧
    (blockAt [7, 7]).br.pos + (2 : BitVec 24).toNat ≤ (blockAt [7, 7]).srcLen ∧
    (blockAt [7, 7]).srcLen < (blockAt [7, 7]).br.pos + (3 : BitVec 24).toNat :=
  ⟨rfl, by decide, by decide, ⟨63, rfl⟩, ⟨3, rfl⟩, by decide, by decide⟩
/-- P2's second block; P1's first. -/
theorem witness_HeaderDispatchesTheBlock :
    (∀ l, (blockAt l).Ready ∧ (blockAt l).br.nbits = 0 ∧ 0 < (blockAt l).mdIndex ∧ (blockAt l).cfg = config) ∧
    (∀ l, (source l).Ready ∧ (source l).br.nbits = 0 ∧ (source l).mdIndex = 0 ∧ (source l).cfg = config) ∧
    (Content.ok config (.unknown 1 (bytes [0, 0, 0])) = true ∧
      Content.isStreaminfo (.unknown 1 (bytes [0, 0, 0])) = decide ((blockAt [1, 0, 0, 3, 0, 0, 0]).mdIndex = 0) ∧
      Block.bits config ⟨false, .unknown 1 (bytes [0, 0, 0])⟩ <+: (blockAt [1, 0, 0, 3, 0, 0, 0]).ahead) ∧
    (Content.ok config (.streaminfo p1Si) = true ∧ Content.isStreaminfo (.streaminfo p1Si) = decide ((source (p1.drop 4)).mdIndex = 0) ∧
      Block.bits config ⟨true, .streaminfo p1Si⟩ <+: (source (p1.drop 4)).ahead) := by
  refine ⟨blockAt_ready, fun l => ⟨source_ready l, rfl, rfl, rfl⟩, ?_, ?_⟩ <;> decide +kernel
theorem witness_BlockHeadersAreChecked : (source []).halted = false ∧ (source []).mdIndex = 0 ∧
    (∃ x, Instr.mbUnknown64 true 0 0 = .mbUnknown64 true x 0) ∧ (blockAt []).halted = false ∧ 0 < (blockAt []).mdIndex ∧
    (33 : BitVec 24) ≠ 34#24 ∧ (3 : BitVec 24).toNat < 4 := ⟨rfl, rfl, ⟨0, rfl⟩, rfl, by decide, by decide, by decide⟩
/-- The ten clauses in order: an overrun by the vendor's length field and by what it announces, a vendor
not UTF-8, no room for the count, a byte left over, an overrun by an entry's length field and by what it
announces, and a second entry that is not UTF-8 or has no `=`. -/
theorem witness_BlockBodiesAreChecked :
    (∀ l, (blockAt l).Ready ∧ (blockAt l).br.nbits = 0 ∧ 0 < (blockAt l).mdIndex ∧ (blockAt l).cfg = config) ∧
    ((3 : BitVec 24).toNat < 4) ∧
    (5 < 2 ^ 32 ∧ 4 ≤ (8 : BitVec 24).toNat ∧ (8 : BitVec 24).toNat < 4 + 5 ∧ bytesBits (le4 5) <+: (blockAt [5, 0, 0, 0]).ahead) ∧
    (stringOk config.utf8 (bytes [0xFF]) = false ∧ 4 + (bytes [0xFF]).length ≤ (5 : BitVec 24).toNat ∧
      bytesBits (le4 1 ++ bytes [0xFF]) <+: (blockAt [1, 0, 0, 0, 0xFF]).ahead) ∧
    (stringOk config.utf8 [] = true ∧ 4 + 0 ≤ (7 : BitVec 24).toNat ∧ (7 : BitVec 24).toNat < 8 + 0 ∧
      bytesBits (le4 0 ++ []) <+: (blockAt [0, 0, 0, 0]).ahead) ∧
    ((le4 0 ++ [] ++ le4 0 ++ entriesBytes []).length < (9 : BitVec 24).toNat ∧
      bytesBits (le4 0 ++ [] ++ le4 0 ++ entriesBytes []) <+: (blockAt [0, 0, 0, 0, 0, 0, 0, 0, 0]).ahead) ∧
    (0 < 1 ∧ (le4 0 ++ [] ++ le4 1 ++ entriesBytes []).length ≤ (11 : BitVec 24).toNat ∧
      (11 : BitVec 24).toNat < (le4 0 ++ [] ++ le4 1 ++ entriesBytes []).length + 4 ∧
      bytesBits (le4 0 ++ [] ++ le4 1 ++ entriesBytes []) <+: (blockAt [0, 0, 0, 0, 1, 0, 0, 0]).ahead) ∧
    (2 < 2 ^ 32 ∧ (le4 0 ++ [] ++ le4 1 ++ entriesBytes []).length + 4 ≤ (13 : BitVec 24).toNat ∧
      (13 : BitVec 24).toNat < (le4 0 ++ [] ++ le4 1 ++ entriesBytes []).length + 4 + 2 ∧
      bytesBits (le4 0 ++ [] ++ le4 1 ++ entriesBytes [] ++ le4 2) <+:
        (blockAt [0, 0, 0, 0, 1, 0, 0, 0, 2, 0, 0, 0]).ahead) ∧
    ((∀ e ∈ [(bytes [0x4B], bytes [])], e.1.contains 0x3D#8 = false ∧ stringOk config.utf8 (e.1 ++ [0x3D#8] ++ e.2) = true) ∧
      [(bytes [0x4B], bytes [])].length < 2 ∧
      (le4 0 ++ [] ++ le4 2 ++ entriesBytes [(bytes [0x4B], bytes [])]).length + 4 + 1 ≤ (19 : BitVec 24).toNat ∧
      (stringOk config.utf8 (bytes [0xFF]) = false ∧
        bytesBits (le4 0 ++ [] ++ le4 2 ++ entriesBytes [(bytes [0x4B], bytes [])] ++ le4 1 ++ bytes [0xFF]) <+:
          (blockAt [0, 0, 0, 0, 2, 0, 0, 0, 2, 0, 0, 0, 0x4B, 0x3D, 1, 0, 0, 0, 0xFF]).ahead) ∧
      stringOk config.utf8 (bytes [0x47]) = true ∧ (bytes [0x47]).contains 0x3D#8 = false ∧
        bytesBits (le4 0 ++ [] ++ le4 2 ++ entriesBytes [(bytes [0x4B], bytes [])] ++ le4 1 ++ bytes [0x47]) <+:
          (blockAt [0, 0, 0, 0, 2, 0, 0, 0, 2, 0, 0, 0, 0x4B, 0x3D, 1, 0, 0, 0, 0x47]).ahead) := by
  refine ⟨blockAt_ready, ?_, ?_, ?_, ?_, ?_, ?_, ?_, ?_⟩ <;> decide +kernel
/-- The clauses in order: a type that overruns and one above 20; an overrun by the MIME string's length
field and by what it announces; a MIME string not UTF-8; an overrun by the description's length field and
by what it announces; a description not UTF-8; an overrun by the first number and by the last length; an
overrun by what the last length announces; a byte left over. -/
theorem witness_PictureBodiesAreChecked :
    (∀ l, (blockAt l).Ready ∧ (blockAt l).br.nbits = 0 ∧ 0 < (blockAt l).mdIndex ∧ (blockAt l).cfg = config) ∧
    (20 < 2 ^ 32 ∧ (3 : BitVec 24).toNat < 4) ∧
    (20 < 21 ∧ 4 ≤ (4 : BitVec 24).toNat ∧ bytesBits (be4 21) <+: (blockAt [0, 0, 0, 21]).ahead) ∧
    (20 ≤ 20 ∧ 4 ≤ (7 : BitVec 24).toNat ∧ (7 : BitVec 24).toNat < 8 ∧ bytesBits (be4 20) <+: (blockAt [0, 0, 0, 20]).ahead) ∧
    (1 < 2 ^ 32 ∧ 8 ≤ (8 : BitVec 24).toNat ∧ (8 : BitVec 24).toNat < 8 + 1 ∧
      bytesBits (be4 20 ++ be4 1) <+: (blockAt [0, 0, 0, 20, 0, 0, 0, 1]).ahead) ∧
    (8 + (bytes [0xFF]).length ≤ (9 : BitVec 24).toNat ∧ stringOk config.utf8 (bytes [0xFF]) = false ∧
      bytesBits (be4 20 ++ be4 1 ++ bytes [0xFF]) <+: (blockAt [0, 0, 0, 20, 0, 0, 0, 1, 0xFF]).ahead) ∧
    (8 + 0 ≤ (11 : BitVec 24).toNat ∧ stringOk config.utf8 [] = true ∧ (11 : BitVec 24).toNat < 12 + 0 ∧
      bytesBits (be4 20 ++ be4 0 ++ []) <+: (blockAt [0, 0, 0, 20, 0, 0, 0, 0]).ahead) ∧
    (12 + 0 ≤ (12 : BitVec 24).toNat ∧ (12 : BitVec 24).toNat < 12 + 0 + 1 ∧
      bytesBits (be4 20 ++ be4 0 ++ [] ++ be4 1) <+: (blockAt [0, 0, 0, 20, 0, 0, 0, 0, 0, 0, 0, 1]).ahead) ∧
    (12 + 0 + (bytes [0xFF]).length ≤ (13 : BitVec 24).toNat ∧
      bytesBits (be4 20 ++ be4 0 ++ [] ++ be4 1 ++ bytes [0xFF]) <+:
        (blockAt [0, 0, 0, 20, 0, 0, 0, 0, 0, 0, 0, 1, 0xFF]).ahead) ∧
    ((be4 20 ++ be4 0 ++ [] ++ be4 0 ++ [] ++ [].flatMap be4).length ≤ (15 : BitVec 24).toNat ∧
      (15 : BitVec 24).toNat < (be4 20 ++ be4 0 ++ [] ++ be4 0 ++ [] ++ [].flatMap be4).length + 4 ∧
      bytesBits (be4 20 ++ be4 0 ++ [] ++ be4 0 ++ [] ++ [].flatMap be4) <+:
        (blockAt [0, 0, 0, 20, 0, 0, 0, 0, 0, 0, 0, 0]).ahead) ∧
    ((∀ v ∈ [0, 0, 0, 0], v < 2 ^ 32) ∧
      (be4 20 ++ be4 0 ++ [] ++ be4 0 ++ [] ++ [0, 0, 0, 0].flatMap be4).length ≤ (31 : BitVec 24).toNat ∧
      (31 : BitVec 24).toNat < (be4 20 ++ be4 0 ++ [] ++ be4 0 ++ [] ++ [0, 0, 0, 0].flatMap be4).length + 4 ∧
      bytesBits (be4 20 ++ be4 0 ++ [] ++ be4 0 ++ [] ++ [0, 0, 0, 0].flatMap be4) <+:
        (blockAt ([0, 0, 0, 20] ++ List.replicate 24 0)).ahead) ∧
    ((be4 20 ++ be4 0 ++ [] ++ be4 0 ++ [] ++ [0, 0, 0, 0].flatMap be4).length + 4 ≤ (32 : BitVec 24).toNat ∧
      (32 : BitVec 24).toNat < (be4 20 ++ be4 0 ++ [] ++ be4 0 ++ [] ++ [0, 0, 0, 0].flatMap be4).length + 4 + 1 ∧
      bytesBits (be4 20 ++ be4 0 ++ [] ++ be4 0 ++ [] ++ [0, 0, 0, 0].flatMap be4 ++ be4 1) <+:
        (blockAt ([0, 0, 0, 20] ++ List.replicate 27 0 ++ [1])).ahead) ∧
    ((be4 20 ++ be4 0 ++ [] ++ be4 0 ++ [] ++ [0, 0, 0, 0].flatMap be4).length + 4 + 0 < (33 : BitVec 24).toNat ∧
      bytesBits (be4 20 ++ be4 0 ++ [] ++ be4 0 ++ [] ++ [0, 0, 0, 0].flatMap be4 ++ be4 0 ++ []) <+:
        (blockAt ([0, 0, 0, 20] ++ List.replicate 29 0)).ahead) := by
  refine ⟨blockAt_ready, ?_, ?_, ?_, ?_, ?_, ?_, ?_, ?_, ?_, ?_, ?_, ?_⟩ <;> decide +kernel
/-- A row whose operand is at its largest; a row of each field width. -/
theorem witness_DecodeOfEncode :
    (WellFormed (.resParam true 30) = true ∧ encode config (.resParam true 30) = some (.param5, 0b11110_00000)) ∧
    encode config (.mbUnknownOdd true 63 16777215) = some (.block, 0xFFFFFFFF) ∧ encode config (.sfLpc 31) = some (.subframe, 0x7E) := by
  decide
/-- A request for the element at a grammar position, over a source. -/
def asked (c : Ctx) (l : List Nat) : State := (source l).setPort [.element c]

/-- A request by name; bits consumed; bits looked at; a latched code; a position alone; a block's word
consumed, and one only looked at (type 4 where VorbisComment is numbered 8). -/
theorem witness_StepRunsTheFetchedInstruction : State.reset.port = [] ∧
    (State.reset.setPort [.call .pullCmd]).port = [.call .pullCmd] ∧
    (∀ c l, (asked c l).Ready ∧ (asked c l).halted = false ∧ (asked c l).port = [.element c] ∧ (asked c l).cfg = config) ∧
    ((asked .number [0xC2, 0x80]).bp + 8 ≤ 8 * (asked .number [0xC2, 0x80]).srcLen ∧
      row .number (bitsNat ((asked .number [0xC2, 0x80]).ahead.take 8) * 2 ^ 0) = some (.fhNumberC0 2)) ∧
    ((asked .subframe [0x42]).bp + 7 ≤ 8 * (asked .subframe [0x42]).srcLen ∧
      row .subframe (bitsNat ((asked .subframe [0x42]).ahead.take 7) * 2 ^ 1) = some (.sfLpc 1)) ∧
    ((asked .frameHeader [0xFF, 0xF8]).bp + 14 ≤ 8 * (asked .frameHeader [0xFF, 0xF8]).srcLen ∧
      row .frameHeader (bitsNat ((asked .frameHeader [0xFF, 0xF8]).ahead.take 14) * 2 ^ 18) = some .fhSync) ∧
    ((asked .block [1, 0, 0, 3]).bp + 32 ≤ 8 * (asked .block [1, 0, 0, 3]).srcLen ∧
      row .block (bitsNat ((asked .block [1, 0, 0, 3]).ahead.take 32) * 2 ^ 0) = some (.mbUnknownOdd false 0 3) ∧
      Instr.mbUnknownOdd false 0 3 ≠ .mbh) ∧
    (let s := (asked .block [4, 0, 0, 1]).setCfg { config with btVorbisComment := 8 }
     ready s = true ∧ s.port = [.element .block] ∧ s.bp + 32 ≤ 8 * s.srcLen ∧
        (decode s.cfg .block (bitsNat (s.ahead.take 32) * 2 ^ 0)).toOption = some .mbh) := by
  refine ⟨rfl, rfl, fun c l => ⟨source_ready l, rfl, rfl, rfl⟩, ?_, ?_, ?_, ?_, ?_⟩ <;> decide +kernel

/-- `source` is in the invariants, whatever it holds. -/
theorem source_inv (l : List Nat) (h : readerOk (source l) = true) : (source l).Inv :=
  ⟨readerOk_iff.1 h, ⟨rfl, fun h => by cases h⟩, fun _ => rfl, fun _ => rfl⟩

theorem witness_StepKeepsTheInvariants : ((source [0xC2, 0x80]).setPort [.element .number]).Inv ∧
    shows (step ((source [0xC2, 0x80]).setPort [.element .number])) (fun t => t.phase == .frames) = true :=
  ⟨source_inv [0xC2, 0x80] (by decide +kernel), by decide +kernel⟩
/-- A stream open in `Frames` with its frame ahead, and commands waiting. -/
theorem witness_HostDrivenStepsKeepTheInvariants :
    ((source (p1.drop 42)).setPort [.call .pullCmd, .call .resetCmd]).HostInv :=
  ⟨rfl, by decide +kernel, source_inv (p1.drop 42) (by decide +kernel), rfl, rfl⟩
theorem witness_ElementsAnswerANextState : (frameOf 2 [0x02, 0x03, 0xFF, 0x02, 0x00, 0xFF, 0x40]).Inv ∧
    isCommand .caMidSide = false ∧ Instr.caMidSide ≠ .readSint 0 ∧ (owner .caMidSide = .channels → (frameOf 2 []).si.valid = true) :=
  ⟨source_inv _ (by decide +kernel), rfl, by decide, fun _ => rfl⟩
/-- One that completes, one that faults. -/
theorem witness_ElementsWriteOnlyTheirOwnRegisters : (source [0xFF, 0xF8, 0x6C, 0xA2]).Inv ∧ isCommand .fhSync = false ∧
    shows (exec .fhSync (source [0xFF, 0xF8, 0x6C, 0xA2])) (fun t => t.phase == .frames) = true ∧
    shows (exec .fhSync (source [0xFF])) (fun t => t.phase == .faulted) = true :=
  ⟨source_inv _ (by decide +kernel), rfl, by decide +kernel, by decide +kernel⟩
theorem witness_OnlyOpenChangesTheSource : (source (p1.drop 42)).Inv ∧
    shows (exec .pullCmd (source (p1.drop 42))) (fun _ => true) = true ∧
    ((source []).setPhase .idle).Inv ∧ shows (exec (.openCmd (bytes p1)) ((source []).setPhase .idle)) (fun _ => true) = true ∧
    (source []).phase ≠ .idle := by
  refine ⟨source_inv _ (by decide +kernel), by decide +kernel, ⟨readerOk_iff.1 (by decide +kernel), ⟨rfl, fun h => by cases h⟩, (fun h => by cases h), fun _ => rfl⟩,
    by decide +kernel, by decide⟩
theorem witness_TheCursorOnlyMovesForward : (source [0xA5, 0xC3]).Inv ∧ Instr.readUint 3 ≠ .resetCmd ∧
    shows (exec (.readUint 3) (source [0xA5, 0xC3])) (fun t => t.phase != .faulted) = true :=
  ⟨source_inv _ (by decide +kernel), by decide, by decide +kernel⟩
theorem witness_EveryFaultIsEnteredAlike : (source [0xFF]).Inv ∧ (source [0xFF]).phase ≠ .faulted ∧
    shows (exec .pullCmd (source [0xFF])) (fun t => t.phase == .faulted) = true :=
  ⟨source_inv _ (by decide +kernel), by decide, by decide +kernel⟩

end Sys2Proof.Tests
end

section
/-! SUPPORT. What R51's invariants rest on: the registers they speak of, and the states that meet them. -/

namespace Sys2Proof.Machine

open Sys2Proof

/-- The registers R51 speaks of, the reader apart. -/
def State.control (s : State) : Phase × Option DecodeFault × Nat × List Record × StreamInfo :=
  (s.phase, s.fault, s.mdIndex, s.metas, s.si)

/-- Only the metadata parser and the host's commands write a register that R51 speaks of (R328). -/
theorem Owner.blank_control {o : Owner} (hm : o ≠ .metadata) (hh : o ≠ .host) (s : State) :
    (o.blank s).control = s.control := by
  cases o with
  | metadata => exact absurd rfl hm
  | host => exact absurd rfl hh
  | reader | header | channels | subframe | residual => rfl

theorem State.Inv.readerOk {s : State} (h : s.Inv) : s.ReaderOk := h.1

theorem State.Inv.mdOk {s : State} (h : s.Inv) : s.MdOk := h.2.1

theorem State.Inv.si_valid {s : State} (h : s.Inv) (ho : s.opened = true) : s.si.valid = true := h.2.2.1 ho

theorem State.Inv.fault_eq_none {s : State} (h : s.Inv) (hp : s.phase ≠ .faulted) : s.fault = none :=
  h.2.2.2 hp

/-- In the invariants the phase alone says whether anything is accepted (R51 f). -/
theorem State.Inv.halted_eq_false {s : State} (h : s.Inv) (hp : s.phase ≠ .faulted) : s.halted = false :=
  State.halted_eq_false.2 ⟨hp, h.fault_eq_none hp⟩

/-- The invariants depend on the reader and on the registers of R51 alone. -/
theorem State.Inv.of_control {s t : State} (h : s.Inv) (ht : t.ReaderOk) (hc : t.control = s.control) :
    t.Inv := by
  obtain ⟨_, hmd, hvalid, hfault⟩ := h
  simp only [State.control, Prod.mk.injEq] at hc
  obtain ⟨ephase, efault, eindex, emetas, esi⟩ := hc
  refine ⟨ht, ?_, ?_, ?_⟩
  · unfold State.MdOk at *; rwa [eindex, emetas, esi]
  · unfold State.opened at *; rwa [ephase, esi]
  · rwa [ephase, efault]

/-- Once STREAMINFO is loaded and with no fault, the reader and the count of records are all of R51. -/
theorem State.Inv.of_valid {s : State} (hr : s.ReaderOk) (hm : s.MdOk) (hv : s.si.valid = true)
    (hf : s.fault = none) : s.Inv := ⟨hr, hm, fun _ => hv, fun _ => hf⟩

/-- A reader at the start of its source meets R22. -/
theorem readerOk_start {s : State} (hw : s.src.wf = true) (hbr : s.br = ⟨0, 0, 0⟩) : s.ReaderOk := by
  have hbp : s.bp = 8 * 0 := by simp [State.bp, hbr]
  refine ⟨hw, ?_, by omega⟩
  rw [hbp, readerAt_aligned, hbr]

/-- On a byte boundary nothing is buffered. -/
theorem State.ReaderOk.nbits_eq_zero {s : State} (h : s.ReaderOk) (ha : s.bp % 8 = 0) : s.br.nbits = 0 := by
  rw [h.nbits_eq]; omega

/-- `Idle` as reset leaves it meets R51. -/
theorem State.Inv.of_idle {s : State} (hw : s.src.wf = true) (hbr : s.br = ⟨0, 0, 0⟩) (hp : s.phase = .idle)
    (hf : s.fault = none) (hi : s.mdIndex = 0) (hm : s.metas = []) : s.Inv := by
  refine ⟨readerOk_start hw hbr, ⟨by simp [hi, hm], fun h => by omega⟩, fun h => ?_, fun _ => hf⟩
  simp [State.opened, hp] at h

/-- R51 between two commands implies R51 in every phase but `Faulted`. -/
theorem State.HostInv.inv {s : State} (h : s.HostInv) (hp : s.phase ≠ .faulted) : s.Inv := by
  obtain ⟨_, hw, h⟩ := h
  cases e : s.phase with
  | idle =>
    simp only [e] at h
    obtain ⟨hbr, hf, hi, hm, _⟩ := h
    exact .of_idle hw hbr e hf hi hm
  | metadata => simp only [e] at h
  | frames => simp only [e] at h; exact h.1
  | endOfStream => simp only [e] at h; exact h.1
  | faulted => exact absurd e hp

/-- Between two commands nothing is buffered, `Faulted` apart. -/
theorem State.HostInv.aligned {s : State} (h : s.HostInv) (hp : s.phase ≠ .faulted) : s.br.nbits = 0 := by
  obtain ⟨_, _, h⟩ := h
  cases e : s.phase with
  | idle => simp only [e] at h; rw [h.1]
  | metadata => simp only [e] at h
  | frames =>
    simp only [e] at h
    obtain ⟨_, _, ha⟩ := h
    exact ha
  | endOfStream =>
    simp only [e] at h
    obtain ⟨_, _, ha, _⟩ := h
    exact ha
  | faulted => exact absurd e hp

theorem hostDriven_congr {s t : State} (h : t.port = s.port) : t.hostDriven = s.hostDriven := by
  rw [State.hostDriven, State.hostDriven, h]

/-- RESET makes `Idle` as R51 has it between two commands, whatever was before (R286). -/
theorem resetRegs_hostInv {s : State} (hd : s.hostDriven = true) (hw : s.src.wf = true) :
    s.resetRegs.HostInv := ⟨hd, hw, rfl, rfl, rfl, rfl, rfl, rfl⟩

theorem resetRegs_inv {s : State} (hw : s.src.wf = true) : s.resetRegs.Inv :=
  .of_idle hw rfl rfl rfl rfl rfl

/-- Fault entry makes `Faulted` as R51 has it between two commands (R320). -/
theorem takeFault_hostInv {s : State} (hd : s.hostDriven = true) (hw : s.src.wf = true) (d : DecodeFault) :
    (s.takeFault d).HostInv := ⟨hd, hw, Option.some_ne_none d, rfl⟩

/-- An opened stream on a byte boundary is as R51 has it between two commands. -/
theorem State.Inv.hostInv {s : State} (h : s.Inv) (hd : s.hostDriven = true) (ho : s.opened = true)
    (ha : s.br.nbits = 0) (hout : s.phase = .endOfStream → s.out = .endOfStream) : s.HostInv := by
  refine ⟨hd, h.readerOk.1, ?_⟩
  cases e : s.phase with
  | frames => exact ⟨h, h.fault_eq_none (by simp [e]), ha⟩
  | endOfStream => exact ⟨h, h.fault_eq_none (by simp [e]), ha, hout e⟩
  | idle | metadata | faulted => simp [State.opened, e] at ho

end Sys2Proof.Machine
end

section
/-! SUPPORT. What a row that is no command answers when it answers at all, and what a metadata row leaves. -/

namespace Sys2Proof.Machine

open Sys2Proof

theorem ne_resetCmd_of_element {i : Instr} (hc : isCommand i = false) : i ≠ .resetCmd := by
  rintro rfl; cases hc

/-- A channel row runs an assignment with `SI.bps`, or is one of the five that raise (R220 to R225). -/
theorem exec_channels {i : Instr} (ho : owner i = .channels) (s : State) :
    (∃ body, exec i s = runUnit (withFrame body) s) ∨ ∃ ca, exec i s = runUnit (caInvalid ca) s := by
  cases i with
  | caIndep0 | caIndep1 | caIndep2 | caIndep3 | caIndep4 | caIndep5 | caIndep6 | caIndep7
  | caLeftSide | caRightSide | caMidSide => exact .inl ⟨_, rfl⟩
  | caInvalid11 | caInvalid12 | caInvalid13 | caInvalid14 | caInvalid15 => exact .inr ⟨_, rfl⟩
  | _ => cases ho

/-- An assignment stops where `SI.bps` may not be read (R40). -/
theorem withFrame_unreadable (body : Nat → Nat → M Unit) {s : State} (hh : s.halted = false)
    (hv : s.si.valid = false) : runUnit (withFrame body) s = .fault .streaminfoUnreadable := by
  have e : withFrame body s = .error (.stop .streaminfoUnreadable) s := bind_error (by simp [readBps, hv])
  rw [runUnit_error hh e, finishTrap_stop]

/-- READ_SINT(0) is refused (93 U25). -/
theorem exec_readSint_zero {s : State} (hh : s.halted = false) :
    exec (.readSint 0) s = .refused .signedReadOfNoBits := run_error hh rfl

/-- Whenever a row that is no command answers a next state, it is one of RowKeeps; the two stops (R40, U25)
answer none. -/
theorem element_next {i : Instr} {s t : State} (h : s.ReaderOk) (hm : s.MdOk) (hc : isCommand i = false)
    (e : exec i s = .next t) : RowKeeps (owner i) s (.next t) := by
  cases hh : s.halted with
  | true =>
    rw [← e, exec_halted hh (ne_resetCmd_of_element hc)]
    exact .inl ⟨s, _, rfl, h, le_rfl, le_rfl, rfl⟩
  | false =>
    by_cases hs : i = .readSint 0
    · rw [hs, exec_readSint_zero hh] at e; cases e
    by_cases hv : owner i = .channels → s.si.valid = true
    · rw [← e]; exact exec_keeps h hm hc hv hs
    · obtain ⟨ho, hv⟩ := Classical.not_imp.1 hv
      rcases exec_channels ho s with ⟨body, eb⟩ | ⟨ca, ei⟩
      · rw [eb, withFrame_unreadable body hh (by simpa using hv)] at e; cases e
      · rw [← e, ei]; exact rowKeeps_unit (P := Any) (Q := Any2) .raise h trivial

/-- A metadata row runs a rule after which the records are counted and `SI.*` is loaded (R151, R153). -/
theorem exec_metadata {i : Instr} (ho : owner i = .metadata) (s : State) :
    ∃ m, exec i s = runUnit m s ∧
      Keeps State.metaPart State.MdOk m (fun _ t => t.MdOk ∧ t.si.valid = true) := by
  have block : ∀ kind type last length, Keeps State.metaPart State.MdOk (blockElement kind type last length)
      (fun _ t => t.MdOk ∧ t.si.valid = true) := fun _ _ _ _ =>
    (blockElement_keeps _ _ _ _).conseq (fun _ h => h) fun _ _ h => ⟨h.1, h.2.1⟩
  cases i with
  | mbh => exact ⟨_, rfl, parseBlock_keeps.bind fun _ => .pure fun _ h => ⟨h.1, h.2.1⟩⟩
  | mbStreaminfo | mbApplication | mbVorbisComment | mbPicture | mbUnknownOdd | mbUnknown64
  | mbUnknown32 | mbUnknown16 | mbUnknown8 => exact ⟨_, rfl, block _ _ _ _⟩
  | _ => cases ho

/-- A metadata row keeps the invariants or faults. -/
theorem metadata_keeps_inv {i : Instr} {s t : State} (hs : s.Inv) (hh : s.halted = false)
    (ho : owner i = .metadata) (e : exec i s = .next t) : t.phase = .faulted ∨ t.Inv := by
  obtain ⟨m, em, hk⟩ := exec_metadata ho s
  rw [em] at e
  rcases runUnit_keeps hk hh hs.readerOk hs.mdOk with ⟨u, eu, hu, _, _, hv, hmd, hvalid⟩ | ⟨d, u, eu, _⟩
  · have hf : u.fault = none :=
      (congrArg State.fault hv).trans (State.halted_eq_false.1 hh).2
    rw [eu] at e; cases e
    exact .inr (.of_valid hu hmd hvalid hf)
  · rw [eu] at e; cases e
    exact .inl rfl

/-- An element keeps the invariants or faults: a metadata row by what it loads, every other row because it
writes no register R51 speaks of. -/
theorem element_keeps_inv {i : Instr} {s t : State} (hs : s.Inv) (hc : isCommand i = false)
    (e : exec i s = .next t) : t.phase = .faulted ∨ t.Inv := by
  cases hh : s.halted with
  | true =>
    rw [exec_halted hh (ne_resetCmd_of_element hc)] at e; cases e
    exact .inr hs
  | false =>
    by_cases ho : owner i = .metadata
    · exact metadata_keeps_inv hs hh ho e
    have hhost : owner i ≠ .host := by simpa [isCommand] using hc
    rcases element_next hs.readerOk hs.mdOk hc e with ⟨u, v, eu, hu, _, _, hb⟩ | ⟨d, u, eu, _⟩
    · cases eu
      have hcontrol : u.control = s.control := by
        rw [← Owner.blank_control ho hhost u, hb, Owner.blank_control ho hhost s]
      exact .inr (State.Inv.of_control hs hu hcontrol)
    · cases eu
      exact .inl rfl

end Sys2Proof.Machine
end

section
/-! SUPPORT. What OPEN and PULL answer from a state in the invariants, said once. -/

namespace Sys2Proof.Machine

open Sys2Proof

/-- What a command that completes leaves: R51 with the stream opened, still on a byte boundary where it
was on one, the reader not moved back (R287, R289, R290). -/
structure Completed (s t : State) : Prop where
  inv : t.Inv
  opened : t.opened = true
  out : t.phase = .endOfStream → t.out = .endOfStream
  aligned : s.br.nbits = 0 → t.br.nbits = 0
  bp : s.bp ≤ t.bp
  pos : s.br.pos ≤ t.br.pos
  port : t.port = s.port

/-- The answers of a command other than RESET: it is refused, completes or enters a fault (R285, R291). -/
inductive CommandAnswers (s : State) : Host.Outcome State Fault Refusal → Prop where
  | refused : CommandAnswers s (.next (s.setRet .refused))
  | completed {t : State} (r : Ret) (h : Completed s t) : CommandAnswers s (.next (t.setRet r))
  | fault {u : State} (d : DecodeFault) (hw : u.src.wf = true) (hp : u.port = s.port) :
      CommandAnswers s (.next (u.takeFault d))

/-- OPEN is accepted in `Idle` alone (R287, R291). -/
theorem exec_openCmd_refused {s : State} (src : List Byte) (hp : s.phase ≠ .idle) :
    exec (.openCmd src) s = .next (s.setRet .refused) := by
  cases hh : s.halted with
  | true => exact exec_halted hh nofun
  | false => exact run_ok hh (by rw [reads_bind_run, if_neg hp]; rfl)

theorem exec_openCmd_idle {s : State} (src : List Byte) (hh : s.halted = false) (hp : s.phase = .idle) :
    exec (.openCmd src) s = run (openStream src >>= fun _ => pure .ok) s := by
  show run _ s = _
  rw [run_live hh, run_live hh, reads_bind_run, if_pos hp]

theorem exec_openCmd_answers {s : State} (hs : s.Inv) (src : List Byte) :
    CommandAnswers s (exec (.openCmd src) s) := by
  by_cases hp : s.phase = .idle
  case neg => rw [exec_openCmd_refused src hp]; exact .refused
  have hf : s.fault = none := hs.fault_eq_none (by simp [hp])
  have hh : s.halted = false := hs.halted_eq_false (by simp [hp])
  rw [exec_openCmd_idle src hh hp]
  rcases openStream_keeps src hs.mdOk with
    ⟨t, e, hr, hmd, hvalid, ha, hph, _, hbp, hpos, hv⟩ | ⟨d, t, e, hsrc, hv⟩
  · have e : (openStream src >>= fun _ => pure Ret.ok) s = .ok .ok t := by rw [bind_ok e, pure_run]
    rw [run_ok hh e]
    exact .completed .ok
      { inv := .of_valid hr hmd hvalid ((congrArg State.fault hv).trans hf)
        opened := by simp [State.opened, hph]
        out := fun h => by rw [hph] at h; cases h
        aligned := fun _ => hr.nbits_eq_zero ha
        bp := hbp
        pos := hpos
        port := (congrArg State.port hv :) }
  · rw [run_error hh (bind_error e)]
    exact .fault d (by rw [hsrc, Memory.ofBytes_wf]) (congrArg State.port hv :)

/-- PULL is accepted in `Frames` and `EndOfStream` alone (R289, R291). -/
theorem exec_pullCmd_refused {s : State} (ho : s.opened = false) :
    exec .pullCmd s = .next (s.setRet .refused) := by
  cases hh : s.halted with
  | true => exact exec_halted hh nofun
  | false =>
    refine run_ok hh ?_
    cases hp : s.phase with
    | frames | endOfStream => simp [State.opened, hp] at ho
    | idle | metadata | faulted => simp only [pullFrame, reads_bind_run, hp, pure_run]

/-- PULL in `EndOfStream` answers the end again (R290). -/
theorem exec_pullCmd_endOfStream {s : State} (hh : s.halted = false) (hp : s.phase = .endOfStream) :
    exec .pullCmd s = .next ((s.setOut .endOfStream).setRet .endOfStream) :=
  run_ok hh (by simp only [pullFrame, reads_bind_run, hp, writes_bind_run, pure_run])

theorem exec_pullCmd_frames_answers {s : State} (hs : s.Inv) (hp : s.phase = .frames) :
    CommandAnswers s (exec .pullCmd s) := by
  have hvalid : s.si.valid = true := hs.si_valid (by simp [State.opened, hp])
  have hh : s.halted = false := hs.halted_eq_false (by simp [hp])
  show CommandAnswers s (run pullFrame s)
  rcases pullFrame_keeps hs.readerOk hp hvalid with ⟨t, e, ht, ha, hpos, hv⟩ | ⟨_, e⟩ | ⟨d, t, e, _, hv⟩
  · rw [run_ok hh e]
    have hph : t.phase = .frames := (congrArg State.phase hv).trans hp
    have hnbits : t.br.nbits = 0 := ht.nbits_eq_zero ha
    exact .completed .frame
      { inv := hs.of_control ht (congrArg State.control hv :)
        opened := by simp [State.opened, hph]
        out := fun h => by rw [hph] at h; cases h
        aligned := fun _ => hnbits
        bp := by unfold State.bp; omega
        pos := hpos
        port := (congrArg State.port hv :) }
  · rw [run_ok hh e]
    exact .completed .endOfStream
      { inv := .of_valid (by simpa using hs.readerOk) hs.mdOk hvalid (hs.fault_eq_none (by simp [hp]))
        opened := rfl
        out := fun _ => rfl
        aligned := id
        bp := le_rfl
        pos := le_rfl
        port := rfl }
  · rw [run_error hh e]
    have hsrc : t.src = s.src := (congrArg State.src hv :)
    exact .fault d (by rw [hsrc]; exact hs.readerOk.1) (congrArg State.port hv :)

theorem exec_pullCmd_answers {s : State} (hs : s.Inv) : CommandAnswers s (exec .pullCmd s) := by
  cases hp : s.phase with
  | idle | metadata | faulted =>
    rw [exec_pullCmd_refused (by simp [State.opened, hp])]; exact .refused
  | frames => exact exec_pullCmd_frames_answers hs hp
  | endOfStream =>
    have hh : s.halted = false := hs.halted_eq_false (by simp [hp])
    rw [exec_pullCmd_endOfStream hh hp]
    exact .completed .endOfStream
      { inv := hs.of_control (by simpa using hs.readerOk) rfl
        opened := by simp [State.opened, hp]
        out := fun _ => rfl
        aligned := id
        bp := le_rfl
        pos := le_rfl
        port := rfl }

/-- Every command but RESET is refused, completes or enters a fault. -/
theorem command_answers {i : Instr} {s : State} (hs : s.Inv) (hc : isCommand i = true) (hi : i ≠ .resetCmd) :
    CommandAnswers s (exec i s) := by
  cases i with
  | resetCmd => exact absurd rfl hi
  | openCmd src => exact exec_openCmd_answers hs src
  | pullCmd => exact exec_pullCmd_answers hs
  | _ => cases hc

end Sys2Proof.Machine
end

section
/-! Proofs of the statements about reset, the invariants, faults and the cursor (spec/10_state.md). -/

namespace Sys2Proof.Machine

open Sys2Proof

/-! ### The invariants -/

theorem exec_keeps_inv {i : Instr} {s t : State} (hs : s.Inv) (e : exec i s = .next t) :
    t.phase = .faulted ∨ t.Inv := by
  cases hc : isCommand i with
  | false => exact element_keeps_inv hs hc e
  | true =>
    by_cases hi : i = .resetCmd
    · rw [hi] at e; cases e
      exact .inr (resetRegs_inv hs.readerOk.1)
    have ha := command_answers hs hc hi
    rw [e] at ha
    cases ha with
    | refused => exact .inr hs
    | completed _ h => exact .inr h.inv
    | fault => exact .inl rfl

/-- Fetching a request moves the reader only, so what it leaves meets the invariants; otherwise the
request is not accepted, or the fetch faults (R348). -/
theorem fetch_keeps_inv {s : State} (hs : s.Inv) (r : Request) :
    (∃ i t, fetch r s = .ok i t ∧ t.Inv) ∨ fetch r s = .error .notAccepted s ∨
      ∃ d t, fetch r s = .error (.raise d) t := by
  cases r with
  | call i => exact .inl ⟨i, s, rfl, hs⟩
  | element c =>
    cases hh : s.halted with
    | true => exact .inr (.inl (fetch_halted hh c))
    | false =>
      rcases fetch_keeps (V := State.brPart) (fun _ _ => rfl) (.element c) s hs.readerOk hh with
        ⟨i, t, e, ht, _, _, hv, _⟩ | ⟨d, t, e, _⟩
      · exact .inl ⟨i, t, e, hs.of_control ht (congrArg State.control hv :)⟩
      · exact .inr (.inr ⟨d, t, e⟩)

/-- Settles O54: the fetch and every instruction keep R51, or fault. -/
theorem stepKeepsTheInvariants : Obligations.StepKeepsTheInvariants := by
  intro s t hs e
  cases hp : s.port with
  | nil =>
    rw [step_nil hp] at e; cases e
    exact .inr hs
  | cons r rest =>
    rw [step_cons hp] at e
    have hs : (s.setPort rest).Inv := hs
    rcases fetch_keeps_inv hs r with ⟨i, u, eu, hu⟩ | eu | ⟨d, u, eu⟩
    · rw [eu] at e; exact exec_keeps_inv hu e
    · rw [eu] at e; cases e; exact .inr hs
    · rw [eu] at e; cases e; exact .inl rfl

/-! ### While the host drives -/

/-- Every command of the host answers a next state, with R51 as it is between two commands. -/
theorem command_keeps_hostInv {i : Instr} {s : State} (hs : s.HostInv) (hc : isCommand i = true) :
    ∃ t, exec i s = .next t ∧ t.HostInv := by
  have ⟨hd, hwf, _⟩ := hs
  by_cases hi : i = .resetCmd
  · subst hi
    exact ⟨_, rfl, resetRegs_hostInv hd hwf⟩
  by_cases hp : s.phase = .faulted
  · exact ⟨_, exec_halted (by simp [State.halted, hp]) hi, hs⟩
  have ha := command_answers (hs.inv hp) hc hi
  generalize exec i s = o at ha ⊢
  cases ha with
  | refused => exact ⟨_, rfl, hs⟩
  | completed r h =>
    exact ⟨_, rfl, h.inv.hostInv ((hostDriven_congr h.port).trans hd) h.opened (h.aligned (hs.aligned hp)) h.out⟩
  | fault d hw hport =>
    exact ⟨_, rfl, takeFault_hostInv ((hostDriven_congr hport).trans hd) hw d⟩

/-- Settles O55: the host's request is a command, and each command keeps R51. -/
theorem hostDrivenStepsKeepTheInvariants : Obligations.HostDrivenStepsKeepTheInvariants := by
  intro s hs
  cases hp : s.port with
  | nil => exact ⟨s, step_nil hp, hs⟩
  | cons r rest =>
    obtain ⟨hd, hw, hphase⟩ := hs
    simp only [State.hostDriven, hp, List.all_cons, Bool.and_eq_true] at hd
    obtain ⟨hr, hrest⟩ := hd
    rw [step_cons hp]
    cases r with
    | element c => cases hr
    | call i => exact command_keeps_hostInv (s := s.setPort rest) ⟨hrest, hw, hphase⟩ hr

/-- Settles O2: the start state is one that RESET makes. -/
theorem resetMeetsTheInvariants : Obligations.ResetMeetsTheInvariants := by
  have h : State.reset.HostInv := resetRegs_hostInv (s := State.reset) rfl State.reset_wf
  exact ⟨h.inv nofun, h⟩

/-! ### After a fault -/

theorem halted_of_fault {s : State} (h : s.phase = .faulted ∨ s.fault ≠ none) : s.halted = true := by
  simpa [State.halted, Option.isSome_iff_ne_none] using h

/-- After a fault a list of commands without RESET changes the returned value only (R324). -/
theorem afterCommands_halted {is : List Instr} {s : State} (hh : s.halted = true)
    (his : ∀ i ∈ is, i ≠ .resetCmd) : ∃ r, s.afterCommands is = .next (s.setRet r) := by
  induction is generalizing s with
  | nil => exact ⟨s.ret, rfl⟩
  | cons i is ih =>
    obtain ⟨hi, his⟩ := List.forall_mem_cons.1 his
    obtain ⟨r, hr⟩ := ih (s := s.setRet .refused) hh his
    exact ⟨r, by rw [State.afterCommands, exec_halted hh hi]; exact hr⟩

/-- Settles O4: after a fault nothing but RESET runs, so a list of commands without it does nothing. -/
theorem onlyResetLeavesFaulted : Obligations.OnlyResetLeavesFaulted := by
  refine ⟨fun i s h hi => exec_halted (halted_of_fault h) hi, fun is s h his => ?_,
    fun s c rest h hp => step_element_halted (halted_of_fault h) hp⟩
  obtain ⟨r, hr⟩ := afterCommands_halted (halted_of_fault h) his
  exact ⟨_, hr, rfl, rfl, rfl⟩

/-! ### The cursor -/

/-- Settles O59: commands by what they answer, elements by what every row keeps. -/
theorem theCursorOnlyMovesForward : Obligations.TheCursorOnlyMovesForward := by
  intro i s t hs hi e hp
  cases hc : isCommand i with
  | false =>
    rcases element_next hs.readerOk hs.mdOk hc e with ⟨u, v, eu, _, hbp, hpos, _⟩ | ⟨d, u, eu, _⟩
    · cases eu; exact ⟨hpos, hbp⟩
    · cases eu; exact absurd rfl hp
  | true =>
    have ha := command_answers hs hc hi
    rw [e] at ha
    cases ha with
    | refused => exact ⟨le_rfl, le_rfl⟩
    | completed _ h => exact ⟨h.pos, h.bp⟩
    | fault => exact absurd rfl hp

/-! ### The model's own stops -/

/-- Settles O12: a field of no bits is refused, and each channel row that decodes reads `SI.bps` first. -/
theorem theTwoStops : Obligations.TheTwoStops := by
  refine ⟨fun s hh => exec_readSint_zero hh, fun s hh hv => ?_⟩
  have stop := fun body => withFrame_unreadable body hh hv
  simp only [List.forall_mem_cons]
  exact ⟨stop _, stop _, stop _, stop _, stop _, stop _, stop _, stop _, stop _, stop _, stop _, nofun⟩

end Sys2Proof.Machine
end

section
/-! Proof of the statement about the source and the parameters (spec/20_memory.md R60, R75; R47). -/

namespace Sys2Proof.Machine

open Sys2Proof

/-- What the machine was given from outside: the source by OPEN (R47), the parameters when it was built (R7). -/
def State.given (s : State) : Memory × Config := (s.src, s.cfg)

theorem Memory.ofBytes_read (bs : List Byte) (a : Nat) : (Memory.ofBytes bs).read a = bs[a]? := by
  rw [Memory.read_eq _ (Memory.ofBytes_wf bs), Memory.ofBytes_bytes]

/-- No unit but the host may write the source or the parameters (R60, R328). -/
theorem Owner.blank_given {o : Owner} (hh : o ≠ .host) (s : State) : (o.blank s).given = s.given := by
  cases o with
  | host => exact absurd rfl hh
  | reader | metadata | header | channels | subframe | residual => rfl

theorem element_keeps_given {i : Instr} {s t : State} (hs : s.Inv) (hc : isCommand i = false)
    (e : exec i s = .next t) : t.given = s.given := by
  have hhost : owner i ≠ .host := by simpa [isCommand] using hc
  have given_of_blank : ∀ u : State, (owner i).blank u = (owner i).blank s → u.given = s.given := fun u hb => by
    rw [← Owner.blank_given hhost u, hb, Owner.blank_given hhost s]
  rcases element_next hs.readerOk hs.mdOk hc e with ⟨u, v, eu, _, _, _, hb⟩ | ⟨d, u, eu, _, hb⟩
  · cases eu; exact given_of_blank u hb
  · cases eu; exact given_of_blank u hb

/-- PULL reads the source and never writes it, whether it completes, faults or is refused (R289). -/
theorem exec_pullCmd_keeps_given {s t : State} (hs : s.Inv) (e : exec .pullCmd s = .next t) :
    t.given = s.given := by
  cases hp : s.phase with
  | idle | metadata | faulted =>
    rw [exec_pullCmd_refused (by simp [State.opened, hp])] at e; cases e; rfl
  | endOfStream =>
    rw [exec_pullCmd_endOfStream (hs.halted_eq_false (by simp [hp])) hp] at e; cases e; rfl
  | frames =>
    have hvalid : s.si.valid = true := hs.si_valid (by simp [State.opened, hp])
    have hh : s.halted = false := hs.halted_eq_false (by simp [hp])
    change run pullFrame s = .next t at e
    rcases pullFrame_keeps hs.readerOk hp hvalid with ⟨u, eu, _, _, _, hv⟩ | ⟨_, eu⟩ | ⟨d, u, eu, _, hv⟩
    · rw [run_ok hh eu] at e; cases e
      exact (congrArg State.given hv :)
    · rw [run_ok hh eu] at e; cases e; rfl
    · rw [run_error hh eu] at e; cases e
      exact (congrArg State.given hv :)

/-- OPEN in `Idle` takes the source it is given, whether the head parses or faults (R287). -/
theorem exec_openCmd_idle_given {src : List Byte} {s t : State} (hs : s.Inv) (hp : s.phase = .idle)
    (e : exec (.openCmd src) s = .next t) : t.given = (Memory.ofBytes src, s.cfg) := by
  have hh : s.halted = false := hs.halted_eq_false (by simp [hp])
  rw [exec_openCmd_idle src hh hp] at e
  rcases openStream_keeps src hs.mdOk with ⟨u, eu, _, _, _, _, _, _, _, _, hv⟩ | ⟨d, u, eu, _, hv⟩
  · rw [run_ok hh ((bind_ok eu).trans (pure_run _ _))] at e; cases e
    exact (congrArg State.given hv :)
  · rw [run_error hh (bind_error eu)] at e; cases e
    exact (congrArg State.given hv :)

/-- OPEN in another phase is refused (R291). -/
theorem exec_openCmd_refused_given {src : List Byte} {s t : State} (hp : s.phase ≠ .idle)
    (e : exec (.openCmd src) s = .next t) : t.given = s.given := by
  rw [exec_openCmd_refused src hp] at e; cases e; rfl

theorem exec_keeps_given {i : Instr} {s t : State} (hs : s.Inv) (hi : ∀ src, i ≠ .openCmd src)
    (e : exec i s = .next t) : t.given = s.given := by
  cases hc : isCommand i with
  | false => exact element_keeps_given hs hc e
  | true =>
    cases i with
    | openCmd src => exact absurd rfl (hi src)
    | pullCmd => exact exec_pullCmd_keeps_given hs e
    | resetCmd => cases e; rfl
    | _ => cases hc

theorem exec_keeps_cfg {i : Instr} {s t : State} (hs : s.Inv) (e : exec i s = .next t) : t.cfg = s.cfg := by
  by_cases hi : ∃ src, i = .openCmd src
  · obtain ⟨src, rfl⟩ := hi
    by_cases hp : s.phase = .idle
    · exact (congrArg Prod.snd (exec_openCmd_idle_given hs hp e) :)
    · exact (congrArg Prod.snd (exec_openCmd_refused_given hp e) :)
  · exact (congrArg Prod.snd (exec_keeps_given hs (not_exists.1 hi) e) :)

theorem src_read_congr {s t : State} (h : t.given = s.given) (a : Nat) : t.src.read a = s.src.read a :=
  congrArg (fun g => g.1.read a) h

/-- Settles O58: elements by their unit's frame, each command by what it answers. -/
theorem onlyOpenChangesTheSource : Obligations.OnlyOpenChangesTheSource := by
  refine ⟨fun i s t hs hi e => src_read_congr (exec_keeps_given hs hi e), fun src s t hs e => ⟨fun hp a => ?_, fun hp => ?_⟩,
    fun i s t hs e => exec_keeps_cfg hs e⟩
  · have hsrc : t.src = Memory.ofBytes src := congrArg Prod.fst (exec_openCmd_idle_given hs hp e)
    rw [hsrc, Memory.ofBytes_read]
  · exact src_read_congr (exec_openCmd_refused_given hp e)

end Sys2Proof.Machine
end

section
/-! SUPPORT. What the decoder does with the words the encoder writes: the field that selects the row, and
the row each field selects (R124). -/

namespace Sys2Proof

/-! ### Fields -/

/-- A field holding `v`, with no bit below it and none above. -/
theorem bits_mul_two_pow {hi lo v : Nat} (hv : v < 2 ^ (hi - lo + 1)) : bits (v * 2 ^ lo) hi lo = v := by
  rw [bits, Nat.mul_div_cancel _ (Nat.two_pow_pos lo), Nat.mod_eq_of_lt hv]

/-- An operand is the low bits of a code whose other bits select the row. -/
theorem ofNat_add_toNat {n k : Nat} (x : BitVec n) (hk : k % 2 ^ n = 0) : BitVec.ofNat n (k + x.toNat) = x := by
  apply BitVec.eq_of_toNat_eq
  rw [BitVec.toNat_ofNat, Nat.add_mod, hk, Nat.zero_add, Nat.mod_mod, BitVec.toNat_mod_cancel]

/-- The row's fixed bits and its operand are the code again. -/
theorem add_toNat_ofNat {n k b : Nat} (hk : k ≤ b) (hb : b < k + 2 ^ n) (h0 : k % 2 ^ n = 0) :
    k + (BitVec.ofNat n b).toNat = b := by
  obtain ⟨x, rfl⟩ := Nat.exists_eq_add_of_le hk
  rw [BitVec.toNat_ofNat, Nat.add_mod, h0, Nat.zero_add, Nat.mod_mod, Nat.mod_eq_of_lt (by omega)]

theorem decode_number (cfg : Config) {b : Nat} (hb : b < 256) : decode cfg .number b = .ok (numberRow b) := by
  have e : bits b 7 0 = b := by simpa using bits_mul_two_pow (hi := 7) (lo := 0) hb
  rw [decode, e]

/-- A type code selects a subframe row, wherever the word's other bits are 0 (R103). -/
theorem decode_subframe (cfg : Config) {w t : Nat} {i : Instr} (hw : w = t * 2 ^ 1) (ht : t < 64)
    (hi : subframeRow t = i) : decode cfg .subframe w = .ok i := by
  rw [decode, hw, bits_mul_two_pow ht, hi]

theorem decode_method (cfg : Config) {m : Nat} (hm : m < 4) :
    decode cfg .method (m * 2 ^ 4) = .ok (methodRow m) := by
  rw [decode, bits_mul_two_pow hm]

/-! ### Rows with an operand -/

theorem numberRow_00 (x : BitVec 7) : numberRow (0x00 + x.toNat) = .fhNumber00 x := by
  simp (disch := omega) only [numberRow, if_pos, ofNat_add_toNat]

theorem numberRow_80 (x : BitVec 6) : numberRow (0x80 + x.toNat) = .fhNumber80 x := by
  simp (disch := omega) only [numberRow, if_neg, if_pos, ofNat_add_toNat]

theorem numberRow_C0 (x : BitVec 5) : numberRow (0xC0 + x.toNat) = .fhNumberC0 x := by
  simp (disch := omega) only [numberRow, if_neg, if_pos, ofNat_add_toNat]

theorem numberRow_E0 (x : BitVec 4) : numberRow (0xE0 + x.toNat) = .fhNumberE0 x := by
  simp (disch := omega) only [numberRow, if_neg, if_pos, ofNat_add_toNat]

theorem numberRow_F0 (x : BitVec 3) : numberRow (0xF0 + x.toNat) = .fhNumberF0 x := by
  simp (disch := omega) only [numberRow, if_neg, if_pos, ofNat_add_toNat]

theorem numberRow_F8 (x : BitVec 2) : numberRow (0xF8 + x.toNat) = .fhNumberF8 x := by
  simp (disch := omega) only [numberRow, if_neg, if_pos, ofNat_add_toNat]

theorem numberRow_FC (x : BitVec 1) : numberRow (0xFC + x.toNat) = .fhNumberFC x := by
  simp (disch := omega) only [numberRow, if_neg, if_pos, ofNat_add_toNat]

theorem subframeRow_2 (x : BitVec 1) : subframeRow (2 + x.toNat) = .sfUnsupported2 x := by
  simp (disch := omega) only [subframeRow, if_neg, if_pos, ofNat_add_toNat]

theorem subframeRow_4 (x : BitVec 2) : subframeRow (4 + x.toNat) = .sfUnsupported4 x := by
  simp (disch := omega) only [subframeRow, if_neg, if_pos, ofNat_add_toNat]

theorem subframeRow_14 (x : BitVec 1) : subframeRow (14 + x.toNat) = .sfUnsupported14 x := by
  simp (disch := omega) only [subframeRow, if_neg, if_pos, ofNat_add_toNat]

theorem subframeRow_16 (x : BitVec 4) : subframeRow (16 + x.toNat) = .sfUnsupported16 x := by
  simp (disch := omega) only [subframeRow, if_neg, if_pos, ofNat_add_toNat]

theorem subframeRow_32 (x : BitVec 5) : subframeRow (32 + x.toNat) = .sfLpc x := by
  simp (disch := omega) only [subframeRow, if_neg, ofNat_add_toNat]

theorem methodRow_2 (x : BitVec 1) : methodRow (2 + x.toNat) = .resInvalidMethod x := by
  simp (disch := omega) only [methodRow, if_neg, ofNat_add_toNat]

/-- A 4-bit parameter field that is not all ones (R269). -/
theorem decode_param4 (cfg : Config) {k : BitVec 5} (hk : k.toNat < 15) :
    decode cfg .param4 (k.toNat * 2 ^ 5) = .ok (.resParam false k) := by
  rw [decode, bits_mul_two_pow (by omega), if_neg (by omega), BitVec.ofNat_toNat, BitVec.setWidth_eq]

/-- A 5-bit parameter field that is not all ones (R269). -/
theorem decode_param5 (cfg : Config) {k : BitVec 5} (hk : k.toNat < 31) :
    decode cfg .param5 (k.toNat * 2 ^ 5) = .ok (.resParam true k) := by
  rw [decode, bits_mul_two_pow (by omega), if_neg (by omega), BitVec.ofNat_toNat, BitVec.setWidth_eq]

/-! ### Block rows -/

/-- The row of a block variant with given fields (R92, R114, R161). -/
def kindRow (kind : BlockKind) (last : Bool) (type : Nat) (length : BitVec 24) : Option Instr :=
  match kind with
  | .streaminfo => some (.mbStreaminfo last length)
  | .application => some (.mbApplication last length)
  | .vorbisComment => some (.mbVorbisComment last length)
  | .picture => some (.mbPicture last length)
  | .unknown => unknownRow last type length

/-- A block word is decoded by the variant the configuration gives its type number to, so the row of that
variant is enough. -/
theorem decode_of_blockWordOf {cfg : Config} {kind : BlockKind} {l : Bool} {t w : Nat} {n : BitVec 24} {c : Ctx}
    {i : Instr} (h : blockWordOf cfg kind l t n = some (c, w)) (ht : t < 128) (hi : kindRow kind l t n = some i) :
    decode cfg c w = .ok i := by
  rw [blockWordOf] at h
  split at h
  next hkind =>
    cases h
    have hrow : blockRow cfg (blockWord l t n) = some i := by
      rw [blockRow_blockWord cfg l t ht n, hkind]; exact hi
    rw [decode, hrow, Option.getD_some]
  next => cases h

theorem unknownRow_odd (l : Bool) (x : BitVec 6) (n : BitVec 24) :
    unknownRow l (2 * x.toNat + 1) n = some (.mbUnknownOdd l x n) := by
  rw [unknownRow, if_pos (by omega), show (2 * x.toNat + 1) / 2 = 0 + x.toNat by omega, ofNat_add_toNat x rfl]

theorem unknownRow_64 (l : Bool) (x : BitVec 5) (n : BitVec 24) :
    unknownRow l (64 + 2 * x.toNat) n = some (.mbUnknown64 l x n) := by
  rw [unknownRow, if_neg (by omega), if_pos (by omega), show (64 + 2 * x.toNat) / 2 = 32 + x.toNat by omega,
    ofNat_add_toNat x rfl]

theorem unknownRow_32 (l : Bool) (x : BitVec 4) (n : BitVec 24) :
    unknownRow l (32 + 2 * x.toNat) n = some (.mbUnknown32 l x n) := by
  rw [unknownRow, if_neg (by omega), if_neg (by omega), if_pos (by omega),
    show (32 + 2 * x.toNat) / 2 = 16 + x.toNat by omega, ofNat_add_toNat x rfl]

theorem unknownRow_16 (l : Bool) (x : BitVec 3) (n : BitVec 24) :
    unknownRow l (16 + 2 * x.toNat) n = some (.mbUnknown16 l x n) := by
  rw [unknownRow, if_neg (by omega), if_neg (by omega), if_neg (by omega), if_pos (by omega),
    show (16 + 2 * x.toNat) / 2 = 8 + x.toNat by omega, ofNat_add_toNat x rfl]

theorem unknownRow_8 (l : Bool) (x : BitVec 2) (n : BitVec 24) :
    unknownRow l (8 + 2 * x.toNat) n = some (.mbUnknown8 l x n) := by
  rw [unknownRow, if_neg (by omega), if_neg (by omega), if_neg (by omega), if_neg (by omega), if_pos (by omega),
    show (8 + 2 * x.toNat) / 2 = 4 + x.toNat by omega, ofNat_add_toNat x rfl]

end Sys2Proof
end

section
/-! SUPPORT. The bytes that come next, and what the row of a frame number's first byte runs (R99, R194). -/

namespace Sys2Proof.Machine

open Sys2Proof

/-- Eight bits are the bits of a byte (R8). -/
theorem exists_byteBits {l : List Bool} (hl : l.length = 8) : ∃ b : Byte, byteBits b = l := by
  have hlt := bitsNat_lt l
  have e := natBits_bitsNat l
  rw [hl] at hlt e
  exact ⟨BitVec.ofNat 8 (bitsNat l), by rw [byteBits, BitVec.toNat_ofNat, Nat.mod_eq_of_lt hlt, e]⟩

/-- Bits enough for `c` bytes start with the bits of `c` bytes. -/
theorem exists_bytes_prefix (c : Nat) : ∀ {l : List Bool}, 8 * c ≤ l.length →
    ∃ bs : List Byte, bs.length = c ∧ bytesBits bs <+: l := by
  induction c with
  | zero => exact fun _ => ⟨[], rfl, List.nil_prefix⟩
  | succ c ih =>
    intro l hl
    obtain ⟨bs, hc, hbs⟩ := ih (l := l.drop 8) (by rw [List.length_drop]; omega)
    obtain ⟨b, hb⟩ := exists_byteBits (l := l.take 8) (by rw [List.length_take]; omega)
    refine ⟨b :: bs, by rw [List.length_cons, hc], ?_⟩
    rw [bytesBits_cons, append_prefix_iff, byteBits_length, hb]
    exact ⟨List.take_prefix 8 l, hbs⟩

/-- The row a first byte selects runs SKIP_FRAME_NUMBER on that byte (R99, R194). -/
theorem exec_numberRow {b : Nat} (hb : b < 256) (s : State) :
    exec (numberRow b) s = runUnit (numberTail b) s := by
  have run : ∀ {t : Nat}, t = b → runUnit (numberTail t) s = runUnit (numberTail b) s :=
    congrArg fun t => runUnit (numberTail t) s
  unfold numberRow
  split_ifs
  · exact run (add_toNat_ofNat (k := 0x00) (by omega) (by omega) rfl)
  · exact run (add_toNat_ofNat (k := 0x80) (by omega) (by omega) rfl)
  · exact run (add_toNat_ofNat (k := 0xC0) (by omega) (by omega) rfl)
  · exact run (add_toNat_ofNat (k := 0xE0) (by omega) (by omega) rfl)
  · exact run (add_toNat_ofNat (k := 0xF0) (by omega) (by omega) rfl)
  · exact run (add_toNat_ofNat (k := 0xF8) (by omega) (by omega) rfl)
  · exact run (add_toNat_ofNat (k := 0xFC) (by omega) (by omega) rfl)
  · exact run (t := 0xFE) (by omega)
  · exact run (t := 0xFF) (by omega)

end Sys2Proof.Machine
end

section
/-! The statements about words: the decoder undoes the encoder (R124), a first byte gives its row's length (R99),
and words written out from the formats. -/

namespace Sys2Proof.Machine

open Sys2Proof

/-- Settles O51: a row with a fixed word by evaluation, a row with an operand by the field its word puts it in, a
block row by the variant of its type number. -/
theorem decodeOfEncode : Obligations.DecodeOfEncode := by
  intro cfg i c w hw h
  cases i with
  | mbStreaminfo l n => exact decode_of_blockWordOf h cfg.btStreaminfo.isLt rfl
  | mbApplication l n => exact decode_of_blockWordOf h cfg.btApplication.isLt rfl
  | mbVorbisComment l n => exact decode_of_blockWordOf h cfg.btVorbisComment.isLt rfl
  | mbPicture l n => exact decode_of_blockWordOf h cfg.btPicture.isLt rfl
  | mbUnknownOdd l x n => exact decode_of_blockWordOf h (by omega) (unknownRow_odd l x n)
  | mbUnknown64 l x n => exact decode_of_blockWordOf h (by omega) (unknownRow_64 l x n)
  | mbUnknown32 l x n => exact decode_of_blockWordOf h (by omega) (unknownRow_32 l x n)
  | mbUnknown16 l x n => exact decode_of_blockWordOf h (by omega) (unknownRow_16 l x n)
  | mbUnknown8 l x n => exact decode_of_blockWordOf h (by omega) (unknownRow_8 l x n)
  | fhNumber00 x => cases h; rw [decode_number cfg (by omega), numberRow_00]
  | fhNumber80 x => cases h; rw [decode_number cfg (by omega), numberRow_80]
  | fhNumberC0 x => cases h; rw [decode_number cfg (by omega), numberRow_C0]
  | fhNumberE0 x => cases h; rw [decode_number cfg (by omega), numberRow_E0]
  | fhNumberF0 x => cases h; rw [decode_number cfg (by omega), numberRow_F0]
  | fhNumberF8 x => cases h; rw [decode_number cfg (by omega), numberRow_F8]
  | fhNumberFC x => cases h; rw [decode_number cfg (by omega), numberRow_FC]
  | sfUnsupported2 x => cases h; exact decode_subframe cfg (by omega) (by omega) (subframeRow_2 x)
  | sfUnsupported4 x => cases h; exact decode_subframe cfg (by omega) (by omega) (subframeRow_4 x)
  | sfUnsupported14 x => cases h; exact decode_subframe cfg (by omega) (by omega) (subframeRow_14 x)
  | sfUnsupported16 x => cases h; exact decode_subframe cfg (by omega) (by omega) (subframeRow_16 x)
  | sfLpc x => cases h; exact decode_subframe cfg (by omega) (by omega) (subframeRow_32 x)
  | resInvalidMethod x =>
    cases h
    rw [show 0x20 + 16 * x.toNat = (2 + x.toNat) * 2 ^ 4 by omega, decode_method cfg (by omega), methodRow_2]
  | resParam wide k =>
    cases wide with
    | false => cases h; rw [Nat.mul_comm]; exact decode_param4 cfg (of_decide_eq_true hw)
    | true => cases h; rw [Nat.mul_comm]; exact decode_param5 cfg (of_decide_eq_true hw)
  | predict | resValues | readUint | readSint | readBytes | readByteOrEos | align | readRice | atEnd | readLe32
  | readBe32 | resetCmd | openCmd | pullCmd => cases h
  | _ => cases h; rfl

/-- Settles O22: every first byte's row is the same loop, whose passes R99 counts. -/
theorem firstByteGivesTheNumberLength : Obligations.FirstByteGivesTheNumberLength := by
  intro b s ⟨hr, hh⟩ hlen
  change s.bp + 8 * numberCount b ≤ 8 * s.srcLen at hlen
  obtain ⟨bs, hc, ha⟩ := exists_bytes_prefix (numberCount b) (l := s.ahead) (by rw [s.ahead_length]; omega)
  refine ⟨numberRow b.toNat, decode_number s.cfg b.isLt, ?_⟩
  rw [exec_numberRow b.isLt, runUnit_ok hh (numberTail_code hr hc ha), hc]
  rfl

/-- Settles O52: each word by evaluation; at the marker's position every other word is rejected by name. -/
theorem wordsOfTheFormats : Obligations.WordsOfTheFormats :=
  ⟨rfl, rfl, rfl, rfl, rfl, rfl, rfl, rfl, rfl, rfl, rfl, fun _ hw => if_neg hw⟩

end Sys2Proof.Machine
end

section
/-! SUPPORT. What the bit reader's rows rest on: the rows that meet the end of the source, the number of a signed
field, a codeword written by its parts, and the bytes at the reader. -/

namespace Sys2Proof.Machine

open Sys2Proof

variable {s : State}

/-! ### The end of the source -/

theorem raisesCode_run {m : M Ret} {d : DecodeFault} {t : State} (hh : s.halted = false)
    (e : m s = .error (.raise d) t) : RaisesCode (run m s) d.code :=
  ⟨d, ⟨_, run_error hh e, rfl, rfl, rfl, rfl⟩, rfl⟩

/-- `n` bits are left, said of the cursor and of the bits ahead (R23). -/
theorem bp_add_le_iff (h : s.ReaderOk) (n : Nat) : s.bp + n ≤ 8 * s.srcLen ↔ n ≤ s.ahead.length := by
  obtain ⟨_, _, hle⟩ := h
  rw [State.ahead_length]
  omega

/-- A row that reads a field first, on a source with too few bits left (R131). -/
theorem raisesCode_readUint (hs : s.Ready) {n : Nat} (hn : 8 * s.srcLen < s.bp + n) (f : Nat → M Ret) :
    RaisesCode (run (readUint n >>= f) s) 3 := by
  obtain ⟨hr, hh⟩ := hs
  have hlt : s.ahead.length < n := by rwa [← not_le, ← bp_add_le_iff hr, not_le]
  obtain ⟨p, t, e⟩ := readUint_end hr hlt
  exact raisesCode_run hh (bind_error e)

/-! ### Signed fields -/

/-- READ_SINT of a field with a sign bit (R132). -/
theorem readSint_pos {n : Nat} (hn : 1 ≤ n) : readSint n = readUint n >>= fun v => pure (sext n v) :=
  if_neg (Nat.one_le_iff_ne_zero.1 hn)

/-- The signed number of a field: congruent to the unsigned one, and in the range of the width (R132). -/
theorem sext_spec {n v : Nat} (hn : 1 ≤ n) (hv : v < 2 ^ n) :
    ((2 ^ n : Nat) : Int) ∣ sext n v - (v : Int) ∧
      -((2 ^ (n - 1) : Nat) : Int) ≤ sext n v ∧ sext n v < ((2 ^ (n - 1) : Nat) : Int) := by
  have hp : 2 ^ n = 2 * 2 ^ (n - 1) := (mul_pow_sub_one (Nat.one_le_iff_ne_zero.1 hn) 2).symm
  unfold sext
  split
  · exact ⟨⟨-1, by omega⟩, by omega, by omega⟩
  · exact ⟨⟨0, by omega⟩, by omega, by omega⟩

/-! ### Rice codewords -/

/-- The codeword of the zigzag of `q * 2^k + r` is `q` zeros, a one and the bits of `r` (R111). -/
theorem riceBits_zigzag {k r : Nat} (q : Nat) (hr : r < 2 ^ k) :
    riceBits k (zigzag (q * 2 ^ k + r)) = List.replicate q false ++ [true] ++ natBits k r := by
  have hq : (q * 2 ^ k + r) / 2 ^ k = q := by
    rw [Nat.mul_comm, Nat.mul_add_div (Nat.two_pow_pos k), Nat.div_eq_of_lt hr, Nat.add_zero]
  have hm : (q * 2 ^ k + r) % 2 ^ k = r := by
    rw [Nat.mul_comm, Nat.mul_add_mod, Nat.mod_eq_of_lt hr]
  rw [riceBits, unzigzag_zigzag, hq, hm]

/-- A source that ends in the zero run (R136). -/
theorem readRice_end_of_zeros (h : s.ReaderOk) {q : Nat} (ha : s.ahead = List.replicate q false) (k : Nat) :
    ∃ p t, readRice k s = .error (.raise (.unexpectedEnd p 1)) t := by
  obtain ⟨p, t, e⟩ := unaryRun_end false q (fuel := s.bitsLeft + 1) h ha
  exact ⟨p, t, bind_error (m := unaryRun 0 (s.bitsLeft + 1)) e⟩

/-- A source that ends in the remainder (R136). -/
theorem readRice_end_of_remainder (h : s.ReaderOk) {k q : Nat} {l : List Bool} (hl : l.length < k)
    (ha : s.ahead = List.replicate q false ++ [true] ++ l) :
    ∃ p t, readRice k s = .error (.raise (.unexpectedEnd p k)) t := by
  have hpre : List.replicate q false ++ [true] <+: s.ahead := ⟨l, ha.symm⟩
  have hlen : (List.replicate q false ++ [true]).length = q + 1 := by simp
  have hfuel : q < s.bitsLeft + 1 := by
    have := hpre.length_le
    rw [bitsLeft_eq h]
    omega
  have hskip := h.after hpre
  rw [hlen] at hskip
  have hrest : (s.skip (q + 1)).ahead = l := by rw [State.skip_ahead, ha, List.drop_left' hlen]
  obtain ⟨p, t, e⟩ := readUint_end hskip (n := k) (by rwa [hrest])
  exact ⟨p, t, (bind_ok (m := unaryRun 0 (s.bitsLeft + 1)) (unaryRun_ok false q h hfuel hpre)).trans (bind_error e)⟩

/-! ### Bytes -/

theorem bp_of_nbits_zero (h0 : s.br.nbits = 0) : s.bp = 8 * s.br.pos := by rw [State.bp, h0, Nat.sub_zero]

theorem Memory.readMany_getElem? {m : Memory} (hw : m.wf = true) (a : Nat) {n j : Nat} (hj : j < n) :
    (m.readMany a n)[j]? = m.read (a + j) := by
  rw [Memory.read_eq m hw, Memory.readMany, List.getElem?_take_of_lt hj, List.getElem?_drop]

theorem Memory.readMany_succ {m : Memory} (hw : m.wf = true) {a : Nat} {b : Byte} (h : m.read a = some b) (n : Nat) :
    m.readMany a (n + 1) = b :: m.readMany (a + 1) n := by
  rw [Memory.read_eq m hw] at h
  obtain ⟨hlt, rfl⟩ := List.getElem?_eq_some_iff.1 h
  rw [Memory.readMany, List.drop_eq_getElem_cons hlt, List.take_succ_cons, Memory.readMany]

theorem Memory.lt_length_of_read {m : Memory} (hw : m.wf = true) {a : Nat} {b : Byte} (h : m.read a = some b) :
    a < m.length := by
  rw [← not_le, ← Memory.read_none_iff m hw, h]
  exact nofun

theorem Memory.readMany_four {m : Memory} (hw : m.wf = true) {a : Nat} {b0 b1 b2 b3 : Byte} (h0 : m.read a = some b0)
    (h1 : m.read (a + 1) = some b1) (h2 : m.read (a + 2) = some b2) (h3 : m.read (a + 3) = some b3) :
    m.readMany a 4 = [b0, b1, b2, b3] := by
  rw [Memory.readMany_succ hw h0, Memory.readMany_succ hw h1, Memory.readMany_succ hw h2, Memory.readMany_succ hw h3]
  rfl

theorem leBytes_four (b0 b1 b2 b3 : Byte) :
    leBytes [b0, b1, b2, b3] = b0.toNat + b1.toNat * 2 ^ 8 + b2.toNat * 2 ^ 16 + b3.toNat * 2 ^ 24 := by
  simp only [leBytes]
  omega

/-- A byte string read as one field is its big-endian number (R8, R137). -/
theorem bitsNat_bytesBits (bs : List Byte) : bitsNat (bytesBits bs) = beBytes bs := by
  induction bs using List.reverseRecOn with
  | nil => rfl
  | append_singleton bs b ih =>
    have hb : beBytes (bs ++ [b]) = b.toNat + 256 * beBytes bs := by
      rw [beBytes, List.reverse_append]; rfl
    rw [bytesBits_append, bitsNat_append, ih, hb, bytesBits_cons, bytesBits_nil, List.append_nil, bitsNat_byteBits,
      byteBits_length]
    ring

/-- On a byte boundary the next `8 * n` bits are those of the next `n` bytes (R137). -/
theorem ahead_take_aligned (h : s.ReaderOk) (h0 : s.br.nbits = 0) {n : Nat} (hn : s.br.pos + n ≤ s.srcLen) :
    s.ahead.take (8 * n) = bytesBits (s.src.readMany s.br.pos n) := by
  have hlen : (bytesBits (s.src.readMany s.br.pos n)).length = 8 * n := by
    rw [bytesBits_length, Memory.readMany_length _ _ _ hn]
  have hahead : s.ahead = bytesBits (s.src.readMany s.br.pos n) ++ bytesBits ((s.src.bytes.drop s.br.pos).drop n) := by
    rw [State.ahead_eq h, h0, natBits_zero, List.nil_append, Memory.readMany, ← bytesBits_append,
      List.take_append_drop]
  rw [hahead, List.take_left' hlen]

/-- On a byte boundary a field of `8 * n` bits is the big-endian number of the next `n` bytes (R137). -/
theorem readUint_aligned (h : s.ReaderOk) (h0 : s.br.nbits = 0) {n : Nat} (hn : s.br.pos + n ≤ s.srcLen) :
    readUint (8 * n) s = .ok (beBytes (s.src.readMany s.br.pos n)) (s.setBr ⟨s.br.pos + n, 0, 0⟩) := by
  have hbp := bp_of_nbits_zero h0
  have hleft : 8 * n ≤ s.ahead.length := (bp_add_le_iff h _).1 (by omega)
  rw [readUint_run h hleft, ahead_take_aligned h h0 hn, bitsNat_bytesBits, skip_aligned h0]

end Sys2Proof.Machine
end

section
/-! Proofs of the statements about the bit reader's rows (spec/40_bitreader.md). -/

namespace Sys2Proof.Machine

open Sys2Proof

/-- Settles O10: READ_UINT over the bit cursor, inside the source and past its end. -/
theorem readUintReadsTheNextBits : Obligations.ReadUintReadsTheNextBits := fun n _ ⟨hr, hh⟩ =>
  ⟨fun hn => run_ok hh (bind_ok (readUint_run hr ((bp_add_le_iff hr n).1 hn))),
    fun hn => raisesCode_readUint ⟨hr, hh⟩ hn _⟩

/-- Settles O11: READ_SINT is READ_UINT and the sign of its number. -/
theorem readSintReadsTwosComplement : Obligations.ReadSintReadsTwosComplement := by
  intro n s hn ⟨hr, hh⟩
  have hexec : exec (.readSint n) s = run (readUint n >>= fun v => pure (.int (sext n v))) s := by
    show run (readSint n >>= _) s = _
    rw [readSint_pos hn, run_live hh, run_live hh, bind_assoc_run]
    rfl
  rw [hexec]
  refine ⟨fun hle => ?_, fun hlt => raisesCode_readUint ⟨hr, hh⟩ hlt _⟩
  have hahead := (bp_add_le_iff hr n).1 hle
  have hv : bitsNat (s.ahead.take n) < 2 ^ n := by
    simpa [Nat.min_eq_left hahead] using bitsNat_lt (s.ahead.take n)
  exact ⟨_, run_ok hh (bind_ok (readUint_run hr hahead)), sext_spec hn hv⟩

/-- Settles O13: READ_BYTES from any reader, and the bytes it copies. -/
theorem readBytesReturnsTheNextBytes : Obligations.ReadBytesReturnsTheNextBytes := fun n s hh hw =>
  ⟨fun hn => ⟨s.src.readMany s.br.pos n, run_ok hh (bind_ok (readBytes_ok hn)), Memory.readMany_length _ _ _ hn,
      fun _ hj => (Memory.readMany_getElem? hw _ hj).symm⟩,
    fun hn => raisesCode_run hh (bind_error (readBytes_end hn))⟩

/-- READ_BYTE_OR_EOS at the end of the source (R134). -/
theorem exec_readByteOrEos_eos {s : State} (hh : s.halted = false) (h : s.src.read s.br.pos = none) :
    exec .readByteOrEos s = .next (s.dropBits.setRet .eos) := by
  refine run_ok hh ?_
  simp only [readByteOrEos, align, State.dropBits, writes_bind_run, reads_bind_run, State.setBr_br, State.setBr_src,
    h, pure_run]

/-- READ_BYTE_OR_EOS where a byte is left (R134). -/
theorem exec_readByteOrEos_byte {s : State} {b : Byte} (hh : s.halted = false)
    (h : s.src.read s.br.pos = some b) :
    exec .readByteOrEos s = .next ((s.setBr ⟨s.br.pos + 1, 0, 0⟩).setRet (.bytes [b])) := by
  refine run_ok hh ?_
  simp only [readByteOrEos, align, State.dropBits, writes_bind_run, reads_bind_run, State.setBr_br, State.setBr_src,
    h, pure_run, State.setBr_setBr]

/-- Inside the source an aligned reader is at the end where there is no byte to read (R140). -/
theorem atEnd_iff_read {s : State} (h : s.ReaderOk) (h0 : s.br.nbits = 0) :
    s.atEnd = true ↔ s.src.read s.br.pos = none := by
  have hpos := h.pos_eq
  obtain ⟨hw, _, hle⟩ := h
  rw [Memory.read_none_iff _ hw, State.atEnd, State.aligned, h0]
  simp only [beq_self_eq_true, Bool.true_and, beq_iff_eq]
  change s.br.pos = s.srcLen ↔ s.srcLen ≤ s.br.pos
  omega

/-- The end test answers what the sentinel read answers (R140). -/
theorem atEnd_iff_eos {s : State} (hs : s.Ready) (h0 : s.br.nbits = 0) :
    s.atEnd = true ↔ exec .readByteOrEos s = .next (s.setRet .eos) := by
  obtain ⟨hr, hh⟩ := hs
  rw [atEnd_iff_read hr h0]
  cases hb : s.src.read s.br.pos with
  | none =>
    have hbp := bp_of_nbits_zero h0
    rw [exec_readByteOrEos_eos hh hb, dropBits_aligned hr (by omega)]
    simp
  | some b =>
    rw [exec_readByteOrEos_byte hh hb]
    refine iff_of_false nofun fun e => ?_
    have hret := congrArg State.ret (Host.Outcome.next.inj e)
    cases hret

/-- Settles O14: each row by its rule, the cursor of ALIGN by R23. -/
theorem alignmentAndTheEndTest : Obligations.AlignmentAndTheEndTest :=
  ⟨fun _ hh => runUnit_ok hh (writes_run _ _), fun s hr => (congrArg State.bp (dropBits_eq hr)).trans (bp_readerAt s _),
    fun _ => exec_readByteOrEos_eos, fun _ _ => exec_readByteOrEos_byte, fun _ hh => run_ok hh rfl,
    fun _ => atEnd_iff_eos⟩

/-- Settles O15: the bits are the codeword of the zigzag; a short source ends the zero run or the remainder. -/
theorem riceCodewordsDecode : Obligations.RiceCodewordsDecode := by
  intro k q r s ⟨hr, hh⟩
  refine ⟨fun hrk ha x hx => ?_, fun ha => ?_, fun l hl ha => ?_⟩
  · have hread : readRice k s = .ok x (s.skip (q + 1 + k)) := by
      have hcode : riceBits k x = List.replicate q false ++ [true] ++ natBits k r := by
        rw [hx]; exact riceBits_zigzag q hrk
      have hlen : (riceBits k x).length = q + 1 + k := by simp [hcode]; omega
      rw [readRice_code hr (hcode ▸ ha), hlen]
    refine ⟨run_ok hh (bind_ok hread), fun hk => run_ok hh ?_⟩
    rw [reads_bind_run, hk]
    exact bind_ok hread
  · obtain ⟨p, t, e⟩ := readRice_end_of_zeros hr ha k
    exact raisesCode_run hh (bind_error e)
  · obtain ⟨p, t, e⟩ := readRice_end_of_remainder hr hl ha
    exact raisesCode_run hh (bind_error e)

/-- Settles O16: READ_RICE on a codeword. -/
theorem riceRoundTrip : Obligations.RiceRoundTrip := fun _ _ _ ⟨hr, hh⟩ ha =>
  run_ok hh (bind_ok (readRice_code hr ha))

/-- Settles O17: four bytes, put together from either end; on a byte boundary they are one field of 32 bits. -/
theorem fourByteNumbers : Obligations.FourByteNumbers := by
  refine ⟨fun s b0 b1 b2 b3 ⟨hr, hh⟩ h0 h1 h2 h3 => ?_, fun s hh hlt => ?_⟩
  · have hlen : s.br.pos + 4 ≤ s.srcLen := Memory.lt_length_of_read hr.1 h3
    have hbytes := readBytes_ok hlen
    have hle : exec .readLe32 s = _ := run_ok hh (bind_ok (bind_ok hbytes))
    have hbe : exec .readBe32 s = _ := run_ok hh (bind_ok (bind_ok hbytes))
    have hmany := Memory.readMany_four hr.1 h0 h1 h2 h3
    refine ⟨?_, ?_, fun hnbits => ?_⟩
    · rw [hle, hmany, leBytes_four]
    · rw [hbe, hmany, ← leBytes_four]
      rfl
    · have hfield : readUint 32 s = _ := readUint_aligned hr hnbits hlen
      have huint : exec (.readUint 32) s = _ := run_ok hh (bind_ok hfield)
      rw [hbe, huint]
  · have hbytes := readBytes_end hlt
    exact ⟨raisesCode_run hh (bind_error (bind_error hbytes)), raisesCode_run hh (bind_error (bind_error hbytes))⟩

end Sys2Proof.Machine
end

section
/-! SUPPORT. What a block row does and raises (R151, R153, R162, R163): the tests on its index, its effect on the
registers, its body's faults. -/

namespace Sys2Proof.Machine

open Sys2Proof

variable {s t u : State} {kind : BlockKind} {type length : Nat} {last : Bool}

/-! ### Faults -/

theorem raises_runUnit {m : M Unit} {d : DecodeFault} (hh : s.halted = false) (e : m s = .error (.raise d) u) :
    Raises (runUnit m s) d := ⟨_, runUnit_error hh e, rfl, rfl, rfl, rfl⟩

theorem Raises.malformed {o : Host.Outcome State Fault Refusal} {i : Nat} {reason : BlockReason}
    (h : Raises o (.malformedBlock i type reason)) : RaisesCode o 2 := ⟨_, h, rfl⟩

/-! ### The tests on the index (R153) -/

theorem firstBlockTest_first (hk : kind ≠ .streaminfo) (hi : s.mdIndex = 0) :
    firstBlockTest kind type s = .error (.raise (.malformedBlock s.mdIndex type .firstNotStreaminfo)) s := by
  simp only [firstBlockTest, reads_bind_run]
  rw [if_pos ⟨hi, hk⟩]; rfl

theorem firstBlockTest_repeated (hi : 0 < s.mdIndex) :
    firstBlockTest .streaminfo type s = .error (.raise (.malformedBlock s.mdIndex type .streaminfoRepeated)) s := by
  rw [firstBlockTest, reads_bind_run, if_neg (fun h => h.2 rfl), if_pos ⟨hi, rfl⟩]; rfl

theorem firstBlockTest_later (hk : kind ≠ .streaminfo) (hi : 0 < s.mdIndex) :
    firstBlockTest kind type s = .ok () s := by
  simp only [firstBlockTest, reads_bind_run]
  rw [if_neg (by omega), if_neg (fun h => hk h.2)]; rfl

/-- The first block's body is read where it is a STREAMINFO (R153). -/
theorem firstBlockTest_streaminfo (hi : s.mdIndex = 0) : firstBlockTest .streaminfo type s = .ok () s := by
  simp only [firstBlockTest, reads_bind_run]
  rw [if_neg (fun h => h.2 rfl), if_neg (by omega)]; rfl

/-- A block its index forbids raises before any byte of its body (R153). -/
theorem raisesCode_firstBlockTest {reason : BlockReason} (hh : s.halted = false)
    (e : firstBlockTest kind type s = .error (.raise (.malformedBlock s.mdIndex type reason)) s) :
    RaisesCode (runUnit (blockElement kind type last length) s) 2 :=
  (raises_runUnit hh (bind_error e)).malformed

/-! ### Bodies -/

/-- After its test a block is its body, its record and the last-flag (R151, R162). -/
theorem blockElement_run (h : firstBlockTest kind type s = .ok () s) :
    blockElement kind type last length s =
      (blockBody kind type length (s.br.pos + length) last >>= fun rec =>
        writes (·.addRecord rec) >>= fun _ => if last then writes (·.setPhase .frames) else pure ()) s :=
  bind_ok h

/-- A block whose body is read appends its record (R151, R162). -/
theorem blockElement_record {rec : Record} (h : firstBlockTest kind type s = .ok () s)
    (e : blockBody kind type length (s.br.pos + length) last s = .ok rec t) :
    blockElement kind type last length s =
      .ok () ((t.addRecord rec).setPhase (if last then .frames else t.phase)) := by
  rw [blockElement_run h, bind_ok e, writes_bind_run]
  cases last <;> rfl

/-- A fault in the body is the block's. -/
theorem raises_blockBody {d : DecodeFault} (hh : s.halted = false) (h : firstBlockTest kind type s = .ok () s)
    (e : blockBody kind type length (s.br.pos + length) last s = .error (.raise d) u) :
    Raises (runUnit (blockElement kind type last length) s) d :=
  raises_runUnit hh ((blockElement_run h).trans (bind_error e))

/-! ### Rows -/

/-- A row of an unrecognised type (R97, R161). -/
theorem exec_unknownRow {n : BitVec 24} {i : Instr}
    (h : (∃ x, i = .mbUnknownOdd last x n) ∨ (∃ x, i = .mbUnknown64 last x n) ∨
      (∃ x, i = .mbUnknown32 last x n) ∨ (∃ x, i = .mbUnknown16 last x n) ∨ (∃ x, i = .mbUnknown8 last x n))
    (s : State) : ∃ type, exec i s = runUnit (blockElement .unknown type last n.toNat) s := by
  obtain ⟨x, rfl⟩ | ⟨x, rfl⟩ | ⟨x, rfl⟩ | ⟨x, rfl⟩ | ⟨x, rfl⟩ := h <;> exact ⟨_, rfl⟩

/-- A row of any type but STREAMINFO's. -/
theorem exec_laterRow {n : BitVec 24} {i : Instr}
    (h : i = .mbApplication last n ∨ i = .mbVorbisComment last n ∨ i = .mbPicture last n ∨
      (∃ x, i = .mbUnknownOdd last x n) ∨ (∃ x, i = .mbUnknown64 last x n) ∨
      (∃ x, i = .mbUnknown32 last x n) ∨ (∃ x, i = .mbUnknown16 last x n) ∨ (∃ x, i = .mbUnknown8 last x n))
    (s : State) : ∃ kind type, kind ≠ .streaminfo ∧ exec i s = runUnit (blockElement kind type last n.toNat) s := by
  obtain rfl | rfl | rfl | h := h
  · exact ⟨.application, _, nofun, rfl⟩
  · exact ⟨.vorbisComment, _, nofun, rfl⟩
  · exact ⟨.picture, _, nofun, rfl⟩
  · obtain ⟨type, e⟩ := exec_unknownRow h s
    exact ⟨.unknown, type, nofun, e⟩

/-! ### Whole blocks -/

/-- Entries that are well formed one by one are so together (R94, R156). -/
theorem all_entriesOk {rule : Utf8Rule} {entries : List (List Byte × List Byte)}
    (h : ∀ e ∈ entries, e.1.contains 0x3D#8 = false ∧ stringOk rule (e.1 ++ [0x3D#8] ++ e.2) = true) :
    entries.all (fun e => !e.1.contains 0x3D#8 && stringOk rule (entryBytes e)) = true := by
  rw [List.all_eq_true]
  intro e he
  obtain ⟨hname, hstring⟩ := h e he
  simp only [hname, Bool.not_false, Bool.true_and]
  exact hstring

theorem bp_mod_of_nbits_zero (h0 : s.br.nbits = 0) : s.bp % 8 = 0 := by
  rw [bp_of_nbits_zero h0, Nat.mul_mod_right]

/-- A block row on the bits of its body, where the block may stand (R151). -/
theorem runUnit_blockElement {b : Block} (hs : s.Ready) (h0 : s.br.nbits = 0) (hc : b.content.fits s.cfg.utf8 = true)
    (hi : b.content.isStreaminfo = decide (s.mdIndex = 0)) (hb : b.content.bits <+: s.ahead) :
    runUnit (blockElement b.content.kind type b.last b.content.length) s =
      .next ((b.effect (s.setBr ⟨s.br.pos + b.content.length, 0, 0⟩)).setRet .unit) := by
  obtain ⟨hr, hh⟩ := hs
  rw [runUnit_ok hh (blockElement_ok hr (bp_mod_of_nbits_zero h0) hc hi hb), Content.bits_length hc, skip_aligned h0]

/-- A block that is no STREAMINFO writes its record, the index and the phase, and nothing else (R151, R162). -/
theorem Block.effect_later {b : Block} (h : b.content.isStreaminfo = false) (s : State) :
    b.effect s = ((s.setMetas (s.metas ++ [b.record])).setMdIndex (s.mdIndex + 1)).setPhase
      (if b.last then .frames else s.phase) := by
  obtain ⟨last, c⟩ := b
  cases c with
  | streaminfo => cases h
  | application | vorbisComment | picture | unknown => cases last <;> rfl

/-- STREAMINFO loads the registers too (R155). -/
theorem Block.effect_streaminfo (last : Bool) (si : StreamInfo) (s : State) :
    Block.effect ⟨last, .streaminfo si⟩ s = (((s.setSi si).setMetas (s.metas ++ [.streamInfo 34 last si])).setMdIndex
      (s.mdIndex + 1)).setPhase (if last then .frames else s.phase) := by
  cases last <;> rfl

/-- A later block's row on the bits of its body: the whole next state. -/
theorem runUnit_laterBlock {b : Block} (hs : s.Ready) (h0 : s.br.nbits = 0) (hi : 0 < s.mdIndex)
    (hk : b.content.isStreaminfo = false) (hc : b.content.fits s.cfg.utf8 = true) (hb : b.content.bits <+: s.ahead) :
    runUnit (blockElement b.content.kind type b.last b.content.length) s =
      .next (((((s.setBr ⟨s.br.pos + b.content.length, 0, 0⟩).setMetas (s.metas ++ [b.record])).setMdIndex
        (s.mdIndex + 1)).setPhase (if b.last then .frames else s.phase)).setRet .unit) := by
  rw [runUnit_blockElement hs h0 hc (by simp [hk]; omega) hb, Block.effect_later hk]
  rfl

end Sys2Proof.Machine
end

section
/-! Proofs of the statements about whole blocks and their headers (spec/41_metadata.md R151 to R161). -/

namespace Sys2Proof.Machine

open Sys2Proof

/-- Settles O41: the row is its block at index 0. -/
theorem streaminfoBlock : Obligations.StreaminfoBlock := by
  intro s last si hs h0 hi hok hb
  have hfits : (Content.streaminfo si).fits s.cfg.utf8 = true := by simp [Content.fits, Content.length, hok]
  have hrun : exec (.mbStreaminfo last 34) s = _ :=
    runUnit_blockElement (b := ⟨last, .streaminfo si⟩) hs h0 hfits (by simp [Content.isStreaminfo, hi]) hb
  rw [hrun, Block.effect_streaminfo, State.setBr_mdIndex, hi]
  rfl

/-- Settles O42: the row is its block at a later index. -/
theorem applicationBlock : Obligations.ApplicationBlock := by
  intro s last n id payload hs h0 hi hid hn hb
  have hlen : n.toNat = id.length + payload.length := by rw [hid, hn]
  have hfits : (Content.application id payload).fits s.cfg.utf8 = true := by
    simp [Content.fits, Content.length, hid]; omega
  change runUnit (blockElement .application _ last n.toNat) s = _
  rw [hlen]
  exact runUnit_laterBlock (b := ⟨last, .application id payload⟩) hs h0 hi rfl hfits hb

/-- Settles O43: the row is its block at a later index. -/
theorem vorbisCommentBlock : Obligations.VorbisCommentBlock := by
  intro s last n vendor entries hs h0 hi hv he hn hb
  have hfits : (Content.vorbisComment vendor entries).fits s.cfg.utf8 = true := by
    have hlt := n.isLt
    have hall : entries.all (fun e => !e.1.contains 0x3D#8 && stringOk s.cfg.utf8 (entryBytes e)) = true :=
      all_entriesOk he
    simp only [Content.fits, Content.length, ← hn, hlt, hv, hall, decide_true, Bool.and_true]
  change runUnit (blockElement .vorbisComment _ last n.toNat) s = _
  rw [hn]
  exact runUnit_laterBlock (b := ⟨last, .vorbisComment vendor entries⟩) hs h0 hi rfl hfits hb

/-- Settles O44: the row is its block at a later index. -/
theorem pictureBlock : Obligations.PictureBlock := by
  intro s last n ptype w h depth colors mime desc data hs h0 hi ht hm hd hw hh hdp hcl hn hb
  have hfits : (Content.picture ptype mime desc w h depth colors data).fits s.cfg.utf8 = true := by
    have hlt := n.isLt
    simp only [Content.fits, Content.length, picTypeMax, ← hn, ht, hm, hd, hw, hh, hdp, hcl, hlt, decide_true,
      Bool.and_true]
  change runUnit (blockElement .picture _ last n.toNat) s = _
  rw [hn]
  exact runUnit_laterBlock (b := ⟨last, .picture ptype mime desc w h depth colors data⟩) hs h0 hi rfl hfits hb

/-- Settles O45: a skip inside the source, and one past its end. -/
theorem unknownBlock : Obligations.UnknownBlock := by
  intro s last n i hh _ hi hrow
  obtain ⟨type, hexec⟩ := exec_unknownRow hrow s
  have htest : firstBlockTest .unknown type s = .ok () s := firstBlockTest_later nofun hi
  rw [hexec]
  refine ⟨fun hle => ?_, fun hlt => ?_⟩
  · exact runUnit_ok hh (blockElement_record htest (bind_ok (readBytes_ok hle)))
  · exact ⟨_, raises_blockBody hh htest (bind_error (readBytes_end hlt)), rfl⟩

/-- Settles O46: one pass of PARSE_METADATA's loop on the bits of a block. -/
theorem headerDispatchesTheBlock : Obligations.HeaderDispatchesTheBlock := by
  intro s b ⟨hr, hh⟩ h0 hc hi hb
  have hread : s.skip (b.bits s.cfg).length = s.setBr ⟨s.br.pos + 4 + b.content.length, 0, 0⟩ := by
    rw [Block.bits_length hc, show 32 + 8 * b.content.length = 8 * (4 + b.content.length) by ring, skip_aligned h0,
      Nat.add_assoc]
  rw [← hread]
  exact runUnit_ok hh (bind_ok (parseBlock_ok hr (bp_mod_of_nbits_zero h0) hc hi hb))

/-- Settles O47: the tests on the index, and the two on the length. -/
theorem blockHeadersAreChecked : Obligations.BlockHeadersAreChecked := by
  refine ⟨fun s last n i hh hi hrow => ?_, fun s last n hh hi => ?_, fun s last n hh hi hn => ?_,
    fun s last n hh hi hn => ?_⟩
  · obtain ⟨kind, type, hk, hexec⟩ := exec_laterRow hrow s
    rw [hexec]
    exact raisesCode_firstBlockTest hh (firstBlockTest_first hk hi)
  · exact raisesCode_firstBlockTest hh (firstBlockTest_repeated hi)
  · have hlen : n.toNat ≠ streaminfoLen := fun e => hn (BitVec.eq_of_toNat_eq e)
    exact (raises_blockBody hh (firstBlockTest_streaminfo hi) (congrFun (if_neg hlen) s)).malformed
  · have hlen : ¬ 4 ≤ n.toNat := by omega
    exact (raises_blockBody (kind := .application) hh (firstBlockTest_later nofun hi)
      (congrFun (if_neg hlen) s)).malformed

end Sys2Proof.Machine
end

section
/-! SUPPORT. The rules of a VorbisComment and a Picture, cut where their bodies can first be wrong (R156, R158). -/

namespace Sys2Proof.Machine

open Sys2Proof

variable {s u : State} {type length fin left : Nat} {last : Bool} {bs : List Byte}

/-- A block row starts with the whole of its declared length left. -/
theorem inBody_start (hs : s.Ready) (h0 : s.br.nbits = 0) (n : Nat) (hb : bytesBits bs <+: s.ahead) :
    InBody s (s.br.pos + n) n bs :=
  ⟨hs.1, bp_mod_of_nbits_zero h0, by rw [bp_of_nbits_zero h0, Nat.mul_add], hb⟩

/-! ### VorbisComment -/

/-- A VorbisComment after its vendor string and count. -/
def vorbisRest (type length fin : Nat) (last : Bool) (vendor : List Byte) (count : Nat) : M Record := do
  let entries ← parseEntries type fin count 0
  endAt type length fin
  pure (.vorbisComment length last vendor entries)

/-- The vendor string and the count decode; what the rest does is what the rule does. -/
theorem InBody.vorbisHead {vendor : List Byte} {count : Nat}
    (h : InBody s fin left (le4 vendor.length ++ (vendor ++ (le4 count ++ bs))))
    (hv : stringOk s.cfg.utf8 vendor = true) (hc : count < 2 ^ 32) (hl : 8 + vendor.length ≤ left)
    (h24 : left < 2 ^ 24) :
    ∃ t, InBody t fin (left - (8 + vendor.length)) bs ∧ t.cfg = s.cfg ∧ t.mdIndex = s.mdIndex ∧
      parseVorbisComment type length fin last s = vorbisRest type length fin last vendor count t := by
  obtain ⟨r1, h1⟩ := h.le32 (by omega) (by omega) type
  obtain ⟨r2, h2⟩ := h1.string hv (by omega) type .vendor
  obtain ⟨r3, h3⟩ := h2.le32 hc (by omega) type
  rw [show left - 4 - vendor.length - 4 = left - (8 + vendor.length) by omega] at h3
  exact ⟨_, h3, rfl, rfl, (bind_ok r1).trans ((bind_ok r2).trans (bind_ok r3))⟩

/-- The next entry is not UTF-8: the fault gives its index (R156). -/
theorem InBody.entry_bad {e : List Byte} (h : InBody s fin left (le4 e.length ++ (e ++ bs)))
    (hu : stringOk s.cfg.utf8 e = false) (hl : 4 + e.length ≤ left) (h32 : e.length < 2 ^ 32) (type k i : Nat) :
    parseEntries type fin (k + 1) i s =
      .error (.raise (.malformedBlock s.mdIndex type (.notUtf8 (.entry i)))) ((s.skip 32).skip (8 * e.length)) := by
  obtain ⟨r1, h1⟩ := h.le32 h32 (by omega) type
  exact (bind_ok r1).trans (bind_error (h1.string_bad hu (by omega) type (.entry i)))

/-- The next entry has no `=`: the fault gives its index (R156). -/
theorem InBody.entry_withoutEquals {e : List Byte} (h : InBody s fin left (le4 e.length ++ (e ++ bs)))
    (hu : stringOk s.cfg.utf8 e = true) (hname : e.contains 0x3D#8 = false) (hl : 4 + e.length ≤ left)
    (h32 : e.length < 2 ^ 32) (type k i : Nat) :
    parseEntries type fin (k + 1) i s =
      .error (.raise (.malformedBlock s.mdIndex type (.entryWithoutEquals i))) ((s.skip 32).skip (8 * e.length)) := by
  obtain ⟨r1, h1⟩ := h.le32 h32 (by omega) type
  obtain ⟨r2, _⟩ := h1.string hu (by omega) type (.entry i)
  rw [parseEntries, bind_ok r1, bind_ok r2, (splitEntry_none e).2 hname]
  rfl

/-! ### Picture -/

/-- `k` numbers of a Picture in a row, then `f` on them. -/
def takeBe32s (type fin k : Nat) (f : List Nat → M Record) : M Record :=
  match k with
  | 0 => f []
  | k + 1 => do
    let v ← takeBe32 type fin
    takeBe32s type fin k fun vs => f (v :: vs)

/-- The first numbers decode; what the rest do is what all of them do. -/
theorem InBody.be32s (nums : List Nat) : ∀ {s : State} {left k : Nat} {f : List Nat → M Record},
    InBody s fin left (nums.flatMap be4 ++ bs) → (∀ v ∈ nums, v < 2 ^ 32) → 4 * nums.length ≤ left →
    ∃ t, InBody t fin (left - 4 * nums.length) bs ∧ t.mdIndex = s.mdIndex ∧
      takeBe32s type fin (nums.length + k) f s = takeBe32s type fin k (fun vs => f (nums ++ vs)) t := by
  induction nums with
  | nil => exact fun {s _ k f} h _ _ => ⟨s, h, rfl, by rw [List.length_nil, Nat.zero_add]; rfl⟩
  | cons v nums ih =>
    intro s left k f h hv hl
    rw [List.length_cons] at hl
    rw [List.forall_mem_cons] at hv
    rw [List.flatMap_cons, List.append_assoc] at h
    obtain ⟨r1, h1⟩ := h.be32 hv.1 (by omega) type
    obtain ⟨t, h2, hmd, e⟩ := ih (k := k) (f := fun vs => f (v :: vs)) h1 hv.2 (by omega)
    rw [show left - 4 - 4 * nums.length = left - 4 * (nums.length + 1) by omega] at h2
    refine ⟨t, h2, hmd, ?_⟩
    rw [List.length_cons, Nat.add_right_comm]
    exact (bind_ok r1).trans e

/-- A Picture after its five numbers. -/
def pictureData (type length fin : Nat) (last : Bool) (ptype : Nat) (mime desc : List Byte) (v : List Nat) :
    M Record := do
  let data ← take type (v.getD 4 0) fin
  endAt type length fin
  pure (.picture length last ptype mime desc (v.getD 0 0) (v.getD 1 0) (v.getD 2 0) (v.getD 3 0) data)

/-- The data's length is the fifth number (R158). -/
theorem take_fifth {nums : List Nat} {v : Nat} (h : nums.length = 4) (s : State) :
    take type ((nums ++ [v]).getD 4 0) fin s = take type v fin s := by
  rw [← h, List.getD_append_right _ _ _ _ le_rfl, Nat.sub_self]
  rfl

/-- A Picture after its MIME string. -/
def pictureDescription (type length fin : Nat) (last : Bool) (ptype : Nat) (mime : List Byte) : M Record := do
  let dlen ← takeBe32 type fin
  let desc ← takeString type dlen fin .description
  takeBe32s type fin 5 (pictureData type length fin last ptype mime desc)

/-- A Picture after its type. -/
def pictureMime (type length fin : Nat) (last : Bool) (ptype : Nat) : M Record := do
  let mlen ← takeBe32 type fin
  let mime ← takeString type mlen fin .mime
  pictureDescription type length fin last ptype mime

theorem parsePicture_eq (type length fin : Nat) (last : Bool) :
    parsePicture type length fin last = takeBe32 type fin >>= fun ptype =>
      if ptype ≤ picTypeMax then pictureMime type length fin last ptype
      else malformed type (.pictureType ptype) := rfl

/-- A legal type decodes; what the MIME string does is what the rule does (R158). -/
theorem InBody.pictureType {t : Nat} (h : InBody s fin left (be4 t ++ bs)) (ht : t ≤ 20) (hl : 4 ≤ left) :
    InBody (s.skip 32) fin (left - 4) bs ∧
      parsePicture type length fin last s = pictureMime type length fin last t (s.skip 32) := by
  obtain ⟨r, h1⟩ := h.be32 (by omega) hl type
  rw [parsePicture_eq, bind_ok r, if_pos (show t ≤ picTypeMax from ht)]
  exact ⟨h1, rfl⟩

section StringField

variable (type : Nat) (field : StringField) (f : List Byte → M Record)

/-- A length and its string decode (R158). -/
theorem InBody.lengthString {a : List Byte} (h : InBody s fin left (be4 a.length ++ (a ++ bs)))
    (hu : stringOk s.cfg.utf8 a = true) (hl : 4 + a.length ≤ left) (h24 : left < 2 ^ 24) :
    InBody ((s.skip 32).skip (8 * a.length)) fin (left - (4 + a.length)) bs ∧
      (takeBe32 type fin >>= fun n => takeString type n fin field >>= f) s =
        f a ((s.skip 32).skip (8 * a.length)) := by
  obtain ⟨r1, h1⟩ := h.be32 (by omega) (by omega) type
  obtain ⟨r2, h2⟩ := h1.string hu (by omega) type field
  rw [Nat.sub_sub] at h2
  exact ⟨h2, (bind_ok r1).trans (bind_ok r2)⟩

/-- The announced length passes the declared one (R154). -/
theorem InBody.lengthString_over {v : Nat} (h : InBody s fin left (be4 v ++ bs)) (hv : v < 2 ^ 32) (h4 : 4 ≤ left)
    (hl : left < 4 + v) :
    (takeBe32 type fin >>= fun n => takeString type n fin field >>= f) s =
      .error (.raise (.malformedBlock s.mdIndex type (.innerOverrun v (left - 4)))) (s.skip 32) := by
  obtain ⟨r1, h1⟩ := h.be32 hv h4 type
  exact (bind_ok r1).trans (bind_error (h1.over_string (by omega) type field))

/-- The string is not UTF-8 (R158). -/
theorem InBody.lengthString_bad {a : List Byte} (h : InBody s fin left (be4 a.length ++ (a ++ bs)))
    (hu : stringOk s.cfg.utf8 a = false) (hl : 4 + a.length ≤ left) (h24 : left < 2 ^ 24) :
    (takeBe32 type fin >>= fun n => takeString type n fin field >>= f) s =
      .error (.raise (.malformedBlock s.mdIndex type (.notUtf8 field))) ((s.skip 32).skip (8 * a.length)) := by
  obtain ⟨r1, h1⟩ := h.be32 (by omega) (by omega) type
  exact (bind_ok r1).trans (bind_error (h1.string_bad hu (by omega) type field))

end StringField

end Sys2Proof.Machine
end

section
/-! Proofs of the statements about malformed bodies (spec/41_metadata.md R154, R156, R158, R163). -/

namespace Sys2Proof.Machine

open Sys2Proof

variable {s u : State} {last : Bool} {n : BitVec 24} {d : DecodeFault}

theorem raises_vorbisComment (hs : s.Ready) (hi : 0 < s.mdIndex)
    (e : parseVorbisComment s.cfg.btVorbisComment.toNat n.toNat (s.br.pos + n.toNat) last s = .error (.raise d) u) :
    Raises (exec (.mbVorbisComment last n) s) d :=
  raises_blockBody (kind := .vorbisComment) hs.2 (firstBlockTest_later nofun hi) e

theorem raises_picture (hs : s.Ready) (hi : 0 < s.mdIndex)
    (e : parsePicture s.cfg.btPicture.toNat n.toNat (s.br.pos + n.toNat) last s = .error (.raise d) u) :
    Raises (exec (.mbPicture last n) s) d :=
  raises_blockBody (kind := .picture) hs.2 (firstBlockTest_later nofun hi) e

/-! ### VorbisComment -/

/-- After the valid entries: where the next one starts, and its fault as the row's (R156). -/
theorem exists_nextEntry (last : Bool) (n : BitVec 24) {vendor bs : List Byte}
    {entries : List (List Byte × List Byte)} {count : Nat}
    (hs : s.Ready) (h0 : s.br.nbits = 0) (hi : 0 < s.mdIndex) (hv : stringOk s.cfg.utf8 vendor = true)
    (hc : count < 2 ^ 32)
    (he : ∀ e ∈ entries, e.1.contains 0x3D#8 = false ∧ stringOk s.cfg.utf8 (e.1 ++ [0x3D#8] ++ e.2) = true)
    (hlt : entries.length < count)
    (hl : (le4 vendor.length ++ vendor ++ le4 count ++ entriesBytes entries).length ≤ n.toNat)
    (hb : bytesBits (le4 vendor.length ++ vendor ++ le4 count ++ entriesBytes entries ++ bs) <+: s.ahead) :
    ∃ t k, InBody t (s.br.pos + n.toNat)
        (n.toNat - (le4 vendor.length ++ vendor ++ le4 count ++ entriesBytes entries).length) bs ∧
      t.cfg = s.cfg ∧ t.mdIndex = s.mdIndex ∧
      ∀ {d u}, parseEntries s.cfg.btVorbisComment.toNat (s.br.pos + n.toNat) (k + 1) entries.length t =
        .error (.raise d) u → Raises (exec (.mbVorbisComment last n) s) d := by
  have hn := n.isLt
  simp only [List.length_append, le4_length] at hl ⊢
  obtain ⟨k, rfl⟩ : ∃ k, count = entries.length + (k + 1) := ⟨count - entries.length - 1, by omega⟩
  have h : InBody s (s.br.pos + n.toNat) n.toNat
      (le4 vendor.length ++ (vendor ++ (le4 (entries.length + (k + 1)) ++ (entriesBytes entries ++ bs)))) :=
    inBody_start hs h0 n.toNat (by simpa only [List.append_assoc] using hb)
  obtain ⟨t, h1, hcfg, hmd, e1⟩ := h.vorbisHead (type := s.cfg.btVorbisComment.toNat) (length := n.toNat)
    (last := last) hv hc (by omega) hn
  obtain ⟨h2, e2⟩ := h1.entries (type := s.cfg.btVorbisComment.toNat) entries 0 (k + 1)
    (by rw [hcfg]; exact all_entriesOk he) (by omega) (by omega)
  rw [show n.toNat - (8 + vendor.length) - (entriesBytes entries).length =
    n.toNat - (4 + vendor.length + 4 + (entriesBytes entries).length) by omega] at h2
  rw [Nat.zero_add] at e2
  exact ⟨_, k, h2, hcfg, hmd, fun e => raises_vorbisComment hs hi (e1.trans (bind_error (e2 e)))⟩

/-- Bytes left over after the last entry (R156). -/
theorem raisesCode_vorbis_leftOver {vendor : List Byte} {entries : List (List Byte × List Byte)}
    (hs : s.Ready) (h0 : s.br.nbits = 0) (hi : 0 < s.mdIndex) (hv : stringOk s.cfg.utf8 vendor = true)
    (hc : entries.length < 2 ^ 32)
    (he : ∀ e ∈ entries, e.1.contains 0x3D#8 = false ∧ stringOk s.cfg.utf8 (e.1 ++ [0x3D#8] ++ e.2) = true)
    (hl : (vorbisBytes vendor entries).length < n.toNat)
    (hb : bytesBits (vorbisBytes vendor entries) <+: s.ahead) :
    RaisesCode (exec (.mbVorbisComment last n) s) 2 := by
  have hn := n.isLt
  simp only [vorbisBytes, List.length_append, le4_length] at hl
  have h : InBody s (s.br.pos + n.toNat) n.toNat
      (le4 vendor.length ++ (vendor ++ (le4 entries.length ++ (entriesBytes entries ++ [])))) :=
    inBody_start hs h0 n.toNat (by simpa only [vorbisBytes, List.append_assoc, List.append_nil] using hb)
  obtain ⟨t, h1, hcfg, hmd, e1⟩ := h.vorbisHead (type := s.cfg.btVorbisComment.toNat) (length := n.toNat)
    (last := last) hv hc (by omega) hn
  have hrem := h1.remain
  have e2 := parseEntries_ok (type := s.cfg.btVorbisComment.toNat) (fin := s.br.pos + n.toNat) (i := 0) entries
    h1.ready h1.aligned (by rw [hcfg]; exact all_entriesOk he) (by omega) (by omega) h1.first
  have h2 := h1.drop (by omega)
  exact (raises_vorbisComment hs hi
    (e1.trans ((bind_ok e2).trans (bind_error (h2.over_end (by omega) _ _))))).malformed

/-- Settles O48: the vendor string and the count field by field, then the entry at which the fault stands. -/
theorem blockBodiesAreChecked : Obligations.BlockBodiesAreChecked := by
  intro s last n vendor entries count hs h0 hi
  have hn := n.isLt
  have vendorField : bytesBits (le4 vendor.length ++ vendor) <+: s.ahead →
      InBody s (s.br.pos + n.toNat) n.toNat (le4 vendor.length ++ (vendor ++ [])) := fun hb =>
    inBody_start hs h0 n.toNat (by rwa [List.append_nil])
  refine ⟨fun hl => ?_, fun v hv hl hover hb => ?_, fun hbad hl hb => ?_, fun hv hl hover hb => ?_,
    fun hvendor hc he hl hb => ⟨fun hcount hover => ?_, fun hlt hover => ?_, fun v hlt hv hlen hover hb => ?_,
      fun e hlt hlen hb => ?_⟩⟩
  · have h := inBody_start (bs := []) hs h0 n.toNat List.nil_prefix
    exact (raises_vorbisComment hs hi (bind_error (h.over_le32 hl _))).malformed
  · have h := inBody_start (bs := le4 v ++ []) hs h0 n.toNat (by rwa [List.append_nil])
    obtain ⟨r1, h1⟩ := h.le32 hv hl s.cfg.btVorbisComment.toNat
    exact (raises_vorbisComment hs hi ((bind_ok r1).trans (bind_error (h1.over_string (by omega) _ _)))).malformed
  · obtain ⟨r1, h1⟩ := (vendorField hb).le32 (by omega) (by omega) s.cfg.btVorbisComment.toNat
    exact raises_vorbisComment hs hi ((bind_ok r1).trans (bind_error (h1.string_bad hbad (by omega) _ _)))
  · obtain ⟨r1, h1⟩ := (vendorField hb).le32 (by omega) (by omega) s.cfg.btVorbisComment.toNat
    obtain ⟨r2, h2⟩ := h1.string hv (by omega) s.cfg.btVorbisComment.toNat .vendor
    exact (raises_vorbisComment hs hi
      ((bind_ok r1).trans ((bind_ok r2).trans (bind_error (h2.over_le32 (by omega) _))))).malformed
  · subst hcount
    exact raisesCode_vorbis_leftOver hs h0 hi hvendor hc he hover hb
  · obtain ⟨t, k, h, _, _, next⟩ := exists_nextEntry (bs := []) last n hs h0 hi hvendor hc he hlt hl
      (by rwa [List.append_nil])
    exact (next (bind_error (h.over_le32 (by omega) _))).malformed
  · obtain ⟨t, k, h, _, _, next⟩ := exists_nextEntry (bs := le4 v ++ []) last n hs h0 hi hvendor hc he hlt hl
      (by rwa [List.append_nil])
    obtain ⟨r1, h1⟩ := h.le32 hv (by omega) s.cfg.btVorbisComment.toNat
    exact (next ((bind_ok r1).trans (bind_error (h1.over_string (by omega) _ _)))).malformed
  · obtain ⟨t, k, h, hcfg, hmd, next⟩ := exists_nextEntry (bs := le4 e.length ++ (e ++ [])) last n hs h0 hi
      hvendor hc he hlt hl (by simpa only [List.append_assoc, List.append_nil] using hb)
    rw [← hmd, ← congrArg Config.utf8 hcfg]
    exact ⟨fun hbad => next (h.entry_bad hbad (by omega) (by omega) _ _ _),
      fun hok hname => next (h.entry_withoutEquals hok hname (by omega) (by omega) _ _ _)⟩

/-! ### Picture -/

/-- After a legal type: where the MIME string starts, and what is wrong from there on as the row's fault (R158). -/
theorem picture_afterType (last : Bool) (n : BitVec 24) {t : Nat} {bs : List Byte} (hs : s.Ready)
    (h0 : s.br.nbits = 0) (hi : 0 < s.mdIndex) (ht : t ≤ 20) (hl : 4 ≤ n.toNat) (hb : bytesBits (be4 t ++ bs) <+: s.ahead) :
    InBody (s.skip 32) (s.br.pos + n.toNat) (n.toNat - 4) bs ∧
      ∀ {d u}, pictureMime s.cfg.btPicture.toNat n.toNat (s.br.pos + n.toNat) last t (s.skip 32) =
        .error (.raise d) u → Raises (exec (.mbPicture last n) s) d :=
  have ⟨h1, e1⟩ := (inBody_start hs h0 n.toNat hb).pictureType ht hl
  ⟨h1, fun e => raises_picture hs hi (e1.trans e)⟩

/-- After a legal MIME string: the same for the description. -/
theorem picture_afterMime (last : Bool) (n : BitVec 24) {t : Nat} {mime bs : List Byte} (hs : s.Ready)
    (h0 : s.br.nbits = 0) (hi : 0 < s.mdIndex) (ht : t ≤ 20) (hm : stringOk s.cfg.utf8 mime = true) (hl : 8 + mime.length ≤ n.toNat)
    (hb : bytesBits (be4 t ++ be4 mime.length ++ mime ++ bs) <+: s.ahead) :
    ∃ t', InBody t' (s.br.pos + n.toNat) (n.toNat - (8 + mime.length)) bs ∧ t'.cfg = s.cfg ∧ t'.mdIndex = s.mdIndex ∧
      ∀ {d u}, pictureDescription s.cfg.btPicture.toNat n.toNat (s.br.pos + n.toNat) last t mime t' =
        .error (.raise d) u → Raises (exec (.mbPicture last n) s) d := by
  have hn := n.isLt
  obtain ⟨h1, raise⟩ := picture_afterType (bs := be4 mime.length ++ (mime ++ bs)) last n hs h0 hi ht (by omega)
    (by simpa only [List.append_assoc] using hb)
  obtain ⟨h2, e2⟩ := h1.lengthString s.cfg.btPicture.toNat .mime
    (pictureDescription s.cfg.btPicture.toNat n.toNat (s.br.pos + n.toNat) last t) hm (by omega) (by omega)
  rw [show n.toNat - 4 - (4 + mime.length) = n.toNat - (8 + mime.length) by omega] at h2
  exact ⟨_, h2, rfl, rfl, fun e => raise (e2.trans e)⟩

/-- After two legal strings and the first numbers: the same for the other `k` numbers. -/
theorem picture_afterNumbers (last : Bool) (n : BitVec 24) {t : Nat} {mime desc bs : List Byte} {nums : List Nat}
    (k : Nat)
    (hs : s.Ready) (h0 : s.br.nbits = 0) (hi : 0 < s.mdIndex) (ht : t ≤ 20) (hm : stringOk s.cfg.utf8 mime = true)
    (hd : stringOk s.cfg.utf8 desc = true) (hv : ∀ v ∈ nums, v < 2 ^ 32) (hk : nums.length + k = 5)
    (hl : (be4 t ++ be4 mime.length ++ mime ++ be4 desc.length ++ desc ++ nums.flatMap be4).length ≤ n.toNat)
    (hb : bytesBits (be4 t ++ be4 mime.length ++ mime ++ be4 desc.length ++ desc ++ nums.flatMap be4 ++ bs) <+: s.ahead) :
    ∃ t', InBody t' (s.br.pos + n.toNat)
        (n.toNat - (be4 t ++ be4 mime.length ++ mime ++ be4 desc.length ++ desc ++ nums.flatMap be4).length) bs ∧
      ∀ {d u}, takeBe32s s.cfg.btPicture.toNat (s.br.pos + n.toNat) k (fun vs => pictureData s.cfg.btPicture.toNat
        n.toNat (s.br.pos + n.toNat) last t mime desc (nums ++ vs)) t' = .error (.raise d) u →
      Raises (exec (.mbPicture last n) s) d := by
  have hn := n.isLt
  have hnums : (nums.flatMap be4).length = 4 * nums.length := by
    rw [List.length_flatMap]
    simp [Nat.mul_comm]
  simp only [List.length_append, be4_length, hnums] at hl ⊢
  obtain ⟨t1, h1, hcfg, _, raise⟩ := picture_afterMime
    (bs := be4 desc.length ++ (desc ++ (nums.flatMap be4 ++ bs))) last n hs h0 hi ht hm (by omega)
    (by simpa only [List.append_assoc] using hb)
  rw [← hcfg] at hd
  obtain ⟨h2, e2⟩ := h1.lengthString s.cfg.btPicture.toNat .description (fun desc =>
    takeBe32s s.cfg.btPicture.toNat (s.br.pos + n.toNat) 5
      (pictureData s.cfg.btPicture.toNat n.toNat (s.br.pos + n.toNat) last t mime desc)) hd (by omega) (by omega)
  obtain ⟨t3, h3, _, e3⟩ := h2.be32s (type := s.cfg.btPicture.toNat) nums (k := k)
    (f := pictureData s.cfg.btPicture.toNat n.toNat (s.br.pos + n.toNat) last t mime desc) hv (by omega)
  rw [show n.toNat - (8 + mime.length) - (4 + desc.length) - 4 * nums.length =
    n.toNat - (4 + 4 + mime.length + 4 + desc.length + 4 * nums.length) by omega] at h3
  rw [hk] at e3
  exact ⟨t3, h3, fun e => raise (e2.trans (e3.trans e))⟩

/-- Settles O49: the type, the two strings and the numbers in stream order, up to the field at which the fault
stands. -/
theorem pictureBodiesAreChecked : Obligations.PictureBodiesAreChecked := by
  intro s last n t mime desc nums hs h0 hi ht32
  have hn := n.isLt
  refine ⟨fun hl => ?_, fun hover hl hb => ?_, fun ht => ⟨fun hl hover hb => ?_, fun v hv hl hover hb => ?_,
    fun hl hb => ⟨fun hbad => ?_, fun hm hover => ?_, fun v hm hv hlen hover hb' => ?_⟩, fun hm hl hb hbad => ?_,
    fun hm hd hv hl hb => ⟨fun hcount hover => ?_, fun v hcount hv32 hlen hover hb' => ?_,
      fun data hcount hlen hb' => ?_⟩⟩⟩
  · have h := inBody_start (bs := []) hs h0 n.toNat List.nil_prefix
    exact (raises_picture hs hi (bind_error (h.over_be32 hl _))).malformed
  · have h := inBody_start (bs := be4 t ++ []) hs h0 n.toNat (by rwa [List.append_nil])
    obtain ⟨r1, _⟩ := h.be32 ht32 hl s.cfg.btPicture.toNat
    have htype : ¬ t ≤ picTypeMax := Nat.not_le.2 hover
    exact raises_picture hs hi ((bind_ok r1).trans (congrFun (if_neg htype) _))
  · obtain ⟨h, raise⟩ := picture_afterType (bs := []) last n hs h0 hi ht hl (by rwa [List.append_nil])
    exact (raise (bind_error (h.over_be32 (by omega) _))).malformed
  · obtain ⟨h, raise⟩ := picture_afterType (bs := be4 v ++ []) last n hs h0 hi ht (by omega)
      (by rwa [List.append_nil])
    exact (raise (h.lengthString_over _ _ _ hv (by omega) (by omega))).malformed
  · obtain ⟨h, raise⟩ := picture_afterType (bs := be4 mime.length ++ (mime ++ [])) last n hs h0 hi ht (by omega)
      (by simpa only [List.append_assoc, List.append_nil] using hb)
    exact raise (h.lengthString_bad _ _ _ hbad (by omega) (by omega))
  · obtain ⟨t', h, _, _, raise⟩ := picture_afterMime (bs := []) last n hs h0 hi ht hm hl
      (by rwa [List.append_nil])
    exact (raise (bind_error (h.over_be32 (by omega) _))).malformed
  · obtain ⟨t', h, _, _, raise⟩ := picture_afterMime (bs := be4 v ++ []) last n hs h0 hi ht hm hl
      (by rwa [List.append_nil])
    exact (raise (h.lengthString_over _ _ _ hv (by omega) (by omega))).malformed
  · obtain ⟨t', h, hcfg, hmd, raise⟩ := picture_afterMime (bs := be4 desc.length ++ (desc ++ [])) last n hs h0 hi
      ht hm (by omega) (by simpa only [List.append_assoc, List.append_nil] using hb)
    rw [← hcfg] at hbad
    rw [← hmd]
    exact raise (h.lengthString_bad _ _ _ hbad (by omega) (by omega))
  · obtain ⟨k, hk⟩ : ∃ k, nums.length + (k + 1) = 5 := ⟨4 - nums.length, by omega⟩
    obtain ⟨t', h, raise⟩ := picture_afterNumbers (bs := []) last n (k + 1) hs h0 hi ht hm hd hv hk hl
      (by rwa [List.append_nil])
    exact (raise (bind_error (h.over_be32 (by omega) _))).malformed
  · obtain ⟨t', h, raise⟩ := picture_afterNumbers (bs := be4 v ++ []) last n 1 hs h0 hi ht hm hd hv (by omega) hl
      (by rwa [List.append_nil])
    obtain ⟨r1, h1⟩ := h.be32 hv32 (by omega) s.cfg.btPicture.toNat
    exact (raise ((bind_ok r1).trans (bind_error ((take_fifth hcount _).trans (h1.over (by omega) _))))).malformed
  · obtain ⟨t', h, raise⟩ := picture_afterNumbers (bs := be4 data.length ++ (data ++ [])) last n 1 hs h0 hi ht hm
      hd hv (by omega) hl (by simpa only [List.append_assoc, List.append_nil] using hb')
    obtain ⟨r1, h1⟩ := h.be32 (by omega) (by omega) s.cfg.btPicture.toNat
    obtain ⟨r2, h2⟩ := h1.bytes (by omega) s.cfg.btPicture.toNat
    exact (raise ((bind_ok r1).trans ((bind_ok ((take_fifth hcount _).trans r2)).trans
      (bind_error (h2.over_end (by omega) _ _))))).malformed

end Sys2Proof.Machine
end

section
/-! Proof of the statement about `Utf8Valid` (R152): the sequences of each length the table has, as the test reads
them, and how the test takes one off the front. -/

namespace Sys2Proof.Machine

open Sys2Proof

/-! ### The table's sequences, by length -/

theorem utf8Seq_one (a : Byte) : utf8Seq [a] = inRange 0x00 0x7F a := by
  simp [utf8Seq, utf8Table, inRange_eq]

theorem utf8Seq_two (a b : Byte) : utf8Seq [a, b] = (inRange 0xC2 0xDF a && inRange 0x80 0xBF b) := by
  simp [utf8Seq, utf8Table, inRange_eq]

theorem utf8Seq_three (a b c : Byte) :
    utf8Seq [a, b, c] = (inRange 0xE0 0xEF a &&
      (inRange (if inRange 0xE0 0xE0 a then 0xA0 else 0x80) (if inRange 0xED 0xED a then 0x9F else 0xBF) b &&
        inRange 0x80 0xBF c)) := by
  rw [Bool.eq_iff_iff]
  simp [utf8Seq, utf8Table, inRange_eq]
  split_ifs <;> omega

theorem utf8Seq_four (a b c d : Byte) :
    utf8Seq [a, b, c, d] = (inRange 0xF0 0xF4 a &&
      inRange (if inRange 0xF0 0xF0 a then 0x90 else 0x80) (if inRange 0xF4 0xF4 a then 0x8F else 0xBF) b &&
      inRange 0x80 0xBF c && inRange 0x80 0xBF d) := by
  rw [Bool.eq_iff_iff]
  simp [utf8Seq, utf8Table, inRange_eq]
  split_ifs <;> omega

theorem utf8Seq_length {p : List Byte} (h : utf8Seq p = true) : 1 ≤ p.length ∧ p.length ≤ 4 := by
  obtain ⟨row, hrow, hp⟩ := List.any_eq_true.1 h
  have hlen : row.length = p.length := by simpa using (Bool.and_eq_true_iff.1 hp).1
  have hrows : ∀ row ∈ utf8Table, 1 ≤ row.length ∧ row.length ≤ 4 := by decide
  exact hlen ▸ hrows row hrow

/-! ### One sequence off the front -/

theorem utf8Valid_append {p : List Byte} (h : utf8Seq p = true) (rest : List Byte) :
    utf8Valid (p ++ rest) = utf8Valid rest := by
  have hlen := utf8Seq_length h
  match p, hlen with
  | [a], _ =>
    rw [utf8Seq_one, inRange_eq, decide_eq_true_iff] at h
    exact utf8Valid_one a rest h.2
  | [a, b], _ =>
    rw [utf8Seq_two, Bool.and_eq_true, inRange_eq _ _ a, decide_eq_true_iff] at h
    obtain ⟨ha, hb⟩ := h
    rw [List.cons_append, List.cons_append, utf8Valid_two a b _ ha, hb]; rfl
  | [a, b, c], _ =>
    rw [utf8Seq_three, Bool.and_eq_true, inRange_eq _ _ a, decide_eq_true_iff] at h
    obtain ⟨ha, hbc⟩ := h
    rw [List.cons_append, List.cons_append, List.cons_append, utf8Valid_three a b c _ ha, hbc]; rfl
  | [a, b, c, d], _ =>
    rw [utf8Seq_four] at h
    have ha : 0xF0 ≤ a.toNat := by
      simp only [Bool.and_eq_true, inRange_eq _ _ a, decide_eq_true_iff] at h; omega
    rw [List.cons_append, List.cons_append, List.cons_append, List.cons_append, utf8Valid_four a b c d _ ha, h]; rfl

/-- Along the branches of `utf8Valid`: each that answers true has read a sequence of the table. -/
theorem exists_utf8Seq_prefix {a : Byte} {t : List Byte} (h : utf8Valid (a :: t) = true) :
    ∃ p rest, a :: t = p ++ rest ∧ utf8Seq p = true ∧ utf8Valid rest = true := by
  rw [utf8Valid.eq_def] at h
  dsimp only at h
  split at h
  case isTrue ha => exact ⟨[a], t, rfl, by rw [utf8Seq_one, ha], h⟩
  split at h
  case h_1 => cases h
  case h_2 b t1 =>
  split at h
  case isTrue ha =>
    obtain ⟨hb, ht⟩ := Bool.and_eq_true_iff.1 h
    exact ⟨[a, b], t1, rfl, by rw [utf8Seq_two, ha, hb]; rfl, ht⟩
  split at h
  case h_1 => cases h
  case h_2 c t2 =>
  split at h
  case isTrue ha =>
    obtain ⟨hbc, ht⟩ := Bool.and_eq_true_iff.1 h
    exact ⟨[a, b, c], t2, rfl, by rw [utf8Seq_three, ha, hbc]; rfl, ht⟩
  split at h
  case h_1 => cases h
  case h_2 d t3 =>
  obtain ⟨habcd, ht⟩ := Bool.and_eq_true_iff.1 h
  exact ⟨[a, b, c, d], t3, rfl, by rw [utf8Seq_four, habcd], ht⟩

/-! ### Whole strings -/

theorem utf8Valid_flatten {parts : List (List Byte)} (h : ∀ p ∈ parts, utf8Seq p = true) :
    utf8Valid parts.flatten = true := by
  induction parts with
  | nil => rfl
  | cons p parts ih =>
    rw [List.forall_mem_cons] at h
    rw [List.flatten_cons, utf8Valid_append h.1, ih h.2]

theorem exists_utf8Seqs (b : List Byte) (h : utf8Valid b = true) :
    ∃ parts : List (List Byte), b = parts.flatten ∧ ∀ p ∈ parts, utf8Seq p = true := by
  match b with
  | [] => exact ⟨[], rfl, nofun⟩
  | a :: t =>
    obtain ⟨p, rest, hsplit, hp, hrest⟩ := exists_utf8Seq_prefix h
    have hshorter : rest.length < (a :: t).length := by
      have := (utf8Seq_length hp).1
      rw [hsplit, List.length_append]; omega
    obtain ⟨parts, hparts, hall⟩ := exists_utf8Seqs rest hrest
    exact ⟨p :: parts, by rw [hsplit, hparts, List.flatten_cons], List.forall_mem_cons.2 ⟨hp, hall⟩⟩
termination_by b.length
decreasing_by exact hshorter

/-- Settles O50: a sequence at a time, off the front. -/
theorem utf8ValidityIsTheTable : Obligations.Utf8ValidityIsTheTable := by
  intro b
  refine ⟨exists_utf8Seqs b, ?_⟩
  rintro ⟨parts, rfl, hall⟩
  exact utf8Valid_flatten hall

end Sys2Proof.Machine
end

section
/-! SUPPORT. What the rows of the frame header and footer rest on (R192 to R200): rows that skip a count of bits,
the frame number's continuation bytes on a short source, and the block size's codes. -/

namespace Sys2Proof.Machine

open Sys2Proof

variable {s : State}

/-! ### The end of the source -/

/-- Fewer than `n` bits are left, said of the cursor and of the bits ahead (R23). -/
theorem lt_bp_add_iff (h : s.ReaderOk) (n : Nat) : 8 * s.srcLen < s.bp + n ↔ s.ahead.length < n := by
  rw [← not_le, bp_add_le_iff h, not_le]

/-- A row whose rule meets the end of the source is UnexpectedEnd (R131, R301). -/
theorem raisesCode_runUnit_end {m : M Unit} (hh : s.halted = false)
    (e : ∃ p n t, m s = .error (.raise (.unexpectedEnd p n)) t) : RaisesCode (runUnit m s) 3 := by
  obtain ⟨p, n, t, e⟩ := e
  exact ⟨_, raises_runUnit hh e, rfl⟩

/-! ### Rows that skip bits -/

/-- A row whose rule moves the reader by `n` bits where they are left, and else meets the end of the source. -/
theorem runUnit_skips {m : M Unit} {n : Nat} (hs : s.Ready) (hok : n ≤ s.ahead.length → m s = .ok () (s.skip n))
    (hend : s.ahead.length < n → ∃ p k t, m s = .error (.raise (.unexpectedEnd p k)) t) :
    (s.bp + n ≤ 8 * s.srcLen → runUnit m s = .next ((s.setBr (readerAt s.src (s.bp + n))).setRet .unit)) ∧
    (8 * s.srcLen < s.bp + n → RaisesCode (runUnit m s) 3) := by
  obtain ⟨hr, hh⟩ := hs
  exact ⟨fun hn => runUnit_ok hh (hok ((bp_add_le_iff hr n).1 hn)),
    fun hn => raisesCode_runUnit_end hh (hend ((lt_bp_add_iff hr n).1 hn))⟩

/-- A row that reads a field and discards it. -/
theorem runUnit_discard (hs : s.Ready) (n : Nat) :
    (s.bp + n ≤ 8 * s.srcLen → runUnit (readUint n >>= fun _ => pure ()) s =
      .next ((s.setBr (readerAt s.src (s.bp + n))).setRet .unit)) ∧
    (8 * s.srcLen < s.bp + n → RaisesCode (runUnit (readUint n >>= fun _ => pure ()) s) 3) := by
  refine runUnit_skips hs (fun hn => bind_ok (readUint_run hs.1 hn)) fun hn => ?_
  obtain ⟨p, t, e⟩ := readUint_end hs.1 hn
  exact ⟨p, n, t, bind_error e⟩

/-! ### The frame number -/

/-- A first byte that continuation bytes follow passes the loop's test, and the shift drops the first of its
leading 1 bits (R194, R99). -/
theorem numberCount_pass : ∀ b : Byte, 0 < numberCount b →
    0xC0 ≤ b.toNat ∧ numberCount (b <<< 1) = numberCount b - 1 := by decide +kernel

theorem numberCount_le (b : Byte) : numberCount b ≤ 8 :=
  (Nat.sub_le _ _).trans ((List.takeWhile_sublist _).length_le.trans (byteBits_length b).le)

/-- A source that ends inside the continuation bytes (R194). -/
theorem numberLoop_end (c : Nat) : ∀ {s : State} {fuel : Nat} {b : Byte} (_ : s.ReaderOk)
    (_ : numberCount b = c) (_ : c ≤ fuel) (_ : s.ahead.length < 8 * c),
    ∃ p n t, numberLoop fuel b.toNat s = .error (.raise (.unexpectedEnd p n)) t := by
  induction c with
  | zero => exact fun _ _ _ hl => absurd hl (Nat.not_lt_zero _)
  | succ c ih =>
    intro s fuel b h hc hf hl
    obtain ⟨fuel, rfl⟩ := Nat.exists_eq_succ_of_ne_zero (by omega : fuel ≠ 0)
    obtain ⟨htest, hcount⟩ := numberCount_pass b (by omega)
    have hshift : b.toNat * 2 % 256 = (b <<< 1).toNat := by
      rw [BitVec.toNat_shiftLeft, Nat.shiftLeft_eq, pow_one]
    rw [numberLoop, if_pos htest, hshift]
    refine readUint_bind_end h fun _ h8 => ih (h.skip h8) ?_ (by omega) ?_
    · rw [hcount, hc, Nat.add_sub_cancel]
    · rw [State.skip_ahead, List.length_drop]; omega

theorem numberTail_end (h : s.ReaderOk) {b : Byte} (hl : s.ahead.length < 8 * numberCount b) :
    ∃ p n t, numberTail b.toNat s = .error (.raise (.unexpectedEnd p n)) t :=
  numberLoop_end (numberCount b) h rfl (numberCount_le b) hl

/-- The row of a first byte skips the continuation bytes that follow it (R194, R99). -/
theorem exec_numberRow_skips (b : Byte) (hs : s.Ready) :
    (s.bp + 8 * numberCount b ≤ 8 * s.srcLen → exec (numberRow b.toNat) s =
      .next ((s.setBr (readerAt s.src (s.bp + 8 * numberCount b))).setRet .unit)) ∧
    (8 * s.srcLen < s.bp + 8 * numberCount b → RaisesCode (exec (numberRow b.toNat) s) 3) := by
  rw [exec_numberRow b.isLt]
  refine runUnit_skips hs (fun hn => ?_) (numberTail_end hs.1)
  obtain ⟨bs, hc, ha⟩ := exists_bytes_prefix (numberCount b) hn
  rw [numberTail_code hs.1 hc ha, hc]

/-! ### The block size -/

/-- The codes that fix the block size read nothing (R196, R115). -/
theorem blockSizeElement_fixed {c : BitVec 4} (hc : c.toNat ∉ [0, 6, 7]) (s : State) :
    blockSizeElement c s = .ok () (s.setF { s.f with n := fixedBlockSize c.toNat }) := by
  simp only [List.mem_cons, List.not_mem_nil, or_false, not_or] at hc
  obtain ⟨h0, h6, h7⟩ := hc
  rw [blockSizeElement, resolveBlockSize, if_neg h0, if_neg h6, if_neg h7]
  rfl

/-- A code with a field of `n` bits, on a source that ends first (R196). -/
theorem blockSizeElement_end (h : s.ReaderOk) {c : BitVec 4} {n : Nat}
    (hc : resolveBlockSize c = readUint n >>= fun v => pure (v + 1)) (hl : s.ahead.length < n) :
    ∃ p k t, blockSizeElement c s = .error (.raise (.unexpectedEnd p k)) t := by
  obtain ⟨p, t, e⟩ := readUint_end h hl
  exact ⟨p, n, t, by rw [blockSizeElement, hc, bind_error (bind_error e)]⟩

end Sys2Proof.Machine
end

section
/-! Proofs of the statements about the frame header and footer (spec/42_frame.md). -/

namespace Sys2Proof.Machine

open Sys2Proof

/-- Settles O18: the word is that of a frame with these codes; a short source ends in the sync code or after it. -/
theorem frameWordIsLatched : Obligations.FrameWordIsLatched := by
  refine ⟨fun s r1 bstrat r2 bsc src ca ssc ⟨hr, hh⟩ ha => ?_, fun s v ⟨hr, hh⟩ hv hne ha => ?_,
    fun s ⟨hr, hh⟩ hn => ?_, fun s ⟨hr, hh⟩ ha hn => ?_⟩
  · exact runUnit_ok hh (frameSync_code hr (f := ⟨r1, bstrat, bsc, src, ca, ssc, r2, 0, [], 0, 0, 0, [], [], 0⟩) ha)
  · exact raises_runUnit hh (frameSync_bad hr hv hne ha)
  · obtain ⟨p, t, e⟩ := readUint_end hr ((lt_bp_add_iff hr 14).1 hn)
    exact raisesCode_runUnit_end hh ⟨p, 14, t, bind_error e⟩
  · exact raisesCode_runUnit_end hh (frameSync_short hr ha ((lt_bp_add_iff hr 32).1 hn))

/-- Settles O19: the codes with a fixed size, codes 6 and 7 with a field, and code 0. -/
theorem blockSizeOfEveryCode : Obligations.BlockSizeOfEveryCode := by
  have fixed : ∀ {c : BitVec 4}, c.toNat ∉ [0, 6, 7] → ∀ s : State, s.halted = false → runUnit (blockSizeElement c) s =
      .next ((s.setF { s.f with n := fixedBlockSize c.toNat }).setRet .unit) := fun hc s hh =>
    runUnit_ok hh (blockSizeElement_fixed hc s)
  have short : ∀ {c : BitVec 4} {n : Nat}, resolveBlockSize c = (readUint n >>= fun v => pure (v + 1)) →
      ∀ {s : State}, s.Ready → 8 * s.srcLen < s.bp + n → RaisesCode (runUnit (blockSizeElement c) s) 3 :=
    fun hc s ⟨hr, hh⟩ hn =>
      raisesCode_runUnit_end hh (blockSizeElement_end hr hc ((lt_bp_add_iff hr _).1 hn))
  simp only [Obligations.BlockSizeOfEveryCode, List.forall_mem_cons]
  refine ⟨⟨fixed (c := 1) (by decide), fixed (c := 2) (by decide), fixed (c := 3) (by decide),
    fixed (c := 4) (by decide), fixed (c := 5) (by decide), fixed (c := 8) (by decide), fixed (c := 9) (by decide),
    fixed (c := 10) (by decide), fixed (c := 11) (by decide), fixed (c := 12) (by decide),
    fixed (c := 13) (by decide), fixed (c := 14) (by decide), fixed (c := 15) (by decide), nofun⟩,
    ⟨fun s hs => ⟨fun x hx ha => ?_, short (c := 6) rfl hs⟩, fun s hs => ⟨fun x hx ha => ?_, short (c := 7) rfl hs⟩, nofun⟩,
    fun s hh => raises_runUnit hh rfl⟩
  · exact runUnit_ok hs.2 (blockSizeElement_code hs.1 (c := 6) (by decide) hx ha)
  · exact runUnit_ok hs.2 (blockSizeElement_code hs.1 (c := 7) (by decide) hx ha)

/-- Settles O20: every code reads and discards the field of its width, which is empty but for three codes. -/
theorem sampleRateCodesSkip : Obligations.SampleRateCodesSkip := by
  have nothing : ∀ {c : BitVec 4}, sampleRateBits c.toNat = 0 → ∀ s : State, s.Ready →
      runUnit (skipSampleRate c) s = .next (s.setRet .unit) := by
    intro c hc s ⟨hr, hh⟩
    have e : skipSampleRate c s = .ok () (s.skip 0) := by
      rw [skipSampleRate, hc, bind_ok (readUint_run hr (Nat.zero_le _))]; rfl
    rw [runUnit_ok hh e, State.skip_zero hr]
  simp only [Obligations.SampleRateCodesSkip, List.forall_mem_cons]
  exact ⟨⟨nothing (c := 0) rfl, nothing (c := 1) rfl, nothing (c := 2) rfl, nothing (c := 3) rfl,
    nothing (c := 4) rfl, nothing (c := 5) rfl, nothing (c := 6) rfl, nothing (c := 7) rfl, nothing (c := 8) rfl,
    nothing (c := 9) rfl, nothing (c := 10) rfl, nothing (c := 11) rfl, nothing (c := 15) rfl, nofun⟩,
    fun _ hs => runUnit_discard hs 8, fun _ hs => runUnit_discard hs 16, fun _ hs => runUnit_discard hs 16, nofun⟩

/-- Settles O21: each row is that of a first byte, its leading 1 bits, a 0 bit and the operand (R99), and the loop
makes a pass for each leading 1 bit but one. -/
theorem frameNumberLength : Obligations.FrameNumberLength := by
  intro s i c hs hi
  have firstByte : ∃ b : Byte, numberRow b.toNat = i ∧ numberCount b = c := by
    rcases hi with ⟨x, rfl, rfl⟩ | ⟨x, rfl, rfl⟩ | ⟨x, rfl, rfl⟩ | ⟨x, rfl, rfl⟩ | ⟨x, rfl, rfl⟩ | ⟨x, rfl, rfl⟩ |
      ⟨x, rfl, rfl⟩ | ⟨rfl, rfl⟩ | ⟨rfl, rfl⟩
    · exact ⟨0b0#1 ++ x, by decide +revert⟩
    · exact ⟨0b10#2 ++ x, by decide +revert⟩
    · exact ⟨0b110#3 ++ x, by decide +revert⟩
    · exact ⟨0b1110#4 ++ x, by decide +revert⟩
    · exact ⟨0b11110#5 ++ x, by decide +revert⟩
    · exact ⟨0b111110#6 ++ x, by decide +revert⟩
    · exact ⟨0b1111110#7 ++ x, by decide +revert⟩
    · exact ⟨0xFE#8, rfl, rfl⟩
    · exact ⟨0xFF#8, rfl, rfl⟩
  obtain ⟨b, rfl, rfl⟩ := firstByte
  exact exec_numberRow_skips b hs

/-- Settles O23: a field of 8 bits; and one of 16 bits, which are two bytes once the reader is aligned. -/
theorem checksumsAreSkipped : Obligations.ChecksumsAreSkipped := by
  intro s hs
  obtain ⟨hcrc, hcrcEnd⟩ := runUnit_discard hs 8
  obtain ⟨hr, hh⟩ := hs
  have hfooter : frameFooter s = (readUint 16 >>= fun _ => pure ()) s.dropBits := rfl
  have hd : s.dropBits.ReaderOk := by rw [dropBits_skip hr]; exact hr.skip (bpAligned_le hr)
  refine ⟨hcrc, hcrcEnd, fun hn => ?_, fun hn => ?_⟩
  · have hread : readUint 16 s.dropBits = _ := readUint_aligned hd rfl hn
    exact runUnit_ok hh (hfooter.trans (bind_ok hread))
  · have hlt : 8 * s.dropBits.srcLen < s.dropBits.bp + 16 := by
      rw [bp_of_nbits_zero rfl]
      change 8 * s.srcLen < 8 * s.br.pos + 16
      omega
    obtain ⟨p, t, e⟩ := readUint_end hd ((lt_bp_add_iff hd 16).1 hlt)
    exact raisesCode_runUnit_end hh ⟨p, 16, t, hfooter.trans (bind_error e)⟩

end Sys2Proof.Machine
end

section
/-! SUPPORT. What a channel row leaves: the assignments of R220 to R224 as one rule, and decorrelated channels
index by index (R226). -/

namespace Sys2Proof.Machine

open Sys2Proof

/-! ### The rows -/

section Rows

variable {s : State} {i : Instr} {ca : BitVec 4}

/-- The row of a valid code leaves the state of the frame's channels, at the depth `SI.bps` (R220 to R224, R228). -/
theorem exec_assignment {fs : List Subframe} (hs : s.Ready) (hv : s.si.valid = true)
    (hrow : exec i s = runUnit (withFrame (decodeChannels ca)) s) (hca : ca.toNat ≤ 10)
    (hok : subframesOk s.f.n (depths ca.toNat s.si.bps) fs = true)
    (ha : subframesBits (depths ca.toNat s.si.bps) fs <+: s.ahead) :
    exec i s = .next ((s.withChannels s.f.n ca.toNat s.si.bps fs).setRet .unit) := by
  obtain ⟨hr, hh⟩ := hs
  have hbody : withFrame (decodeChannels ca) s = decodeChannels ca s.f.n s.si.bps s := by
    rw [withFrame, bind_ok (show readBps s = .ok s.si.bps s from if_pos hv), reads_bind_run]
  rw [hrow, runUnit_ok hh (hbody.trans (decodeChannels_code hr hca hok ha))]

/-- The row of an independent code (R220). -/
theorem exec_independent (hrow : ∀ s, exec i s = runUnit (withFrame (decodeChannels ca)) s) (hca : ca.toNat ≤ 7)
    (s : State) (fs : List Subframe) (hs : s.Ready) (hv : s.si.valid = true) (hl : fs.length = ca.toNat + 1)
    (hok : subframesOk s.f.n (List.replicate (ca.toNat + 1) s.si.bps) fs = true)
    (ha : subframesBits (List.replicate (ca.toNat + 1) s.si.bps) fs <+: s.ahead) :
    exec i s = .next ((((((s.skip (subframesBits (List.replicate (ca.toNat + 1) s.si.bps) fs).length).setF
      { s.f with nch := ca.toNat + 1 }).setSub
      (subframesRegs s.cfg.fixedCoef s.f.n (List.replicate (ca.toNat + 1) s.si.bps) fs s.sub)).setRs
      (subframesRes fs s.rs)).setCh (fs.map (Subframe.samples s.cfg.fixedCoef s.f.n))).setRet .unit) := by
  have hd : depths ca.toNat s.si.bps = List.replicate (ca.toNat + 1) s.si.bps := depths_indep hca
  rw [exec_assignment hs hv (hrow s) (hca.trans (by decide)) (hd ▸ hok) (hd ▸ ha), State.withChannels, channelsOf,
    outputs_indep hca, hd, hl]

/-- The row of a code with two subframes, at depths `d1` and `d2` (R221 to R224). -/
theorem exec_pair {d1 d2 : Nat} {f1 f2 : Subframe} (hs : s.Ready) (hv : s.si.valid = true)
    (hrow : exec i s = runUnit (withFrame (decodeChannels ca)) s) (hca : ca.toNat ≤ 10)
    (hd : depths ca.toNat s.si.bps = [d1, d2]) (h1 : f1.ok s.f.n d1 = true) (h2 : f2.ok s.f.n d2 = true)
    (ha : f1.bits d1 ++ f2.bits d2 <+: s.ahead) :
    exec i s = .next ((((((s.skip (f1.bits d1 ++ f2.bits d2).length).setF { s.f with nch := 2 }).setSub
      (f2.regs s.cfg.fixedCoef s.f.n d2 (f1.regs s.cfg.fixedCoef s.f.n d1 s.sub))).setRs
      (f2.resRegs (f1.resRegs s.rs))).setCh
      (outputs ca.toNat [f1.samples s.cfg.fixedCoef s.f.n, f2.samples s.cfg.fixedCoef s.f.n])).setRet .unit) := by
  have hbits : subframesBits [d1, d2] [f1, f2] = f1.bits d1 ++ f2.bits d2 := by simp [subframesBits]
  have hok : subframesOk s.f.n [d1, d2] [f1, f2] = true := by simp [subframesOk, h1, h2]
  rw [exec_assignment hs hv hrow hca (hd ▸ hok) (by rwa [hd, hbits]), State.withChannels, hd, hbits]
  rfl

end Rows

/-! ### Decorrelated channels (R226) -/

theorem getD_zipWith {n k : Nat} {x y : List Int} (hx : x.length = n) (hy : y.length = n) (hk : k < n)
    (f : Int → Int → Int) : (List.zipWith f x y).getD k 0 = f (x.getD k 0) (y.getD k 0) := by
  subst hx
  simp [hk, hy]

/-- The two channels of R224 differ by the side sample. -/
theorem midSide_difference (m d : Int) : (2 * m + d % 2 + d) / 2 - (2 * m + d % 2 - d) / 2 = d := by omega

/-- The two channels of R224 add up to the combined value: both halved sums are even. -/
theorem midSide_sum (m d : Int) : (2 * m + d % 2 + d) / 2 + (2 * m + d % 2 - d) / 2 = 2 * m + d % 2 := by omega

end Sys2Proof.Machine
end

section
/-! Proofs of the statements about channel assignment and decorrelation (spec/43_decorrelation.md). -/

namespace Sys2Proof.Machine

open Sys2Proof

/-- Settles O24: each of the eight rows is the independent assignment of its code. -/
theorem independentChannels : Obligations.IndependentChannels := by
  simp only [Obligations.IndependentChannels, List.forall_mem_cons]
  exact ⟨exec_independent (ca := 0) (fun _ => rfl) (by decide),
    exec_independent (ca := 1) (fun _ => rfl) (by decide),
    exec_independent (ca := 2) (fun _ => rfl) (by decide),
    exec_independent (ca := 3) (fun _ => rfl) (by decide),
    exec_independent (ca := 4) (fun _ => rfl) (by decide),
    exec_independent (ca := 5) (fun _ => rfl) (by decide),
    exec_independent (ca := 6) (fun _ => rfl) (by decide),
    exec_independent (ca := 7) (fun _ => rfl) (by decide), nofun⟩

/-- Settles O25: the pair of code 8. -/
theorem leftSideChannels : Obligations.LeftSideChannels := fun _ _ _ hs hv hl hd ha =>
  exec_pair (ca := 8) hs hv rfl (by decide) rfl hl hd ha

/-- Settles O26: the pair of code 9. -/
theorem rightSideChannels : Obligations.RightSideChannels := fun _ _ _ hs hv hd hr ha =>
  exec_pair (ca := 9) hs hv rfl (by decide) rfl hd hr ha

/-- Settles O27: the pair of code 10. -/
theorem midSideChannels : Obligations.MidSideChannels := fun _ _ _ hs hv hm hd ha =>
  exec_pair (ca := 10) hs hv rfl (by decide) rfl hm hd ha

/-- Settles O28: index by index, the channels of O25 to O27 are the two formulas of their mode. -/
theorem stereoIdentities : Obligations.StereoIdentities := by
  intro s x d hs hv hx hd
  have lx := Subframe.samples_length s.cfg.fixedCoef hx
  have ld := Subframe.samples_length s.cfg.fixedCoef hd
  simp only [List.forall_mem_cons]
  refine ⟨fun ha => ?_, fun ha => ?_, fun ha => ?_, nofun⟩
  · refine ⟨_, _, _, leftSideChannels s x d hs hv hx hd ha, rfl, lx, by simp [lx, ld], fun k hk => ?_, nofun⟩
    rw [getD_zipWith lx ld hk, sub_sub_cancel]
  · refine ⟨_, _, _, rightSideChannels s d x hs hv hd hx ha, rfl, by simp [lx, ld], lx, fun k hk => ?_, nofun⟩
    rw [getD_zipWith ld lx hk, add_sub_cancel_right]
  · refine ⟨_, _, _, midSideChannels s x d hs hv hx hd ha, rfl, by simp [lx, ld], by simp [lx, ld],
      fun k hk => ?_, fun _ k hk => ?_⟩
    · rw [getD_zipWith lx ld hk, getD_zipWith lx ld hk, midSide_difference]
    · rw [getD_zipWith lx ld hk, getD_zipWith lx ld hk, midSide_sum]

/-- Settles O29: each of the five rows only raises. -/
theorem invalidChannelCodesFault : Obligations.InvalidChannelCodesFault := by
  intro s hh
  simp only [List.forall_mem_cons]
  exact ⟨raises_runUnit hh rfl, raises_runUnit hh rfl, raises_runUnit hh rfl, raises_runUnit hh rfl,
    raises_runUnit hh rfl, nofun⟩

end Sys2Proof.Machine
end

section
/-! SUPPORT. What a subframe row leaves or raises (R235 to R250): the row on the bits of its subframe, the faults of
its depth test and of its body, a run of wasted bits that meets the source's end, and the one buffer of R244. -/

namespace Sys2Proof.Machine

open Sys2Proof

variable {s : State} {i : Instr} {type : BitVec 6} {order : Nat} {body : Nat → M (List Int)} {d : DecodeFault}

/-! ### Wasted bits -/

@[simp] theorem wastedBits_length (w : Nat) : (wastedBits w).length = w + 1 := by simp [wastedBits]

/-- READ_WASTED on a run that meets the end of the source (R237). -/
theorem readWasted_end (h : s.ReaderOk) {w : Nat} (ha : s.ahead = List.replicate w true) :
    ∃ p n t, readWasted s = .error (.raise (.unexpectedEnd p n)) t := by
  cases w with
  | zero =>
    obtain ⟨p, t, e⟩ := readUint_end h (n := 1) (by simp [ha])
    exact ⟨p, 1, t, bind_error e⟩
  | succ w =>
    have hflag : [true] <+: s.ahead := ⟨_, ha.symm⟩
    have hrest : (s.skip 1).ahead = List.replicate w true := by rw [State.skip_ahead, ha]; rfl
    obtain ⟨p, t, e⟩ := unaryRun_end true w (fuel := (s.skip 1).bitsLeft + 1) (h.after hflag) hrest
    exact ⟨p, 1, t, (bind_ok (readUint_bit h hflag)).trans (bind_error (m := unaryRun 1 _) e)⟩

/-! ### Faults -/

/-- Every subframe row but READ_WASTED and PREDICT is DECODE_SUBFRAME from the wasted bits on (R235). -/
theorem exec_subframe (ho : owner i = .subframe) (hw : i ≠ .readWasted)
    (hp : ∀ n o a b c e, i ≠ .predict n o a b c e) (s : State) :
    ∃ type order body, exec i s = runUnit (subframeElement type order body) s := by
  cases i with
  | sfConstant | sfVerbatim | sfFixed0 | sfFixed1 | sfFixed2 | sfFixed3 | sfFixed4 | sfLpc | sfUnsupported2
  | sfUnsupported4 | sfUnsupported13 | sfUnsupported14 | sfUnsupported16 => exact ⟨_, _, _, rfl⟩
  | readWasted => exact absurd rfl hw
  | predict => exact (hp _ _ _ _ _ _ rfl).elim
  | _ => cases ho

/-- A count of the declared depth or more, whatever the type (R238). -/
theorem raises_invalidWastedBits (hs : s.Ready) {w : Nat} (hw : s.sub.d ≤ w) (ha : wastedBits w <+: s.ahead) :
    Raises (runUnit (subframeElement type order body) s) (.invalidWastedBits s.sub.d w) := by
  obtain ⟨hr, hh⟩ := hs
  obtain ⟨t, e⟩ := effectiveDepth_bad (s := s.setSub { s.sub with type := type, order := order })
    (by simpa using hr) hw (by simpa using ha)
  exact raises_runUnit hh ((bind_ok (setType_run s type order)).trans (bind_error e))

/-- With a count below the declared depth, a fault of the body is the row's (R235). -/
theorem raises_subframeBody (hs : s.Ready) {w : Nat} (hw : w < s.sub.d) (ha : wastedBits w <+: s.ahead)
    (hbody : ∀ t : State, t.ReaderOk → t.ahead = (s.skip (wastedBits w).length).ahead →
      ∃ u, body (s.sub.d - w) t = .error (.raise d) u) :
    Raises (runUnit (subframeElement type order body) s) d := by
  obtain ⟨hr, hh⟩ := hs
  have hdepth := effectiveDepth_code (s := s.setSub { s.sub with type := type, order := order })
    (by simpa using hr) hw (by simpa using ha)
  obtain ⟨u, e⟩ := hbody ((s.skip (wastedBits w).length).setSub { s.sub with
    type := type, order := order, w := w, e := (s.sub.d : Int) - w }) (by simpa using hr.after ha) (by simp)
  exact raises_runUnit hh ((bind_ok (setType_run s type order)).trans ((bind_ok hdepth).trans (bind_error e)))

/-- A row of an unsupported type (R249). -/
theorem raises_unsupportedElement (hs : s.Ready) {w t : Nat} (ht : t < 64) (hw : w < s.sub.d)
    (ha : wastedBits w <+: s.ahead) : Raises (runUnit (unsupportedElement t) s) (.unsupportedSubframeType t) := by
  have htype : (BitVec.ofNat 6 t).toNat = t := by rw [BitVec.toNat_ofNat, Nat.mod_eq_of_lt ht]
  refine raises_subframeBody hs hw ha fun u _ _ => ⟨u, ?_⟩
  rw [sfUnsupported, raise_run, htype]

/-- A negative shift ends SF_LPC before any coefficient is read (R247). -/
theorem sfLpc_negativeShift (h : s.ReaderOk) {n e prec : Nat} {shift : Int} {warm : List Int}
    (hwarm : warm.all (fitsInt e) = true) (hprec : prec ≤ 16) (hmin : -16 ≤ shift) (hneg : shift < 0)
    (ha : warm.flatMap (intBits e) ++ natBits 4 (prec - 1) ++ intBits 5 shift <+: s.ahead) :
    ∃ t, sfLpc n e warm.length s = .error (.raise (.invalidLpcShift shift)) t := by
  simp only [ahead_append, List.length_append, natBits_length, ← State.skip_skip] at ha
  obtain ⟨⟨ha1, ha2⟩, ha3⟩ := ha
  have h1 := h.after ha1
  have h2 := h1.after ha2
  rw [natBits_length] at h2
  have hshift : fitsInt 5 shift = true := by simp [fitsInt]; omega
  rw [sfLpc, bind_ok (readSints_fields h hwarm ha1), bind_ok (readUint_field h1 (by omega) ha2),
    bind_ok (readSint_field h2 hshift ha3), bind_ok (setLpcParams_run _ _ _), if_pos hneg]
  exact ⟨_, raise_run _ _⟩

/-! ### Rows that complete -/

/-- The row of a subframe leaves the state of its registers, the reader after its bits (R235, R250). -/
theorem exec_subframe_code {f : Subframe} (hs : s.Ready)
    (hrow : exec i s = runUnit (subframeElement (BitVec.ofNat 6 f.body.type) f.body.order
      (fun e => f.body.rule s.f.n e)) s)
    (hok : f.ok s.f.n s.sub.d = true) (ha : f.tailBits s.sub.d <+: s.ahead) :
    exec i s = .next ((((s.skip (f.tailBits s.sub.d).length).setSub
      (f.regs s.cfg.fixedCoef s.f.n s.sub.d s.sub)).setRs (f.resRegs s.rs)).setRet .unit) := by
  obtain ⟨hr, hh⟩ := hs
  rw [hrow, runUnit_ok hh (subframeElement_code hr hok ha)]

/-- A row of SF.FIXED (R242, R243). -/
theorem exec_fixed (ho : order ≤ 4)
    (hrow : ∀ s, exec i s = runUnit (subframeElement (BitVec.ofNat 6 (8 + order)) order (sfFixed s.f.n · order)) s)
    (s : State) (w : Nat) (warm : List Int) (res : Residual) (hs : s.Ready) (hw : w < s.sub.d)
    (hl : warm.length = order) (hwarm : warm.all (fitsInt (s.sub.d - w)) = true) (hres : res.ok s.f.n order = true)
    (ha : wastedBits w ++ warm.flatMap (intBits (s.sub.d - w)) ++ res.bits <+: s.ahead) :
    ∃ buf, Predicts s.f.n order warm (coefRow s.cfg.fixedCoef order) 0 res.values buf ∧
      exec i s = .next ((((s.setBr (readerAt s.src (s.bp + (wastedBits w ++
        warm.flatMap (intBits (s.sub.d - w)) ++ res.bits).length))).setSub
        { s.sub with type := BitVec.ofNat 6 (8 + order), w := w, e := (s.sub.d : Int) - w,
                     order := order, buf := buf.map (· * ((2 ^ w : Nat) : Int)) }).setRs res.regs).setRet .unit) := by
  subst hl
  have hok : Subframe.ok s.f.n s.sub.d ⟨false, w, .fixed warm res⟩ = true := by
    simp only [Subframe.ok, Body.ok, hw, ho, hwarm, hres, decide_true, Bool.and_self]
  have e := exec_subframe_code (f := ⟨false, w, .fixed warm res⟩) hs (hrow s) hok
    (by simpa [Subframe.tailBits, Body.bits] using ha)
  refine ⟨_, reconstruct_predicts rfl (coefRow_length _ ho) (Residual.values_length hres), ?_⟩
  rw [List.append_assoc]
  exact e

/-! ### Prediction -/

/-- Two buffers that follow R244's recurrence from the same warm-up agree at every index. -/
theorem Predicts.getD_eq {n o shift : Nat} {warm coef res x y : List Int}
    (hx : Predicts n o warm coef shift res x) (hy : Predicts n o warm coef shift res y) (k : Nat) (hk : k < n) :
    x.getD k 0 = y.getD k 0 := by
  obtain ⟨_, xwarm, xrec⟩ := hx
  obtain ⟨_, ywarm, yrec⟩ := hy
  induction k using Nat.strong_induction_on with
  | _ k ih =>
    rcases Nat.lt_or_ge k o with hlt | hge
    · rw [xwarm k hlt, ywarm k hlt]
    · have hsum : ∀ j ∈ List.range o,
          coef.getD j 0 * x.getD (k - 1 - j) 0 = coef.getD j 0 * y.getD (k - 1 - j) 0 := by
        intro j hj
        rw [List.mem_range] at hj
        rw [ih (k - 1 - j) (by omega) (by omega)]
      rw [xrec k hge hk, yrec k hge hk, List.map_congr_left hsum]

/-- The recurrence of R244 has one solution. -/
theorem Predicts.unique {n o shift : Nat} {warm coef res x y : List Int}
    (hx : Predicts n o warm coef shift res x) (hy : Predicts n o warm coef shift res y) : x = y := by
  refine List.ext_getElem (hx.1.trans hy.1.symm) fun k hkx hky => ?_
  have := hx.getD_eq hy k (hx.1 ▸ hkx)
  rwa [List.getD_eq_getElem _ _ hkx, List.getD_eq_getElem _ _ hky] at this

end Sys2Proof.Machine
end

section
/-! Proofs of the statements about the subframe rows (spec/44_subframe.md). -/

namespace Sys2Proof.Machine

open Sys2Proof

/-- Settles O30: a run with its zero bit, and one that meets the end of the source. -/
theorem wastedBitsAreCounted : Obligations.WastedBitsAreCounted := by
  refine fun s w ⟨hr, hh⟩ => ⟨fun ha => run_ok hh (bind_ok (readWasted_code hr ha)), fun ha => ?_⟩
  obtain ⟨p, n, t, e⟩ := readWasted_end hr ha
  exact raisesCode_run hh (bind_error e)

/-- Settles O31: the row on a CONSTANT subframe. -/
theorem constantSubframe : Obligations.ConstantSubframe := by
  intro s w v hs hw hv ha
  have e := exec_subframe_code (i := .sfConstant) (f := ⟨false, w, .constant v⟩) hs rfl
    (by simp [Subframe.ok, Body.ok, hw, hv]) ha
  have hbits : (wastedBits w ++ intBits (s.sub.d - w) v).length = w + 1 + (s.sub.d - w) := by
    rw [List.length_append, wastedBits_length, intBits_length]
  rw [← hbits, ← List.map_replicate (f := (· * ((2 ^ w : Nat) : Int)))]
  exact e

/-- Settles O32: the row on a VERBATIM subframe. -/
theorem verbatimSubframe : Obligations.VerbatimSubframe := by
  intro s w xs hs hw hl hxs ha
  have e := exec_subframe_code (i := .sfVerbatim) (f := ⟨false, w, .verbatim xs⟩) hs rfl
    (by simp only [Subframe.ok, Body.ok, hw, hl, hxs, decide_true, beq_self_eq_true, Bool.and_self]) ha
  have hbits : (wastedBits w ++ xs.flatMap (intBits (s.sub.d - w))).length = w + 1 + s.f.n * (s.sub.d - w) := by
    simp [hl]
  rw [← hbits]
  exact e

/-- Settles O33: the default table by evaluation, and each of the five rows on a FIXED subframe of its order. -/
theorem fixedSubframe : Obligations.FixedSubframe := by
  refine ⟨rfl, ?_⟩
  simp only [List.forall_mem_cons]
  exact ⟨exec_fixed (by decide) fun _ => rfl, exec_fixed (by decide) fun _ => rfl,
    exec_fixed (by decide) fun _ => rfl, exec_fixed (by decide) fun _ => rfl,
    exec_fixed (by decide) fun _ => rfl, nofun⟩

/-- Settles O34: the row on an LPC subframe of its order. -/
theorem lpcSubframe : Obligations.LpcSubframe := by
  intro x s w prec shift warm coef res hs hw hl hwarm hp1 hp16 hsh hc hcoef hres ha
  have hx := x.isLt
  have hok : Subframe.ok s.f.n s.sub.d ⟨false, w, .lpc warm prec shift coef res⟩ = true := by
    simp only [Subframe.ok, Body.ok, Bool.and_eq_true, decide_eq_true_eq, beq_iff_eq]
    rw [hl]
    exact ⟨hw, ⟨⟨⟨⟨⟨⟨⟨by omega, by omega⟩, hwarm⟩, hp1⟩, hp16⟩, hsh⟩, hc⟩, hcoef⟩, hres⟩
  have htype : Body.type (.lpc warm prec shift coef res) = 32 + x.toNat := by rw [Body.type, hl]; omega
  have horder : Body.order (.lpc warm prec shift coef res) = x.toNat + 1 := hl
  have hbits : Subframe.tailBits s.sub.d ⟨false, w, .lpc warm prec shift coef res⟩ = wastedBits w ++
      warm.flatMap (intBits (s.sub.d - w)) ++ natBits 4 (prec - 1) ++ intBits 5 shift ++
      coef.flatMap (intBits prec) ++ res.bits := by simp [Subframe.tailBits, Body.bits]
  have e := exec_subframe_code (i := .sfLpc x) hs (by simp only [htype, horder, Body.rule, hl]; rfl) hok
    (by rwa [hbits])
  refine ⟨_, reconstruct_predicts hl hc (Residual.values_length hres), ?_⟩
  rw [e, hbits, Subframe.regs_eq, htype, horder]
  rfl

/-- Settles O35: the depth test of any row, the body of an unsupported one, and SF_LPC's test of its shift. -/
theorem subframeFaultsInOrder : Obligations.SubframeFaultsInOrder := by
  refine ⟨fun s w i hs ho hrw hp hw ha => ?_, fun s w t i hs hi hw ha => ?_,
    fun x s w prec shift warm hs hw hl hwarm _ hp16 hmin hneg ha => ?_⟩
  · obtain ⟨type, order, body, e⟩ := exec_subframe ho hrw hp s
    rw [e]
    exact raises_invalidWastedBits hs hw ha
  · rcases hi with ⟨x, rfl, rfl⟩ | ⟨x, rfl, rfl⟩ | ⟨rfl, rfl⟩ | ⟨x, rfl, rfl⟩ | ⟨x, rfl, rfl⟩ <;>
      exact raises_unsupportedElement hs (by omega) hw ha
  · rw [List.append_assoc, List.append_assoc, ahead_append, ← List.append_assoc] at ha
    refine raises_subframeBody hs hw ha.1 fun t ht hahead => ?_
    rw [← hl]
    exact sfLpc_negativeShift ht hwarm hp16 hmin hneg (by rw [hahead]; exact ha.2)

/-- Settles O36: what PREDICT builds follows the recurrence, which has one solution. -/
theorem predictFollowsTheRecurrence : Obligations.PredictFollowsTheRecurrence := by
  intro n o shift warm coef res s hh hw hc hn
  have hbuf := reconstruct_predicts (shift := shift) hw hc hn
  refine ⟨_, ?_, hbuf, fun buf' h => h.unique hbuf⟩
  have e : execPredict n o warm coef shift res s = _ := run_ok hh (bind_ok (setBuf_run s _))
  rw [List.take_of_length_le hw.le, List.take_of_length_le hc.le, List.take_of_length_le (by omega)] at e
  exact e

end Sys2Proof.Machine
end

section
/-! SUPPORT. What the residual rows rest on: the methods that are no coding method (R266), a block size that is
no multiple of `2^p` (R267), an explicit parameter (R269), and a first partition shorter than the predictor order, in
DECODE_RESIDUAL and in the two bodies that run it (R268, R242, R245). -/

namespace Sys2Proof.Machine

open Sys2Proof

variable {s : State} {n o p e : Nat} {warm : List Int} {d : DecodeFault}

/-- The methods above 1 are latched, then refused (R266). -/
theorem methodElement_invalid {m : BitVec 2} (hm : 2 ≤ m.toNat) (s : State) :
    methodElement m s = .error (.raise (.invalidCodingMethod m.toNat)) (s.setRs { s.rs with method := m }) := by
  have hk : methodKind m = .invalid := by rw [methodKind, if_neg (by omega), if_neg (by omega)]
  rw [methodElement, hk]
  rfl

/-- A block size that is no multiple of `2^p` (R267). -/
theorem partitionOrder_mismatch (h : s.ReaderOk) (hp : p < 16) (hn : n % 2 ^ p ≠ 0)
    (ha : natBits 4 p <+: s.ahead) :
    partitionOrder n o s = .error (.raise (.partitionMismatch n p o))
      ((s.skip 4).setRs { s.rs with p := BitVec.ofNat 4 p }) := by
  rw [partitionOrder, bind_ok (readUint_field h hp ha)]
  simp [hn]

/-- An explicit parameter, whatever it is (R269). -/
theorem escapeParam_code {k : Nat} (h : s.ReaderOk) (hk : k < 2 ^ 5) (ha : natBits 5 k <+: s.ahead) :
    escapeParam s = .ok () ((s.skip 5).setRs { s.rs with k := k }) := by
  rw [escapeParam, bind_ok (readUint_field h hk ha), latchParam_run, State.skip_rs]

/-- Both escape rows, on a field of 5 bits and on a source too short for one (R269). -/
theorem runUnit_escapeParam (hs : s.Ready) :
    (∀ k, k < 2 ^ 5 → natBits 5 k <+: s.ahead → runUnit escapeParam s =
      .next (((s.setBr (readerAt s.src (s.bp + 5))).setRs { s.rs with k := k }).setRet .unit)) ∧
    (8 * s.srcLen < s.bp + 5 → RaisesCode (runUnit escapeParam s) 3) := by
  obtain ⟨hr, hh⟩ := hs
  refine ⟨fun k hk ha => runUnit_ok hh (escapeParam_code hr hk ha), fun hlt => ?_⟩
  obtain ⟨p, t, e⟩ := readUint_end hr ((lt_bp_add_iff hr 5).1 hlt)
  exact raisesCode_runUnit_end hh ⟨p, 5, t, bind_error e⟩

/-- A first partition shorter than the predictor order ends DECODE_RESIDUAL before any parameter is read
(R268, R312). -/
theorem decodeResidual_shortPartition (h : s.ReaderOk) {wide : Bool} (hp : p < 16) (hn : n % 2 ^ p = 0)
    (ho : n / 2 ^ p < o) (ha : natBits 2 wide.toNat ++ natBits 4 p <+: s.ahead) :
    ∃ t, decodeResidual n o s = .error (.raise (.partitionMismatch n p o)) t := by
  rw [ahead_append, natBits_length] at ha
  obtain ⟨hmethod, horder⟩ := ha
  have h2 : (s.skip 2).ReaderOk := by simpa using h.after hmethod
  have hpn : (BitVec.ofNat 4 p).toNat = p := by rw [BitVec.toNat_ofNat, Nat.mod_eq_of_lt hp]
  rw [decodeResidual, bind_ok (residualMethod_code h hmethod),
    bind_ok (partitionOrder_code (by simpa using h2) hp hn (by simpa using horder)), reads_bind_run,
    State.setRs_rs, hpn, bind_ok (setResiduals_run _ _), partition, if_neg (not_le.2 ho)]
  exact ⟨_, raise_bind_run _ _ _⟩

/-- A fault of the residual ends SF_FIXED (R242). -/
theorem sfFixed_residualFault (h : s.ReaderOk) {bits : List Bool} (hwarm : warm.all (fitsInt e) = true)
    (ha : warm.flatMap (intBits e) ++ bits <+: s.ahead)
    (hres : ∀ t : State, t.ReaderOk → bits <+: t.ahead →
      ∃ u, decodeResidual n warm.length t = .error (.raise d) u) :
    ∃ u, sfFixed n e warm.length s = .error (.raise d) u := by
  rw [ahead_append] at ha
  obtain ⟨u, hu⟩ := hres _ (h.after ha.1) ha.2
  rw [sfFixed, reads_bind_run, sfFixedWith, bind_ok (readSints_fields h hwarm ha.1)]
  exact ⟨u, bind_error hu⟩

/-- A fault of the residual ends SF_LPC (R245). -/
theorem sfLpc_residualFault (h : s.ReaderOk) {prec shift : Nat} {coef : List Int} {bits : List Bool}
    (hwarm : warm.all (fitsInt e) = true) (hp1 : 1 ≤ prec) (hp16 : prec ≤ 16) (hsh : shift < 16)
    (hlen : coef.length = warm.length) (hcoef : coef.all (fitsInt prec) = true)
    (ha : warm.flatMap (intBits e) ++ natBits 4 (prec - 1) ++ intBits 5 shift ++ coef.flatMap (intBits prec) ++
      bits <+: s.ahead)
    (hres : ∀ t : State, t.ReaderOk → bits <+: t.ahead →
      ∃ u, decodeResidual n warm.length t = .error (.raise d) u) :
    ∃ u, sfLpc n e warm.length s = .error (.raise d) u := by
  simp only [ahead_append, List.length_append, natBits_length, intBits_length, ← State.skip_skip] at ha
  obtain ⟨⟨⟨⟨ha1, ha2⟩, ha3⟩, ha4⟩, ha5⟩ := ha
  have h1 := h.after ha1
  have h2 := h1.after ha2
  rw [natBits_length] at h2
  have h3 := h2.after ha3
  rw [intBits_length] at h3
  have hshift : fitsInt 5 (shift : Int) = true := by simp [fitsInt]; omega
  have hcoefs (r : SubframeRegs) := readSints_fields ((State.setSub_ok _ r).2 h3) hcoef ha4
  rw [sfLpc, bind_ok (readSints_fields h hwarm ha1), bind_ok (readUint_field h1 (by omega) ha2),
    bind_ok (readSint_field h2 hshift ha3), bind_ok (setLpcParams_run _ _ _), if_neg (by omega),
    Nat.sub_add_cancel hp1, ← hlen, bind_ok (hcoefs _), bind_ok (setCoef_run _ _), hlen]
  refine (hres _ ?_ ?_).imp fun _ => bind_error
  · exact h3.after ha4
  · exact ha5

/-- A row of SF.FIXED whose first partition is shorter than its order (R268, R312). -/
theorem raises_fixed_shortPartition {i : Instr} {type : BitVec 6} {order : Nat}
    (hrow : ∀ s, exec i s = runUnit (subframeElement type order (sfFixed s.f.n · order)) s)
    (s : State) (w p : Nat) (warm : List Int) (wide : Bool) (hs : s.Ready) (hw : w < s.sub.d)
    (hl : warm.length = order) (hwarm : warm.all (fitsInt (s.sub.d - w)) = true) (hp : p < 16)
    (hn : s.f.n % 2 ^ p = 0) (ho : s.f.n / 2 ^ p < order)
    (ha : wastedBits w ++ warm.flatMap (intBits (s.sub.d - w)) ++ natBits 2 wide.toNat ++ natBits 4 p
      <+: s.ahead) :
    Raises (exec i s) (.partitionMismatch s.f.n p order) := by
  subst hl
  rw [List.append_assoc, List.append_assoc, ahead_append] at ha
  rw [hrow]
  refine raises_subframeBody hs hw ha.1 fun t ht hahead => ?_
  exact sfFixed_residualFault ht hwarm (hahead ▸ ha.2) fun _ hu => decodeResidual_shortPartition hu hp hn ho

end Sys2Proof.Machine
end

section
/-! Proofs of the statements about the residual rows (spec/45_residual.md), in a namespace of their own:
two of them bear the names of the rules `partitionOrder` and `partitionValues`. -/

namespace Sys2Proof.Machine.ResidualRows

open Sys2Proof

/-- Settles O37: the two coding methods are latched, the other two refused. -/
theorem codingMethods : Obligations.CodingMethods := by
  refine fun s hh => ⟨runUnit_ok hh (latchMethod_run s 0 4), runUnit_ok hh (latchMethod_run s 1 5), fun x => ?_⟩
  have hx : (BitVec.ofNat 2 (2 + x.toNat)).toNat = 2 + x.toNat := by
    rw [BitVec.toNat_ofNat, Nat.mod_eq_of_lt (by omega)]
  have e := methodElement_invalid (hx ▸ Nat.le_add_right 2 x.toNat) s
  rw [hx] at e
  exact raises_runUnit hh e

/-- Settles O38: the test of R267 by itself, and R268's inside a Fixed and an LPC subframe. -/
theorem partitionOrder : Obligations.PartitionOrder := by
  refine ⟨fun s p ⟨hr, hh⟩ hp ha => ⟨fun hn => ?_, fun hn => ?_⟩, ?_, ?_⟩
  · exact runUnit_ok hh (partitionOrder_code hr hp hn ha)
  · exact raises_runUnit hh (partitionOrder_mismatch hr hp hn ha)
  · simp only [List.forall_mem_cons]
    exact ⟨raises_fixed_shortPartition fun _ => rfl, raises_fixed_shortPartition fun _ => rfl,
      raises_fixed_shortPartition fun _ => rfl, raises_fixed_shortPartition fun _ => rfl, nofun⟩
  · intro x s w prec shift p warm coef wide hs hw hl hwarm hp1 hp16 hsh hc hcoef hp hn ho ha
    have hbits : wastedBits w ++ (warm.flatMap (intBits (s.sub.d - w)) ++ natBits 4 (prec - 1) ++
        intBits 5 shift ++ coef.flatMap (intBits prec) ++ (natBits 2 wide.toNat ++ natBits 4 p)) <+: s.ahead := by
      simpa only [List.append_assoc] using ha
    rw [ahead_append] at hbits
    refine raises_subframeBody hs hw hbits.1 fun t ht hahead => ?_
    rw [← hl] at ho ⊢
    exact sfLpc_residualFault ht hwarm hp1 hp16 hsh (hc.trans hl.symm) hcoef (hahead ▸ hbits.2)
      fun _ hu => decodeResidual_shortPartition hu hp hn ho

/-- Settles O39: the parameter row latches its operand, each escape row the field it reads. -/
theorem riceParameters : Obligations.RiceParameters := by
  refine ⟨fun s _ k hh _ => runUnit_ok hh (latchParam_run s k.toNat), ?_⟩
  simp only [List.forall_mem_cons]
  exact ⟨fun _ => runUnit_escapeParam, fun _ => runUnit_escapeParam, nofun⟩

/-- Settles O40: the row is RES.VALUES on the codewords of its values. -/
theorem partitionValues : Obligations.PartitionValues := fun _ _ ⟨hr, hh⟩ ha =>
  runUnit_ok hh (partitionValues_codes hr ha)

end Sys2Proof.Machine.ResidualRows
end

section
/-! SUPPORT. What OPEN leaves on the bits of a head, and PULL on the bits of the frames after it (R287, R289, R294). -/

namespace Sys2Proof.Machine

open Sys2Proof

/-! ### The head -/

/-- Blocks after the first write their records, the index and the phase, and nothing else (R151, R153). -/
theorem effects_later (bs : List Block) (s : State) (h : bs.all (fun x => !x.content.isStreaminfo) = true) :
    ∃ p, bs.foldl (fun t b => b.effect t) s =
      ((s.setMetas (s.metas ++ bs.map Block.record)).setMdIndex (s.mdIndex + bs.length)).setPhase p := by
  induction bs generalizing s with
  | nil => exact ⟨s.phase, by rw [List.map_nil, List.append_nil]; rfl⟩
  | cons b bs ih =>
    simp only [List.all_cons, Bool.and_eq_true, Bool.not_eq_true'] at h
    obtain ⟨hb, hbs⟩ := h
    obtain ⟨p, hp⟩ := ih (b.effect s) hbs
    refine ⟨p, hp.trans ?_⟩
    rw [Block.effect_later hb]
    simp [Nat.add_right_comm, Nat.add_assoc]

/-- What a well-formed head says of its first block and of the others (R153, R155). -/
theorem metadataOk_streaminfo {cfg : Config} {last : Bool} {si : StreamInfo} {rest : List Block}
    (h : metadataOk cfg (⟨last, .streaminfo si⟩ :: rest) = true) :
    streaminfoOk si = true ∧ (⟨last, .streaminfo si⟩ :: rest : List Block).all (fun x => x.content.ok cfg) = true ∧
    rest.all (fun x => !x.content.isStreaminfo) = true ∧
    (⟨last, .streaminfo si⟩ :: rest : List Block).map (fun x => x.last) =
      List.replicate rest.length false ++ [true] := by
  simp only [metadataOk, Bool.and_eq_true, beq_iff_eq] at h
  obtain ⟨⟨⟨_, hok⟩, hrest⟩, hlast⟩ := h
  refine ⟨?_, hok, hrest, hlast⟩
  have hfits := Content.ok_fits (List.all_eq_true.1 hok _ List.mem_cons_self)
  simp only [Content.fits, Bool.and_eq_true] at hfits
  exact hfits.2

/-- The blocks of a head load the STREAMINFO registers, append one record each and end in `Frames` (R151, R155). -/
theorem effects_head {cfg : Config} {last : Bool} {si : StreamInfo} {rest : List Block} (s : State)
    (h : metadataOk cfg (⟨last, .streaminfo si⟩ :: rest) = true) :
    (⟨last, .streaminfo si⟩ :: rest : List Block).foldl (fun t b => b.effect t) s =
      (((s.setSi si).setMetas (s.metas ++ (⟨last, .streaminfo si⟩ :: rest : List Block).map Block.record)).setMdIndex
        (s.mdIndex + (rest.length + 1))).setPhase .frames := by
  obtain ⟨_, _, hrest, hlast⟩ := metadataOk_streaminfo h
  obtain ⟨p, hp⟩ := effects_later rest (Block.effect ⟨last, .streaminfo si⟩ s) hrest
  have hframes := effects_phase (⟨last, .streaminfo si⟩ :: rest) s hlast
  rw [List.foldl_cons, hp, State.setPhase_phase] at hframes
  rw [List.foldl_cons, hp, hframes, Block.effect_streaminfo]
  simp [Block.record, Nat.add_right_comm, Nat.add_assoc]

/-- A head is whole bytes (R92 to R97). -/
theorem headBits_length_mod {cfg : Config} {bs : List Block} (h : bs.all (fun x => x.content.ok cfg) = true) :
    (headBits cfg bs).length % 8 = 0 := by
  have hblocks : (bs.flatMap (Block.bits cfg)).length % 8 = 0 := by
    induction bs with
    | nil => rfl
    | cons b bs ih =>
      obtain ⟨hb, hbs⟩ := Bool.and_eq_true_iff.1 (List.all_cons.symm.trans h)
      have := ih hbs
      rw [List.flatMap_cons, List.length_append, Block.bits_length hb]
      omega
  rw [headBits, List.length_append, bytesBits_length]
  omega

/-- What OPEN leaves: the source taken, the head at its start parsed, the reader at the byte after it (R287). -/
def State.withHead (s : State) (src : List Byte) (si : StreamInfo) (bs : List Block) : State :=
  ((((((s.setSrc (Memory.ofBytes src)).setPhase .frames).setSi si).setMetas (bs.map Block.record)).setMdIndex
    bs.length).setBr ⟨(headBits s.cfg bs).length / 8, 0, 0⟩).setRet .ok

section Open

variable {s : State} {src : List Byte} {last : Bool} {si : StreamInfo} {rest : List Block}

/-- The reader that has passed a head is at the byte after it. -/
theorem openStart_skip_head (hbr : s.br = ⟨0, 0, 0⟩)
    (hm : metadataOk s.cfg (⟨last, .streaminfo si⟩ :: rest) = true) :
    ((s.setSrc (Memory.ofBytes src)).setPhase .metadata).skip (headBits s.cfg (⟨last, .streaminfo si⟩ :: rest)).length =
      ((s.setSrc (Memory.ofBytes src)).setPhase .metadata).setBr
        ⟨(headBits s.cfg (⟨last, .streaminfo si⟩ :: rest)).length / 8, 0, 0⟩ := by
  obtain ⟨_, hok, _, _⟩ := metadataOk_streaminfo hm
  have hmod := headBits_length_mod hok
  have hlen : (headBits s.cfg (⟨last, .streaminfo si⟩ :: rest)).length =
      8 * ((headBits s.cfg (⟨last, .streaminfo si⟩ :: rest)).length / 8) := by omega
  have hbp : ((s.setSrc (Memory.ofBytes src)).setPhase .metadata).bp = 0 := by simp [State.bp, hbr]
  rw [State.skip, hbp, Nat.zero_add, hlen, readerAt_aligned, ← hlen]

/-- OPEN on a head, from a decoder as RESET leaves it: the whole next state (R287). -/
theorem exec_openCmd_head (hh : s.halted = false) (hp : s.phase = .idle) (hbr : s.br = ⟨0, 0, 0⟩)
    (hi : s.mdIndex = 0) (hmetas : s.metas = []) (hm : metadataOk s.cfg (⟨last, .streaminfo si⟩ :: rest) = true)
    (hb : headBits s.cfg (⟨last, .streaminfo si⟩ :: rest) <+: bytesBits src) :
    exec (.openCmd src) s = .next (s.withHead src si (⟨last, .streaminfo si⟩ :: rest)) := by
  have e : (openStream src >>= fun _ => pure Ret.ok) s = _ := bind_ok (openStream_ok hbr hi hm hb)
  rw [exec_openCmd_idle src hh hp, run_ok hh e, openStart_skip_head hbr hm, effects_head _ hm]
  simp [hi, hmetas, State.withHead]

end Open

/-! ### The frames -/

/-- What the head of a stream fixes for its frames: the source, the parameters, `SI.*` and `META`. -/
def State.stream (s : State) : Memory × Config × StreamInfo × List Record := (s.src, s.cfg, s.si, s.metas)

/-- The decoder stands before these frames, and the source ends after them (R289). -/
structure State.Awaits (s : State) (fs : List Frame) : Prop where
  ready : s.Ready
  phase : s.phase = .frames
  aligned : s.bp % 8 = 0
  valid : s.si.valid = true
  ok : fs.all (Frame.ok s.si.bps) = true
  ahead : s.ahead = fs.flatMap (Frame.bits s.si.bps)

/-- PULL on the bits of a frame: the whole next state (R289). -/
theorem exec_pullCmd_frame {s : State} {f : Frame} (hs : s.Ready) (hp : s.phase = .frames) (hal : s.bp % 8 = 0)
    (hv : s.si.valid = true) (hf : f.ok s.si.bps = true) (ha : f.bits s.si.bps <+: s.ahead) :
    exec .pullCmd s = .next (((s.withFrame f s.si.bps).setOut (f.out s.cfg.fixedCoef)).setRet .frame) := by
  obtain ⟨hr, hh⟩ := hs
  exact run_ok hh (pullFrame_frame hr hp hal hv hf ha)

/-- PULL delivers the frame the decoder stands before, and stands before the next (R289). -/
theorem State.Awaits.pull {s : State} {f : Frame} {fs : List Frame} (h : s.Awaits (f :: fs)) :
    ∃ t, exec .pullCmd s = .next t ∧ t.Awaits fs ∧ t.stream = s.stream ∧ t.out = f.out s.cfg.fixedCoef := by
  obtain ⟨hs, hp, hal, hv, hok, hahead⟩ := h
  obtain ⟨hf, hfs⟩ := Bool.and_eq_true_iff.1 (List.all_cons.symm.trans hok)
  rw [List.flatMap_cons] at hahead
  have ha : f.bits s.si.bps <+: s.ahead := hahead ▸ List.prefix_append _ _
  obtain ⟨hnext, hnextAhead, hnextBp⟩ := withFrame_next hs.1 ha
  have hlen := Frame.bits_aligned hf
  refine ⟨_, exec_pullCmd_frame hs hp hal hv hf ha, ?_, rfl, rfl⟩
  exact
    { ready := ⟨hnext, hs.2⟩
      phase := hp
      aligned := (congrArg (· % 8) hnextBp).trans (by omega)
      valid := hv
      ok := hfs
      ahead := hnextAhead.trans (by rw [hahead, List.drop_left]; rfl) }

/-- As many PULLs as frames deliver them in order (R294). -/
theorem State.Awaits.pulls {fs' : List Frame} (fs : List Frame) : ∀ {s : State}, s.Awaits (fs ++ fs') →
    ∃ t, s.afterCommands (List.replicate fs.length .pullCmd) = .next t ∧ t.Awaits fs' ∧ t.stream = s.stream ∧
      t.out = (fs.getLast?.map (Frame.out s.cfg.fixedCoef)).getD s.out := by
  induction fs with
  | nil => exact fun {s} h => ⟨s, rfl, h, rfl, rfl⟩
  | cons f fs ih =>
    intro s h
    obtain ⟨t, et, ht, hts, hto⟩ := h.pull
    obtain ⟨u, eu, hu, hus, huo⟩ := ih ht
    have hcfg : t.cfg = s.cfg := congrArg (fun x => x.2.1) hts
    refine ⟨u, ?_, hu, hus.trans hts, ?_⟩
    · rw [List.length_cons, List.replicate_succ, State.afterCommands, et]
      exact eu
    · rw [huo, hto, hcfg, List.getLast?_cons, Option.map_some, Option.getD_some, Option.getD_map]

/-- With no frame left the decoder is at the aligned end of the source (R140, R290). -/
theorem State.Awaits.atEnd {s : State} (h : s.Awaits []) : s.atEnd = true := by
  have hr := h.ready.1
  have hlen := congrArg List.length h.ahead
  rw [State.ahead_length, List.flatMap_nil, List.length_nil] at hlen
  have hal := h.aligned
  have hpos := hr.pos_eq
  obtain ⟨_, _, hle⟩ := id hr
  simp only [State.atEnd, State.aligned, hr.nbits_eq_zero hal, beq_self_eq_true, Bool.true_and, beq_iff_eq]
  omega

/-- PULL at the aligned end of the source (R290). -/
theorem exec_pullCmd_end {s : State} (hh : s.halted = false) (hp : s.phase = .frames) (he : s.atEnd = true) :
    exec .pullCmd s = .next (((s.setPhase .endOfStream).setOut .endOfStream).setRet .endOfStream) :=
  run_ok hh (pullFrame_end hp he)

/-- Commands after commands that completed. -/
theorem afterCommands_append {s t : State} {is : List Instr} (js : List Instr)
    (h : s.afterCommands is = .next t) : s.afterCommands (is ++ js) = t.afterCommands js := by
  induction is generalizing s with
  | nil => cases h; rfl
  | cons i is ih =>
    rw [List.cons_append, State.afterCommands]
    rw [State.afterCommands] at h
    cases e : exec i s with
    | next u => rw [e] at h; exact ih h
    | fault r => rw [e] at h; cases h
    | refused r => rw [e] at h; cases h

/-! ### From RESET to the first frame -/

section Start

variable {s : State} {src : List Byte} {last : Bool} {si : StreamInfo} {rest : List Block} {fs : List Frame}

/-- After OPEN the decoder stands before the frames that follow the head (R287). -/
theorem withHead_awaits (hbr : s.br = ⟨0, 0, 0⟩) (hfault : s.fault = none)
    (hm : metadataOk s.cfg (⟨last, .streaminfo si⟩ :: rest) = true) (hfs : fs.all (Frame.ok si.bps) = true)
    (hb : bytesBits src = headBits s.cfg (⟨last, .streaminfo si⟩ :: rest) ++ fs.flatMap (Frame.bits si.bps)) :
    (s.withHead src si (⟨last, .streaminfo si⟩ :: rest)).Awaits fs := by
  have hstart := openStart_ok hbr src
  have hprefix : headBits s.cfg (⟨last, .streaminfo si⟩ :: rest) <+:
      ((s.setSrc (Memory.ofBytes src)).setPhase .metadata).ahead := by
    rw [openStart_ahead hbr src, hb]
    exact List.prefix_append _ _
  have hskip := openStart_skip_head (src := src) hbr hm
  obtain ⟨hsi, _, _, _⟩ := metadataOk_streaminfo hm
  have hvalid : si.valid = true := by
    simp only [streaminfoOk, Bool.and_eq_true] at hsi
    obtain ⟨⟨⟨⟨⟨hvalid, _⟩, _⟩, _⟩, _⟩, _⟩ := hsi
    exact hvalid
  have hreader := hstart.after hprefix
  rw [hskip] at hreader
  exact
    { ready := ⟨ReaderOk_congr rfl rfl hreader, State.halted_eq_false.2 ⟨nofun, hfault⟩⟩
      phase := rfl
      aligned := bp_mod_of_nbits_zero rfl
      valid := hvalid
      ok := hfs
      ahead := by
        have hahead := State.skip_ahead ((s.setSrc (Memory.ofBytes src)).setPhase .metadata)
          (headBits s.cfg (⟨last, .streaminfo si⟩ :: rest)).length
        rw [hskip, openStart_ahead hbr src, hb, List.drop_left] at hahead
        exact (ahead_congr rfl rfl).trans hahead }

/-- From any state RESET and OPEN bring the decoder before the first frame (R286, R287). -/
theorem afterCommands_reset_open (cmds : List Instr)
    (hm : metadataOk s.cfg (⟨last, .streaminfo si⟩ :: rest) = true)
    (hb : headBits s.cfg (⟨last, .streaminfo si⟩ :: rest) <+: bytesBits src) :
    s.afterCommands (.resetCmd :: .openCmd src :: cmds) =
      ((s.resetRegs.setRet .unit).withHead src si (⟨last, .streaminfo si⟩ :: rest)).afterCommands cmds := by
  have hopen := exec_openCmd_head (s := s.resetRegs.setRet .unit) rfl rfl rfl rfl rfl hm hb
  have hreset : exec .resetCmd s = .next (s.resetRegs.setRet .unit) := rfl
  rw [State.afterCommands, hreset]
  dsimp only
  rw [State.afterCommands, hopen]

end Start

end Sys2Proof.Machine
end

section
/-! SUPPORT. The marker's test from any reader, and OPEN on a source that does not begin with it (R288, R302). -/

namespace Sys2Proof.Machine

open Sys2Proof

variable {s : State}

/-- The marker's test compares the four bytes at the reader, wherever it stands (R288). -/
theorem checkMagic_run (hn : s.br.pos + 4 ≤ s.srcLen) :
    checkMagic s = (if s.src.readMany s.br.pos 4 = [0x66#8, 0x4C#8, 0x61#8, 0x43#8] then pure ()
      else raise (.notAFlacStream (s.src.readMany s.br.pos 4))) (s.setBr ⟨s.br.pos + 4, 0, 0⟩) :=
  bind_ok (readBytes_ok hn)

/-- Every address inside a source in canonical form has a byte (R60). -/
theorem Memory.exists_read {m : Memory} (hw : m.wf = true) {a : Nat} (ha : a < m.length) : ∃ b, m.read a = some b :=
  Option.ne_none_iff_exists'.1 fun h => absurd ((Memory.read_none_iff m hw a).1 h) (by omega)

/-- A marker that faults is OPEN's fault (R287, R288). -/
theorem raises_openCmd_magic {src : List Byte} {u : State} {d : DecodeFault} (hp : s.phase = .idle)
    (hf : s.fault = none)
    (e : checkMagic ((s.setSrc (Memory.ofBytes src)).setPhase .metadata) = .error (.raise d) u) :
    Raises (exec (.openCmd src) s) d := by
  have hh : s.halted = false := State.halted_eq_false.2 ⟨by simp [hp], hf⟩
  have hopen : openStream src s = .error (.raise d) u := by
    rw [openStream, writes_bind_run, writes_bind_run]
    exact bind_error e
  rw [exec_openCmd_idle src hh hp, run_error hh (bind_error hopen)]
  exact ⟨_, rfl, rfl, rfl, rfl, rfl⟩

end Sys2Proof.Machine
end

section
/-! SUPPORT. The word `fetch` takes at each grammar position (R90, R122). -/

namespace Sys2Proof.Machine

open Sys2Proof

variable {s : State}

/-- Two fields read one after the other are one field of both widths (R8). -/
theorem bitsNat_take_add {a b : Nat} {l : List Bool} (h : a + b ≤ l.length) :
    bitsNat (l.take (a + b)) = bitsNat (l.take a) * 2 ^ b + bitsNat ((l.drop a).take b) := by
  rw [List.take_add, bitsNat_append, List.length_take, List.length_drop, Nat.min_eq_left (by omega)]

/-- No word's block row is MBH, so MBH stands for the words that have none (log entry 21). -/
theorem blockRow_ne_mbh (cfg : Config) (w : Nat) : blockRow cfg w ≠ some .mbh := by
  rw [blockRow_eq]
  cases blockKind cfg (BitVec.ofNat 7 (bits w 30 24)) with
  | streaminfo | application | vorbisComment | picture => nofun
  | unknown =>
    simp only [unknownRow]
    split_ifs <;> nofun

theorem blockRow_eq_none_iff (cfg : Config) (w : Nat) : blockRow cfg w = none ↔ decode cfg .block w = .ok .mbh := by
  have hne := blockRow_ne_mbh cfg w
  rw [decode]
  cases h : blockRow cfg w with
  | none => simp
  | some i => rw [h] at hne; simpa using hne

/-- A block's word that has a row is consumed (log entry 8). -/
theorem fetchWord_block_row (h : s.ReaderOk) (hn : 32 ≤ s.ahead.length)
    (hd : decode s.cfg .block (bitsNat (s.ahead.take 32)) ≠ .ok .mbh) :
    fetchWord .block s = .ok (bitsNat (s.ahead.take 32)) (s.skip 32) := by
  obtain ⟨i, hi⟩ := Option.ne_none_iff_exists'.1 fun hnone => hd ((blockRow_eq_none_iff _ _).1 hnone)
  have hword := headerWord_run h hn
  rw [fetchWord, bind_ok (peek_ok hword), reads_bind_run, hi]
  exact hword

/-- A block's word without a row is left to MBH (log entry 21). -/
theorem fetchWord_block_mbh (h : s.ReaderOk) (hn : 32 ≤ s.ahead.length)
    (hd : decode s.cfg .block (bitsNat (s.ahead.take 32)) = .ok .mbh) :
    fetchWord .block s = .ok (bitsNat (s.ahead.take 32)) s := by
  rw [fetchWord, bind_ok (peek_ok (headerWord_run h hn)), reads_bind_run, (blockRow_eq_none_iff _ _).2 hd]
  rfl

theorem fetchWord_subframe (h : s.ReaderOk) (hn : 7 ≤ s.ahead.length) :
    fetchWord .subframe s = .ok (bitsNat (s.ahead.take 7) * 2 ^ 1) (s.skip 7) := by
  have hreserved := readUint_run h (n := 1) (by omega)
  have htype := readUint_run (h.skip (n := 1) (by omega)) (n := 6) (by rw [State.skip_ahead, List.length_drop]; omega)
  have hsum := bitsNat_take_add (a := 1) (b := 6) hn
  rw [fetchWord, bind_ok hreserved, bind_ok htype, State.skip_skip, State.skip_ahead, pure_run, hsum]
  congr 1
  ring

/-- The bits that select a row among several are consumed (log entry 8). -/
theorem fetchWord_consumes (h : s.ReaderOk) : ∀ p ∈ [(Ctx.block, 32, 0), (.number, 8, 0), (.subframe, 7, 1),
      (.method, 2, 4), (.param4, 4, 5), (.param5, 5, 5)], p.2.1 ≤ s.ahead.length →
    decode s.cfg p.1 (bitsNat (s.ahead.take p.2.1) * 2 ^ p.2.2) ≠ .ok .mbh →
    fetchWord p.1 s = .ok (bitsNat (s.ahead.take p.2.1) * 2 ^ p.2.2) (s.skip p.2.1) := by
  simp only [List.forall_mem_cons, pow_zero, mul_one]
  exact ⟨fun hn hd => fetchWord_block_row h hn hd, fun hn _ => readUint_run h hn, fun hn _ => fetchWord_subframe h hn,
    fun hn _ => bind_ok (readUint_run h hn), fun hn _ => bind_ok (readUint_run h hn),
    fun hn _ => bind_ok (readUint_run h hn), nofun⟩

/-- The word of an element that reads all its bits itself is only looked at (log entry 8). -/
theorem fetchWord_looks (h : s.ReaderOk) : ∀ p ∈ [(Ctx.magic, 32, 0), (.frameHeader, 14, 18), (.block, 32, 0)],
    p.2.1 ≤ s.ahead.length →
    (p.1 = .block → decode s.cfg p.1 (bitsNat (s.ahead.take p.2.1) * 2 ^ p.2.2) = .ok .mbh) →
    fetchWord p.1 s = .ok (bitsNat (s.ahead.take p.2.1) * 2 ^ p.2.2) s := by
  simp only [List.forall_mem_cons, pow_zero, mul_one]
  exact ⟨fun hn _ => peek_ok (readUint_run h hn), fun hn _ => bind_ok (peek_ok (readUint_run h hn)),
    fun hn hd => fetchWord_block_mbh h hn (hd trivial), nofun⟩

/-- A position whose code is latched, or that no code selects, has its word without the stream, and a row for every
word (log entry 8). -/
theorem fetchWord_latched (s : State) : ∀ p ∈ [(Ctx.blockSize, s.f.bsc.toNat * 2 ^ 12),
      (.sampleRate, s.f.src.toNat * 2 ^ 8), (.channels, s.f.ca.toNat * 2 ^ 4), (.blockHeader, 0), (.headerCrc, 0),
      (.footer, 0), (.porder, 0), (.wasted, 1), (.rice, 1)],
    fetchWord p.1 s = .ok p.2 s ∧ ∃ i, decode s.cfg p.1 p.2 = .ok i := by
  simp only [List.forall_mem_cons]
  exact ⟨⟨rfl, _, rfl⟩, ⟨rfl, _, rfl⟩, ⟨rfl, _, rfl⟩, ⟨rfl, _, rfl⟩, ⟨rfl, _, rfl⟩, ⟨rfl, _, rfl⟩, ⟨rfl, _, rfl⟩,
    ⟨rfl, _, rfl⟩, ⟨rfl, _, rfl⟩, nofun⟩

end Sys2Proof.Machine
end

section
/-! Proofs of the statements about the three commands (spec/46_stream_control.md R286 to R294). -/

namespace Sys2Proof.Machine

open Sys2Proof

/-- Settles O1: RESET writes every register but SRC, the port and the parameters from the start state. -/
theorem resetLeavesTheResetValues : Obligations.ResetLeavesTheResetValues :=
  ⟨fun s => ⟨s.resetRegs.setRet .unit, rfl, rfl, rfl, rfl, rfl, rfl, rfl, rfl, rfl, fun _ => rfl⟩,
    rfl, rfl, rfl, rfl, rfl, rfl, rfl, rfl⟩

/-- Settles O3: the phase test of each command. -/
theorem commandsInTheWrongPhaseAreRefused : Obligations.CommandsInTheWrongPhaseAreRefused :=
  ⟨fun _ => exec_openCmd_refused,
    fun _ hp => exec_pullCmd_refused (by rcases hp with hp | hp | hp <;> simp [State.opened, hp])⟩

/-- Settles O5: the end test of PULL, and what each command answers in `EndOfStream`. -/
theorem endOfStreamIsAbsorbing : Obligations.EndOfStreamIsAbsorbing := by
  have live : ∀ {s : State}, s.phase ≠ .faulted → s.fault = none → s.halted = false := fun hp hf =>
    State.halted_eq_false.2 ⟨hp, hf⟩
  refine ⟨fun s hp hf he => exec_pullCmd_end (live (by simp [hp]) hf) hp he,
    fun s hp hf => exec_pullCmd_endOfStream (live (by simp [hp]) hf) hp, fun s t i hp hc hi e => ?_, fun s hp => ?_⟩
  · cases hh : s.halted with
    | true => rw [exec_halted hh hi] at e; cases e; exact hp
    | false =>
      cases i with
      | resetCmd => exact absurd rfl hi
      | openCmd src => rw [exec_openCmd_refused src (by simp [hp])] at e; cases e; exact hp
      | pullCmd => rw [exec_pullCmd_endOfStream hh hp] at e; cases e; exact hp
      | _ => cases hc
  · have ho : s.opened = true := by simp [State.opened, hp]
    exact ⟨by rw [State.hostMeta, if_pos ho], fun hv => by rw [State.hostSi, State.siValid, ho, hv]; rfl⟩

/-- Settles O6: the marker's row by its four bytes, and OPEN from the start of its source. -/
theorem markerIsChecked : Obligations.MarkerIsChecked := by
  refine ⟨fun s hh hw hn => ?_, fun s hh hn => ⟨_, raises_runUnit hh (checkMagic_short hn), rfl⟩,
    fun s src hp hf hbr hl => ?_, fun s src hp hf hbr hl hne => ?_⟩
  · have byte : ∀ j, j < 4 → ∃ b, s.src.read (s.br.pos + j) = some b := fun j hj =>
      Memory.exists_read hw (by change _ < s.srcLen; omega)
    obtain ⟨b0, h0⟩ : ∃ b, s.src.read s.br.pos = some b := byte 0 (by omega)
    obtain ⟨b1, h1⟩ := byte 1 (by omega)
    obtain ⟨b2, h2⟩ := byte 2 (by omega)
    obtain ⟨b3, h3⟩ := byte 3 (by omega)
    have e := checkMagic_run hn
    rw [Memory.readMany_four hw h0 h1 h2 h3] at e
    refine ⟨b0, b1, b2, b3, h0, h1, h2, h3, fun hm => ?_, fun hm => ?_⟩
    · rw [if_pos hm] at e; exact runUnit_ok hh e
    · rw [if_neg hm] at e; exact raises_runUnit hh e
  · have hshort : ((s.setSrc (Memory.ofBytes src)).setPhase .metadata).srcLen <
        ((s.setSrc (Memory.ofBytes src)).setPhase .metadata).br.pos + 4 := by
      simpa [State.srcLen, hbr, ← Memory.bytes_length] using hl
    exact ⟨_, raises_openCmd_magic hp hf (checkMagic_short hshort), rfl⟩
  · have hbits : bytesBits (src.take 4) <+: ((s.setSrc (Memory.ofBytes src)).setPhase .metadata).ahead := by
      rw [openStart_ahead hbr src]
      conv_rhs => rw [← List.take_append_drop 4 src, bytesBits_append]
      exact List.prefix_append _ _
    exact raises_openCmd_magic hp hf
      (checkMagic_bad (openStart_ok hbr src) (bp_mod_of_nbits_zero (congrArg Reader.nbits hbr)) (by simpa using hl) hne
        hbits)

/-- Settles O7: OPEN on a head, from the decoder as R51 has it in `Idle`, where `OUT` is None already. -/
theorem openParsesTheWholeHead : Obligations.OpenParsesTheWholeHead := by
  intro s src last si rest hs hp hm hb
  obtain ⟨_, _, hidle⟩ := id hs
  simp only [hp] at hidle
  obtain ⟨hbr, _, hi, hmetas, _, hout⟩ := hidle
  have hh : s.halted = false := (hs.inv (by simp [hp])).halted_eq_false (by simp [hp])
  rw [exec_openCmd_head hh hp hbr hi hmetas hm hb, ← hout]
  rfl

/-- Settles O8: PULL on the bits of a frame. -/
theorem pullDeliversTheFrame : Obligations.PullDeliversTheFrame := fun _ _ hs hp h0 hv hf ha =>
  exec_pullCmd_frame hs hp (bp_mod_of_nbits_zero h0) hv hf ha

/-- Settles O9: RESET and OPEN bring the decoder before the frames, each PULL takes the next one, and the one after
the last meets the end. -/
theorem streamDecodesToItsFrames : Obligations.StreamDecodesToItsFrames := by
  intro s src last si rest fs hm hfs hb
  have hprefix : headBits s.cfg (⟨last, .streaminfo si⟩ :: rest) <+: bytesBits src := hb ▸ List.prefix_append _ _
  have hstart : ((s.resetRegs.setRet .unit).withHead src si (⟨last, .streaminfo si⟩ :: rest)).Awaits fs :=
    withHead_awaits (s := s.resetRegs.setRet .unit) rfl rfl hm hfs hb
  refine ⟨fun k hk => ?_, ?_⟩
  · rw [← List.take_append_drop k fs] at hstart
    obtain ⟨t, et, ht, hstream, hout⟩ := hstart.pulls
    rw [List.length_take, Nat.min_eq_left hk] at et
    refine ⟨t, (afterCommands_reset_open _ hm hprefix).trans et, ht.phase, (State.halted_eq_false.1 ht.ready.2).2,
      congrArg (fun x => x.2.2.1) hstream, congrArg (fun x => x.2.2.2) hstream, hout.trans ?_⟩
    cases (fs.take k).getLast? <;> rfl
  · rw [← List.append_nil fs] at hstart
    obtain ⟨t, et, ht, hstream, _⟩ := hstart.pulls
    obtain ⟨_, hh⟩ := ht.ready
    have hend := exec_pullCmd_end hh ht.phase ht.atEnd
    have hpos : t.br.pos = t.srcLen := by
      have he := ht.atEnd
      simp only [State.atEnd, Bool.and_eq_true, beq_iff_eq] at he
      exact he.2
    have hsrc : t.src = Memory.ofBytes src := congrArg Prod.fst hstream
    refine ⟨((t.setPhase .endOfStream).setOut .endOfStream).setRet .endOfStream,
      (afterCommands_reset_open _ hm hprefix).trans ?_, rfl, (State.halted_eq_false.1 hh).2, rfl, hpos.trans ?_⟩
    · rw [List.replicate_succ', afterCommands_append _ et, State.afterCommands, hend]
      rfl
    · rw [State.srcLen, hsrc, ← Memory.bytes_length, Memory.ofBytes_bytes]

/-- Settles O53: each request by where its word comes from, and the instruction the word decodes to. -/
theorem stepRunsTheFetchedInstruction : Obligations.StepRunsTheFetchedInstruction := by
  refine ⟨fun _ => step_nil, fun _ _ _ hp => step_cons hp, ?_, ?_, ?_⟩
  · rintro s _ rest i ⟨hr, hh⟩ hport p hp rfl hn hd hi
    have hne : decode s.cfg p.1 (bitsNat (s.ahead.take p.2.1) * 2 ^ p.2.2) ≠ .ok .mbh := by
      rw [hd]; exact fun h => hi (Except.ok.inj h)
    exact step_element hh hport
      (fetchWord_consumes (s := s.setPort rest) hr p hp ((bp_add_le_iff hr _).1 hn) hne) hd
  · rintro s _ rest i ⟨hr, hh⟩ hport p hp rfl hn hd hi
    have hmbh : p.1 = .block → decode s.cfg p.1 (bitsNat (s.ahead.take p.2.1) * 2 ^ p.2.2) = .ok .mbh :=
      fun hblock => hi hblock ▸ hd
    exact step_element hh hport
      (fetchWord_looks (s := s.setPort rest) hr p hp ((bp_add_le_iff hr _).1 hn) hmbh) hd
  · rintro s _ rest hh hport p hp rfl
    obtain ⟨_, i, hd⟩ := fetchWord_latched s p hp
    exact ⟨i, hd, step_element hh hport (fetchWord_latched (s.setPort rest) p hp).1 hd⟩

end Sys2Proof.Machine
end

section
/-! SUPPORT. Whether an instruction that runs outside `Faulted` stays outside or enters a fault (R320). -/

namespace Sys2Proof.Machine

open Sys2Proof

variable {s t : State} {kind : BlockKind} {type length : Nat} {last : Bool}

/-! ### A metadata block and the phase -/

/-- Where the index test passes, the first block is a STREAMINFO; otherwise it raises (R153). -/
theorem firstBlockTest_ok_or_raises (kind : BlockKind) (type : Nat) (s : State) :
    (firstBlockTest kind type s = .ok () s ∧ (s.mdIndex = 0 → kind = .streaminfo)) ∨
      ∃ d, firstBlockTest kind type s = .error (.raise d) s := by
  by_cases hk : kind = .streaminfo
  · subst hk
    rcases Nat.eq_zero_or_pos s.mdIndex with hi | hi
    · exact .inl ⟨firstBlockTest_streaminfo hi, fun _ => rfl⟩
    · exact .inr ⟨_, firstBlockTest_repeated hi⟩
  · rcases Nat.eq_zero_or_pos s.mdIndex with hi | hi
    · exact .inr ⟨_, firstBlockTest_first hk hi⟩
    · exact .inl ⟨firstBlockTest_later hk hi, fun h => by omega⟩

/-- A block that is read enters `Frames` if it is the last one, and keeps the phase otherwise (R162). -/
theorem blockElement_ok_phase (h : s.ReaderOk) (hm : s.MdOk)
    (e : blockElement kind type last length s = .ok () t) : t.phase = if last then .frames else s.phase := by
  rcases firstBlockTest_ok_or_raises kind type s with ⟨hfirst, hk⟩ | ⟨d, hfirst⟩
  · rcases blockBody_keeps kind type last length (s.br.pos + length) h hm hk with
      ⟨rec, u, eu, _, _, _, hv, _⟩ | ⟨d, u, eu, _⟩
    · obtain ⟨_, _, _, hphase⟩ := siPart_eq hv
      rw [blockElement_record hfirst eu] at e; cases e
      rw [State.setPhase_phase, hphase]
    · rw [blockElement_run hfirst, bind_error eu] at e; cases e
  · have eraise : blockElement kind type last length s = _ := bind_error hfirst
    rw [eraise] at e; cases e

/-- What a metadata row starts from: the records counted (R51 e), outside `Faulted`. -/
def State.MdRunning (s : State) : Prop := s.MdOk ∧ s.phase ≠ .faulted

theorem blockElement_keeps_running (kind : BlockKind) (type : Nat) (last : Bool) (length : Nat) :
    Keeps State.metaPart State.MdRunning (blockElement kind type last length) (fun _ t => t.MdRunning) := by
  rintro s h ⟨hm, hp⟩
  rcases blockElement_keeps kind type last length s h hm with ⟨_, t, e, ht, hb, hpos, hv, hmd, _⟩ | hfault
  · have hphase : t.phase ≠ .faulted := by
      rw [blockElement_ok_phase h hm e]
      cases last with
      | true => exact nofun
      | false => exact hp
    exact .inl ⟨(), t, e, ht, hb, hpos, hv, hmd, hphase⟩
  · exact .inr hfault

/-- The header moves the reader only, so a pass is its block's (R151). -/
theorem parseBlock_keeps_running :
    Keeps State.metaPart State.MdRunning parseBlock (fun _ t => t.MdRunning) := by
  rintro s h ⟨hm, hp⟩
  rcases parseBlock_header h with ⟨kind, type, last, length, t, e, ht, hb, hpos, hv⟩ | ⟨d, t, e, hpos, hv⟩
  · obtain ⟨hsi, hvalid⟩ := brPart_eq hv
    obtain ⟨hmeta, hindex, hmetas, hphase⟩ := siPart_eq hsi
    have hrun : t.MdRunning := by
      refine ⟨?_, by rwa [hphase]⟩
      unfold State.MdOk at *; rwa [hindex, hmetas, hvalid]
    have hblock := (blockElement_keeps_running kind type last length).bind (S := fun _ t => t.MdRunning)
      fun _ => .pure (a := last) fun _ h => h
    rw [e]
    rcases hblock t ht hrun with ⟨a, u, eu, hu, hb', hpos', hv', hq⟩ | ⟨d, u, eu, hpos', hv'⟩
    · exact .inl ⟨a, u, eu, hu, hb.trans hb', hpos.trans hpos', hv'.trans hmeta, hq⟩
    · exact .inr ⟨d, u, eu, hpos.trans hpos', hv'.trans hmeta⟩
  · exact .inr ⟨d, t, e, hpos, (siPart_eq (brPart_eq hv).1).1⟩

theorem exec_metadata_running {i : Instr} (ho : owner i = .metadata) (s : State) :
    ∃ m, exec i s = runUnit m s ∧ Keeps State.metaPart State.MdRunning m (fun _ t => t.MdRunning) := by
  cases i with
  | mbh => exact ⟨_, rfl, parseBlock_keeps_running.bind fun _ => .pure fun _ h => h⟩
  | mbStreaminfo | mbApplication | mbVorbisComment | mbPicture | mbUnknownOdd | mbUnknown64
  | mbUnknown32 | mbUnknown16 | mbUnknown8 => exact ⟨_, rfl, blockElement_keeps_running _ _ _ _⟩
  | _ => cases ho

/-! ### Every instruction and the phase -/

theorem metadata_unfaulted_or_takeFault {i : Instr} (hs : s.Inv) (hp : s.phase ≠ .faulted)
    (ho : owner i = .metadata) (e : exec i s = .next t) : t.phase ≠ .faulted ∨ ∃ d, ∃ u : State, t = u.takeFault d := by
  obtain ⟨m, em, hk⟩ := exec_metadata_running ho s
  rw [em] at e
  rcases runUnit_keeps hk (hs.halted_eq_false hp) hs.readerOk ⟨hs.mdOk, hp⟩ with
    ⟨u, eu, _, _, _, _, _, hphase⟩ | ⟨d, u, eu, _⟩
  · rw [eu] at e; cases e
    exact .inl hphase
  · rw [eu] at e; cases e
    exact .inr ⟨d, u, rfl⟩

/-- An element that is no metadata row may not write `PHASE` (R328), so it enters `Faulted` by R320 alone. -/
theorem element_unfaulted_or_takeFault {i : Instr} (hs : s.Inv) (hp : s.phase ≠ .faulted)
    (hc : isCommand i = false) (e : exec i s = .next t) : t.phase ≠ .faulted ∨ ∃ d, ∃ u : State, t = u.takeFault d := by
  by_cases ho : owner i = .metadata
  · exact metadata_unfaulted_or_takeFault hs hp ho e
  have hhost : owner i ≠ .host := by simpa [isCommand] using hc
  rcases element_next hs.readerOk hs.mdOk hc e with ⟨u, v, eu, _, _, _, hb⟩ | ⟨d, u, eu, _⟩
  · cases eu
    have hcontrol : u.control = s.control := by
      rw [← Owner.blank_control ho hhost u, hb, Owner.blank_control ho hhost s]
    have hphase : u.phase = s.phase := congrArg Prod.fst hcontrol
    exact .inl (hphase.trans_ne hp)
  · cases eu
    exact .inr ⟨d, u, rfl⟩

theorem State.phase_ne_faulted_of_opened (h : s.opened = true) : s.phase ≠ .faulted := by
  intro hp; simp [State.opened, hp] at h

/-- The one way into `Faulted` is fault entry (R320), for every instruction. -/
theorem exec_unfaulted_or_takeFault {i : Instr} (hs : s.Inv) (hp : s.phase ≠ .faulted)
    (e : exec i s = .next t) : t.phase ≠ .faulted ∨ ∃ d, ∃ u : State, t = u.takeFault d := by
  cases hc : isCommand i with
  | false => exact element_unfaulted_or_takeFault hs hp hc e
  | true =>
    by_cases hi : i = .resetCmd
    · rw [hi] at e; cases e
      exact .inl nofun
    have ha := command_answers hs hc hi
    rw [e] at ha
    cases ha with
    | refused => exact .inl hp
    | completed _ h => exact .inl (State.phase_ne_faulted_of_opened h.opened)
    | fault d => exact .inr ⟨d, _, rfl⟩

end Sys2Proof.Machine
end

section
/-! Proofs of the statements about what an element may write and how a fault is entered (spec/60_exceptions.md). -/

namespace Sys2Proof.Machine

open Sys2Proof

/-- No unit's frame speaks of the returned value (log entry 4). -/
@[simp] theorem Owner.blank_setRet (o : Owner) (s : State) (v : Ret) : o.blank (s.setRet v) = o.blank s := by
  cases o with
  | reader | metadata | header | channels | subframe | residual | host => rfl

/-- The eleven faults have the codes 1 to 11 (R301). -/
theorem DecodeFault.code_mem_Icc (d : DecodeFault) : d.code ∈ Set.Icc 1 11 := by
  cases d <;> simp [DecodeFault.code]

/-- Settles O57: it is what every row keeps, but for the returned value. -/
theorem elementsWriteOnlyTheirOwnRegisters : Obligations.ElementsWriteOnlyTheirOwnRegisters := by
  intro i s t hs hc e
  rcases element_next hs.readerOk hs.mdOk hc e with ⟨u, v, eu, _, _, _, hb⟩ | ⟨d, u, eu, _, hb⟩
  · cases eu
    exact .inl ((Owner.blank_setRet _ u v).trans hb)
  · cases eu
    exact .inr ⟨d, u, rfl, hb⟩

/-- Settles O60: the one way into `Faulted` is fault entry, which latches its fault. -/
theorem everyFaultIsEnteredAlike : Obligations.EveryFaultIsEnteredAlike := by
  intro i s t hs hp e hfaulted
  rcases exec_unfaulted_or_takeFault hs hp e with hne | ⟨d, u, rfl⟩
  · exact absurd hfaulted hne
  · obtain ⟨hmin, hmax⟩ := d.code_mem_Icc
    exact ⟨d, rfl, hmin, hmax, rfl, rfl⟩

end Sys2Proof.Machine
end

section
/-! Proof of the statement that an element never stops (spec/70_reset_and_hazards.md R351; R300). -/

namespace Sys2Proof.Machine

open Sys2Proof

/-- What a row answers is a next state: it completes, enters a fault or, after a fault, is refused. -/
theorem RowKeeps.exists_next {o : Owner} {s : State} {r : Host.Outcome State Fault Refusal}
    (h : RowKeeps o s r) : ∃ t, r = .next t := by
  rcases h with ⟨t, v, e, _⟩ | ⟨d, t, e, _⟩
  · exact ⟨t.setRet v, e⟩
  · exact ⟨t.takeFault d, e⟩

/-- Settles O56: the reader and the count of records, as R51 has them, are all that a row needs. -/
theorem elementsAnswerANextState : Obligations.ElementsAnswerANextState := by
  intro i s hs hc hi hv
  exact (exec_keeps hs.readerOk hs.mdOk hc hv hi).exists_next

end Sys2Proof.Machine
end
